-- ==== Sys2Proof/Word.lean ====
section
/-! DEFINITION. The word types of the PDA (00_scope R9): 32-bit words of the port and the registers, bytes of the
buffers, and the 23-bit byte offsets of the aperture (20_memory R100). -/

namespace Sys2Proof

/-- A 32-bit word: a command word, a register as the port sees it, an element of a word window. -/
abbrev Word := BitVec 32

/-- A byte of a buffer; also an element of GF(256) (00_scope R11). -/
abbrev Byte := BitVec 8

/-- A byte offset inside the 8 MiB aperture (20_memory R100). -/
abbrev Offset := BitVec 23

end Sys2Proof
end

