-- ==== Sys2Proof/Syntax.lean ====
section
/-! DEFINITION. The PDA's commands, one constructor per row of spec/opcode_table.json (30_encoding R142), and what
arrives at its ports: host accesses, idle cycles and the power-on reset (20_memory R100, 70_reset R513). -/

namespace Sys2Proof

/-- A command of the opcode map (30_encoding R142). No command has an operand field (30_encoding R143). -/
inductive Instr where
  /-- NOP, 45_control R440 -/
  | nop
  /-- GF_ADD, 40_gf256 R195 -/
  | gfAdd
  /-- GF_MUL, 40_gf256 R196 -/
  | gfMul
  /-- GF_INV, 40_gf256 R197 -/
  | gfInv
  /-- GF_EXP, 40_gf256 R198 -/
  | gfExp
  /-- GF_LOG, 40_gf256 R199 -/
  | gfLog
  /-- RS_SYNDROME, 41_reed_solomon R225 -/
  | rsSyndrome
  /-- RS_DECODE, 41_reed_solomon R230 -/
  | rsDecode
  /-- SLD_CHECK, 41_reed_solomon R245 -/
  | sldCheck
  /-- BIN_ROW, 42_binarizer R285 -/
  | binRow
  /-- BIN_GLOBAL, 42_binarizer R290 -/
  | binGlobal
  /-- BIN_HYBRID, 42_binarizer R295 -/
  | binHybrid
  /-- PT_SOLVE, 43_perspective R335 -/
  | ptSolve
  /-- PT_MAP, 43_perspective R340 -/
  | ptMap
  /-- PT_SAMPLE, 43_perspective R345 -/
  | ptSample
  /-- DBS_DECODE, 44_bitstream R400 -/
  | dbsDecode
  /-- NUM_B900, 44_bitstream R410 -/
  | numB900
  /-- CW_PIPELINE, 45_control R441 -/
  | cwPipeline
  deriving DecidableEq, Repr

/-- The sizes of a host access (20_memory R100). -/
inductive Size where
  | byte
  | half
  | word
  deriving DecidableEq, Repr

/-- The size in bytes. -/
def Size.bytes : Size → Nat
  | .byte => 1
  | .half => 2
  | .word => 4

/-- A host access at a byte offset of the aperture (20_memory R100): `MemRead(off, n)` or `MemWrite(off, n, v)`. A
write of fewer than four bytes carries its value in the low bits. -/
inductive Access where
  | read (off : Offset) (size : Size)
  | write (off : Offset) (size : Size) (v : Word)
  deriving DecidableEq, Repr

/-- What arrives at the PDA in one step (70_reset R513). -/
inductive Input where
  /-- one host access at the slave port -/
  | access (a : Access)
  /-- no access arrives -/
  | idle
  /-- `rst_n` is low: a power-on reset (70_reset R490) -/
  | rstLow
  deriving DecidableEq, Repr

end Sys2Proof
end

