-- ==== Sys2Proof/Config.lean ====
section
/-! DEFINITION. What an implementation of the PDA fixes: the parameters of 00_scope R7, each at this hardware's value,
the open parameters of 91_not_in_source section 12, and the free values (93_implementation_defined I8, I8a). A free
value is an `opaque` constant without a body: nothing can be proved of it. -/

namespace Sys2Proof

/-- The columns that BIN_GLOBAL counts in a sampled row (00_scope R7 `HIST_SPAN`, 42_binarizer R290). -/
inductive HistSpan where
  /-- the whole row -/
  | full
  /-- the middle part, `floor(W/5)` to `floor(4W/5) - 1`; not this hardware -/
  | mid
  deriving DecidableEq, Repr

/-- The text sub-modes (44_bitstream R373). -/
inductive SubMode where
  | alpha
  | lower
  | mixed
  | punct
  deriving DecidableEq, Repr

/-- A pending single shift of Text Compaction (44_bitstream R373). -/
inductive Shift where
  | none
  | ps
  | as
  deriving DecidableEq, Repr

/-- An entry of a text sub-mode table: a character, a latch to a sub-mode or a single shift (44_bitstream R378). -/
inductive TextEntry where
  | char (b : Byte)
  | to (sub : SubMode)
  | shift (s : Shift)
  deriving DecidableEq, Repr

namespace Config

/-- ID register, "PDA1" (10_state R34). -/
def idWord : Word := 0x50444131
/-- VERSION register, 1.0 (10_state R34). -/
def versionWord : Word := 0x00010000

/-- `APERTURE_BYTES` (00_scope R7). -/
def apertureBytes : Nat := 0x800000
/-- `BUS_WIDTH` (00_scope R7): the bits of a full-width access. -/
def busWidth : Nat := 32
/-- `PRIM_POLY` (00_scope R7): x^8 + x^4 + x^3 + x^2 + 1. -/
def primPoly : Nat := 0x11D
/-- `GF_ALPHA` (00_scope R7). -/
def gfAlpha : Nat := 2
/-- `RS_FCR` (00_scope R7): the power of alpha of the first syndrome. -/
def rsFcr : Nat := 0
/-- `MAX_ERRORS` (00_scope R7). -/
def maxErrors : Nat := 3
/-- `MAX_EC` (00_scope R7). -/
def maxEc : Nat := 512
/-- `CW_MAX` (00_scope R7). -/
def cwMax : Nat := 1024
/-- `ERA_MAX` (00_scope R7). -/
def eraMax : Nat := 1024
/-- `SYN_MAX` (00_scope R7). -/
def synMax : Nat := 512
/-- `ELOC_MAX` (00_scope R7). -/
def elocMax : Nat := 256
/-- `POLY_MAX` (00_scope R7). -/
def polyMax : Nat := 512
/-- `OUT_MAX` (00_scope R7). -/
def outMax : Nat := 4096
/-- `IMG_MAX_W` (00_scope R7). -/
def imgMaxW : Nat := 2048
/-- `IMG_MAX_H` (00_scope R7). -/
def imgMaxH : Nat := 2048
/-- `ROW_MAX` = `IMG_MAX_W` (00_scope R7): the bits of the ROW buffer. -/
def rowMax : Nat := imgMaxW
/-- `GRID_MAX_DIM` (00_scope R7). -/
def gridMaxDim : Nat := 1024
/-- `HIST_BUCKETS` (00_scope R7). -/
def histBuckets : Nat := 32
/-- `LUM_SHIFT` (00_scope R7, 90_conflicts C2). -/
def lumShift : Nat := 3
/-- `HIST_MIN_SEP` = `HIST_BUCKETS/16` (00_scope R7). -/
def histMinSep : Nat := histBuckets / 16
/-- `HIST_SEP_INCLUSIVE` (00_scope R7). -/
def histSepInclusive : Bool := false
/-- `HIST_SPAN` (00_scope R7). -/
def histSpan : HistSpan := .full
/-- `HYB_MIN_DIM` (00_scope R7). -/
def hybMinDim : Nat := 40
/-- `HYB_BLOCK` (00_scope R7). -/
def hybBlock : Nat := 8
/-- `HYB_NEIGH` (00_scope R7): a 5x5 neighbourhood. -/
def hybNeigh : Nat := 5
/-- `HYB_MIN_RANGE` (00_scope R7). -/
def hybMinRange : Nat := 24
/-- `NUM_GROUP_MAX` (00_scope R7). -/
def numGroupMax : Nat := 15
/-- `BYTE_GROUP` (00_scope R7): five codewords give six bytes. -/
def byteGroup : Nat := 5
/-- `SLD_MIN_LEN` (00_scope R7). -/
def sldMinLen : Nat := 4
/-- `CW_VALUE_MAX` (00_scope R7). -/
def cwValueMax : Nat := 928

/-- The mode codeword of the Text Compaction latch (00_scope R7, 44_bitstream R372). -/
def textLatch : Nat := 900
/-- The mode codeword of the Byte Compaction latch in the source's 5-codeword variant (00_scope R7, 44_bitstream R372). -/
def byteLatch : Nat := 901
/-- The mode codeword of the Byte Compaction latch in the source's 6-codeword variant (00_scope R7, 44_bitstream R372). -/
def byteLatchSix : Nat := 924
/-- The mode codeword of the Numeric Compaction latch (00_scope R7, 44_bitstream R372). -/
def numericLatch : Nat := 902
/-- The mode codeword of the shift to one byte (00_scope R7, 44_bitstream R372). -/
def byteShift : Nat := 913

/-- The sub-mode table ALPHA (00_scope R7, 44_bitstream R378): A to Z, space, LL, ML, PS. -/
def alphaTable : List TextEntry :=
  ([0x41, 0x42, 0x43, 0x44, 0x45, 0x46, 0x47, 0x48, 0x49, 0x4A,
    0x4B, 0x4C, 0x4D, 0x4E, 0x4F, 0x50, 0x51, 0x52, 0x53, 0x54,
    0x55, 0x56, 0x57, 0x58, 0x59, 0x5A, 0x20] : List Byte).map .char ++ [.to .lower, .to .mixed, .shift .ps]

/-- The sub-mode table LOWER (00_scope R7, 44_bitstream R378): a to z, space, AS, ML, PS. -/
def lowerTable : List TextEntry :=
  ([0x61, 0x62, 0x63, 0x64, 0x65, 0x66, 0x67, 0x68, 0x69, 0x6A,
    0x6B, 0x6C, 0x6D, 0x6E, 0x6F, 0x70, 0x71, 0x72, 0x73, 0x74,
    0x75, 0x76, 0x77, 0x78, 0x79, 0x7A, 0x20] : List Byte).map .char ++ [.shift .as, .to .mixed, .shift .ps]

/-- The sub-mode table MIXED (00_scope R7, 44_bitstream R378): 25 characters, PL, space, LL, AL, PS. -/
def mixedTable : List TextEntry :=
  ([0x30, 0x31, 0x32, 0x33, 0x34, 0x35, 0x36, 0x37, 0x38, 0x39,
    0x26, 0x0D, 0x09, 0x2C, 0x3A, 0x23, 0x2D, 0x2E, 0x24, 0x2F,
    0x2B, 0x25, 0x2A, 0x3D, 0x5E] : List Byte).map .char ++
    [.to .punct, .char 0x20, .to .lower, .to .alpha, .shift .ps]

/-- The sub-mode table PUNCT (00_scope R7, 44_bitstream R378): 29 characters, AL. -/
def punctTable : List TextEntry :=
  ([0x3B, 0x3C, 0x3E, 0x40, 0x5B, 0x5C, 0x5D, 0x5F, 0x60, 0x7E,
    0x21, 0x0D, 0x09, 0x2C, 0x3A, 0x0A, 0x2D, 0x2E, 0x24, 0x2F,
    0x22, 0x7C, 0x2A, 0x28, 0x29, 0x3F, 0x7B, 0x7D, 0x27] : List Byte).map .char ++ [.to .alpha]

/-- `PDA_BASE`, the platform-chosen base address of the aperture (20_memory R100): open, so without a body. -/
opaque pdaBase : Nat

/-- The value of an UNKNOWN buffer byte (93_implementation_defined I8, 70_reset R494): of the event that made it
UNKNOWN (0 is power-on at the start) and of its byte offset. It stays the same until the byte is written. -/
opaque unknownByte : Nat → Nat → Byte

/-- What a host read of a location that the running command writes returns (93_implementation_defined I8a, 20_memory
R111): drawn afresh, so a function of the number of the draw. -/
opaque busyRead : Nat → Word

end Config
end Sys2Proof
end

