-- ==== Sys2Proof/WellFormed.lean ====
section
/-! DEFINITION. Well-formedness: of a command (always, since it has no field), of a command word (30_encoding R141,
R142) and of a host access (20_memory R105, natural alignment). -/

namespace Sys2Proof

/-- A command has no operand field that could be ill-formed (30_encoding R143, R144). -/
def Instr.wellFormed : Instr → Bool := fun _ => true

/-- The OPCODE values of the opcode map, in its order (30_encoding R142). -/
def assignedOpcodes : List Nat :=
  [0x00, 0x01, 0x02, 0x03, 0x04, 0x05, 0x10, 0x11, 0x12, 0x20, 0x21, 0x22, 0x30, 0x31, 0x32, 0x40, 0x41, 0x50]

/-- A command word that names a command: RSVD is 0 and OPCODE is assigned (30_encoding R141, R142). -/
def wellFormedWord (w : Word) : Bool :=
  w.toNat / 256 == 0 && assignedOpcodes.contains (w.toNat % 256)

/-- The offset of an access. -/
def Access.off : Access → Offset
  | .read off _ => off
  | .write off _ _ => off

/-- The size of an access. -/
def Access.size : Access → Size
  | .read _ size => size
  | .write _ size _ => size

/-- An access is naturally aligned (20_memory R105). -/
def Access.aligned (a : Access) : Bool :=
  a.off.toNat % a.size.bytes == 0

end Sys2Proof
end

