-- ==== Sys2Proof/Decode.lean ====
section
/-! DEFINITION. Decoding of command words, total on all 32-bit words, and the encoder (30_encoding R140 to R144). -/

namespace Sys2Proof

/-- Why a word is no command (30_encoding R141, R142). -/
inductive IllegalWord where
  /-- CMD[31:8] is not 0 (30_encoding R141) -/
  | reservedBits
  /-- OPCODE is in no row of the map (30_encoding R142) -/
  | reservedOpcode
  deriving DecidableEq, Repr

/-- What a command word decodes to. -/
inductive Decoded where
  | command (i : Instr)
  | illegal (r : IllegalWord)
  deriving DecidableEq, Repr

/-- OPCODE, bits [7:0] of a command word (30_encoding R141). -/
def opcodeField (w : Word) : Nat := w.toNat % 256

/-- RSVD, bits [31:8] of a command word (30_encoding R141). -/
def rsvdField (w : Word) : Nat := w.toNat / 256

/-- The opcode map (30_encoding R142). -/
def commandOfOpcode : Nat → Option Instr
  | 0x00 => some .nop
  | 0x01 => some .gfAdd
  | 0x02 => some .gfMul
  | 0x03 => some .gfInv
  | 0x04 => some .gfExp
  | 0x05 => some .gfLog
  | 0x10 => some .rsSyndrome
  | 0x11 => some .rsDecode
  | 0x12 => some .sldCheck
  | 0x20 => some .binRow
  | 0x21 => some .binGlobal
  | 0x22 => some .binHybrid
  | 0x30 => some .ptSolve
  | 0x31 => some .ptMap
  | 0x32 => some .ptSample
  | 0x40 => some .dbsDecode
  | 0x41 => some .numB900
  | 0x50 => some .cwPipeline
  | _ => none

/-- The decoder of 30_encoding R142: the RSVD check precedes the opcode check. -/
def decode (w : Word) : Decoded :=
  if rsvdField w ≠ 0 then .illegal .reservedBits
  else
    match commandOfOpcode (opcodeField w) with
    | some i => .command i
    | none => .illegal .reservedOpcode

/-- The detail code of a word that is no command (30_encoding R141, R142). -/
def IllegalWord.detail : IllegalWord → Byte
  | .reservedBits => 0x71
  | .reservedOpcode => 0x70

/-- The instruction the decoder reads from a row's word `w` of `nbits` bits; the bits above are 0. A command word is
one 32-bit word, written whole to CMD (30_encoding R140, R144); a number of more than 32 bits is no command word. -/
def decodeTableWord (nbits w : Nat) : Option Instr :=
  let low := w % 2 ^ nbits
  if low < 2 ^ 32 then
    match decode (BitVec.ofNat 32 low) with
    | .command i => some i
    | .illegal _ => none
  else none

/-- The command word of a command (30_encoding R142). -/
def encode : Instr → Word
  | .nop => 0x00000000
  | .gfAdd => 0x00000001
  | .gfMul => 0x00000002
  | .gfInv => 0x00000003
  | .gfExp => 0x00000004
  | .gfLog => 0x00000005
  | .rsSyndrome => 0x00000010
  | .rsDecode => 0x00000011
  | .sldCheck => 0x00000012
  | .binRow => 0x00000020
  | .binGlobal => 0x00000021
  | .binHybrid => 0x00000022
  | .ptSolve => 0x00000030
  | .ptMap => 0x00000031
  | .ptSample => 0x00000032
  | .dbsDecode => 0x00000040
  | .numB900 => 0x00000041
  | .cwPipeline => 0x00000050

end Sys2Proof
end

