-- ==== Sys2Proof/Machine/State.lean ====
section
/-! DEFINITION. The state of the PDA as plain data (10_state): the registers of rule R34, the buffers of rule R38 as
one memory of the aperture, the engine of rule R41, and the model's own fields for what arrives at the ports. -/

namespace Sys2Proof.Machine

/-- STATUS.ERRCODE (60_exceptions R450). Values 6 to 15 are never produced and do not exist here. -/
inductive ErrCode where
  | ok
  | notFound
  | format
  | checksum
  | argument
  | illegal
  deriving DecidableEq, Repr

/-- Four corner points as raw binary32 patterns: IMG_X0 to IMG_Y3 or GRD_X0 to GRD_Y3 (10_state R34, R37). -/
structure Quad where
  x0 : Word
  y0 : Word
  x1 : Word
  y1 : Word
  x2 : Word
  y2 : Word
  x3 : Word
  y3 : Word
  deriving DecidableEq, Repr

/-- The nine transform coefficients T_A11 to T_A33 as raw binary32 patterns, in register order (43_perspective R321). -/
structure Transform where
  a11 : Word
  a21 : Word
  a31 : Word
  a12 : Word
  a22 : Word
  a32 : Word
  a13 : Word
  a23 : Word
  a33 : Word
  deriving DecidableEq, Repr

/-- The registers that hold something (10_state R34), each with the width of its fields. STATUS.BUSY is the engine's
state (10_state R41); ID, VERSION and GF_PRIM are constants; CTRL stores nothing. -/
structure Regs where
  /-- CMD, the last command word accepted -/
  cmd : Word
  /-- STATUS.DONE -/
  done : Bool
  /-- STATUS.ERR -/
  err : Bool
  /-- STATUS.WERR -/
  werr : Bool
  /-- STATUS.ERRCODE -/
  errcode : ErrCode
  /-- IRQ_EN.DONE_IE -/
  doneIe : Bool
  /-- IRQ_EN.ERR_IE -/
  errIe : Bool
  /-- ERRINFO.DETAIL -/
  detail : BitVec 8
  /-- ERRINFO.INDEX -/
  index : BitVec 16
  /-- GF_A -/
  gfA : BitVec 8
  /-- GF_B -/
  gfB : BitVec 8
  /-- GF_R -/
  gfR : BitVec 8
  /-- RS_FLAGS.SYN_NZ -/
  synNz : Bool
  /-- CW_LEN -/
  cwLen : BitVec 11
  /-- NEC -/
  nec : BitVec 11
  /-- ERA_CNT -/
  eraCnt : BitVec 11
  /-- RS_NERR -/
  rsNerr : BitVec 9
  /-- RS_DEG -/
  rsDeg : BitVec 9
  /-- OUT_LEN -/
  outLen : BitVec 13
  /-- IMG_W -/
  imgW : BitVec 12
  /-- IMG_H -/
  imgH : BitVec 12
  /-- ROW_Y -/
  rowY : BitVec 12
  /-- BLACKPT -/
  blackPt : BitVec 8
  /-- BIN_USED: false is the global strategy, true the hybrid one -/
  binUsed : Bool
  /-- GRID_DIM -/
  gridDim : BitVec 11
  /-- IMG_X0 to IMG_Y3 -/
  img : Quad
  /-- GRD_X0 to GRD_Y3 -/
  grd : Quad
  /-- T_A11 to T_A33 -/
  t : Transform
  /-- PT_IN_X -/
  ptInX : Word
  /-- PT_IN_Y -/
  ptInY : Word
  /-- PT_OUT_X -/
  ptOutX : Word
  /-- PT_OUT_Y -/
  ptOutY : Word
  deriving DecidableEq, Repr

/-- The engine's command state (10_state R41). `left` is the model's own: how many more steps pass before the
completion step (70_reset R511, the open `CMD_LATENCY`). -/
inductive Engine where
  | idle
  | running (w : Word) (left : Nat)
  deriving DecidableEq, Repr

/-- A range of byte offsets, `lo` to `hi - 1`, that became UNKNOWN at the free draw number `draw`. -/
structure Mark where
  lo : Nat
  hi : Nat
  draw : Nat
  deriving DecidableEq, Repr

/-- What the slave port answers to an access (20_memory R107): an error response carries the data 0; a write without
error is acknowledged with data 0. -/
structure Answer where
  error : Bool
  data : Word
  deriving DecidableEq, Repr

/-- The whole state. -/
structure State where
  /-- the registers of 10_state R34 -/
  regs : Regs
  /-- the buffers of 10_state R38: the bytes whose value is known, by byte offset in the aperture, offsets rising.
  An unlisted byte of a buffer is UNKNOWN. -/
  mem : List Host.Cell
  /-- which unlisted bytes became UNKNOWN after the start, latest first; in no mark: UNKNOWN since power-on -/
  marks : List Mark
  /-- the engine -/
  eng : Engine
  /-- what will arrive at the ports, oldest first -/
  inputs : List Input
  /-- the port's answer to the last access -/
  reply : Option Answer
  /-- the latencies of the commands still to be issued, in order; an exhausted list gives 0 -/
  latencies : List Nat
  /-- the number of free draws made -/
  draws : Nat
  deriving DecidableEq, Repr

/-- Why the machine stops. -/
inductive Fault where
  /-- A host access that the bus answers with an error response: misaligned, of a size its window does not accept, or
  in no window (20_memory R105, R107: "A model treats a bus error as a fault of the host program"). Raised by `step`
  only. Safe: the PDA itself would go on unchanged. -/
  | busError (a : Access)
  deriving DecidableEq, Repr

/-- Why an instruction has no meaning. -/
inductive Refusal where
  /-- An instruction of the table that the model does not cover. No arm answers with it. Safe. -/
  | notModelled (mnemonic : String)
  deriving DecidableEq, Repr

/-- Four corners at +0.0. -/
def Quad.reset : Quad where
  x0 := 0
  y0 := 0
  x1 := 0
  y1 := 0
  x2 := 0
  y2 := 0
  x3 := 0
  y3 := 0

/-- A transform of zeros. -/
def Transform.reset : Transform where
  a11 := 0
  a21 := 0
  a31 := 0
  a12 := 0
  a22 := 0
  a32 := 0
  a13 := 0
  a23 := 0
  a33 := 0

/-- The reset column of 10_state R34, for both reset kinds (10_state R46). -/
def Regs.reset : Regs where
  cmd := 0
  done := false
  err := false
  werr := false
  errcode := .ok
  doneIe := false
  errIe := false
  detail := 0
  index := 0
  gfA := 0
  gfB := 0
  gfR := 0
  synNz := false
  cwLen := 0
  nec := 0
  eraCnt := 0
  rsNerr := 0
  rsDeg := 0
  outLen := 0
  imgW := 0
  imgH := 0
  rowY := 0
  blackPt := 0
  binUsed := false
  gridDim := 0
  img := .reset
  grd := .reset
  t := .reset
  ptInX := 0
  ptInY := 0
  ptOutX := 0
  ptOutY := 0

/-- The machine right after power-on reset (70_reset R491, R494): registers at their reset values, every buffer
UNKNOWN (nothing listed), the engine IDLE. The remaining fields are the model's own (DESIGN CHOICE, log 1, 2, 4). -/
def State.reset : State where
  regs := .reset
  mem := []
  marks := []
  eng := .idle
  inputs := []
  reply := none
  latencies := []
  draws := 0

end Sys2Proof.Machine
end

