-- ==== Sys2Proof/Machine/Map.lean ====
section
/-! DEFINITION. The address map: the windows of 20_memory R102 with the element formats of 10_state R38, and the
offsets and access types of the registers of 10_state R34. -/

namespace Sys2Proof.Machine

/-- A window of the aperture (20_memory R102). -/
inductive Window where
  | registers
  | row
  | hist
  | cw
  | era
  | syn
  | eloc
  | sigma
  | omega
  | out
  | grid
  | bm
  | lum
  deriving DecidableEq, Repr

/-- The windows in the order of 20_memory R102. -/
def Window.all : List Window :=
  [.registers, .row, .hist, .cw, .era, .syn, .eloc, .sigma, .omega, .out, .grid, .bm, .lum]

/-- The first byte offset of a window (20_memory R102). -/
def Window.base : Window → Nat
  | .registers => 0x000000
  | .row => 0x000800
  | .hist => 0x000900
  | .cw => 0x001000
  | .era => 0x002000
  | .syn => 0x003000
  | .eloc => 0x003800
  | .sigma => 0x004000
  | .omega => 0x004800
  | .out => 0x005000
  | .grid => 0x080000
  | .bm => 0x100000
  | .lum => 0x400000

/-- The size of a window in bytes (20_memory R102), from the sizes of the buffers (00_scope R7, 10_state R38). -/
def Window.size : Window → Nat
  | .registers => 0x100
  | .row => Config.rowMax / 8
  | .hist => 4 * Config.histBuckets
  | .cw => 4 * Config.cwMax
  | .era => 4 * Config.eraMax
  | .syn => 4 * Config.synMax
  | .eloc => 4 * Config.elocMax
  | .sigma => 4 * Config.polyMax
  | .omega => 4 * Config.polyMax
  | .out => Config.outMax
  | .grid => Config.gridMaxDim * Config.gridMaxDim / 8
  | .bm => Config.imgMaxW * Config.imgMaxH / 8
  | .lum => Config.imgMaxW * Config.imgMaxH

/-- The byte windows accept accesses of 1, 2 and 4 bytes; every other window accepts 4 only (20_memory R102). -/
def Window.byteWide : Window → Bool
  | .out => true
  | .lum => true
  | _ => false

/-- The buffer windows that the host may write (20_memory R102); the registers have their own access types. -/
def Window.hostWritable : Window → Bool
  | .cw => true
  | .era => true
  | .bm => true
  | .lum => true
  | _ => false

/-- How many bytes of each aligned four hold something: the defined bits of an element (10_state R38). The others read
0 and are not stored (20_memory R106). The registers are not bytes of a buffer. -/
def Window.definedBytes : Window → Nat
  | .registers => 0
  | .cw => 2
  | .era => 2
  | .syn => 1
  | .sigma => 1
  | .omega => 1
  | .eloc => 3
  | _ => 4

/-- A byte offset lies in a window. -/
def Window.contains (w : Window) (a : Nat) : Bool :=
  decide (w.base ≤ a) && decide (a < w.base + w.size)

/-- The window an offset lies in; none where the aperture is unmapped (20_memory R102). -/
def windowAt (a : Nat) : Option Window :=
  Window.all.find? (fun w => w.contains a)

/-- An offset at which a buffer holds a byte. -/
def storedByte (a : Nat) : Bool :=
  match windowAt a with
  | some w => decide (a % 4 < w.definedBytes)
  | none => false

/-- The registers that have an offset of their own (10_state R34). -/
inductive RegName where
  | id
  | version
  | cmd
  | status
  | irqEn
  | errInfo
  | ctrl
  | gfPrim
  | gfA
  | gfB
  | gfR
  | rsFlags
  | cwLen
  | nec
  | eraCnt
  | rsNerr
  | rsDeg
  | outLen
  | imgW
  | imgH
  | rowY
  | blackPt
  | binUsed
  | gridDim
  | imgX0
  | imgY0
  | imgX1
  | imgY1
  | imgX2
  | imgY2
  | imgX3
  | imgY3
  | grdX0
  | grdY0
  | grdX1
  | grdY1
  | grdX2
  | grdY2
  | grdX3
  | grdY3
  | tA11
  | tA21
  | tA31
  | tA12
  | tA22
  | tA32
  | tA13
  | tA23
  | tA33
  | ptInX
  | ptInY
  | ptOutX
  | ptOutY
  deriving DecidableEq, Repr

/-- The registers in the order of their offsets: register number k lies at offset 4*k (10_state R34). -/
def RegName.all : List RegName :=
  [.id, .version, .cmd, .status, .irqEn, .errInfo, .ctrl, .gfPrim,
   .gfA, .gfB, .gfR, .rsFlags, .cwLen, .nec, .eraCnt, .rsNerr,
   .rsDeg, .outLen, .imgW, .imgH, .rowY, .blackPt, .binUsed, .gridDim,
   .imgX0, .imgY0, .imgX1, .imgY1, .imgX2, .imgY2, .imgX3, .imgY3,
   .grdX0, .grdY0, .grdX1, .grdY1, .grdX2, .grdY2, .grdX3, .grdY3,
   .tA11, .tA21, .tA31, .tA12, .tA22, .tA32, .tA13, .tA23,
   .tA33, .ptInX, .ptInY, .ptOutX, .ptOutY]

/-- The register at an aligned offset of the register window; none at the reserved offsets 0x0D4 to 0x0FC. -/
def regAt (off : Nat) : Option RegName := RegName.all[off / 4]?

/-- The access types of 10_state R34: what a host write does. -/
inductive WriteKind where
  /-- RO: ignored -/
  | readOnly
  /-- RW: stores; dropped while BUSY (70_reset R505) -/
  | readWrite
  /-- CMD: issues; dropped while BUSY -/
  | issue
  /-- STATUS, IRQ_EN, CTRL: performed whether BUSY or not (70_reset R505) -/
  | control
  deriving DecidableEq, Repr

/-- The access type of a register (10_state R34, 70_reset R505). -/
def RegName.writeKind : RegName → WriteKind
  | .cmd => .issue
  | .status => .control
  | .irqEn => .control
  | .ctrl => .control
  | .id => .readOnly
  | .version => .readOnly
  | .errInfo => .readOnly
  | .gfPrim => .readOnly
  | .gfR => .readOnly
  | .rsFlags => .readOnly
  | .rsNerr => .readOnly
  | .rsDeg => .readOnly
  | .outLen => .readOnly
  | .blackPt => .readOnly
  | .binUsed => .readOnly
  | .ptOutX => .readOnly
  | .ptOutY => .readOnly
  | _ => .readWrite

end Sys2Proof.Machine
end

