-- ==== Sys2Proof/Machine/Ops.lean ====
section
/-! DEFINITION. The shared operations: the bytes of the buffers (10_state R38, 20_memory R104, R106), the locations
that become UNKNOWN (93_implementation_defined I8), the issue of a command (30_encoding R140), its completion step,
which is the PDA's whole error entry (60_exceptions R455), and the host's acknowledgement (60_exceptions R456). -/

namespace Sys2Proof.Machine

/-! ## Bytes -/

/-- Byte j of a word, byte 0 least significant (20_memory R104). -/
def byteOf (w : Word) (j : Nat) : Byte := w.extractLsb' (8 * j) 8

/-- Four bytes as a word, the first least significant (20_memory R104). -/
def wordOf (b0 b1 b2 b3 : Byte) : Word := b3 ++ b2 ++ b1 ++ b0

/-- Two bytes as a 16-bit value, the first least significant (20_memory R104). -/
def halfOf (b0 b1 : Byte) : BitVec 16 := b1 ++ b0

/-! ## The memory: a list of known bytes by rising offset -/

/-- The known byte at an offset. -/
def memLookup : List Host.Cell → Nat → Option Byte
  | [], _ => none
  | c :: cs, a => if c.1 = a then some c.2 else memLookup cs a

/-- Replace everything the memory lists from `lo` to `hi - 1` by `cells`. -/
def spliceMem (lo hi : Nat) (cells mem : List Host.Cell) : List Host.Cell :=
  mem.filter (fun c => decide (c.1 < lo)) ++ cells ++ mem.filter (fun c => decide (hi ≤ c.1))

/-- The canonical form of the memory: offsets strictly rising, each one that a buffer holds a byte at. -/
abbrev Memory.wf (mem : List Host.Cell) : Prop :=
  mem.Pairwise (fun c d => c.1 < d.1) ∧ ∀ c ∈ mem, storedByte c.1 = true

/-- The draw that made an unlisted offset UNKNOWN: that of the latest mark on it, or 0, power-on at the start. -/
def drawAt : List Mark → Nat → Nat
  | [], _ => 0
  | m :: ms, a => if m.lo ≤ a ∧ a < m.hi then m.draw else drawAt ms a

/-- What an unlisted byte of a buffer reads as: UNKNOWN, the same value every time until it is written
(70_reset R494). -/
def unlistedByte (s : State) (a : Nat) : Byte := Config.unknownByte (drawAt s.marks a) a

/-- The byte at an offset: that of the buffer there, or 0 where no buffer holds one (20_memory R106). -/
def readByte (s : State) (a : Nat) : Byte :=
  if storedByte a then (memLookup s.mem a).getD (unlistedByte s a) else 0

/-- The word at an offset (20_memory R104). -/
def readWord (s : State) (a : Nat) : Word :=
  wordOf (readByte s a) (readByte s (a + 1)) (readByte s (a + 2)) (readByte s (a + 3))

/-- Store `cells` in place of the range from `lo` to `hi - 1`. -/
def writeCells (s : State) (lo hi : Nat) (cells : List Host.Cell) : State :=
  { s with mem := spliceMem lo hi cells s.mem }

/-- The bytes from `lo` to `hi - 1` become UNKNOWN, each a fresh arbitrary value (93_implementation_defined I8). -/
def forget (s : State) (lo hi : Nat) : State :=
  { s with
    mem := spliceMem lo hi [] s.mem
    marks := { lo := lo, hi := hi, draw := s.draws + 1 } :: s.marks
    draws := s.draws + 1 }

/-- A whole buffer becomes UNKNOWN. -/
def forgetWindow (s : State) (w : Window) : State := forget s w.base (w.base + w.size)

/-- The cells of consecutive bytes from an offset. -/
def byteCells : Nat → List Byte → List Host.Cell
  | _, [] => []
  | a, b :: bs => (a, b) :: byteCells (a + 1) bs

/-- Store consecutive bytes from an offset. -/
def storeBytes (s : State) (a : Nat) (bytes : List Byte) : State :=
  writeCells s a (a + bytes.length) (byteCells a bytes)

/-- The cells of consecutive word elements from an offset, of which the low `k` bytes are defined. -/
def elemCells (k : Nat) : Nat → List Word → List Host.Cell
  | _, [] => []
  | a, e :: es => (List.range k).map (fun j => (a + j, byteOf e j)) ++ elemCells k (a + 4) es

/-- Store word elements of a window from its first one on (10_state R38: element i at window offset 4*i). -/
def storeElems (s : State) (w : Window) (elems : List Word) : State :=
  writeCells s w.base (w.base + 4 * elems.length) (elemCells w.definedBytes w.base elems)

/-! ## Commands -/

/-- `raise <ERRCODE>(<DETAIL>, <INDEX>)` (00_scope R10). -/
structure CmdError where
  code : ErrCode
  detail : Byte
  index : BitVec 16
  deriving DecidableEq, Repr

/-- `raise ARGUMENT(detail, index)`. -/
def argumentError (detail : Byte) (index : Nat) : CmdError :=
  { code := .argument, detail := detail, index := BitVec.ofNat 16 index }

/-- `raise NOT_FOUND(detail, index)`. -/
def notFoundError (detail : Byte) (index : Nat) : CmdError :=
  { code := .notFound, detail := detail, index := BitVec.ofNat 16 index }

/-- `raise FORMAT(detail, index)`. -/
def formatError (detail : Byte) (index : Nat) : CmdError :=
  { code := .format, detail := detail, index := BitVec.ofNat 16 index }

/-- `raise CHECKSUM(detail, index)`. -/
def checksumError (detail : Byte) (index : Nat) : CmdError :=
  { code := .checksum, detail := detail, index := BitVec.ofNat 16 index }

/-- What the body of a command did: its result writes, and the error it raised, if any. -/
abbrev BodyResult := State × Option CmdError

/-- The completion step's writes of STATUS and ERRINFO, and the engine back to IDLE: the PDA's whole error entry
(60_exceptions R455). -/
def endCommand (s : State) (e : Option CmdError) : State :=
  { s with
    eng := .idle
    regs :=
      { s.regs with
        done := true
        err := e.any (fun x => decide (x.code ≠ .ok))
        errcode := (e.map CmdError.code).getD .ok
        detail := (e.map CmdError.detail).getD 0
        index := (e.map CmdError.index).getD 0 } }

/-- The completion step of a command whose body is given: always a next state (60_exceptions R457). -/
def finish (r : BodyResult) : Host.Outcome State Fault Refusal := .next (endCommand r.1 r.2)

/-- The completion step of a word that is no command: ILLEGAL and nothing else (30_encoding R141, R142). -/
def execIllegal (r : IllegalWord) (s : State) : Host.Outcome State Fault Refusal :=
  finish (s, some { code := .illegal, detail := r.detail, index := 0 })

/-- The registers after the issue of word `w` (30_encoding R140); WERR stays. -/
def issueRegs (w : Word) (r : Regs) : Regs :=
  { r with cmd := w, done := false, err := false, errcode := .ok, detail := 0, index := 0 }

/-- The issue of a command word that will complete after `left` further steps (30_encoding R140, 70_reset R511). -/
def issueWith (left : Nat) (w : Word) (s : State) : State :=
  { s with eng := .running w left, regs := issueRegs w s.regs }

/-- The issue of a command word: its latency is the next one of `latencies` (70_reset R511). -/
def issue (w : Word) (s : State) : State :=
  issueWith (s.latencies.headD 0) w { s with latencies := s.latencies.tail }

/-- A host write to STATUS: a 1 clears DONE, ERR or WERR, a 0 leaves it; ERRCODE stays (60_exceptions R456,
10_state R32). It is the return from the error entry. -/
def ackStatus (v : Word) (r : Regs) : Regs :=
  { r with
    done := r.done && !v.getLsbD 1
    err := r.err && !v.getLsbD 2
    werr := r.werr && !v.getLsbD 3 }

end Sys2Proof.Machine
end

