-- ==== Sys2Proof/Machine/Operands.lean ====
section
/-! DEFINITION. The operand forms: the elements of the buffers as a command reads them (30_encoding R145 to R150), and
the packing of bit matrices (30_encoding R150). -/

namespace Sys2Proof.Machine

/-- `CW[i]`, bits [15:0] of the word at 0x1000 + 4*i (30_encoding R145). -/
def cwAt (s : State) (i : Nat) : Nat :=
  (halfOf (readByte s (Window.cw.base + 4 * i)) (readByte s (Window.cw.base + 4 * i + 1))).toNat

/-- `CW[0]` to `CW[n-1]`. -/
def cwList (s : State) (n : Nat) : List Nat := (List.range n).map (cwAt s)

/-- `SYN[i]` (30_encoding R146). -/
def synAt (s : State) (i : Nat) : Byte := readByte s (Window.syn.base + 4 * i)

/-- `SIGMA[k]` (30_encoding R146). -/
def sigmaAt (s : State) (k : Nat) : Byte := readByte s (Window.sigma.base + 4 * k)

/-- `OMEGA[k]` (30_encoding R146). -/
def omegaAt (s : State) (k : Nat) : Byte := readByte s (Window.omega.base + 4 * k)

/-- `ELOC[j]` (30_encoding R146). -/
def elocAt (s : State) (j : Nat) : Word := readWord s (Window.eloc.base + 4 * j)

/-- `OUT[i]` (30_encoding R149). -/
def outAt (s : State) (i : Nat) : Byte := readByte s (Window.out.base + i)

/-- `HIST[i]` (10_state R38). -/
def histAt (s : State) (i : Nat) : Word := readWord s (Window.hist.base + 4 * i)

/-- `LUM[i]` (30_encoding R148). -/
def lumAt (s : State) (i : Nat) : Nat := (readByte s (Window.lum.base + i)).toNat

/-- `ceil(w / 32)`, the words of a bit-matrix row (30_encoding R150). -/
def rowSize (w : Nat) : Nat := (w + 31) / 32

/-- Bit x of row y of a bit matrix of width w in a window (30_encoding R150). -/
def matrixBit (s : State) (win : Window) (w x y : Nat) : Bool :=
  (readWord s (win.base + 4 * (y * rowSize w + x / 32))).getLsbD (x % 32)

/-- Word j of a row of width w whose bit x is `bit x`; padding bits are 0 (30_encoding R150). -/
def rowWord (w : Nat) (bit : Nat → Bool) (j : Nat) : Word :=
  (BitVec.ofBoolListLE ((List.range 32).map (fun k => decide (32 * j + k < w) && bit (32 * j + k)))).setWidth 32

/-- The words of a row of width w (30_encoding R150). -/
def rowWords (w : Nat) (bit : Nat → Bool) : List Word := (List.range (rowSize w)).map (rowWord w bit)

/-- The words of a w x h bit matrix, row after row (30_encoding R150). -/
def matrixWords (w h : Nat) (bit : Nat → Nat → Bool) : List Word :=
  (List.range h).flatMap (fun y => rowWords w (fun x => bit x y))

end Sys2Proof.Machine
end

