-- ==== Sys2Proof/Machine/Binarizer.lean ====
section
/-! DEFINITION. The binarizer (42_binarizer): the global histogram and the hybrid local-block strategies. -/

namespace Sys2Proof.Machine

/-! ## Common definitions -/

/-- `lum(x, y)` of a W-wide image (42_binarizer R270). -/
def lumXY (s : State) (w x y : Nat) : Nat := lumAt s (y * w + x)

/-- The size check, the first step of every BIN command (42_binarizer R271). -/
def imageSizeBad (w h : Nat) : Bool :=
  decide (w = 0) || decide (h = 0) || decide (w > Config.imgMaxW) || decide (h > Config.imgMaxH)

/-- The bucket of a sample (42_binarizer R272). -/
def bucketOf (v : Nat) : Nat := v >>> Config.lumShift

/-- The histogram of samples: how many fall in each bucket (42_binarizer R272). -/
def histogram (samples : List Nat) : List Nat :=
  (List.range Config.histBuckets).map (fun b => samples.countP (fun v => bucketOf v == b))

/-- The tallest peak (42_binarizer R273 step 1): its index and its count, the lowest index of a tie. -/
def tallestPeak (hist : List Nat) : Nat × Nat :=
  (List.range Config.histBuckets).foldl
    (fun p x => if hist.getD x 0 > p.2 then (x, hist.getD x 0) else p) (0, 0)

/-- The second peak by count x squared distance (42_binarizer R273 step 2), with its score. -/
def secondPeak (hist : List Nat) (first : Nat) : Nat × Int :=
  (List.range Config.histBuckets).foldl
    (fun (p : Nat × Int) (x : Nat) =>
      let d : Int := (x : Int) - (first : Int)
      let score : Int := (hist.getD x 0 : Int) * d * d
      if score > p.2 then (x, score) else p) (0, 0)

/-- The contrast test on the distance of the peaks (42_binarizer R274). -/
def lowContrast (sep : Nat) : Bool :=
  if Config.histSepInclusive then decide (sep ≤ Config.histMinSep) else decide (sep < Config.histMinSep)

/-- The buckets strictly between the peaks, from `second - 1` down to `first + 1`. -/
def betweenPeaks (first second : Nat) : List Nat :=
  (List.range (second - 1 - first)).map (fun k => second - 1 - k)

/-- The valley between the peaks (42_binarizer R273 step 5), the highest index of a tie. -/
def valley (hist : List Nat) (first second maxCount : Nat) : Nat :=
  ((betweenPeaks first second).foldl
    (fun (p : Nat × Int) (x : Nat) =>
      let f := x - first
      let score : Int := ((f * f * (second - x) * (maxCount - hist.getD x 0) : Nat) : Int)
      if score > p.2 then (x, score) else p) (second - 1, -1)).1

/-- `estimate(hist)`, the black point (42_binarizer R273). -/
def estimate (hist : List Nat) : Except CmdError Nat :=
  let peak := tallestPeak hist
  let other := (secondPeak hist peak.1).1
  let first := min peak.1 other
  let second := max peak.1 other
  if lowContrast (second - first) then .error (notFoundError 0x41 0)
  else .ok (valley hist first second peak.2 <<< Config.lumShift)

/-- HIST[0..31] <- hist. -/
def writeHist (s : State) (hist : List Nat) : State :=
  storeElems s .hist (hist.map (fun c => BitVec.ofNat 32 c))

/-- BLACKPT <- bp. -/
def setBlackPt (s : State) (bp : Nat) : State :=
  { s with regs := { s.regs with blackPt := BitVec.ofNat 8 bp } }

/-- BIN_USED <- the strategy that produced BM. -/
def setBinUsed (s : State) (hybrid : Bool) : State :=
  { s with regs := { s.regs with binUsed := hybrid } }

/-! ## BIN_ROW -/

/-- The sharpening filter at x, an arithmetic shift (42_binarizer R285). -/
def sharpen (s : State) (w x y : Nat) : Int :=
  (4 * (lumXY s w x y : Int) - (lumXY s w (x - 1) y : Int) - (lumXY s w (x + 1) y : Int)) >>> 1

/-- Bit x of the row: dark, and not an end pixel (42_binarizer R285). -/
def rowBit (s : State) (w y bp x : Nat) : Bool :=
  decide (1 ≤ x) && decide (x + 2 ≤ w) && decide (sharpen s w x y < (bp : Int))

/-- The histogram of one row (42_binarizer R285). -/
def rowHistogram (s : State) (w y : Nat) : List Nat :=
  histogram ((List.range w).map (fun x => lumXY s w x y))

/-- BIN_ROW's body (42_binarizer R285). -/
def binRowBody (s : State) : BodyResult :=
  let w := s.regs.imgW.toNat
  let h := s.regs.imgH.toNat
  let y := s.regs.rowY.toNat
  if imageSizeBad w h then (s, some (argumentError 0x40 0))
  else if y ≥ h then (s, some (argumentError 0x42 0))
  else
    let hist := rowHistogram s w y
    match estimate hist with
    | .error e => (writeHist s hist, some e)
    | .ok bp =>
      (setBlackPt (storeElems (writeHist s hist) .row (rowWords w (rowBit s w y bp))) bp, none)

/-! ## BIN_GLOBAL -/

/-- The columns that are counted in a sampled row (42_binarizer R290). -/
def sampledColumns (w : Nat) : List Nat :=
  match Config.histSpan with
  | .full => List.range w
  | .mid => (List.range (4 * w / 5 - w / 5)).map (fun i => w / 5 + i)

/-- The sampled rows, floor(H*k/5) for k = 1 to 4 (42_binarizer R290). -/
def sampledRows (h : Nat) : List Nat := [h * 1 / 5, h * 2 / 5, h * 3 / 5, h * 4 / 5]

/-- The histogram of the four sampled rows (42_binarizer R290). -/
def globalHistogram (s : State) (w h : Nat) : List Nat :=
  histogram ((sampledRows h).flatMap (fun y => (sampledColumns w).map (fun x => lumXY s w x y)))

/-- BIN_GLOBAL's body (42_binarizer R290). -/
def binGlobalBody (s : State) : BodyResult :=
  let w := s.regs.imgW.toNat
  let h := s.regs.imgH.toNat
  if imageSizeBad w h then (s, some (argumentError 0x40 0))
  else
    let hist := globalHistogram s w h
    match estimate hist with
    | .error e => (writeHist s hist, some e)
    | .ok bp =>
      let bits := matrixWords w h (fun x y => decide (lumXY s w x y < bp))
      (setBinUsed (setBlackPt (storeElems (writeHist s hist) .bm bits) bp) false, none)

/-! ## BIN_HYBRID -/

/-- `ceil(D/8)`, the number of blocks along a dimension (42_binarizer R295). -/
def blockCount (d : Nat) : Nat := (d + (Config.hybBlock - 1)) / Config.hybBlock

/-- `off(i, D)`, where block i starts (42_binarizer R296). -/
def blockOff (i d : Nat) : Nat := min (Config.hybBlock * i) (d - Config.hybBlock)

/-- The 64 samples of a block (42_binarizer R296). -/
def blockSamples (s : State) (w h bx yb : Nat) : List Nat :=
  (List.range Config.hybBlock).flatMap (fun j =>
    (List.range Config.hybBlock).map (fun i => lumXY s w (blockOff bx w + i) (blockOff yb h + j)))

/-- The average of a block's samples, or half its minimum where the contrast is low (42_binarizer R295, R297). -/
def blockAverage (samples : List Nat) : Nat :=
  let mn := samples.foldl min 255
  let mx := samples.foldl max 0
  if mx - mn > Config.hybMinRange then samples.sum >>> 6 else mn >>> 1

/-- The block averages, avg[by][bx] (42_binarizer R295). -/
def blockAverages (s : State) (w h : Nat) : List (List Nat) :=
  (List.range (blockCount h)).map (fun yb =>
    (List.range (blockCount w)).map (fun bx => blockAverage (blockSamples s w h bx yb)))

/-- `clamp(v, lo, hi)` (00_scope R9). -/
def clampNat (v lo hi : Nat) : Nat := min (max v lo) hi

/-- The threshold of a block: the mean of the 5x5 neighbourhood, clamped at the edges (42_binarizer R295, R297). -/
def blockThreshold (avg : List (List Nat)) (subW subH bx yb : Nat) : Nat :=
  let r := Config.hybNeigh / 2
  let cx := clampNat bx r (subW - 1 - r)
  let cy := clampNat yb r (subH - 1 - r)
  ((List.range Config.hybNeigh).flatMap (fun dy =>
    (List.range Config.hybNeigh).map (fun dx => (avg.getD (cy + dy - r) []).getD (cx + dx - r) 0))).sum
    / (Config.hybNeigh * Config.hybNeigh)

/-- The thresholds of all blocks, by rows of blocks. -/
def blockThresholds (avg : List (List Nat)) (subW subH : Nat) : List (List Nat) :=
  (List.range subH).map (fun yb => (List.range subW).map (fun bx => blockThreshold avg subW subH bx yb))

/-- The blocks that cover a coordinate of a dimension (42_binarizer R296). -/
def blocksCovering (d v : Nat) : List Nat :=
  (List.range (blockCount d)).filter (fun i =>
    decide (blockOff i d ≤ v) && decide (v < blockOff i d + Config.hybBlock))

/-- A pixel is dark if some block that covers it makes it dark (42_binarizer R296). -/
def hybridBit (s : State) (w h : Nat) (thresholds : List (List Nat)) (x y : Nat) : Bool :=
  (blocksCovering h y).any (fun yb =>
    (blocksCovering w x).any (fun bx => decide (lumXY s w x y < (thresholds.getD yb []).getD bx 0)))

/-- BIN_HYBRID performs BIN_GLOBAL: the size check passes and a dimension is below 40 (42_binarizer R271, R295). -/
def hybridFallsBack (s : State) : Bool :=
  let w := s.regs.imgW.toNat
  let h := s.regs.imgH.toNat
  !imageSizeBad w h && (decide (w < Config.hybMinDim) || decide (h < Config.hybMinDim))

/-- BIN_HYBRID's body (42_binarizer R295). -/
def binHybridBody (s : State) : BodyResult :=
  let w := s.regs.imgW.toNat
  let h := s.regs.imgH.toNat
  if imageSizeBad w h then (s, some (argumentError 0x40 0))
  else if w < Config.hybMinDim ∨ h < Config.hybMinDim then binGlobalBody s
  else
    let thresholds := blockThresholds (blockAverages s w h) (blockCount w) (blockCount h)
    (setBinUsed (storeElems s .bm (matrixWords w h (hybridBit s w h thresholds))) true, none)

/-! ## Meanings -/

/-- BIN_ROW (42_binarizer R285). -/
def execBinRow (s : State) : Host.Outcome State Fault Refusal := finish (binRowBody s)

/-- BIN_GLOBAL (42_binarizer R290). -/
def execBinGlobal (s : State) : Host.Outcome State Fault Refusal := finish (binGlobalBody s)

/-- BIN_HYBRID (42_binarizer R295). -/
def execBinHybrid (s : State) : Host.Outcome State Fault Refusal := finish (binHybridBody s)

end Sys2Proof.Machine
end

