-- ==== Sys2Proof/Machine/Gf.lean ====
section
/-! DEFINITION. The field GF(256) (40_gf256 R180 to R186) and the meanings of the GF commands (R195 to R199). -/

namespace Sys2Proof.Machine

/-- An element of GF(256) (00_scope R11). -/
abbrev Gf := BitVec 8

/-- One step of the exp table's loop: shift left, reduce by the primitive polynomial (40_gf256 R180). -/
def expStep (x : Nat) : Nat :=
  if x <<< 1 ≥ 256 then (x <<< 1) ^^^ Config.primPoly else x <<< 1

/-- The loop of 40_gf256 R180: `n` entries from the value `x` on. -/
def expLoop : Nat → Nat → List Nat
  | 0, _ => []
  | n + 1, x => x :: expLoop n (expStep x)

/-- The exp table, `exp[0..255]` (40_gf256 R180). -/
def expTable : List Nat := expLoop 256 1

/-- A table of bytes as one number, entry i in bits 8*i to 8*i+7: a way to hold a ROM. -/
def packTable : List Nat → Nat
  | [] => 0
  | b :: bs => b + 256 * packTable bs

/-- Entry i of a packed table. -/
def packedEntry (table i : Nat) : Nat := (table >>> (8 * i)) % 256

/-- The exp table packed. -/
def expRom : Nat := packTable expTable

/-- The places of the log table, filled by `log[exp[i]] <- i` from `i` on (40_gf256 R181), packed. -/
def logLoop : List Nat → Nat → Nat
  | [], _ => 0
  | e :: es, i => (i <<< (8 * e)) + logLoop es (i + 1)

/-- The log table, from `exp[0]` to `exp[254]`, packed; entry 0 is never read. -/
def logRom : Nat := logLoop (expTable.take 255) 0

/-- `exp[i]` for i in 0..255 (40_gf256 R185). -/
def gfExp (i : Nat) : Gf := BitVec.ofNat 8 (packedEntry expRom i)

/-- `log[a]`, none for a = 0, where it is undefined (40_gf256 R181, R185). -/
def gfLog (a : Gf) : Option Nat :=
  if a = 0 then none else some (packedEntry logRom a.toNat)

/-- Field addition (40_gf256 R182). -/
def gfAdd (a b : Gf) : Gf := a ^^^ b

/-- Field multiplication (40_gf256 R183). -/
def gfMul (a b : Gf) : Gf :=
  match gfLog a, gfLog b with
  | some i, some j => gfExp ((i + j) % 255)
  | _, _ => 0

/-- Field inverse, none for a = 0 (40_gf256 R184). -/
def gfInv (a : Gf) : Option Gf := (gfLog a).map (fun i => gfExp (255 - i))

/-- Field inverse where the rules have excluded 0. -/
def gfInvNz (a : Gf) : Gf := (gfInv a).getD 0

/-- `alpha_pow(i)` (40_gf256 R186). -/
def alphaPow (i : Nat) : Gf := gfExp (i % 255)

/-- The state with a GF command's result. -/
def setGfR (s : State) (r : Gf) : State := { s with regs := { s.regs with gfR := r } }

/-- GF_ADD (40_gf256 R195). -/
def execGfAdd (s : State) : Host.Outcome State Fault Refusal :=
  finish (setGfR s (gfAdd s.regs.gfA s.regs.gfB), none)

/-- GF_MUL (40_gf256 R196). -/
def execGfMul (s : State) : Host.Outcome State Fault Refusal :=
  finish (setGfR s (gfMul s.regs.gfA s.regs.gfB), none)

/-- GF_INV (40_gf256 R197). -/
def execGfInv (s : State) : Host.Outcome State Fault Refusal :=
  finish <|
    match gfInv s.regs.gfA with
    | some r => (setGfR s r, none)
    | none => (s, some (argumentError 0x30 0))

/-- GF_EXP (40_gf256 R198). -/
def execGfExp (s : State) : Host.Outcome State Fault Refusal :=
  finish (setGfR s (gfExp s.regs.gfA.toNat), none)

/-- GF_LOG (40_gf256 R199). -/
def execGfLog (s : State) : Host.Outcome State Fault Refusal :=
  finish <|
    match gfLog s.regs.gfA with
    | some i => (setGfR s (BitVec.ofNat 8 i), none)
    | none => (s, some (argumentError 0x31 0))

end Sys2Proof.Machine
end

