-- ==== Sys2Proof/Machine/Poly.lean ====
section
/-! DEFINITION. Polynomials over GF(256): lists of coefficients, most significant first (40_gf256 R187 to R191). -/

namespace Sys2Proof.Machine

/-- A polynomial, most-significant coefficient first (40_gf256 R187). -/
abbrev Poly := List Gf

/-- `norm(c)` (40_gf256 R187): drop leading zeros; `[0]` if all are zero. -/
def polyNorm : Poly → Poly
  | [] => [0]
  | c :: cs => if c = 0 then polyNorm cs else c :: cs

/-- `deg(p) = length(p) - 1` (40_gf256 R187). -/
def polyDeg (p : Poly) : Nat := p.length - 1

/-- `coef(p, d)`: 0 above the degree (40_gf256 R187). -/
def polyCoef (p : Poly) (d : Nat) : Gf := p.reverse.getD d 0

/-- `is_zero(p)` (40_gf256 R187). -/
def polyIsZero (p : Poly) : Bool := p.headD 0 == 0

/-- `mono(d, c)` (40_gf256 R187). -/
def polyMono (d : Nat) (c : Gf) : Poly := polyNorm (c :: List.replicate d 0)

/-- Add two coefficient lists whose least-significant coefficients come first. -/
def addLow : List Gf → List Gf → List Gf
  | [], bs => bs
  | as, [] => as
  | a :: as, b :: bs => gfAdd a b :: addLow as bs

/-- `padd(a, b)` (40_gf256 R188). -/
def polyAdd (a b : Poly) : Poly :=
  if polyIsZero a then b
  else if polyIsZero b then a
  else polyNorm (addLow a.reverse b.reverse).reverse

/-- `pscale(a, s)` (40_gf256 R189). -/
def polyScale (a : Poly) (c : Gf) : Poly :=
  if c = 0 then [0] else polyNorm (a.map (fun x => gfMul x c))

/-- `pmulmono(a, d, s)`, a times s*x^d (40_gf256 R189). -/
def polyMulMono (a : Poly) (d : Nat) (c : Gf) : Poly :=
  if c = 0 then [0] else polyNorm (a.map (fun x => gfMul x c) ++ List.replicate d 0)

/-- The products of two coefficient lists whose least-significant coefficients come first. -/
def mulLow : List Gf → List Gf → List Gf
  | [], _ => []
  | a :: as, bs => addLow (bs.map (fun b => gfMul a b)) (0 :: mulLow as bs)

/-- `pmul(a, b)` (40_gf256 R189). -/
def polyMul (a b : Poly) : Poly :=
  if polyIsZero a || polyIsZero b then [0]
  else polyNorm (mulLow a.reverse b.reverse).reverse

/-- The loop of long division by `b` on quotient `q` and remainder `r`, at most `fuel` rounds; each round lowers the
degree of `r`, so `length r` rounds are enough (40_gf256 R190). -/
def divLoop (b : Poly) (dinv : Gf) : Nat → Poly → Poly → Poly × Poly
  | 0, q, r => (q, r)
  | fuel + 1, q, r =>
    if polyDeg b ≤ polyDeg r ∧ polyIsZero r = false then
      let d := polyDeg r - polyDeg b
      let c := gfMul (polyCoef r (polyDeg r)) dinv
      divLoop b dinv fuel (polyAdd q (polyMono d c)) (polyAdd r (polyMulMono b d c))
    else (q, r)

/-- `pdivmod(a, b)` for a non-zero b (40_gf256 R190). -/
def polyDivMod (a b : Poly) : Poly × Poly :=
  divLoop b (gfInvNz (polyCoef b (polyDeg b))) a.length [0] a

/-- Horner's rule over the remaining coefficients (40_gf256 R191). -/
def horner (a : Gf) : Gf → List Gf → Gf
  | r, [] => r
  | r, c :: cs => horner a (gfAdd (gfMul a r) c) cs

/-- `peval(p, a)` (40_gf256 R191). -/
def polyEval (p : Poly) (a : Gf) : Gf :=
  if a = 0 then polyCoef p 0
  else if a = 1 then p.foldl gfAdd 0
  else horner a (p.headD 0) p.tail

end Sys2Proof.Machine
end

