-- ==== Sys2Proof/Machine/ReedSolomon.lean ====
section
/-! DEFINITION. The Reed-Solomon unit (41_reed_solomon): syndromes, the decoder, the Symbol Length Descriptor check. -/

namespace Sys2Proof.Machine

/-! ## The block and its syndromes -/

/-- A block as field elements; used where every entry is at most 255 (41_reed_solomon R220, R224). -/
def gfBlock (block : List Nat) : List Gf := block.map (fun v => BitVec.ofNat 8 v)

/-- The received polynomial Rx: the first codeword most significant (41_reed_solomon R221). -/
def receivedPoly (block : List Gf) : Poly := polyNorm block

/-- The syndromes S_0 to S_(n-1) (41_reed_solomon R222). -/
def syndromes (block : List Gf) (n : Nat) : List Gf :=
  (List.range n).map (fun i => polyEval (receivedPoly block) (alphaPow (i + Config.rsFcr)))

/-- Every syndrome is 0. -/
def allZero (syn : List Gf) : Bool := syn.all (fun x => x == 0)

/-- The syndrome polynomial Sx: S_i is the coefficient of x^i (41_reed_solomon R223). -/
def syndromePoly (syn : List Gf) : Poly := polyNorm syn.reverse

/-- The smallest index, from `i` on, of an entry that `bad` holds of. -/
def firstIndex (bad : Nat → Bool) : List Nat → Nat → Option Nat
  | [], _ => none
  | v :: vs, i => if bad v then some i else firstIndex bad vs (i + 1)

/-- The input checks of 41_reed_solomon R224 on CW_LEN and the block. -/
def blockCheck (len : Nat) (block : List Nat) : Option CmdError :=
  if len = 0 ∨ len > Config.cwMax then some (argumentError 0x17 0)
  else (firstIndex (fun v => decide (v > 255)) block 0).map (fun i => argumentError 0x16 i)

/-- Elements for a window of `n` entries: the given values, then zeros. -/
def padElems (n : Nat) (vals : List Gf) : List Word :=
  (List.range n).map (fun i => (vals.getD i 0).setWidth 32)

/-- SYN[i] <- the syndromes, 0 above them; SYN_NZ <- whether one is not 0 (41_reed_solomon R225, R240). -/
def writeSyndromes (s : State) (syn : List Gf) : State :=
  let s := storeElems s .syn (padElems Config.synMax syn)
  { s with regs := { s.regs with synNz := !allZero syn } }

/-- RS_SYNDROME's body (41_reed_solomon R225). -/
def rsSyndromeBody (s : State) : BodyResult :=
  let len := s.regs.cwLen.toNat
  let n := s.regs.nec.toNat
  let block := cwList s len
  match blockCheck len block with
  | some e => (s, some e)
  | none =>
    if n > Config.maxEc then (s, some (argumentError 0x10 0))
    else (writeSyndromes s (syndromes (gfBlock block) n), none)

/-! ## The decoder -/

/-- The pre-checks of RS_DECODE (41_reed_solomon R231). -/
def decodeCheck (len n e : Nat) (block : List Nat) : Option CmdError :=
  match blockCheck len block with
  | some err => some err
  | none =>
    if e > Config.eraMax then some (argumentError 0x18 0)
    else if n > Config.maxEc then some (checksumError 0x10 0)
    else if e > n / 2 + Config.maxErrors then some (checksumError 0x11 0)
    else none

/-- The loop of the extended Euclidean algorithm: it answers the remainder r and the coefficient polynomial t
(41_reed_solomon R233, R234). At most `fuel` rounds: each lowers the degree of `rLast`, or makes it zero. -/
def euclidLoop (n : Nat) : Nat → Poly → Poly → Poly → Poly → Except CmdError (Poly × Poly)
  | 0, _, _, _, _ => .error (checksumError 0x12 0)
  | fuel + 1, rLast, r, tLast, t =>
    if polyDeg r ≥ n / 2 then
      if polyIsZero r then .error (checksumError 0x12 0)
      else
        let qr := polyDivMod rLast r
        euclidLoop n fuel r qr.2 t (polyAdd (polyMul qr.1 t) tLast)
    else .ok (r, t)

/-- The start of the extended Euclidean algorithm on a = x^n and b = Sx, with the swap (41_reed_solomon R233). -/
def euclid (n : Nat) (sx : Poly) : Except CmdError (Poly × Poly) :=
  let a := polyMono n 1
  if polyDeg a < polyDeg sx then euclidLoop n (n + 3) sx a [0] [1]
  else euclidLoop n (n + 3) a sx [0] [1]

/-- Normalisation to sigma and omega (41_reed_solomon R235). -/
def normalise (r t : Poly) : Except CmdError (Poly × Poly) :=
  let z := polyCoef t 0
  if z = 0 then .error (checksumError 0x13 0)
  else .ok (polyScale t (gfInvNz z), polyScale r (gfInvNz z))

/-- The scan of the field elements of a list in order, stopping once `n` roots are found; it answers the inverses of
the roots (41_reed_solomon R236). -/
def chienScan (sigma : Poly) : List Nat → Nat → List Gf
  | [], _ => []
  | _, 0 => []
  | i :: is, n + 1 =>
    let x := BitVec.ofNat 8 i
    if polyEval sigma x = 0 then gfInvNz x :: chienScan sigma is n
    else chienScan sigma is (n + 1)

/-- The Chien search (41_reed_solomon R236). -/
def chien (sigma : Poly) : Except CmdError (List Gf) :=
  let n := polyDeg sigma
  if n = 1 then .ok [polyCoef sigma 1]
  else
    let xs := chienScan sigma ((List.range 255).map (fun i => i + 1)) n
    if xs.length = n then .ok xs else .error (checksumError 0x14 0)

/-- The denominator of Forney's formula for the location of index `i` (41_reed_solomon R237). -/
def forneyDen (xs : List Gf) (i : Nat) (xinv : Gf) : Gf :=
  ((List.range xs.length).filter (fun j => decide (j ≠ i))).foldl
    (fun den j => gfMul den (gfAdd 1 (gfMul (xs.getD j 0) xinv))) 1

/-- The magnitude at the location of index `i` (41_reed_solomon R237). -/
def forneyAt (omega : Poly) (xs : List Gf) (i : Nat) : Except CmdError Gf :=
  let xinv := gfInvNz (xs.getD i 0)
  let den := forneyDen xs i xinv
  if den = 0 then .error (checksumError 0x19 0)
  else
    let y := gfMul (polyEval omega xinv) (gfInvNz den)
    .ok (if Config.rsFcr ≠ 0 then gfMul y xinv else y)

/-- Run a fallible function over a list, stopping at the first error. -/
def mapE {α β : Type} (f : α → Except CmdError β) : List α → Except CmdError (List β)
  | [] => .ok []
  | a :: as =>
    match f a with
    | .error e => .error e
    | .ok b =>
      match mapE f as with
      | .error e => .error e
      | .ok bs => .ok (b :: bs)

/-- Forney's formula over all the locations (41_reed_solomon R237). -/
def forney (omega : Poly) (xs : List Gf) : Except CmdError (List Gf) :=
  mapE (forneyAt omega xs) (List.range xs.length)

/-- The position of a location in a block of length `len` (41_reed_solomon R238). -/
def positionOf (len : Nat) (x : Gf) : Except CmdError Nat :=
  let l := (gfLog x).getD 0
  if l + 1 ≤ len then .ok (len - 1 - l) else .error (checksumError 0x15 0)

/-- All positions (41_reed_solomon R238). -/
def positions (len : Nat) (xs : List Gf) : Except CmdError (List Nat) := mapE (positionOf len) xs

/-- XOR each correction into its position (41_reed_solomon R239). -/
def correct (block : List Gf) : List (Nat × Gf) → List Gf
  | [] => block
  | (p, y) :: rest => correct (block.modify p (fun c => gfAdd c y)) rest

/-- Insert a correction among others of rising position (41_reed_solomon R240). -/
def insertByPosition (c : Nat × Gf) : List (Nat × Gf) → List (Nat × Gf)
  | [] => [c]
  | d :: ds => if c.1 ≤ d.1 then c :: d :: ds else d :: insertByPosition c ds

/-- The corrections sorted by increasing position (41_reed_solomon R240). -/
def sortByPosition : List (Nat × Gf) → List (Nat × Gf)
  | [] => []
  | c :: cs => insertByPosition c (sortByPosition cs)

/-- What a successful decoding of a block with errors gives. -/
structure Correction where
  sigma : Poly
  omega : Poly
  /-- the pairs of a position and its magnitude, in the order of the Chien search -/
  pairs : List (Nat × Gf)
  /-- the corrected block C -/
  block : List Gf
  deriving DecidableEq, Repr

/-- The decoding steps on a block with a non-zero syndrome (41_reed_solomon R233 to R239). -/
def decodeBlock (block : List Gf) (n : Nat) (syn : List Gf) : Except CmdError Correction :=
  match euclid n (syndromePoly syn) with
  | .error e => .error e
  | .ok (r, t) =>
    match normalise r t with
    | .error e => .error e
    | .ok (sigma, omega) =>
      match chien sigma with
      | .error e => .error e
      | .ok xs =>
        match forney omega xs with
        | .error e => .error e
        | .ok ys =>
          match positions block.length xs with
          | .error e => .error e
          | .ok ps =>
            let pairs := ps.zip ys
            let c := correct block pairs
            if allZero (syndromes c n) then
              .ok { sigma := sigma, omega := omega, pairs := pairs, block := c }
            else .error (checksumError 0x1B 0)

/-- The coefficients of a polynomial from x^0 up. -/
def lowCoefs (p : Poly) : List Gf := p.reverse

/-- An ELOC element: bits [15:0] the position, [23:16] the magnitude (41_reed_solomon R240). -/
def elocWord (c : Nat × Gf) : Word := 0#8 ++ c.2 ++ BitVec.ofNat 16 c.1

/-- SIGMA, OMEGA, ELOC, RS_NERR and RS_DEG from their values (41_reed_solomon R232, R240). -/
def writeDecodeResults (s : State) (sigma omega : List Gf) (eloc : List Word) (nerr deg : Nat) : State :=
  let s := storeElems s .sigma (padElems Config.polyMax sigma)
  let s := storeElems s .omega (padElems Config.polyMax omega)
  let s := storeElems s .eloc ((List.range Config.elocMax).map (fun j => eloc.getD j 0))
  { s with regs := { s.regs with rsNerr := BitVec.ofNat 9 nerr, rsDeg := BitVec.ofNat 9 deg } }

/-- RS_DECODE's body (41_reed_solomon R230 to R240). A pre-check failure keeps RS_NERR, as R231 and R240 say and
60_exceptions R453 does not: DEDUCED, log 18. -/
def rsDecodeBody (s : State) : BodyResult :=
  let len := s.regs.cwLen.toNat
  let n := s.regs.nec.toNat
  let block := cwList s len
  match decodeCheck len n s.regs.eraCnt.toNat block with
  | some e => (s, some e)
  | none =>
    let syn := syndromes (gfBlock block) n
    let s := writeSyndromes s syn
    if allZero syn then (writeDecodeResults s [1] [] [] 0 0, none)
    else
      match decodeBlock (gfBlock block) n syn with
      | .error e =>
        let s := forgetWindow s .sigma
        let s := forgetWindow s .omega
        let s := forgetWindow s .eloc
        ({ s with regs := { s.regs with rsNerr := 0, rsDeg := 0 } }, some e)
      | .ok c =>
        let s := storeElems s .cw (c.block.map (fun v => v.setWidth 32))
        (writeDecodeResults s (lowCoefs c.sigma) (lowCoefs c.omega)
          ((sortByPosition c.pairs).map elocWord) c.pairs.length (polyDeg c.sigma), none)

/-! ## The Symbol Length Descriptor -/

/-- SLD_CHECK writes CW[0]: it is 0 and is repaired (41_reed_solomon R245). -/
def sldRepairs (s : State) : Bool :=
  let len := s.regs.cwLen.toNat
  decide (Config.sldMinLen ≤ len) && decide (len ≤ Config.cwMax) && decide (cwAt s 0 = 0) &&
    decide (s.regs.nec.toNat < len)

/-- SLD_CHECK's body (41_reed_solomon R245). -/
def sldCheckBody (s : State) : BodyResult :=
  let len := s.regs.cwLen.toNat
  let n := s.regs.nec.toNat
  let sld := cwAt s 0
  if len = 0 ∨ len > Config.cwMax then (s, some (argumentError 0x23 0))
  else if len < Config.sldMinLen then (s, some (formatError 0x20 0))
  else if sld > len then (s, some (formatError 0x21 0))
  else if sld = 0 then
    if n < len then (storeElems s .cw [BitVec.ofNat 32 (len - n)], none)
    else (s, some (formatError 0x22 0))
  else (s, none)

/-! ## Meanings -/

/-- RS_SYNDROME (41_reed_solomon R225). -/
def execRsSyndrome (s : State) : Host.Outcome State Fault Refusal := finish (rsSyndromeBody s)

/-- RS_DECODE (41_reed_solomon R230). -/
def execRsDecode (s : State) : Host.Outcome State Fault Refusal := finish (rsDecodeBody s)

/-- SLD_CHECK (41_reed_solomon R245). -/
def execSldCheck (s : State) : Host.Outcome State Fault Refusal := finish (sldCheckBody s)

end Sys2Proof.Machine
end

