-- ==== Sys2Proof/Machine/Flags.lean ====
section
/-! DEFINITION. The flag words as the port reads them, and the IRQ output computed from them (10_state R32, R34;
60_exceptions R450, R458). -/

namespace Sys2Proof.Machine

/-- STATUS.BUSY: exactly when the engine runs (10_state R41). -/
def busy (s : State) : Bool :=
  match s.eng with
  | .idle => false
  | .running _ _ => true

/-- The number of an error code (60_exceptions R450). -/
def ErrCode.number : ErrCode → BitVec 4
  | .ok => 0
  | .notFound => 1
  | .format => 2
  | .checksum => 3
  | .argument => 4
  | .illegal => 5

/-- The STATUS register (10_state R34): [0] BUSY, [1] DONE, [2] ERR, [3] WERR, [7:4] ERRCODE. -/
def statusWord (s : State) : Word :=
  0#24 ++ s.regs.errcode.number ++ BitVec.ofBool s.regs.werr ++ BitVec.ofBool s.regs.err ++
    BitVec.ofBool s.regs.done ++ BitVec.ofBool (busy s)

/-- The ERRINFO register (10_state R34): [7:0] DETAIL, [31:16] INDEX. -/
def errInfoWord (r : Regs) : Word := r.index ++ 0#8 ++ r.detail

/-- The IRQ_EN register (10_state R34): [0] DONE_IE, [1] ERR_IE. -/
def irqEnWord (r : Regs) : Word := 0#30 ++ BitVec.ofBool r.errIe ++ BitVec.ofBool r.doneIe

/-- The GF_PRIM register (10_state R35). -/
def gfPrimWord : Word :=
  BitVec.ofNat 8 Config.rsFcr ++ BitVec.ofNat 8 Config.gfAlpha ++ 0#7 ++ BitVec.ofNat 9 Config.primPoly

/-- The IRQ output, level-sensitive and active high (60_exceptions R458). -/
def irq (s : State) : Bool :=
  (s.regs.done && s.regs.doneIe) || ((s.regs.err || s.regs.werr) && s.regs.errIe)

end Sys2Proof.Machine
end

