-- ==== Sys2Proof/Machine/Registers.lean ====
section
/-! DEFINITION. The registers as the port reads and writes them (10_state R34 to R37). -/

namespace Sys2Proof.Machine

/-- What a read of a register returns: its fields, reserved bits 0 (10_state R34). -/
def readReg (s : State) : RegName → Word
  | .id => Config.idWord
  | .version => Config.versionWord
  | .cmd => s.regs.cmd
  | .status => statusWord s
  | .irqEn => irqEnWord s.regs
  | .errInfo => errInfoWord s.regs
  | .ctrl => 0
  | .gfPrim => gfPrimWord
  | .gfA => s.regs.gfA.setWidth 32
  | .gfB => s.regs.gfB.setWidth 32
  | .gfR => s.regs.gfR.setWidth 32
  | .rsFlags => (BitVec.ofBool s.regs.synNz).setWidth 32
  | .cwLen => s.regs.cwLen.setWidth 32
  | .nec => s.regs.nec.setWidth 32
  | .eraCnt => s.regs.eraCnt.setWidth 32
  | .rsNerr => s.regs.rsNerr.setWidth 32
  | .rsDeg => s.regs.rsDeg.setWidth 32
  | .outLen => s.regs.outLen.setWidth 32
  | .imgW => s.regs.imgW.setWidth 32
  | .imgH => s.regs.imgH.setWidth 32
  | .rowY => s.regs.rowY.setWidth 32
  | .blackPt => s.regs.blackPt.setWidth 32
  | .binUsed => (BitVec.ofBool s.regs.binUsed).setWidth 32
  | .gridDim => s.regs.gridDim.setWidth 32
  | .imgX0 => s.regs.img.x0
  | .imgY0 => s.regs.img.y0
  | .imgX1 => s.regs.img.x1
  | .imgY1 => s.regs.img.y1
  | .imgX2 => s.regs.img.x2
  | .imgY2 => s.regs.img.y2
  | .imgX3 => s.regs.img.x3
  | .imgY3 => s.regs.img.y3
  | .grdX0 => s.regs.grd.x0
  | .grdY0 => s.regs.grd.y0
  | .grdX1 => s.regs.grd.x1
  | .grdY1 => s.regs.grd.y1
  | .grdX2 => s.regs.grd.x2
  | .grdY2 => s.regs.grd.y2
  | .grdX3 => s.regs.grd.x3
  | .grdY3 => s.regs.grd.y3
  | .tA11 => s.regs.t.a11
  | .tA21 => s.regs.t.a21
  | .tA31 => s.regs.t.a31
  | .tA12 => s.regs.t.a12
  | .tA22 => s.regs.t.a22
  | .tA32 => s.regs.t.a32
  | .tA13 => s.regs.t.a13
  | .tA23 => s.regs.t.a23
  | .tA33 => s.regs.t.a33
  | .ptInX => s.regs.ptInX
  | .ptInY => s.regs.ptInY
  | .ptOutX => s.regs.ptOutX
  | .ptOutY => s.regs.ptOutY

/-- A field stores only its bits of the word written (10_state R34). -/
def field (n : Nat) (v : Word) : BitVec n := v.setWidth n

/-- A write to a RW register (10_state R34); every other register is left as it is. -/
def writeRwReg (v : Word) (r : Regs) : RegName → Regs
  | .gfA => { r with gfA := field 8 v }
  | .gfB => { r with gfB := field 8 v }
  | .cwLen => { r with cwLen := field 11 v }
  | .nec => { r with nec := field 11 v }
  | .eraCnt => { r with eraCnt := field 11 v }
  | .imgW => { r with imgW := field 12 v }
  | .imgH => { r with imgH := field 12 v }
  | .rowY => { r with rowY := field 12 v }
  | .gridDim => { r with gridDim := field 11 v }
  | .imgX0 => { r with img := { r.img with x0 := v } }
  | .imgY0 => { r with img := { r.img with y0 := v } }
  | .imgX1 => { r with img := { r.img with x1 := v } }
  | .imgY1 => { r with img := { r.img with y1 := v } }
  | .imgX2 => { r with img := { r.img with x2 := v } }
  | .imgY2 => { r with img := { r.img with y2 := v } }
  | .imgX3 => { r with img := { r.img with x3 := v } }
  | .imgY3 => { r with img := { r.img with y3 := v } }
  | .grdX0 => { r with grd := { r.grd with x0 := v } }
  | .grdY0 => { r with grd := { r.grd with y0 := v } }
  | .grdX1 => { r with grd := { r.grd with x1 := v } }
  | .grdY1 => { r with grd := { r.grd with y1 := v } }
  | .grdX2 => { r with grd := { r.grd with x2 := v } }
  | .grdY2 => { r with grd := { r.grd with y2 := v } }
  | .grdX3 => { r with grd := { r.grd with x3 := v } }
  | .grdY3 => { r with grd := { r.grd with y3 := v } }
  | .tA11 => { r with t := { r.t with a11 := v } }
  | .tA21 => { r with t := { r.t with a21 := v } }
  | .tA31 => { r with t := { r.t with a31 := v } }
  | .tA12 => { r with t := { r.t with a12 := v } }
  | .tA22 => { r with t := { r.t with a22 := v } }
  | .tA32 => { r with t := { r.t with a32 := v } }
  | .tA13 => { r with t := { r.t with a13 := v } }
  | .tA23 => { r with t := { r.t with a23 := v } }
  | .tA33 => { r with t := { r.t with a33 := v } }
  | .ptInX => { r with ptInX := v }
  | .ptInY => { r with ptInY := v }
  | _ => r

/-- A write to IRQ_EN (10_state R34). -/
def writeIrqEn (v : Word) (r : Regs) : Regs := { r with doneIe := v.getLsbD 0, errIe := v.getLsbD 1 }

end Sys2Proof.Machine
end

