-- ==== Sys2Proof/Machine/Bus.lean ====
section
/-! DEFINITION. The slave port: host accesses (20_memory R100 to R112), the hazards while BUSY (70_reset R505, R506)
and the two resets (70_reset R490 to R495). -/

namespace Sys2Proof.Machine

/-! ## What a running command writes -/

/-- The result registers that a command writes: its rule's "flags written" (30_encoding R143). Where the list has a
condition (GF_R "on success", the fall-back case of BIN_HYBRID) the operands decide it, which nothing changes while the
command runs (20_memory R112): DEDUCED, log 10. ERRINFO is added in `runningRegs`. STATUS is always read exactly (70_reset R506). -/
def commandRegs (s : State) (i : Instr) : List RegName :=
  match i with
  | .nop => []
  | .gfAdd => [.gfR]
  | .gfMul => [.gfR]
  | .gfInv => if s.regs.gfA = 0 then [] else [.gfR]
  | .gfExp => [.gfR]
  | .gfLog => if s.regs.gfA = 0 then [] else [.gfR]
  | .rsSyndrome => [.rsFlags]
  | .rsDecode => [.rsNerr, .rsDeg, .rsFlags]
  | .sldCheck => []
  | .binRow => [.blackPt]
  | .binGlobal => [.blackPt, .binUsed]
  | .binHybrid => if hybridFallsBack s then [.blackPt, .binUsed] else [.binUsed]
  | .ptSolve => [.tA11, .tA21, .tA31, .tA12, .tA22, .tA32, .tA13, .tA23, .tA33]
  | .ptMap => [.ptOutX, .ptOutY]
  | .ptSample => []
  | .dbsDecode => [.outLen]
  | .numB900 => [.outLen]
  | .cwPipeline => [.rsNerr, .rsDeg, .rsFlags, .outLen]

/-- The first `n` words of a window, at most all of it. -/
def firstWords (w : Window) (n : Nat) : Nat × Nat := (w.base, w.base + min (4 * n) w.size)

/-- All of a window. -/
def wholeWindow (w : Window) : Nat × Nat := (w.base, w.base + w.size)

/-- The ranges of buffer bytes that a command may write: its rule's "flags written" (30_encoding R143). CW[0] under
SLD_CHECK is written "only when it was 0 and is repaired", which the operands decide while the command runs (20_memory
R112). Where the list has no condition it counts although a check will fail, and a range ends with its window: DEDUCED,
log 10. -/
def commandRanges (s : State) (i : Instr) : List (Nat × Nat) :=
  let w := s.regs.imgW.toNat
  let h := s.regs.imgH.toNat
  let dim := s.regs.gridDim.toNat
  let len := s.regs.cwLen.toNat
  let bm := firstWords .bm (h * rowSize w)
  let decoder := [wholeWindow .syn, wholeWindow .eloc, wholeWindow .sigma, wholeWindow .omega]
  match i with
  | .nop => []
  | .gfAdd => []
  | .gfMul => []
  | .gfInv => []
  | .gfExp => []
  | .gfLog => []
  | .rsSyndrome => [wholeWindow .syn]
  | .rsDecode => firstWords .cw len :: decoder
  | .sldCheck => if sldRepairs s then [firstWords .cw 1] else []
  | .binRow => [wholeWindow .hist, firstWords .row (rowSize w)]
  | .binGlobal => [wholeWindow .hist, bm]
  | .binHybrid => if hybridFallsBack s then [wholeWindow .hist, bm] else [bm]
  | .ptSolve => []
  | .ptMap => []
  | .ptSample => [firstWords .grid (dim * rowSize dim)]
  | .dbsDecode => [wholeWindow .out]
  | .numB900 => [wholeWindow .out]
  | .cwPipeline => firstWords .cw len :: wholeWindow .out :: decoder

/-- The registers that the running word writes. -/
def runningRegs (s : State) : List RegName :=
  match s.eng with
  | .idle => []
  | .running w _ =>
    match decode w with
    | .command i => .errInfo :: commandRegs s i
    | .illegal _ => [.errInfo]

/-- The ranges of buffer bytes that the running word may write. -/
def runningRanges (s : State) : List (Nat × Nat) :=
  match s.eng with
  | .idle => []
  | .running w _ =>
    match decode w with
    | .command i => commandRanges s i
    | .illegal _ => []

/-- An offset lies in one of some ranges. -/
def inRanges (rs : List (Nat × Nat)) (a : Nat) : Bool :=
  rs.any (fun r => decide (r.1 ≤ a) && decide (a < r.2))

/-! ## Resets -/

/-- Make each of some ranges UNKNOWN. -/
def forgetRanges (s : State) (rs : List (Nat × Nat)) : State := rs.foldl (fun s r => forget s r.1 r.2) s

/-- Soft reset: registers and engine as after reset; the buffers a running command may write become UNKNOWN, the
others keep their contents (70_reset R491 to R493). -/
def softReset (s : State) : State :=
  { forgetRanges s (runningRanges s) with regs := .reset, eng := .idle }

/-- Power-on reset: registers and engine as after reset, every buffer element UNKNOWN (70_reset R491, R494). -/
def powerOnReset (s : State) : State :=
  { forget s 0 Config.apertureBytes with regs := .reset, eng := .idle }

/-! ## Accesses -/

/-- An access as wide as the bus (00_scope R7 `BUS_WIDTH`). -/
def fullWidth (size : Size) : Bool := 8 * size.bytes == Config.busWidth

/-- The window of an access that is no bus error: aligned, in a window, of a size the window accepts
(20_memory R102, R105, R107). -/
def accessWindow (a : Access) : Option Window :=
  if a.aligned then
    match windowAt a.off.toNat with
    | some w => if fullWidth a.size ∨ w.byteWide = true then some w else none
    | none => none
  else none

/-- The bytes of a word that an access of a size carries. -/
def sized (size : Size) (v : Word) : Word := (v.setWidth (8 * size.bytes)).setWidth 32

/-- The value at an offset of a window (20_memory R104, R106). -/
def windowValue (s : State) (w : Window) (off : Nat) : Word :=
  match w with
  | .registers => (regAt off).elim 0 (readReg s)
  | _ => readWord s off

/-- The running command writes what is read (20_memory R111). -/
def readsRunning (s : State) (w : Window) (off : Nat) : Bool :=
  match w with
  | .registers => (regAt off).any (fun r => (runningRegs s).contains r)
  | _ => inRanges (runningRanges s) off

/-- A read that is no bus error: the value, or a fresh free value of what the running command writes (20_memory R108,
R111). It changes no location. -/
def performRead (s : State) (w : Window) (off : Nat) (size : Size) : Answer × State :=
  if readsRunning s w off then
    ({ error := false, data := sized size (Config.busyRead s.draws) }, { s with draws := s.draws + 1 })
  else ({ error := false, data := sized size (windowValue s w off) }, s)

/-- A write dropped because BUSY is 1 (70_reset R505). -/
def dropWrite (s : State) : State := { s with regs := { s.regs with werr := true } }

/-- A write to a register (10_state R34, 30_encoding R140, 70_reset R490, R505). -/
def writeRegister (s : State) (r : RegName) (v : Word) : State :=
  match r.writeKind with
  | .readOnly => s
  | .readWrite => if busy s then dropWrite s else { s with regs := writeRwReg v s.regs r }
  | .issue => if busy s then dropWrite s else issue v s
  | .control =>
    match r with
    | .status => { s with regs := ackStatus v s.regs }
    | .irqEn => { s with regs := writeIrqEn v s.regs }
    | .ctrl => if v.getLsbD 0 then softReset s else s
    | _ => s

/-- The cells of a write of `n` bytes: of a word element only its defined bytes (20_memory R104, R106). -/
def writtenCells (off n : Nat) (v : Word) : List Host.Cell :=
  ((List.range n).filter (fun j => storedByte (off + j))).map (fun j => (off + j, byteOf v j))

/-- A write that is no bus error (20_memory R106, R108, 70_reset R505). -/
def performWrite (s : State) (w : Window) (off : Nat) (size : Size) (v : Word) : State :=
  match w with
  | .registers =>
    match regAt off with
    | some r => writeRegister s r v
    | none => s
  | _ =>
    if w.hostWritable then
      if busy s then dropWrite s
      else writeCells s off (off + size.bytes) (writtenCells off size.bytes v)
    else s

/-- A host access: the port's answer and the state after it. A bus error answers with data 0 and changes nothing
(20_memory R107). -/
def hostAccess (s : State) (a : Access) : Answer × State :=
  match accessWindow a with
  | none => ({ error := true, data := 0 }, s)
  | some w =>
    match a with
    | .read off size => performRead s w off.toNat size
    | .write off size v => ({ error := false, data := 0 }, performWrite s w off.toNat size v)

/-- The physical address of an offset (20_memory R100). -/
def physicalAddress (off : Offset) : Nat := Config.pdaBase + off.toNat

end Sys2Proof.Machine
end

