-- ==== Sys2Proof/Machine/Bitstream.lean ====
section
/-! DEFINITION. The decoded-bitstream parser (44_bitstream): Text, Byte and Numeric Compaction. -/

namespace Sys2Proof.Machine

/-! ## The parser's state -/

/-- The compaction modes (44_bitstream R373). -/
inductive Mode where
  | text
  | byte
  | numeric
  deriving DecidableEq, Repr

/-- The parser's state, fresh for each command (44_bitstream R373). -/
structure Parser where
  mode : Mode
  sub : SubMode
  shift : Shift
  /-- G, the pairs of a value and its codeword index -/
  group : List (Nat × Nat)
  out : List Byte
  deriving DecidableEq, Repr

/-- TEXT, ALPHA, no shift, nothing gathered, no output (44_bitstream R373). -/
def Parser.start : Parser where
  mode := .text
  sub := .alpha
  shift := .none
  group := []
  out := []

/-- `emit(b, i)` (44_bitstream R375). -/
def emit (p : Parser) (b : Byte) (i : Nat) : Except CmdError Parser :=
  if p.out.length < Config.outMax then .ok { p with out := p.out ++ [b] }
  else .error (formatError 0x65 i)

/-- Emit bytes in order, all attributed to index `i`. -/
def emitAll (p : Parser) (i : Nat) : List Byte → Except CmdError Parser
  | [] => .ok p
  | b :: bs =>
    match emit p b i with
    | .error e => .error e
    | .ok q => emitAll q i bs

/-- `latch(c)` for the four mode latches, with G left empty (44_bitstream R376). -/
def latch (p : Parser) (c : Nat) : Parser :=
  if c = Config.textLatch then { p with mode := .text, sub := .alpha, shift := .none, group := [] }
  else if c = Config.numericLatch then { p with mode := .numeric, group := [] }
  else { p with mode := .byte, group := [] }

/-- The mode latches 900, 901, 902 and 924 (44_bitstream R372). -/
def isLatch (c : Nat) : Bool :=
  c == Config.textLatch || c == Config.byteLatch || c == Config.numericLatch || c == Config.byteLatchSix

/-! ## Text Compaction -/

/-- `TABLE[sub][h]` for h from 0 to 29 (44_bitstream R378); every h that reaches it is a base-30 digit (R377). -/
def textEntry (sub : SubMode) (h : Nat) : TextEntry :=
  match sub with
  | .alpha => Config.alphaTable.getD h (.shift .ps)
  | .lower => Config.lowerTable.getD h (.shift .ps)
  | .mixed => Config.mixedTable.getD h (.shift .ps)
  | .punct => Config.punctTable.getD h (.to .alpha)

/-- `text_value(h, ci)` (44_bitstream R379). -/
def textValue (p : Parser) (h ci : Nat) : Except CmdError Parser :=
  match p.shift with
  | .ps =>
    let q := { p with shift := .none }
    match textEntry .punct h with
    | .char b => emit q b ci
    | _ => .ok { q with sub := .alpha }
  | .as =>
    let q := { p with shift := .none }
    if h < 26 then emit q (BitVec.ofNat 8 (0x41 + h)) ci
    else if h = 26 then emit q 0x20 ci
    else .ok q
  | .none =>
    match textEntry p.sub h with
    | .char b => emit p b ci
    | .to sub => .ok { p with sub := sub }
    | .shift s => .ok { p with shift := s }

/-- The two half-codewords of a data codeword in TEXT mode (44_bitstream R377). -/
def textPair (p : Parser) (c ci : Nat) : Except CmdError Parser :=
  match textValue p (c / 30) ci with
  | .error e => .error e
  | .ok q => textValue q (c % 30) ci

/-! ## Byte Compaction -/

/-- The value of codewords as base-900 digits, the first most significant (44_bitstream R383, R386). -/
def base900 (vals : List Nat) : Nat := vals.foldl (fun v g => v * 900 + g) 0

/-- The six base-256 digits of a value below 2^48, most significant first (44_bitstream R383). -/
def sixBytes (v : Nat) : List Byte :=
  [BitVec.ofNat 8 (v / 2 ^ 40), BitVec.ofNat 8 (v / 2 ^ 32), BitVec.ofNat 8 (v / 2 ^ 24),
   BitVec.ofNat 8 (v / 2 ^ 16), BitVec.ofNat 8 (v / 2 ^ 8), BitVec.ofNat 8 v]

/-- The conversion of a group of five codewords, the fifth at index `i5`; G is emptied (44_bitstream R383). -/
def convertGroup (p : Parser) (i5 : Nat) : Except CmdError Parser :=
  let v := base900 (p.group.map Prod.fst)
  if v ≥ 2 ^ 48 then .error (formatError 0x63 i5)
  else emitAll { p with group := [] } i5 (sixBytes v)

/-- Emit the entries of a partial byte group, each attributed to its own index (44_bitstream R384). -/
def emitGroup (p : Parser) : List (Nat × Nat) → Except CmdError Parser
  | [] => .ok p
  | g :: gs =>
    match emit p (BitVec.ofNat 8 g.1) g.2 with
    | .error e => .error e
    | .ok q => emitGroup q gs

/-- `flush_bytes()`: first every entry is checked, then all are emitted (44_bitstream R384). -/
def flushBytes (p : Parser) : Except CmdError Parser :=
  match p.group.find? (fun g => decide (g.1 ≥ 256)) with
  | some g => .error (formatError 0x62 g.2)
  | none => emitGroup { p with group := [] } p.group

/-- `byte_codeword(c, ci)` (44_bitstream R382). -/
def byteCodeword (p : Parser) (c ci : Nat) : Except CmdError Parser :=
  if c < 900 then
    let q := { p with group := p.group ++ [(c, ci)] }
    if q.group.length = Config.byteGroup then convertGroup q ci else .ok q
  else if isLatch c then
    match flushBytes p with
    | .error e => .error e
    | .ok q => .ok (latch q c)
  else .ok p

/-! ## Numeric Compaction -/

/-- The decimal digits of a value, least significant first, none for 0; `fuel` is at least their number. -/
def decDigitsLow : Nat → Nat → List Nat
  | 0, _ => []
  | fuel + 1, v => if v = 0 then [] else (v % 10) :: decDigitsLow fuel (v / 10)

/-- The decimal digits of a value below 10^45 with no leading zeros, `[0]` for 0 (44_bitstream R386). -/
def decDigits (v : Nat) : List Nat := if v = 0 then [0] else (decDigitsLow 45 v).reverse

/-- A decimal digit as ASCII (30_encoding R149). -/
def asciiDigit (d : Nat) : Byte := BitVec.ofNat 8 (0x30 + d)

/-- `flush_numeric()` (44_bitstream R386). -/
def flushNumeric (p : Parser) : Except CmdError Parser :=
  match p.group with
  | [] => .ok p
  | g :: _ =>
    match decDigits (base900 (p.group.map Prod.fst)) with
    | 1 :: ds => emitAll { p with group := [] } g.2 (ds.map asciiDigit)
    | _ => .error (formatError 0x64 g.2)

/-- `numeric_codeword(c, ci)` (44_bitstream R385). -/
def numericCodeword (p : Parser) (c ci : Nat) : Except CmdError Parser :=
  if c < 900 then
    let q := { p with group := p.group ++ [(c, ci)] }
    if q.group.length = Config.numGroupMax then flushNumeric q else .ok q
  else if isLatch c then
    match flushNumeric p with
    | .error e => .error e
    | .ok q => .ok (latch q c)
  else .ok p

/-! ## The machine -/

/-- A codeword in TEXT mode other than the mode shift 913 (44_bitstream R377). -/
def textCodeword (p : Parser) (c ci : Nat) : Except CmdError Parser :=
  if c < 900 then textPair p c ci
  else if isLatch c then .ok (latch p c)
  else .ok p

/-- The operand of the mode shift: the codeword at index `bi` is one byte (44_bitstream R380). -/
def shiftedByte (p : Parser) (b bi : Nat) : Except CmdError Parser :=
  if b ≥ 256 then .error (formatError 0x62 bi) else emit p (BitVec.ofNat 8 b) bi

/-- One codeword by the mode (44_bitstream R374), 913 in TEXT mode apart. -/
def codeword (p : Parser) (c ci : Nat) : Except CmdError Parser :=
  match p.mode with
  | .text => textCodeword p c ci
  | .byte => byteCodeword p c ci
  | .numeric => numericCodeword p c ci

/-- The end of the stream (44_bitstream R374). -/
def endOfStream (p : Parser) : Except CmdError Parser :=
  match p.mode with
  | .text => .ok p
  | .byte => flushBytes p
  | .numeric => flushNumeric p

/-- The main loop from index `k` on, over the codewords that remain (44_bitstream R374). A 913 in TEXT mode takes the
codeword after it (R380); that there is none is ruled out by check (4) of R371 (log 15). -/
def mainLoop (p : Parser) (k : Nat) : List Nat → Except CmdError Parser
  | [] => endOfStream p
  | [c] =>
    if p.mode = .text ∧ c = Config.byteShift then .error (formatError 0x61 k)
    else
      match codeword p c k with
      | .error e => .error e
      | .ok q => endOfStream q
  | c :: b :: rest =>
    if p.mode = .text ∧ c = Config.byteShift then
      match shiftedByte p b (k + 1) with
      | .error e => .error e
      | .ok q => mainLoop q (k + 2) rest
    else
      match codeword p c k with
      | .error e => .error e
      | .ok q => mainLoop q (k + 1) (b :: rest)

/-- The mode codewords that may not be the last data codeword (44_bitstream R371). -/
def badLast (c : Nat) : Bool :=
  c == Config.byteLatch || c == Config.numericLatch || c == Config.byteShift || c == Config.byteLatchSix

/-- The up-front checks (44_bitstream R371) on CW_LEN, the SLD and the data codewords CW[1..SLD-1]. -/
def streamCheck (len sld : Nat) (data : List Nat) : Option CmdError :=
  if len = 0 ∨ len > Config.cwMax then some (argumentError 0x67 0)
  else if sld = 0 ∨ sld > len then some (formatError 0x66 0)
  else
    match firstIndex (fun v => decide (v > Config.cwValueMax)) data 1 with
    | some k => some (formatError 0x60 k)
    | none =>
      if sld ≥ 2 ∧ badLast (data.getLastD 0) = true then some (formatError 0x61 (sld - 1)) else none

/-- OUT[0..n-1] <- out and OUT_LEN <- n (44_bitstream R390). -/
def writeOut (s : State) (out : List Byte) : State :=
  let s := storeBytes s Window.out.base out
  { s with regs := { s.regs with outLen := BitVec.ofNat 13 out.length } }

/-- A FORMAT failure: OUT_LEN <- 0 and every OUT byte UNKNOWN (44_bitstream R390). -/
def failOut (s : State) : State :=
  let s := forgetWindow s .out
  { s with regs := { s.regs with outLen := 0 } }

/-- The results of a parser command that raised `e`: an ARGUMENT error changes nothing, OUT_LEN included, as 44_bitstream
R390 says and 60_exceptions R453 does not: DEDUCED, log 18. -/
def outError (s : State) (e : CmdError) : BodyResult :=
  (if e.code = .argument then s else failOut s, some e)

/-- DBS_DECODE's body (44_bitstream R400). -/
def dbsDecodeBody (s : State) : BodyResult :=
  let len := s.regs.cwLen.toNat
  let sld := cwAt s 0
  let data := (cwList s sld).tail
  match streamCheck len sld data with
  | some e => outError s e
  | none =>
    match mainLoop Parser.start 1 data with
    | .error e => outError s e
    | .ok p => (writeOut s p.out, none)

/-- NUM_B900's body (44_bitstream R410). -/
def numB900Body (s : State) : BodyResult :=
  let n := s.regs.cwLen.toNat
  let vals := cwList s n
  if n = 0 ∨ n > Config.numGroupMax then outError s (argumentError 0x68 0)
  else
    match firstIndex (fun v => decide (v ≥ 900)) vals 0 with
    | some i => outError s (formatError 0x60 i)
    | none =>
      match flushNumeric { Parser.start with group := vals.zip (List.range n) } with
      | .error e => outError s e
      | .ok p => (writeOut s p.out, none)

/-! ## Meanings -/

/-- DBS_DECODE (44_bitstream R400). -/
def execDbsDecode (s : State) : Host.Outcome State Fault Refusal := finish (dbsDecodeBody s)

/-- NUM_B900 (44_bitstream R410). -/
def execNumB900 (s : State) : Host.Outcome State Fault Refusal := finish (numB900Body s)

end Sys2Proof.Machine
end

