-- ==== Sys2Proof/Machine/Control.lean ====
section
/-! DEFINITION. The control commands (45_control): NOP and CW_PIPELINE. -/

namespace Sys2Proof.Machine

/-- Run a stage after another: only if the first raised nothing; its effects are kept either way (45_control R441). -/
def thenStage (r : BodyResult) (stage : State → BodyResult) : BodyResult :=
  match r.2 with
  | some e => (r.1, some e)
  | none => stage r.1

/-- CW_PIPELINE's body: RS_DECODE, then SLD_CHECK, then DBS_DECODE (45_control R441, 41_reed_solomon R246). A failure of
stage 1 or 2 keeps OUT_LEN, and one of stage 2 the RS_NERR of stage 1, as R441 says and 60_exceptions R453 does not:
DEDUCED, log 18. -/
def cwPipelineBody (s : State) : BodyResult :=
  thenStage (thenStage (rsDecodeBody s) sldCheckBody) dbsDecodeBody

/-- NOP (45_control R440). -/
def execNop (s : State) : Host.Outcome State Fault Refusal := finish (s, none)

/-- CW_PIPELINE (45_control R441). -/
def execCwPipeline (s : State) : Host.Outcome State Fault Refusal := finish (cwPipelineBody s)

end Sys2Proof.Machine
end

