-- ==== Sys2Proof/Machine/Float.lean ====
section
/-! DEFINITION. IEEE 754 binary32 as 43_perspective R320 fixes it: each operation exact and rounded once, to nearest,
ties to even; subnormals kept; every NaN result is 0x7FC00000. Layout: 30_encoding R147. -/

namespace Sys2Proof.Machine

/-- A binary32 datum: a finite one is (-1)^neg * mag * 2^exp. -/
inductive Float32Value where
  | nan
  | inf (neg : Bool)
  | finite (neg : Bool) (mag : Nat) (exp : Int)
  deriving DecidableEq, Repr

/-- The quiet NaN that every operation gives (43_perspective R320). -/
def nan32 : Word := 0x7FC00000

/-- +0.0 -/
def zero32 : Word := 0x00000000

/-- 1.0 -/
def one32 : Word := 0x3F800000

/-- Infinity of a sign. -/
def inf32 (neg : Bool) : Word := if neg then 0xFF800000 else 0x7F800000

/-- The sign bit (30_encoding R147). -/
def signOf (v : Word) : Bool := v.getLsbD 31

/-- The biased exponent (30_encoding R147). -/
def exponentOf (v : Word) : Nat := (v.toNat / 2 ^ 23) % 256

/-- The fraction (30_encoding R147). -/
def fractionOf (v : Word) : Nat := v.toNat % 2 ^ 23

/-- The value of a bit pattern (30_encoding R147). -/
def unpack32 (v : Word) : Float32Value :=
  if exponentOf v = 255 then
    if fractionOf v = 0 then .inf (signOf v) else .nan
  else if exponentOf v = 0 then .finite (signOf v) (fractionOf v) (-149)
  else .finite (signOf v) (2 ^ 23 + fractionOf v) ((exponentOf v : Int) - 150)

/-- `m / 2^k` rounded to the nearest natural number, ties to even. -/
def roundShift (m k : Nat) : Nat :=
  let q := m / 2 ^ k
  let r := m % 2 ^ k
  if 2 * r > 2 ^ k ∨ (2 * r = 2 ^ k ∧ q % 2 = 1) then q + 1 else q

/-- A sign in front of the 31 low bits of a pattern. -/
def withSign (neg : Bool) (low : Nat) : Word :=
  BitVec.ofNat 32 (if neg then 2 ^ 31 + low else low)

/-- (-1)^neg * m * 2^e rounded once to binary32 (43_perspective R320); 0 keeps the sign. The unit in the last place is
2^t, at least 2^(-149); a carry out of the significand raises the exponent field by itself. -/
def round32 (neg : Bool) (m : Nat) (e : Int) : Word :=
  if m = 0 then withSign neg 0
  else
    let t := max (e + (Nat.log2 m : Int) - 23) (-149)
    let q := if t ≤ e then m * 2 ^ (e - t).toNat else roundShift m (t - e).toNat
    let low := (t + 149).toNat * 2 ^ 23 + q
    if low ≥ 0x7F800000 then inf32 neg else withSign neg low

/-- The signed significand of a finite value at a common exponent. -/
def scaled (neg : Bool) (m : Nat) (e common : Int) : Int :=
  let v : Int := ((m * 2 ^ (e - common).toNat : Nat) : Int)
  if neg then -v else v

/-- The sum of two finite values; an exact 0 is +0 unless both are negative. -/
def addFinite (na : Bool) (ma : Nat) (ea : Int) (nb : Bool) (mb : Nat) (eb : Int) : Word :=
  let common := min ea eb
  let sum := scaled na ma ea common + scaled nb mb eb common
  if sum = 0 then withSign (na && nb) 0
  else round32 (decide (sum < 0)) sum.natAbs common

/-- `fadd` (43_perspective R320). -/
def fadd (a b : Word) : Word :=
  match unpack32 a, unpack32 b with
  | .nan, _ => nan32
  | _, .nan => nan32
  | .inf na, .inf nb => if na = nb then inf32 na else nan32
  | .inf na, .finite _ _ _ => inf32 na
  | .finite _ _ _, .inf nb => inf32 nb
  | .finite na ma ea, .finite nb mb eb => addFinite na ma ea nb mb eb

/-- The negation of a bit pattern: the sign bit inverted. -/
def fneg (a : Word) : Word := a ^^^ 0x80000000

/-- `fsub` (43_perspective R320): a - b = a + (-b). -/
def fsub (a b : Word) : Word := fadd a (fneg b)

/-- `fmul` (43_perspective R320). -/
def fmul (a b : Word) : Word :=
  match unpack32 a, unpack32 b with
  | .nan, _ => nan32
  | _, .nan => nan32
  | .inf na, .inf nb => inf32 (na != nb)
  | .inf na, .finite nb mb _ => if mb = 0 then nan32 else inf32 (na != nb)
  | .finite na ma _, .inf nb => if ma = 0 then nan32 else inf32 (na != nb)
  | .finite na ma ea, .finite nb mb eb => round32 (na != nb) (ma * mb) (ea + eb)

/-- ma / mb * 2^e rounded once, for mb > 0. The quotient of the significands (below 2^24) is taken 64 bits further, so it
has at least 40 bits where a result keeps 24; a non-zero remainder is kept as one more low bit. -/
def divFinite (neg : Bool) (ma mb : Nat) (e : Int) : Word :=
  let n := ma * 2 ^ 64
  let sticky := if n % mb = 0 then 0 else 1
  round32 neg (2 * (n / mb) + sticky) (e - 65)

/-- `fdiv` (43_perspective R320): x/0 is a signed infinity, 0/0 and inf/inf are NaN. -/
def fdiv (a b : Word) : Word :=
  match unpack32 a, unpack32 b with
  | .nan, _ => nan32
  | _, .nan => nan32
  | .inf _, .inf _ => nan32
  | .inf na, .finite nb _ _ => inf32 (na != nb)
  | .finite na _ _, .inf nb => withSign (na != nb) 0
  | .finite na ma ea, .finite nb mb eb =>
    if mb = 0 then
      if ma = 0 then nan32 else inf32 (na != nb)
    else divFinite (na != nb) ma mb (ea - eb)

/-- The comparison `v = 0`: +0 and -0 count as 0, a NaN does not (43_perspective R322). -/
def isZero32 (v : Word) : Bool :=
  match unpack32 v with
  | .finite _ m _ => m == 0
  | _ => false

/-- A natural number as binary32 (exact below 2^24). -/
def natTo32 (n : Nat) : Word := round32 false n 0

/-- n + 0.5 as binary32 (exact below 2^23), the centre of a cell (43_perspective R345). -/
def halfPast32 (n : Nat) : Word := round32 false (2 * n + 1) (-1)

/-- The magnitude of a finite value truncated to a natural number. -/
def truncMag (m : Nat) (e : Int) : Nat :=
  if 0 ≤ e then m * 2 ^ e.toNat else m / 2 ^ (-e).toNat

/-- Truncation toward zero; none for NaN, infinity or a magnitude of at least 2^31 (43_perspective R328). -/
def toInt32 (v : Word) : Option Int :=
  match unpack32 v with
  | .finite neg m e =>
    if truncMag m e < 2 ^ 31 then some (if neg then -(truncMag m e : Int) else (truncMag m e : Int)) else none
  | _ => none

end Sys2Proof.Machine
end

