-- ==== Sys2Proof/Machine/Perspective.lean ====
section
/-! DEFINITION. The perspective unit (43_perspective): solving the transform, mapping a point, sampling a grid. -/

namespace Sys2Proof.Machine

/-! ## Solving the transform -/

/-- `square_to_quad` (43_perspective R322): the affine case where dx3 = dy3 = 0, else the general one. -/
def squareToQuad (q : Quad) : Transform :=
  let dx3 := fsub (fadd (fsub q.x0 q.x1) q.x2) q.x3
  let dy3 := fsub (fadd (fsub q.y0 q.y1) q.y2) q.y3
  if isZero32 dx3 && isZero32 dy3 then
    { a11 := fsub q.x1 q.x0, a21 := fsub q.x2 q.x1, a31 := q.x0
      a12 := fsub q.y1 q.y0, a22 := fsub q.y2 q.y1, a32 := q.y0
      a13 := zero32, a23 := zero32, a33 := one32 }
  else
    let dx1 := fsub q.x1 q.x2
    let dx2 := fsub q.x3 q.x2
    let dy1 := fsub q.y1 q.y2
    let dy2 := fsub q.y3 q.y2
    let den := fsub (fmul dx1 dy2) (fmul dx2 dy1)
    let a13 := fdiv (fsub (fmul dx3 dy2) (fmul dx2 dy3)) den
    let a23 := fdiv (fsub (fmul dx1 dy3) (fmul dx3 dy1)) den
    { a11 := fadd (fsub q.x1 q.x0) (fmul a13 q.x1)
      a21 := fadd (fsub q.x3 q.x0) (fmul a23 q.x3)
      a31 := q.x0
      a12 := fadd (fsub q.y1 q.y0) (fmul a13 q.y1)
      a22 := fadd (fsub q.y3 q.y0) (fmul a23 q.y3)
      a32 := q.y0
      a13 := a13, a23 := a23, a33 := one32 }

/-- a*b - c*d, each operation rounded. -/
def cross (a b c d : Word) : Word := fsub (fmul a b) (fmul c d)

/-- `adjoint(m)` (43_perspective R323). -/
def adjoint (m : Transform) : Transform where
  a11 := cross m.a22 m.a33 m.a23 m.a32
  a21 := cross m.a23 m.a31 m.a21 m.a33
  a31 := cross m.a21 m.a32 m.a22 m.a31
  a12 := cross m.a13 m.a32 m.a12 m.a33
  a22 := cross m.a11 m.a33 m.a13 m.a31
  a32 := cross m.a12 m.a31 m.a11 m.a32
  a13 := cross m.a12 m.a23 m.a13 m.a22
  a23 := cross m.a13 m.a21 m.a11 m.a23
  a33 := cross m.a11 m.a22 m.a12 m.a21

/-- (a*b + c*d) + e*f, each operation rounded. -/
def dot3 (a b c d e f : Word) : Word := fadd (fadd (fmul a b) (fmul c d)) (fmul e f)

/-- `times(m, n)` (43_perspective R324). -/
def times (m n : Transform) : Transform where
  a11 := dot3 m.a11 n.a11 m.a21 n.a12 m.a31 n.a13
  a21 := dot3 m.a11 n.a21 m.a21 n.a22 m.a31 n.a23
  a31 := dot3 m.a11 n.a31 m.a21 n.a32 m.a31 n.a33
  a12 := dot3 m.a12 n.a11 m.a22 n.a12 m.a32 n.a13
  a22 := dot3 m.a12 n.a21 m.a22 n.a22 m.a32 n.a23
  a32 := dot3 m.a12 n.a31 m.a22 n.a32 m.a32 n.a33
  a13 := dot3 m.a13 n.a11 m.a23 n.a12 m.a33 n.a13
  a23 := dot3 m.a13 n.a21 m.a23 n.a22 m.a33 n.a23
  a33 := dot3 m.a13 n.a31 m.a23 n.a32 m.a33 n.a33

/-- `quad_to_quad(grid, img)` (43_perspective R325). -/
def quadToQuad (grid img : Quad) : Transform := times (squareToQuad img) (adjoint (squareToQuad grid))

/-- A point of binary32 coordinates. -/
structure Point where
  x : Word
  y : Word
  deriving DecidableEq, Repr

/-- `map(m, x, y)` (43_perspective R327). -/
def mapPoint (m : Transform) (p : Point) : Point :=
  let den := fadd (fadd (fmul m.a13 p.x) (fmul m.a23 p.y)) m.a33
  { x := fdiv (fadd (fadd (fmul m.a11 p.x) (fmul m.a21 p.y)) m.a31) den
    y := fdiv (fadd (fadd (fmul m.a12 p.x) (fmul m.a22 p.y)) m.a32) den }

/-! ## From points to pixels -/

/-- Both coordinates of a point of grid row y as pixel indices (43_perspective R328). -/
def toPixel (y : Nat) (p : Point) : Except CmdError (Int × Int) :=
  match toInt32 p.x, toInt32 p.y with
  | some xi, some yi => .ok (xi, yi)
  | _, _ => .error (notFoundError 0x53 y)

/-- A coordinate one pixel outside 0 .. d-1 moved onto the edge, and whether it moved (43_perspective R329). -/
def nudgeCoord (d : Nat) (i : Int) (v : Word) : Word × Bool :=
  if i = -1 then (zero32, true)
  else if i = (d : Int) then (natTo32 (d - 1), true)
  else (v, false)

/-- `check(k)` on a point of grid row y of a w x h image (43_perspective R329). -/
def checkPoint (w h y : Nat) (p : Point) : Except CmdError (Point × Bool) :=
  match toPixel y p with
  | .error e => .error e
  | .ok (xi, yi) =>
    if xi < -1 ∨ xi > (w : Int) ∨ yi < -1 ∨ yi > (h : Int) then .error (notFoundError 0x51 y)
    else
      let nx := nudgeCoord w xi p.x
      let ny := nudgeCoord h yi p.y
      .ok ({ x := nx.1, y := ny.1 }, nx.2 || ny.2)

/-- One of the two nudge loops: from the start of the list, until a point that did not move (43_perspective R329). -/
def nudgeFrom (w h y : Nat) : List Point → Except CmdError (List Point)
  | [] => .ok []
  | p :: ps =>
    match checkPoint w h y p with
    | .error e => .error e
    | .ok (q, moved) =>
      if moved then
        match nudgeFrom w h y ps with
        | .error e => .error e
        | .ok qs => .ok (q :: qs)
      else .ok (q :: ps)

/-- `nudge(P, W, H)` on grid row y: from the start, then from the end (43_perspective R329). -/
def nudge (w h y : Nat) (ps : List Point) : Except CmdError (List Point) :=
  match nudgeFrom w h y ps with
  | .error e => .error e
  | .ok qs =>
    match nudgeFrom w h y qs.reverse with
    | .error e => .error e
    | .ok rs => .ok rs.reverse

/-- The BM bit at a sample point of grid row y, after the nudge (43_perspective R345). -/
def sampleBit (s : State) (w h y : Nat) (p : Point) : Except CmdError Bool :=
  match toPixel y p with
  | .error e => .error e
  | .ok (xi, yi) =>
    if 0 ≤ xi ∧ xi < (w : Int) ∧ 0 ≤ yi ∧ yi < (h : Int) then
      .ok (matrixBit s .bm w xi.toNat yi.toNat)
    else .error (notFoundError 0x52 y)

/-- The sample points of grid row y: the centres of its cells, mapped (43_perspective R345). -/
def rowPoints (m : Transform) (dim y : Nat) : List Point :=
  (List.range dim).map (fun x => mapPoint m { x := halfPast32 x, y := halfPast32 y })

/-- The bits of grid row y (43_perspective R345). -/
def sampleRow (s : State) (w h dim y : Nat) : Except CmdError (List Bool) :=
  match nudge w h y (rowPoints s.regs.t dim y) with
  | .error e => .error e
  | .ok ps => mapE (sampleBit s w h y) ps

/-- All rows in order, stopping at the first error (43_perspective R345). -/
def sampleGrid (s : State) (w h dim : Nat) : Except CmdError (List (List Bool)) :=
  mapE (sampleRow s w h dim) (List.range dim)

/-- PT_SAMPLE's body (43_perspective R345). After NOT_FOUND the D x D grid's words are UNKNOWN. -/
def ptSampleBody (s : State) : BodyResult :=
  let w := s.regs.imgW.toNat
  let h := s.regs.imgH.toNat
  let dim := s.regs.gridDim.toNat
  if imageSizeBad w h then (s, some (argumentError 0x54 0))
  else if dim = 0 ∨ dim > Config.gridMaxDim then (s, some (argumentError 0x50 0))
  else
    match sampleGrid s w h dim with
    | .error e => (forget s Window.grid.base (Window.grid.base + 4 * (dim * rowSize dim)), some e)
    | .ok rows =>
      (storeElems s .grid (matrixWords dim dim (fun x y => (rows.getD y []).getD x false)), none)

/-! ## Meanings -/

/-- PT_SOLVE (43_perspective R335). -/
def execPtSolve (s : State) : Host.Outcome State Fault Refusal :=
  finish ({ s with regs := { s.regs with t := quadToQuad s.regs.grd s.regs.img } }, none)

/-- PT_MAP (43_perspective R340). -/
def execPtMap (s : State) : Host.Outcome State Fault Refusal :=
  let p := mapPoint s.regs.t { x := s.regs.ptInX, y := s.regs.ptInY }
  finish ({ s with regs := { s.regs with ptOutX := p.x, ptOutY := p.y } }, none)

/-- PT_SAMPLE (43_perspective R345). -/
def execPtSample (s : State) : Host.Outcome State Fault Refusal := finish (ptSampleBody s)

end Sys2Proof.Machine
end

