-- ==== Sys2Proof/Machine/Dispatch.lean ====
section
/-! DEFINITION. The completion step of each command: one arm per constructor of Instr. -/

namespace Sys2Proof.Machine

def exec (i : Instr) (s : State) : Host.Outcome State Fault Refusal :=
  match i with
  | .nop => Sys2Proof.Machine.execNop s
  | .gfAdd => Sys2Proof.Machine.execGfAdd s
  | .gfMul => Sys2Proof.Machine.execGfMul s
  | .gfInv => Sys2Proof.Machine.execGfInv s
  | .gfExp => Sys2Proof.Machine.execGfExp s
  | .gfLog => Sys2Proof.Machine.execGfLog s
  | .rsSyndrome => Sys2Proof.Machine.execRsSyndrome s
  | .rsDecode => Sys2Proof.Machine.execRsDecode s
  | .sldCheck => Sys2Proof.Machine.execSldCheck s
  | .binRow => Sys2Proof.Machine.execBinRow s
  | .binGlobal => Sys2Proof.Machine.execBinGlobal s
  | .binHybrid => Sys2Proof.Machine.execBinHybrid s
  | .ptSolve => Sys2Proof.Machine.execPtSolve s
  | .ptMap => Sys2Proof.Machine.execPtMap s
  | .ptSample => Sys2Proof.Machine.execPtSample s
  | .dbsDecode => Sys2Proof.Machine.execDbsDecode s
  | .numB900 => Sys2Proof.Machine.execNumB900 s
  | .cwPipeline => Sys2Proof.Machine.execCwPipeline s

end Sys2Proof.Machine
end

