-- ==== Sys2Proof/Machine/Engine.lean ====
section
/-! DEFINITION. The engine's completion step (20_memory R112) and what one input of the ports does. -/

namespace Sys2Proof.Machine

/-- The completion step of a command word: decode it and run it (20_memory R112, 30_encoding R142). -/
def completionStep (w : Word) (s : State) : Host.Outcome State Fault Refusal :=
  match decode w with
  | .command i => exec i s
  | .illegal r => execIllegal r s

/-- One input: a host access, whose error response is the fault of the host program (20_memory R107), an idle cycle,
or the power-on reset (70_reset R490). -/
def takeInput (i : Input) (s : State) : Host.Outcome State Fault Refusal :=
  match i with
  | .idle => .next s
  | .rstLow => .next (powerOnReset s)
  | .access a =>
    let r := hostAccess s a
    if r.1.error then .fault (.busError a) else .next { r.2 with reply := some r.1 }

/-- The oldest input of the ports, if there is one (20_memory R110); without one nothing happens (60_exceptions R468). -/
def portStep (s : State) : Host.Outcome State Fault Refusal :=
  match s.inputs with
  | [] => .next s
  | i :: rest => takeInput i { s with inputs := rest }

/-- The state right after the issue of a word that completes in the very next step. -/
def placeWord (w : Word) (s : State) : State := issueWith 0 w s

end Sys2Proof.Machine
end

