-- ==== Sys2Proof/Machine/Step.lean ====
section
/-! DEFINITION. One step of the PDA: the running command's completion step, or one input of the ports. -/

namespace Sys2Proof.Machine

/-- One step. A command whose latency is over completes; otherwise one input of the ports is taken, and a running
command comes one step nearer to its completion (20_memory R109, R112; 70_reset R511, R512). -/
def step (s : State) : Host.Outcome State Fault Refusal :=
  match s.eng with
  | .running w 0 => completionStep w s
  | .running w (left + 1) => portStep { s with eng := .running w left }
  | .idle => portStep s

/-- The state with a command word placed where the next step fetches it: issued to CMD with latency 0 (30_encoding
R140, 70_reset R511). -/
def State.withFetchWord (s : State) (nbits w : Nat) : State :=
  placeWord (BitVec.ofNat 32 (w % 2 ^ nbits)) s

end Sys2Proof.Machine
end

