-- ==== Sys2Proof/Machine/HostSyntax.lean ====
section
/-! DEFINITION. The host syntax and the pseudo-instructions (30_encoding R153, R154), as inputs of the port. -/

namespace Sys2Proof.Machine

/-- An offset of the aperture from a number. -/
def offsetOf (n : Nat) : Offset := BitVec.ofNat 23 n

/-- `WR <offset>, <value>` (30_encoding R153). -/
def hostWr (off : Nat) (v : Word) : Input := .access (.write (offsetOf off) .word v)

/-- `WR8 <offset>, <value>` (30_encoding R153). -/
def hostWr8 (off : Nat) (b : Byte) : Input := .access (.write (offsetOf off) .byte (b.setWidth 32))

/-- `RD <offset>` (30_encoding R153). -/
def hostRd (off : Nat) : Input := .access (.read (offsetOf off) .word)

/-- `CMD <mnemonic>` (30_encoding R153). -/
def hostCmd (i : Instr) : Input := hostWr 0x008 (encode i)

/-- `WAIT` for a command of latency `left`: the polls of STATUS that find BUSY = 1, and the one that finds it 0
(30_encoding R154). The number of polls is the host's; the completion step takes a step of its own. -/
def hostWait (left : Nat) : List Input := List.replicate (left + 1) (hostRd 0x00C)

/-- `RUN <mnemonic>` for a command of latency `left` (30_encoding R154). -/
def hostRun (i : Instr) (left : Nat) : List Input := hostCmd i :: hostWait left

/-- `CLRST` (30_encoding R154). -/
def hostClrst : Input := hostWr 0x00C 0x0000000E

/-- `LDCW <i>, <v>` (30_encoding R154). -/
def hostLdcw (i : Nat) (v : Word) : Input := hostWr (0x1000 + 4 * i) v

/-- `LDERA <i>, <p>` (30_encoding R154). -/
def hostLdera (i : Nat) (p : Word) : Input := hostWr (0x2000 + 4 * i) p

/-- `LDF32 <offset>, <real>` with the binary32 bits given (30_encoding R154). -/
def hostLdf32 (off : Nat) (bits : Word) : Input := hostWr off bits

/-- `LDLUM <i>, <b>` (30_encoding R154). -/
def hostLdlum (i : Nat) (b : Byte) : Input := hostWr8 (0x400000 + i) b

/-- `SRST` (30_encoding R154). -/
def hostSrst : Input := hostWr 0x018 1

end Sys2Proof.Machine
end

