-- ==== Sys2Proof/Safety.lean ====
section
/-! DEFINITION. The terms the claims use: the outcome a command leaves, reference forms of the field, the syndromes and
the rational value of a binary32, what counts as a run without bus errors, and the invariants. None of it is used by
the machine. -/

namespace Sys2Proof.Safety

open Sys2Proof.Machine

/-! ## Outcomes -/

/-- `s` after the completion step of a command that changed nothing else, with an outcome (60_exceptions R455). -/
def withOutcome (s : State) (code : ErrCode) (detail : Byte) (index : Nat) : State :=
  { s with
    eng := .idle
    regs :=
      { s.regs with
        done := true
        err := decide (code ≠ .ok)
        errcode := code
        detail := detail
        index := BitVec.ofNat 16 index } }

/-- The number of an outcome's code in STATUS.ERRCODE (60_exceptions R450). -/
def codeNumber : ErrCode → Nat
  | .ok => 0
  | .notFound => 1
  | .format => 2
  | .checksum => 3
  | .argument => 4
  | .illegal => 5

/-- Every byte outside some ranges (from the first offset up to the second) reads the same in two states. -/
def sameExcept (s t : State) (ranges : List (Nat × Nat)) : Prop :=
  ∀ a, (∀ r ∈ ranges, a < r.1 ∨ r.2 ≤ a) → readByte t a = readByte s a

/-- The byte at `a` in `t` is UNKNOWN and drawn after `s` (93_implementation_defined I8). -/
def freshUnknown (s t : State) (a : Nat) : Prop :=
  ∃ n, s.draws < n ∧ readByte t a = Config.unknownByte n a

/-- Every byte that a buffer holds in a range is UNKNOWN in `t` and drawn after `s`. -/
def freshRange (s t : State) (lo hi : Nat) : Prop :=
  ∀ a, lo ≤ a → a < hi → storedByte a = true → freshUnknown s t a

/-- Bit x of row y of a bit matrix of width w at a window offset (30_encoding R150). -/
def bitAt (s : State) (base w x y : Nat) : Bool :=
  (readWord s (base + 4 * (y * ((w + 31) / 32) + x / 32))).getLsbD (x % 32)

/-! ## The field and the syndromes -/

/-- alpha^n by repeated doubling and reduction by 0x11D (40_gf256 R180). -/
def alphaTo : Nat → Nat
  | 0 => 1
  | n + 1 => if 2 * alphaTo n < 256 then 2 * alphaTo n else (2 * alphaTo n) ^^^ 0x11D

/-- alpha^n as a field element. -/
def alphaElem (n : Nat) : Gf := BitVec.ofNat 8 (alphaTo n)

/-- A polynomial in the normal form of 40_gf256 R187: no leading zero but in `[0]`, never empty. -/
def normalPoly (p : Poly) : Prop := p = [0] ∨ (p ≠ [] ∧ p.headD 0 ≠ 0)

/-- The value of a polynomial, most significant coefficient first, at a field element (40_gf256 R191). -/
def polyValue (p : List Gf) (x : Gf) : Gf := p.foldl (fun acc c => gfMul acc x ^^^ c) 0

/-- The block CW[0..L-1] as field elements (41_reed_solomon R220). -/
def blockOf (s : State) (len : Nat) : List Gf := (List.range len).map (fun i => BitVec.ofNat 8 (cwAt s i))

/-- The syndrome S_i of the block CW[0..L-1] (41_reed_solomon R222). -/
def syndromeAt (s : State) (len i : Nat) : Gf := polyValue (blockOf s len) (alphaElem (i % 255))

/-- The block passes the checks that RS_SYNDROME and RS_DECODE share (41_reed_solomon R224). -/
def blockAccepted (s : State) (len : Nat) : Prop :=
  0 < len ∧ len ≤ 1024 ∧ ∀ i, i < len → cwAt s i ≤ 255

/-- The block and the counts pass all the pre-checks of RS_DECODE (41_reed_solomon R231). -/
def decodeAccepted (s : State) : Prop :=
  blockAccepted s s.regs.cwLen.toNat ∧ s.regs.eraCnt.toNat ≤ 1024 ∧ s.regs.nec.toNat ≤ 512 ∧
    s.regs.eraCnt.toNat ≤ s.regs.nec.toNat / 2 + 3

/-- Every syndrome of the block is 0. -/
def blockClean (s : State) : Prop :=
  ∀ i, i < s.regs.nec.toNat → syndromeAt s s.regs.cwLen.toNat i = 0

/-- The buffers that RS_DECODE writes apart from CW: SYN, ELOC, SIGMA and OMEGA (20_memory R102). -/
def decodeBuffers : List (Nat × Nat) := [(0x3000, 0x3800), (0x3800, 0x3C00), (0x4000, 0x4800), (0x4800, 0x5000)]

/-! ## Images -/

/-- The pixel (x, y) of a w-wide image (10_state R39). -/
def pixel (s : State) (w x y : Nat) : Nat := (readByte s (0x400000 + (y * w + x))).toNat

/-- An image size that the BIN commands and PT_SAMPLE accept (42_binarizer R271). -/
def imageAccepted (w h : Nat) : Prop := 0 < w ∧ w ≤ 2048 ∧ 0 < h ∧ h ≤ 2048

/-- How many pixels of row y lie in bucket b, from 8*b to 8*b + 7 (42_binarizer R272). -/
def rowCount (s : State) (w y b : Nat) : Nat :=
  ((List.range w).filter (fun x => decide (pixel s w x y / 8 = b))).length

/-- The histogram of BIN_GLOBAL at bucket b: the rows floor(H*k/5) for k = 1 to 4 (42_binarizer R290). -/
def fourRowCount (s : State) (w h b : Nat) : Nat :=
  rowCount s w (h * 1 / 5) b + rowCount s w (h * 2 / 5) b + rowCount s w (h * 3 / 5) b + rowCount s w (h * 4 / 5) b

/-- Where block i of a dimension d starts (42_binarizer R296). -/
def blockStart (i d : Nat) : Nat := min (8 * i) (d - 8)

/-- `a` is the block average of block (bx, yb) of a w x h image (42_binarizer R295): of the 64 samples, `sum >> 6`
where the largest exceeds the smallest by more than 24, else half the smallest. -/
def isBlockAverage (s : State) (w h bx yb a : Nat) : Prop :=
  ∃ mn mx,
    (∀ i j, i < 8 → j < 8 → mn ≤ pixel s w (blockStart bx w + i) (blockStart yb h + j) ∧
      pixel s w (blockStart bx w + i) (blockStart yb h + j) ≤ mx) ∧
    (∃ i j, i < 8 ∧ j < 8 ∧ pixel s w (blockStart bx w + i) (blockStart yb h + j) = mn) ∧
    (∃ i j, i < 8 ∧ j < 8 ∧ pixel s w (blockStart bx w + i) (blockStart yb h + j) = mx) ∧
    a = if 24 < mx - mn then
        (∑ j ∈ Finset.range 8, ∑ i ∈ Finset.range 8, pixel s w (blockStart bx w + i) (blockStart yb h + j)) / 64
      else mn / 2

/-- The threshold of block (bx, yb) from the block averages (42_binarizer R295, R297): the mean of the 25 averages around
the block, the centre moved inside the grid of nx by ny blocks. -/
def thresholdFrom (avg : Nat → Nat → Nat) (nx ny bx yb : Nat) : Nat :=
  (∑ dy ∈ Finset.range 5, ∑ dx ∈ Finset.range 5,
    avg (min (max bx 2) (nx - 3) + dx - 2) (min (max yb 2) (ny - 3) + dy - 2)) / 25

/-! ## Binary32 -/

/-- The rational value of a finite binary32 (30_encoding R147); none for NaN and the infinities. -/
def finiteValue (v : Word) : Option ℚ :=
  match unpack32 v with
  | .finite neg m e => some ((if neg then -1 else 1) * (m : ℚ) * (2 : ℚ) ^ e)
  | _ => none

/-- The binary32 pattern is a NaN. -/
def isNaN (v : Word) : Prop := v.toNat / 2 ^ 23 % 256 = 255 ∧ v.toNat % 2 ^ 23 ≠ 0

/-- `r` is the exact value `q` rounded once to binary32, to nearest, ties to even (43_perspective R320): no finite
binary32 is nearer, of two equally near ones `r` is the one with an even significand, and from 2^128 - 2^103 on the
result is the infinity of the sign. -/
def roundedOnce (q : ℚ) (r : Word) : Prop :=
  (|q| < 2 ^ 128 - 2 ^ 103 →
    ∃ x, finiteValue r = some x ∧
      ∀ z y, finiteValue z = some y → |x - q| ≤ |y - q| ∧ (|y - q| = |x - q| → y = x ∨ r.getLsbD 0 = false)) ∧
  (2 ^ 128 - 2 ^ 103 ≤ |q| → r = if q < 0 then 0xFF800000 else 0x7F800000)

/-- A rational number truncated toward zero. -/
def truncated (q : ℚ) : Int := if q < 0 then -⌊-q⌋ else ⌊q⌋

/-- The binary32 pattern is an infinity. -/
def isInf (v : Word) : Prop := v = 0x7F800000 ∨ v = 0xFF800000

/-- The infinity whose sign is that of a product or a quotient of `a` and `b`. -/
def infOfSigns (a b : Word) : Word := if a.getLsbD 31 = b.getLsbD 31 then 0x7F800000 else 0xFF800000

/-! ## Sampling -/

/-- Both coordinates of a point convert to pixel indices. -/
def convertible (p : Point) : Prop := ∃ i j, toInt32 p.x = some i ∧ toInt32 p.y = some j

/-- A point at most one pixel outside a w x h image (43_perspective R329). -/
def onMargin (w h : Nat) (p : Point) : Prop :=
  ∃ i j : Int, toInt32 p.x = some i ∧ toInt32 p.y = some j ∧ -1 ≤ i ∧ i ≤ w ∧ -1 ≤ j ∧ j ≤ h

/-- A point with a coordinate exactly one pixel outside a w x h image, which the nudge moves (43_perspective R329). -/
def oneOutside (w h : Nat) (p : Point) : Prop :=
  toInt32 p.x = some (-1) ∨ toInt32 p.x = some (w : Int) ∨ toInt32 p.y = some (-1) ∨ toInt32 p.y = some (h : Int)

/-- A coordinate one pixel outside 0 .. d-1 put onto the edge, any other one kept (43_perspective R329). -/
def edgeCoord (d : Nat) (v : Word) : Word :=
  if toInt32 v = some (-1) then 0 else if toInt32 v = some (d : Int) then natTo32 (d - 1) else v

/-- A point with each coordinate that is one pixel outside put onto the edge (43_perspective R329). -/
def ontoEdge (w h : Nat) (p : Point) : Point := { x := edgeCoord w p.x, y := edgeCoord h p.y }

/-- The pixel of a w x h image that a point truncates to is (i, j) (43_perspective R328). -/
def inPixel (w h : Nat) (p : Point) (i j : Nat) : Prop :=
  toInt32 p.x = some (i : Int) ∧ toInt32 p.y = some (j : Int) ∧ i < w ∧ j < h

/-- The mapped cell centres of grid row y (43_perspective R345). -/
def samplePoints (s : State) (d y : Nat) : List Point :=
  (List.range d).map (fun x => mapPoint s.regs.t { x := halfPast32 x, y := halfPast32 y })

/-- Row y samples pixels only: after the nudge each of its points lies in the image (43_perspective R345). -/
def rowInside (s : State) (w h d y : Nat) : Prop :=
  ∃ qs, nudge w h y (samplePoints s d y) = .ok qs ∧ ∀ q ∈ qs, ∃ i j, inPixel w h q i j

/-- `t` is `s` after a PT_SAMPLE that gave cell (x, y) the BM bit at (px x y, py x y): padding is clear, and nothing
else but the outcome changed (43_perspective R345). -/
def gridSampled (s t : State) (w d : Nat) (px py : Nat → Nat → Nat) : Prop :=
  t = withOutcome { s with mem := t.mem } .ok 0 0 ∧
    (∀ x y, x < 32 * ((d + 31) / 32) → y < d → bitAt t 0x80000 d x y =
      (decide (x < d) && bitAt s 0x100000 w (px x y) (py x y))) ∧
    sameExcept s t [(0x80000, 0x80000 + 4 * (d * ((d + 31) / 32)))]

/-! ## Text -/

/-- The character of a half-codeword 0 to 26 in sub-mode ALPHA (44_bitstream R378). -/
def alphaChar (h : Nat) : Byte := if h = 26 then 0x20 else BitVec.ofNat 8 (0x41 + h)

/-- The value of numerals, most significant first, in a base. -/
def numeral (base : Nat) (ds : List Nat) : Nat := ds.foldl (fun v d => v * base + d) 0

/-- The characters of half-codewords in a text sub-mode with a pending shift (44_bitstream R379). -/
def textRun : SubMode → Shift → List Nat → List Byte
  | _, _, [] => []
  | sub, .ps, h :: hs =>
    match textEntry .punct h with
    | .char b => b :: textRun sub .none hs
    | _ => textRun .alpha .none hs
  | sub, .as, h :: hs => if h ≤ 26 then alphaChar h :: textRun sub .none hs else textRun sub .none hs
  | sub, .none, h :: hs =>
    match textEntry sub h with
    | .char b => b :: textRun sub .none hs
    | .to sub' => textRun sub' .none hs
    | .shift sh => textRun sub sh hs

/-- The data codewords after the latch in CW[1], up to the descriptor's count (44_bitstream R370). -/
def latchedData (s : State) : List Nat := (List.range (cwAt s 0 - 2)).map (fun k => cwAt s (k + 2))

/-- A stream of data codewords alone after a latch in CW[1]: CW_LEN and the descriptor are accepted (44_bitstream R371). -/
def latchedStream (s : State) (latch : Nat) : Prop :=
  s.regs.cwLen.toNat ≤ 1024 ∧ 3 ≤ cwAt s 0 ∧ cwAt s 0 ≤ s.regs.cwLen.toNat ∧ cwAt s 1 = latch ∧
    ∀ v ∈ latchedData s, v < 900

/-- The six base-256 digits of a value, most significant first (44_bitstream R383). -/
def sixBytesOf (v : Nat) : List Byte := (List.range 6).map (fun j => BitVec.ofNat 8 (v / 256 ^ (5 - j)))

/-- Decimal digits as ASCII (44_bitstream R386). -/
def asciiDigits (ds : List Nat) : List Byte := ds.map (fun d => BitVec.ofNat 8 (0x30 + d))

/-- A numeric group and its digits: 1 to 15 codewords whose base-900 value has the decimal numeral `1` followed by the
digits (44_bitstream R385, R386). -/
def numericGroup (g : List Nat × List Nat) : Prop :=
  1 ≤ g.1.length ∧ g.1.length ≤ 15 ∧ (∀ d ∈ g.2, d < 10) ∧ numeral 900 g.1 = numeral 10 (1 :: g.2)

/-- `t` is `s` after a parser command that failed with FORMAT (44_bitstream R390): OUT_LEN is 0, every OUT byte is
UNKNOWN, nothing else but the outcome changed. -/
def parserFailed (s t : State) (detail : Byte) (index : Nat) : Prop :=
  t = withOutcome { s with mem := t.mem, marks := t.marks, draws := t.draws, regs := { s.regs with outLen := 0 } }
      .format detail index ∧
    freshRange s t 0x5000 0x6000 ∧ sameExcept s t [(0x5000, 0x6000)]

/-- `t` is `s` after a parser command that succeeded with the output `out` (44_bitstream R390): OUT[0..n-1] and OUT_LEN
are written, nothing else but the outcome changed. -/
def parserWrote (s t : State) (out : List Byte) : Prop :=
  t = withOutcome { s with mem := t.mem, regs := { s.regs with outLen := BitVec.ofNat 13 out.length } } .ok 0 0 ∧
    out.length ≤ 4096 ∧ (∀ k (hk : k < out.length), readByte t (0x5000 + k) = out[k]) ∧
    sameExcept s t [(0x5000, 0x5000 + out.length)]

/-! ## Runs without bus errors -/

/-- A host access that the bus answers without an error: naturally aligned, in a window, of a size the window accepts
(20_memory R102, R105). -/
def goodAccess (a : Access) : Prop :=
  a.off.toNat % a.size.bytes = 0 ∧
    ∃ w ∈ Window.all, w.base ≤ a.off.toNat ∧ a.off.toNat < w.base + w.size ∧ (a.size = .word ∨ w = .out ∨ w = .lum)

/-- Every access that waits at the port is a good one. -/
def goodInputs (s : State) : Prop := ∀ a, Input.access a ∈ s.inputs → goodAccess a

/-! ## Which commands write what -/

/-- The commands that write a buffer: the "engine" column of 10_state R38. -/
def writersOf : Window → List Instr
  | .cw => [.rsDecode, .sldCheck, .cwPipeline]
  | .syn => [.rsSyndrome, .rsDecode, .cwPipeline]
  | .sigma => [.rsDecode, .cwPipeline]
  | .omega => [.rsDecode, .cwPipeline]
  | .eloc => [.rsDecode, .cwPipeline]
  | .out => [.dbsDecode, .numB900, .cwPipeline]
  | .hist => [.binRow, .binGlobal, .binHybrid]
  | .row => [.binRow]
  | .bm => [.binGlobal, .binHybrid]
  | .grid => [.ptSample]
  | .era => []
  | .lum => []
  | .registers => []

/-- The result registers that a command writes, of those that have an offset of their own, STATUS and ERRINFO apart: the
"results written" column of 30_encoding R143. -/
def resultRegs : Instr → List RegName
  | .nop => []
  | .gfAdd => [.gfR]
  | .gfMul => [.gfR]
  | .gfInv => [.gfR]
  | .gfExp => [.gfR]
  | .gfLog => [.gfR]
  | .rsSyndrome => [.rsFlags]
  | .rsDecode => [.rsNerr, .rsDeg, .rsFlags]
  | .sldCheck => []
  | .binRow => [.blackPt]
  | .binGlobal => [.blackPt, .binUsed]
  | .binHybrid => [.blackPt, .binUsed]
  | .ptSolve => [.tA11, .tA21, .tA31, .tA12, .tA22, .tA32, .tA13, .tA23, .tA33]
  | .ptMap => [.ptOutX, .ptOutY]
  | .ptSample => []
  | .dbsDecode => [.outLen]
  | .numB900 => [.outLen]
  | .cwPipeline => [.rsNerr, .rsDeg, .rsFlags, .outLen]

/-- BIN_HYBRID's fall-back case: the size check of 42_binarizer R271 passes and a dimension is below 40 (R295). -/
abbrev fallsBack (s : State) : Prop :=
  (0 < s.regs.imgW.toNat ∧ s.regs.imgW.toNat ≤ 2048 ∧ 0 < s.regs.imgH.toNat ∧ s.regs.imgH.toNat ≤ 2048) ∧
    (s.regs.imgW.toNat < 40 ∨ s.regs.imgH.toNat < 40)

/-- The registers with an offset of their own that a running command writes by the list "flags written" of its rule,
STATUS and ERRINFO apart, the conditions of the list decided by the operands. -/
def mayWriteRegs (s : State) (i : Instr) : List RegName :=
  if (i = .gfInv ∨ i = .gfLog) ∧ s.regs.gfA = 0 then []
  else if i = .binHybrid ∧ ¬ fallsBack s then [.binUsed]
  else resultRegs i

/-- The offsets of BM that a BIN command writes: the words 0 to H*ceil(W/32)-1, as far as the window goes. -/
def bmRange (w h : Nat) : Nat × Nat := (0x100000, 0x100000 + min (4 * (h * ((w + 31) / 32))) 0x80000)

/-- The offsets of buffers that a running command may write by the list "flags written" of its rule, the conditions of
the list decided by the operands; a range ends with its window (log 10). -/
def mayWrite (s : State) : Instr → List (Nat × Nat)
  | .rsSyndrome => [(0x3000, 0x3800)]
  | .rsDecode => (0x1000, 0x1000 + min (4 * s.regs.cwLen.toNat) 0x1000) :: decodeBuffers
  | .sldCheck =>
    if 4 ≤ s.regs.cwLen.toNat ∧ s.regs.cwLen.toNat ≤ 1024 ∧ cwAt s 0 = 0 ∧ s.regs.nec.toNat < s.regs.cwLen.toNat
    then [(0x1000, 0x1004)] else []
  | .binRow => [(0x900, 0x980), (0x800, 0x800 + min (4 * ((s.regs.imgW.toNat + 31) / 32)) 0x100)]
  | .binGlobal => [(0x900, 0x980), bmRange s.regs.imgW.toNat s.regs.imgH.toNat]
  | .binHybrid =>
    if fallsBack s
    then [(0x900, 0x980), bmRange s.regs.imgW.toNat s.regs.imgH.toNat]
    else [bmRange s.regs.imgW.toNat s.regs.imgH.toNat]
  | .ptSample =>
    [(0x80000, 0x80000 + min (4 * (s.regs.gridDim.toNat * ((s.regs.gridDim.toNat + 31) / 32))) 0x20000)]
  | .dbsDecode => [(0x5000, 0x6000)]
  | .numB900 => [(0x5000, 0x6000)]
  | .cwPipeline => (0x1000, 0x1000 + min (4 * s.regs.cwLen.toNat) 0x1000) :: (0x5000, 0x6000) :: decodeBuffers
  | .nop => []
  | .gfAdd => []
  | .gfMul => []
  | .gfInv => []
  | .gfExp => []
  | .gfLog => []
  | .ptSolve => []
  | .ptMap => []

/-- An offset lies in one of some ranges. -/
def within (ranges : List (Nat × Nat)) (a : Nat) : Prop := ∃ r ∈ ranges, r.1 ≤ a ∧ a < r.2

/-- The low bits of a word that an access of a size carries. -/
def lowBits (size : Size) (v : Word) : Word := BitVec.ofNat 32 (v.toNat % 2 ^ (8 * size.bytes))

/-! ## Invariants -/

/-- What the registers hold beside the engine in every state a run reaches: the outcome of the last command while
IDLE, nothing of it while RUNNING, and the result registers in their ranges. -/
structure ResultInv (s : State) : Prop where
  /-- ERR stands only with an error code (60_exceptions R455) -/
  err_code : s.regs.err = true → s.regs.errcode ≠ .ok
  /-- ERRINFO is 0 when the code is OK (60_exceptions R455) -/
  ok_info : s.regs.errcode = .ok → s.regs.detail = 0 ∧ s.regs.index = 0
  /-- a running command is the word in CMD, and the flags of the one before are cleared (30_encoding R140) -/
  running : ∀ w left, s.eng = .running w left →
    s.regs.cmd = w ∧ s.regs.done = false ∧ s.regs.err = false ∧ s.regs.errcode = .ok
  /-- OUT_LEN is at most OUT_MAX (44_bitstream R390) -/
  out_len : s.regs.outLen.toNat ≤ 4096
  /-- RS_NERR is RS_DEG, at most 255 (41_reed_solomon R236, R240) -/
  nerr_deg : s.regs.rsNerr = s.regs.rsDeg ∧ s.regs.rsNerr.toNat ≤ 255
  /-- BLACKPT is a multiple of 8, at most 248 (42_binarizer R275) -/
  black_point : s.regs.blackPt.toNat % 8 = 0 ∧ s.regs.blackPt.toNat ≤ 248

end Sys2Proof.Safety
end

