-- ==== Sys2Proof/Certificates/Slice0/Obligations.lean ====
section
/-! DEFINITION. The statements for the provers, family by family. A statement about a command gives the whole next state
of its completion step: `withOutcome s …` is `s` with STATUS, ERRINFO and the engine as the completion leaves them, and
what else changed is named beside it. -/

section

open Sys2Proof Sys2Proof.Machine Sys2Proof.Safety

/-! ## Encoding and the step -/

/-- A few command words, written out from the opcode map, decode to their commands (30_encoding R142). -/
def Obligations.CommandWordsDecode : Prop :=
  decode 0x00000000 = .command .nop ∧ decode 0x00000001 = .command .gfAdd ∧ decode 0x00000002 = .command .gfMul ∧
  decode 0x00000003 = .command .gfInv ∧ decode 0x00000004 = .command .gfExp ∧ decode 0x00000005 = .command .gfLog ∧
  decode 0x00000010 = .command .rsSyndrome ∧ decode 0x00000011 = .command .rsDecode ∧
  decode 0x00000012 = .command .sldCheck ∧ decode 0x00000020 = .command .binRow ∧
  decode 0x00000021 = .command .binGlobal ∧ decode 0x00000022 = .command .binHybrid ∧
  decode 0x00000030 = .command .ptSolve ∧ decode 0x00000031 = .command .ptMap ∧
  decode 0x00000032 = .command .ptSample ∧ decode 0x00000040 = .command .dbsDecode ∧
  decode 0x00000041 = .command .numB900 ∧ decode 0x00000050 = .command .cwPipeline

/-- Decoding an encoded command gives it back, a word that decodes to a command is its encoding, and the well-formed
words are the ones that decode to a command (30_encoding R141, R142, R144). -/
def Obligations.DecodeAndEncodeAgree : Prop :=
  (∀ i : Instr, i.wellFormed = true → decode (encode i) = .command i) ∧
  (∀ (w : Word) (i : Instr), decode w = .command i → w = encode i) ∧
  (∀ w : Word, wellFormedWord w = true ↔ ∃ i, decode w = .command i)

/-- A word with RSVD not 0, or with a reserved OPCODE, completes ILLEGAL and changes nothing else; the RSVD check comes
first (30_encoding R141, R142). -/
def Obligations.ReservedWordsCompleteIllegal : Prop :=
  ∀ (s : State) (w : Word),
    (w.toNat / 256 ≠ 0 → completionStep w s = .next (withOutcome s .illegal 0x71 0)) ∧
    (w.toNat / 256 = 0 → w.toNat % 256 ∉ [0x00, 0x01, 0x02, 0x03, 0x04, 0x05, 0x10, 0x11, 0x12, 0x20, 0x21, 0x22, 0x30,
      0x31, 0x32, 0x40, 0x41, 0x50] → completionStep w s = .next (withOutcome s .illegal 0x70 0))

/-- A step of a running command whose latency is over runs the command its word decodes to, and nothing more; so does
the step after `withFetchWord` (20_memory R112; how a word comes to run: logs 1 and 3). -/
def Obligations.StepRunsTheDecodedCommand : Prop :=
  (∀ (s : State) (w : Word) (i : Instr), s.eng = .running w 0 → decode w = .command i → i.wellFormed = true →
    step s = exec i s) ∧
  (∀ (s : State) (i : Instr), i.wellFormed = true →
    step (s.withFetchWord 32 (encode i).toNat) = exec i (issueWith 0 (encode i) s))

/-- A running word, a reserved one too, completes after its latency whatever the port does: n cycles without an access
leave everything but the countdown as it was, and the next step is the completion step; a good access that arrives while
the word counts down is performed on the state with the countdown one lower, and the word runs on unless the access is a
soft reset, which ends it; and the outcome depends neither on the countdown nor on the outcome of the command before it
(70_reset R511, R512, 10_state R41). The countdown and the list of inputs with its idle cycles and its empty end are the
model's choices: logs 1 and 2. -/
def Obligations.CommandsCompleteWhateverTheLatency : Prop :=
  (∀ (s : State) (w : Word) (n : Nat), s.eng = .running w n →
    (s.inputs = [] →
      core.run n s = .next { s with eng := .running w 0 } ∧
      step { s with eng := .running w 0 } = completionStep w { s with eng := .running w 0 } ∧
      ∀ i, decode w = .command i →
        step { s with eng := .running w 0 } = exec i { s with eng := .running w 0 }) ∧
    (∀ rest, s.inputs = List.replicate n .idle ++ rest →
      core.run n s = .next { s with eng := .running w 0, inputs := rest } ∧
      step { s with eng := .running w 0, inputs := rest } =
        completionStep w { s with eng := .running w 0, inputs := rest } ∧
      ∀ i, decode w = .command i →
        step { s with eng := .running w 0, inputs := rest } = exec i { s with eng := .running w 0, inputs := rest })) ∧
  (∀ (s : State) (w : Word) (n : Nat) (a : Access) (rest : List Input), s.eng = .running w (n + 1) →
    s.inputs = .access a :: rest → goodAccess a →
    let r := hostAccess { s with eng := .running w n, inputs := rest } a
    step s = .next { r.2 with reply := some r.1 } ∧ r.2.inputs = rest ∧
    ((∀ v : Word, v.getLsbD 0 = true → a ≠ .write 0x018 .word v) → r.2.eng = .running w n) ∧
    (∀ v : Word, v.getLsbD 0 = true → a = .write 0x018 .word v → r.2.eng = .idle)) ∧
  (∀ (w : Word) (s : State) (e : Engine) (d r : Bool) (c : ErrCode) (x : Byte) (y : BitVec 16),
    completionStep w
        { s with eng := e, regs := { s.regs with done := d, err := r, errcode := c, detail := x, index := y } } =
      completionStep w s) ∧
  (∀ (i : Instr) (s : State) (e : Engine) (d r : Bool) (c : ErrCode) (x : Byte) (y : BitVec 16),
    exec i { s with eng := e, regs := { s.regs with done := d, err := r, errcode := c, detail := x, index := y } } =
      exec i s)

/-- Every command word has a completion step, which sets BUSY, DONE, ERR, ERRCODE (STATUS bits 7 to 4, the number of the
outcome's code) and ERRINFO as rule R455 says and leaves WERR (60_exceptions R455; the numbers: R450). -/
def Obligations.EveryWordCompletes : Prop :=
  ∀ (s : State) (w : Word), ∃ t, completionStep w s = .next t ∧ t.eng = .idle ∧
    (readReg t .status).getLsbD 0 = false ∧ (readReg t .status).getLsbD 1 = true ∧
    (readReg t .status).getLsbD 2 = decide (t.regs.errcode ≠ .ok) ∧
    (readReg t .status).getLsbD 3 = s.regs.werr ∧
    (readReg t .status).toNat / 16 = codeNumber t.regs.errcode ∧
    readReg t .errInfo = t.regs.index ++ (0 : Byte) ++ t.regs.detail ∧
    (t.regs.errcode = .ok → readReg t .errInfo = 0)

/-- A command writes only the buffers and the registers that the tables of 10_state R38 and 30_encoding R143 name:
every byte of every other buffer, and every other register but STATUS and ERRINFO, reads as before. -/
def Obligations.CommandsWriteOnlyTheirResults : Prop :=
  ∀ (i : Instr) (s t : State), exec i s = .next t →
    (∀ (b : Window) (a : Nat), b.contains a = true → i ∉ writersOf b → readByte t a = readByte s a) ∧
    (∀ r : RegName, r ∉ resultRegs i → r ≠ .status → r ≠ .errInfo → readReg t r = readReg s r) ∧
    t.regs.werr = s.regs.werr ∧ t.inputs = s.inputs ∧ t.reply = s.reply ∧ t.latencies = s.latencies

/-- If every access that waits at the port is a good one, a step answers a next state in which that still holds; and no
step is ever refused (20_memory R107, 60_exceptions R457). -/
def Obligations.GoodInputsNeverFault : Prop :=
  (∀ s : State, goodInputs s → ∃ t, step s = .next t ∧ goodInputs t) ∧
  (∀ (s : State) (r : Refusal), step s ≠ .refused r)

/-! ## Invariants -/

/-- Every step keeps the canonical form of the memory: offsets strictly rising, each one that a buffer holds. -/
def Obligations.StepKeepsTheMemoryCanonical : Prop :=
  ∀ s t : State, Memory.wf s.mem → step s = .next t → Memory.wf t.mem

/-- Every step keeps what STATUS, ERRINFO, CMD and the result registers hold beside the engine. -/
def Obligations.StepKeepsTheResultRegisters : Prop :=
  ∀ s t : State, ResultInv s → step s = .next t → ResultInv t

/-- Both invariants hold right after reset. -/
def Obligations.ResetMeetsTheInvariants : Prop :=
  Memory.wf State.reset.mem ∧ ResultInv State.reset

/-! ## The port -/

/-- Issue and acknowledgement. A 32-bit write to CMD while BUSY = 0 issues the command; while BUSY = 1 it is dropped with
WERR; of another size it is a bus error without effect (30_encoding R140). The host acknowledges by writing ones to
STATUS: each one clears its flag, a zero leaves it, ERRCODE and ERRINFO stay until the next issue, and a command may be
issued whatever DONE and ERR are (60_exceptions R456). STATUS.BUSY, bit 0, reads 1 exactly while a command runs, so from
its issue to its completion step (10_state R41, 70_reset R506). -/
def Obligations.CmdWriteIssuesAndStatusWriteAcknowledges : Prop :=
  (∀ (s : State) (w : Word),
    (s.eng = .idle → ∃ n later, hostAccess s (.write 0x008 .word w) =
      ({ error := false, data := 0 },
       { s with
         eng := .running w n
         latencies := later
         regs := { s.regs with cmd := w, done := false, err := false, errcode := .ok, detail := 0, index := 0 } })) ∧
    (s.eng ≠ .idle → hostAccess s (.write 0x008 .word w) =
      ({ error := false, data := 0 }, { s with regs := { s.regs with werr := true } })) ∧
    (∀ size : Size, size ≠ .word → hostAccess s (.write 0x008 size w) = ({ error := true, data := 0 }, s))) ∧
  (∀ (s : State) (v : Word), hostAccess s (.write 0x00C .word v) =
    ({ error := false, data := 0 },
     { s with
       regs :=
         { s.regs with
           done := if v.getLsbD 1 then false else s.regs.done
           err := if v.getLsbD 2 then false else s.regs.err
           werr := if v.getLsbD 3 then false else s.regs.werr } })) ∧
  (∀ (s : State) (w : Word), s.eng = .idle →
    let t := (hostAccess s (.write 0x008 .word w)).2
    (∃ n, t.eng = .running w n) ∧ t.regs.done = false ∧ t.regs.err = false ∧ t.regs.errcode = .ok ∧
      readReg t .errInfo = 0 ∧ (readReg t .status).getLsbD 0 = true) ∧
  (∀ s : State, (readReg s .status).getLsbD 0 = true ↔ s.eng ≠ .idle)

/-- The IRQ output is the formula of rule R458 over STATUS and IRQ_EN as they read; it rises at the completion step and
at a dropped write, falls at an acknowledgement, at the clearing of the enables, at an issue (WERR apart) and at a
reset, and is 0 after reset (60_exceptions R458). -/
def Obligations.IrqFollowsFlagsAndEnables : Prop :=
  (∀ s : State, irq s =
    (((readReg s .status).getLsbD 1 && (readReg s .irqEn).getLsbD 0) ||
      (((readReg s .status).getLsbD 2 || (readReg s .status).getLsbD 3) && (readReg s .irqEn).getLsbD 1))) ∧
  (∀ (s t : State) (w : Word), s.regs.doneIe = true → completionStep w s = .next t → irq t = true) ∧
  (∀ (s : State) (w : Word), s.regs.errIe = true → s.eng ≠ .idle →
    irq (hostAccess s (.write 0x008 .word w)).2 = true) ∧
  (∀ s : State, irq (hostAccess s (.write 0x00C .word 0xE)).2 = false) ∧
  (∀ s : State, irq (hostAccess s (.write 0x010 .word 0)).2 = false) ∧
  (∀ (s : State) (w : Word), s.eng = .idle → s.regs.werr = false →
    irq (hostAccess s (.write 0x008 .word w)).2 = false) ∧
  (∀ s : State, irq (hostAccess s (.write 0x018 .word 1)).2 = false) ∧
  (∀ s : State, irq (powerOnReset s) = false) ∧ irq State.reset = false

/-- A misaligned, wrong-size or unmapped access is a bus error: it answers 0 with an error and changes no state, and the
step that takes it is the fault of the host program; every other access answers without an error (20_memory R107). -/
def Obligations.BusErrorsChangeNothing : Prop :=
  (∀ (s : State) (a : Access), ¬ goodAccess a → hostAccess s a = ({ error := true, data := 0 }, s)) ∧
  (∀ (s : State) (a : Access), goodAccess a → (hostAccess s a).1.error = false) ∧
  (∀ (s : State) (a : Access) (rest : List Input), s.eng = .idle → s.inputs = .access a :: rest →
    ¬ goodAccess a → step s = .fault (.busError a)) ∧
  (∀ (s : State) (a : Access) (rest : List Input) (w : Word) (n : Nat), s.eng = .running w (n + 1) →
    s.inputs = .access a :: rest → ¬ goodAccess a → step s = .fault (.busError a)) ∧
  (∀ (s : State) (a : Access) (rest : List Input), s.eng = .idle → s.inputs = .access a :: rest →
    goodAccess a → step s =
      .next { (hostAccess { s with inputs := rest } a).2 with
        reply := some (hostAccess { s with inputs := rest } a).1 })

/-- Byte order is little-endian: a read of n bytes returns them with the lowest offset in bits [7:0], and in LUM a write of
n bytes stores them so, all other bytes left; only LUM and OUT take accesses of 1 and 2 bytes (20_memory R104). -/
def Obligations.BytesAreLittleEndian : Prop :=
  (∀ (s : State) (o : Nat) (b : Window), s.eng = .idle → b ≠ .registers → b.contains o = true → o % 4 = 0 →
    hostAccess s (.read (BitVec.ofNat 23 o) .word) =
      ({ error := false, data := readByte s (o + 3) ++ readByte s (o + 2) ++ readByte s (o + 1) ++ readByte s o }, s)) ∧
  (∀ (s : State) (o : Nat) (b : Window) (size : Size), o < 0x800000 → b ≠ .out → b ≠ .lum → b.contains o = true →
    size ≠ .word → hostAccess s (.read (BitVec.ofNat 23 o) size) = ({ error := true, data := 0 }, s)) ∧
  (∀ (s : State) (o : Nat), s.eng = .idle →
    (0x400000 ≤ o ∧ o < 0x800000 ∨ 0x5000 ≤ o ∧ o < 0x6000) →
    (hostAccess s (.read (BitVec.ofNat 23 o) .byte) = ({ error := false, data := (readByte s o).setWidth 32 }, s)) ∧
    (o % 2 = 0 → hostAccess s (.read (BitVec.ofNat 23 o) .half) =
      ({ error := false, data := (readByte s (o + 1) ++ readByte s o).setWidth 32 }, s))) ∧
  (∀ (s : State) (o : Nat) (size : Size) (v : Word), s.eng = .idle → 0x400000 ≤ o → o < 0x800000 →
    o % size.bytes = 0 →
    let t := (hostAccess s (.write (BitVec.ofNat 23 o) size v)).2
    t = { s with mem := t.mem } ∧ sameExcept s t [(o, o + size.bytes)] ∧
      ∀ j, j < size.bytes → readByte t (o + j) = v.extractLsb' (8 * j) 8)

/-- Reserved register offsets read 0; writes to them, to read-only registers and to read-only windows are ignored and no
bus error; a write to a word element stores its defined bits only, and the others read 0 (20_memory R106). -/
def Obligations.ReservedAndReadOnlyAreIgnored : Prop :=
  (∀ (s : State) (k : Nat), 53 ≤ k → k < 64 →
    hostAccess s (.read (BitVec.ofNat 23 (4 * k)) .word) = ({ error := false, data := 0 }, s) ∧
    ∀ v, hostAccess s (.write (BitVec.ofNat 23 (4 * k)) .word v) = ({ error := false, data := 0 }, s)) ∧
  (∀ (s : State) (v : Word), ∀ k ∈ [0, 1, 5, 7, 10, 11, 15, 16, 17, 21, 22, 51, 52],
    hostAccess s (.write (BitVec.ofNat 23 (4 * k)) .word v) = ({ error := false, data := 0 }, s)) ∧
  (∀ (s : State) (off : Offset) (size : Size) (v : Word), goodAccess (.write off size v) →
    (∃ b ∈ [Window.row, .hist, .syn, .eloc, .sigma, .omega, .out, .grid], b.contains off.toNat = true) →
    hostAccess s (.write off size v) = ({ error := false, data := 0 }, s)) ∧
  (∀ (s : State) (o : Nat) (v : Word), s.eng = .idle → o % 4 = 0 →
    (0x1000 ≤ o ∧ o < 0x3000 ∨ 0x100000 ≤ o ∧ o < 0x180000) →
    let t := (hostAccess s (.write (BitVec.ofNat 23 o) .word v)).2
    t = { s with mem := t.mem } ∧ sameExcept s t [(o, o + 4)] ∧
      readWord t o = if o < 0x3000 then v &&& 0xFFFF else v) ∧
  (∀ (s : State) (i : Nat),
    (i < 2048 → (readWord s (0x1000 + 4 * i)).toNat < 2 ^ 16) ∧ (i < 512 → (readWord s (0x3000 + 4 * i)).toNat < 2 ^ 8) ∧
    (i < 256 → (readWord s (0x3800 + 4 * i)).toNat < 2 ^ 24) ∧ (i < 1024 → (readWord s (0x4000 + 4 * i)).toNat < 2 ^ 8))

/-- Host writes while BUSY = 1: STATUS, IRQ_EN and CTRL are written as while idle; a write to CMD, to a RW register or to
a RW window stores nothing and sets WERR; a write to a read-only register or window or to a reserved offset is
ignored, a bus error too, and neither sets WERR; the IRQ output rises with WERR (70_reset R505). -/
def Obligations.WritesWhileBusyAreDropped : Prop :=
  ∀ (s : State), s.eng ≠ .idle →
    (∀ v, hostAccess s (.write 0x00C .word v) = ({ error := false, data := 0 },
      { s with
        regs :=
          { s.regs with
            done := if v.getLsbD 1 then false else s.regs.done
            err := if v.getLsbD 2 then false else s.regs.err
            werr := if v.getLsbD 3 then false else s.regs.werr } })) ∧
    (∀ v, hostAccess s (.write 0x010 .word v) = ({ error := false, data := 0 },
      { s with regs := { s.regs with doneIe := v.getLsbD 0, errIe := v.getLsbD 1 } })) ∧
    (∀ v, v.getLsbD 0 = false → hostAccess s (.write 0x018 .word v) = ({ error := false, data := 0 }, s)) ∧
    (∀ v, v.getLsbD 0 = true →
      (hostAccess s (.write 0x018 .word v)).2.eng = .idle ∧
      (hostAccess s (.write 0x018 .word v)).2.regs = State.reset.regs) ∧
    (∀ v k, (k ∈ [2, 8, 9, 12, 13, 14, 18, 19, 20, 23] ∨ 24 ≤ k ∧ k ≤ 50) →
      hostAccess s (.write (BitVec.ofNat 23 (4 * k)) .word v) =
        ({ error := false, data := 0 }, { s with regs := { s.regs with werr := true } })) ∧
    (∀ off size v, goodAccess (.write off size v) → (∃ b ∈ [Window.cw, .era, .bm, .lum], b.contains off.toNat = true) →
      hostAccess s (.write off size v) =
        ({ error := false, data := 0 }, { s with regs := { s.regs with werr := true } })) ∧
    (∀ v k, (k ∈ [0, 1, 5, 7, 10, 11, 15, 16, 17, 21, 22] ∨ 51 ≤ k ∧ k < 64) →
      hostAccess s (.write (BitVec.ofNat 23 (4 * k)) .word v) = ({ error := false, data := 0 }, s)) ∧
    (∀ off size v, goodAccess (.write off size v) →
      (∃ b ∈ [Window.row, .hist, .syn, .eloc, .sigma, .omega, .out, .grid], b.contains off.toNat = true) →
      hostAccess s (.write off size v) = ({ error := false, data := 0 }, s)) ∧
    (∀ off size v, ¬ goodAccess (.write off size v) →
      hostAccess s (.write off size v) = ({ error := true, data := 0 }, s)) ∧
    (s.regs.errIe = true → irq { s with regs := { s.regs with werr := true } } = true)

/-- Reads change no register, no byte of a buffer, no flag and nothing at the port; while idle they change nothing at all
and return the value. While a command runs, its result registers, ERRINFO and the buffer elements that it may write read
as a fresh free value, and every other register and element reads exactly; while a reserved word runs, only ERRINFO reads
free (20_memory R108, R111, 70_reset R506; the free value: log 5; ERRINFO while BUSY: log 9; the lists of what a command
writes, and where a range ends: log 10: the model's choices). -/
def Obligations.ReadsHaveNoSideEffect : Prop :=
  (∀ (s : State) (off : Offset) (size : Size), ∃ n,
    (hostAccess s (.read off size)).2 = { s with draws := n } ∧ (s.eng = .idle → n = s.draws)) ∧
  (∀ (s : State) (k : Nat) (r : RegName), s.eng = .idle → RegName.all[k]? = some r →
    hostAccess s (.read (BitVec.ofNat 23 (4 * k)) .word) = ({ error := false, data := readReg s r }, s)) ∧
  (∀ (s : State) (w : Word) (n k : Nat) (r : RegName) (i : Instr), s.eng = .running w n → decode w = .command i →
    RegName.all[k]? = some r →
    ((r ∈ mayWriteRegs s i ∨ r = .errInfo) →
      (hostAccess s (.read (BitVec.ofNat 23 (4 * k)) .word)).1 =
        { error := false, data := Config.busyRead s.draws }) ∧
    (r ∉ mayWriteRegs s i → r ≠ .errInfo →
      hostAccess s (.read (BitVec.ofNat 23 (4 * k)) .word) = ({ error := false, data := readReg s r }, s))) ∧
  (∀ (s : State) (w : Word) (n : Nat) (off : Offset) (size : Size) (b : Window) (i : Instr), s.eng = .running w n →
    decode w = .command i → goodAccess (.read off size) → b ≠ .registers → b.contains off.toNat = true →
    (within (mayWrite s i) off.toNat → (hostAccess s (.read off size)).1 =
      { error := false, data := lowBits size (Config.busyRead s.draws) }) ∧
    (¬ within (mayWrite s i) off.toNat → hostAccess s (.read off size) =
      ({ error := false, data := lowBits size (readWord s off.toNat) }, s))) ∧
  (∀ (s : State) (w : Word) (n k : Nat) (r : RegName) (x : IllegalWord), s.eng = .running w n →
    decode w = .illegal x → RegName.all[k]? = some r →
    (r = .errInfo → (hostAccess s (.read (BitVec.ofNat 23 (4 * k)) .word)).1 =
      { error := false, data := Config.busyRead s.draws }) ∧
    (r ≠ .errInfo →
      hostAccess s (.read (BitVec.ofNat 23 (4 * k)) .word) = ({ error := false, data := readReg s r }, s))) ∧
  (∀ (s : State) (w : Word) (n : Nat) (off : Offset) (size : Size) (b : Window) (x : IllegalWord),
    s.eng = .running w n → decode w = .illegal x → goodAccess (.read off size) → b ≠ .registers →
    b.contains off.toNat = true → hostAccess s (.read off size) =
      ({ error := false, data := lowBits size (readWord s off.toNat) }, s))

/-- A 32-bit write to a RW register while idle stores the bits of its field, which a read returns with zeros above; the
binary32 registers hold all 32 bits as written. Every other register reads as before, and nothing but registers
changes. What each register reads in every state: its fields at their places with zeros in the reserved bits; ID, VERSION
and GF_PRIM are constants, and CTRL reads 0 (10_state R34, R35, R37). -/
def Obligations.RegistersReadBackTheirFields : Prop :=
  (∀ s : State,
    readReg s .id = 0x50444131 ∧ readReg s .version = 0x00010000 ∧ readReg s .gfPrim = 0x0002011D ∧
    readReg s .ctrl = 0 ∧ readReg s .cmd = s.regs.cmd ∧
    (readReg s .status).toNat = (if s.eng = .idle then 0 else 1) + 2 * s.regs.done.toNat + 4 * s.regs.err.toNat +
      8 * s.regs.werr.toNat + 16 * codeNumber s.regs.errcode ∧
    (readReg s .irqEn).toNat = s.regs.doneIe.toNat + 2 * s.regs.errIe.toNat ∧
    (readReg s .errInfo).toNat = s.regs.detail.toNat + 2 ^ 16 * s.regs.index.toNat ∧
    readReg s .gfA = s.regs.gfA.setWidth 32 ∧ readReg s .gfB = s.regs.gfB.setWidth 32 ∧
    readReg s .gfR = s.regs.gfR.setWidth 32 ∧ readReg s .rsFlags = (if s.regs.synNz then 1 else 0) ∧
    readReg s .cwLen = s.regs.cwLen.setWidth 32 ∧ readReg s .nec = s.regs.nec.setWidth 32 ∧
    readReg s .eraCnt = s.regs.eraCnt.setWidth 32 ∧ readReg s .rsNerr = s.regs.rsNerr.setWidth 32 ∧
    readReg s .rsDeg = s.regs.rsDeg.setWidth 32 ∧ readReg s .outLen = s.regs.outLen.setWidth 32 ∧
    readReg s .imgW = s.regs.imgW.setWidth 32 ∧ readReg s .imgH = s.regs.imgH.setWidth 32 ∧
    readReg s .rowY = s.regs.rowY.setWidth 32 ∧ readReg s .blackPt = s.regs.blackPt.setWidth 32 ∧
    readReg s .binUsed = (if s.regs.binUsed then 1 else 0) ∧ readReg s .gridDim = s.regs.gridDim.setWidth 32 ∧
    [RegName.imgX0, .imgY0, .imgX1, .imgY1, .imgX2, .imgY2, .imgX3, .imgY3].map (readReg s) =
      [s.regs.img.x0, s.regs.img.y0, s.regs.img.x1, s.regs.img.y1, s.regs.img.x2, s.regs.img.y2, s.regs.img.x3,
        s.regs.img.y3] ∧
    [RegName.grdX0, .grdY0, .grdX1, .grdY1, .grdX2, .grdY2, .grdX3, .grdY3].map (readReg s) =
      [s.regs.grd.x0, s.regs.grd.y0, s.regs.grd.x1, s.regs.grd.y1, s.regs.grd.x2, s.regs.grd.y2, s.regs.grd.x3,
        s.regs.grd.y3] ∧
    [RegName.tA11, .tA21, .tA31, .tA12, .tA22, .tA32, .tA13, .tA23, .tA33].map (readReg s) =
      [s.regs.t.a11, s.regs.t.a21, s.regs.t.a31, s.regs.t.a12, s.regs.t.a22, s.regs.t.a32, s.regs.t.a13, s.regs.t.a23,
        s.regs.t.a33] ∧
    readReg s .ptInX = s.regs.ptInX ∧ readReg s .ptInY = s.regs.ptInY ∧
    readReg s .ptOutX = s.regs.ptOutX ∧ readReg s .ptOutY = s.regs.ptOutY) ∧
  ∀ (s : State) (v : Word) (k n : Nat), s.eng = .idle →
    ((k, n) ∈ [(4, 2), (8, 8), (9, 8), (12, 11), (13, 11), (14, 11), (18, 12), (19, 12), (20, 12), (23, 11)] ∨
      24 ≤ k ∧ k ≤ 50 ∧ n = 32) →
    let t := (hostAccess s (.write (BitVec.ofNat 23 (4 * k)) .word v)).2
    t = { s with regs := t.regs } ∧
    (hostAccess t (.read (BitVec.ofNat 23 (4 * k)) .word)).1 = { error := false, data := BitVec.ofNat 32 (v.toNat % 2 ^ n) } ∧
    (∀ j, j < 64 → j ≠ k →
      (hostAccess t (.read (BitVec.ofNat 23 (4 * j)) .word)).1 = (hostAccess s (.read (BitVec.ofNat 23 (4 * j)) .word)).1) ∧
    t.regs.werr = s.regs.werr

/-! ## Reset -/

/-- After reset every register offset reads the reset column (0 but for ID, VERSION and GF_PRIM), the engine is IDLE,
IRQ is 0, and every buffer byte is UNKNOWN (10_state R34, R46, 70_reset R491, R494). -/
def Obligations.ResetRegisterValues : Prop :=
  (∀ k, k < 64 → hostAccess State.reset (.read (BitVec.ofNat 23 (4 * k)) .word) =
    ({ error := false,
       data := if k = 0 then 0x50444131 else if k = 1 then 0x00010000 else if k = 7 then 0x0002011D else 0 },
     State.reset)) ∧
  State.reset.eng = .idle ∧ irq State.reset = false ∧
  (∀ a, storedByte a = true → readByte State.reset a = Config.unknownByte 0 a)

/-- Soft reset while idle gives every register its reset value and changes no buffer element (70_reset R493); a CTRL
write with bit 0 = 0 does nothing (R490); power-on reset makes every buffer byte UNKNOWN besides (R491, R494). A step that
takes rst_n low performs it, while a command counts down too. That rst_n low is one input of the list `inputs`, taken by
the step unless a completion is due, is the model's choice: logs 2 and 12. -/
def Obligations.ResetsWhileIdle : Prop :=
  (∀ (s : State) (v : Word), s.eng = .idle → v.getLsbD 0 = true →
    hostAccess s (.write 0x018 .word v) = ({ error := false, data := 0 }, { s with regs := State.reset.regs })) ∧
  (∀ (s : State) (v : Word), v.getLsbD 0 = false →
    hostAccess s (.write 0x018 .word v) = ({ error := false, data := 0 }, s)) ∧
  (∀ s : State, ∃ t, takeInput .rstLow s = .next t ∧
    t = { s with mem := t.mem, marks := t.marks, draws := t.draws, eng := .idle, regs := State.reset.regs } ∧
    freshRange s t 0 0x800000) ∧
  (∀ (s : State) (rest : List Input), s.inputs = .rstLow :: rest → (∀ w, s.eng ≠ .running w 0) →
    ∃ t, step s = .next t ∧
      t = { s with
        mem := t.mem
        marks := t.marks
        draws := t.draws
        inputs := rest
        eng := .idle
        regs := State.reset.regs } ∧
      freshRange s t 0 0x800000)

/-- Soft reset while a command runs abandons it: the engine is IDLE, every register at its reset value; every buffer byte
that the command may write becomes UNKNOWN and every other one keeps its value; a reserved word leaves the buffers as
they are (70_reset R492; the lists of what a command may write, and where a range ends: log 10). -/
def Obligations.SoftResetAbandonsTheCommand : Prop :=
  ∀ (s : State) (w v : Word) (n : Nat), s.eng = .running w n → v.getLsbD 0 = true →
    ∃ t, hostAccess s (.write 0x018 .word v) = ({ error := false, data := 0 }, t) ∧
      t = { s with mem := t.mem, marks := t.marks, draws := t.draws, eng := .idle, regs := State.reset.regs } ∧
      (∀ i, decode w = .command i →
        (∀ r ∈ mayWrite s i, freshRange s t r.1 r.2) ∧ sameExcept s t (mayWrite s i) ∧
        ∀ (b : Window) (a : Nat), b.contains a = true → i ∉ writersOf b → readByte t a = readByte s a) ∧
      (∀ x, decode w = .illegal x → t = { s with eng := .idle, regs := State.reset.regs })

/-! ## GF(256) -/

/-- GF_ADD: the exclusive or; GF_MUL: 0 where an operand is 0, else the exponents of alpha add up modulo 255 (40_gf256
R195, R196, R183). -/
def Obligations.GfAddAndGfMulCombineTheOperands : Prop :=
  decode 0x00000001 = .command .gfAdd ∧ decode 0x00000002 = .command .gfMul ∧
  (∀ s : State, exec .gfAdd s =
    .next (withOutcome { s with regs := { s.regs with gfR := s.regs.gfA ^^^ s.regs.gfB } } .ok 0 0)) ∧
  (∀ s : State, (s.regs.gfA = 0 ∨ s.regs.gfB = 0) →
    exec .gfMul s = .next (withOutcome { s with regs := { s.regs with gfR := 0 } } .ok 0 0)) ∧
  (∀ (s : State) (i j : Nat), i < 255 → j < 255 → s.regs.gfA = alphaElem i → s.regs.gfB = alphaElem j →
    exec .gfMul s =
      .next (withOutcome { s with regs := { s.regs with gfR := alphaElem ((i + j) % 255) } } .ok 0 0))

/-- GF_INV: ARGUMENT 0x30 for 0, else the exponent of alpha is subtracted from 255 (40_gf256 R197, R184). -/
def Obligations.GfInvNegatesTheExponent : Prop :=
  decode 0x00000003 = .command .gfInv ∧
  (∀ s : State, s.regs.gfA = 0 → exec .gfInv s = .next (withOutcome s .argument 0x30 0)) ∧
  (∀ (s : State) (i : Nat), i < 255 → s.regs.gfA = alphaElem i →
    exec .gfInv s = .next (withOutcome { s with regs := { s.regs with gfR := alphaElem (255 - i) } } .ok 0 0))

/-- GF_EXP: the power of alpha; GF_LOG: ARGUMENT 0x31 for 0, else the exponent of alpha (40_gf256 R198, R199). Every
non-zero element is alpha^i for exactly one i in 0..254, which is its logarithm; 0 has none (R180, R181). -/
def Obligations.GfExpAndGfLogInvertEachOther : Prop :=
  decode 0x00000004 = .command .gfExp ∧ decode 0x00000005 = .command .gfLog ∧
  (∀ s : State, exec .gfExp s =
    .next (withOutcome { s with regs := { s.regs with gfR := alphaElem s.regs.gfA.toNat } } .ok 0 0)) ∧
  (∀ s : State, s.regs.gfA = 0 → exec .gfLog s = .next (withOutcome s .argument 0x31 0)) ∧
  (∀ (s : State) (i : Nat), i < 255 → s.regs.gfA = alphaElem i →
    exec .gfLog s = .next (withOutcome { s with regs := { s.regs with gfR := BitVec.ofNat 8 i } } .ok 0 0)) ∧
  (∀ i, i ≤ 255 → gfExp i = alphaElem i) ∧ gfExp 255 = gfExp 0 ∧ gfExp 0 = 1 ∧ gfLog 0 = none ∧
  (∀ i, i < 255 → gfExp i ≠ 0) ∧
  (∀ a : Gf, a ≠ 0 → ∃ i, i < 255 ∧ gfExp i = a ∧ gfLog a = some i ∧ ∀ j, j < 255 → gfExp j = a → j = i)

/-- The field laws that a model must satisfy (40_gf256 R192). -/
def Obligations.FieldLaws : Prop :=
  (∀ a b : Gf, gfMul a b = gfMul b a) ∧
  (∀ a : Gf, a ≠ 0 → ∃ b, gfInv a = some b ∧ gfMul a b = 1 ∧ gfInv b = some a) ∧
  (∀ a : Gf, gfMul a 1 = a) ∧ (∀ a : Gf, gfMul a 0 = 0) ∧
  (∀ a b c : Gf, gfMul a (gfMul b c) = gfMul (gfMul a b) c) ∧
  (∀ a b c : Gf, gfMul a (b ^^^ c) = gfMul a b ^^^ gfMul a c) ∧
  (∀ a : Gf, a ≠ 0 → ∃ i, gfLog a = some i ∧ gfExp i = a)

/-- Long division: for polynomials in normal form and b not zero, `a = pmul(q, b) xor r` with deg(r) < deg(b) or r zero
(40_gf256 R190). -/
def Obligations.LongDivisionLeavesASmallerRemainder : Prop :=
  ∀ a b : Poly, normalPoly a → normalPoly b → b ≠ [0] →
    normalPoly (polyDivMod a b).1 ∧ normalPoly (polyDivMod a b).2 ∧
    polyAdd (polyMul (polyDivMod a b).1 b) (polyDivMod a b).2 = a ∧
    ((polyDivMod a b).2 = [0] ∨ polyDeg (polyDivMod a b).2 < polyDeg b)

/-! ## Reed-Solomon -/

/-- RS_SYNDROME: its checks in their order, and the syndromes, the zeros above them and SYN_NZ it writes
(41_reed_solomon R225). -/
def Obligations.RsSyndromeEvaluatesTheBlock : Prop :=
  decode 0x00000010 = .command .rsSyndrome ∧
  ∀ (s : State) (len n : Nat), len = s.regs.cwLen.toNat → n = s.regs.nec.toNat →
    ((len = 0 ∨ 1024 < len) → exec .rsSyndrome s = .next (withOutcome s .argument 0x17 0)) ∧
    (∀ i, 0 < len → len ≤ 1024 → i < len → 255 < cwAt s i → (∀ j, j < i → cwAt s j ≤ 255) →
      exec .rsSyndrome s = .next (withOutcome s .argument 0x16 i)) ∧
    (blockAccepted s len → 512 < n → exec .rsSyndrome s = .next (withOutcome s .argument 0x10 0)) ∧
    (blockAccepted s len → n ≤ 512 → ∃ t, exec .rsSyndrome s = .next t ∧
      t = withOutcome { s with mem := t.mem, regs := { s.regs with synNz := t.regs.synNz } } .ok 0 0 ∧
      (t.regs.synNz = true ↔ ∃ i, i < n ∧ syndromeAt s len i ≠ 0) ∧
      (∀ i, i < n → readWord t (0x3000 + 4 * i) = (syndromeAt s len i).setWidth 32) ∧
      (∀ i, n ≤ i → i < 512 → readWord t (0x3000 + 4 * i) = 0) ∧
      sameExcept s t [(0x3000, 0x3800)])

/-- RS_DECODE's pre-checks in their order; a failure changes nothing but the outcome (41_reed_solomon R231). That RS_NERR
too keeps its value, which a sentence of 60_exceptions R453 contradicts, is the model's choice: log 18. -/
def Obligations.RsDecodePreChecks : Prop :=
  ∀ (s : State) (len n e : Nat), len = s.regs.cwLen.toNat → n = s.regs.nec.toNat → e = s.regs.eraCnt.toNat →
    ((len = 0 ∨ 1024 < len) → exec .rsDecode s = .next (withOutcome s .argument 0x17 0)) ∧
    (∀ i, 0 < len → len ≤ 1024 → i < len → 255 < cwAt s i → (∀ j, j < i → cwAt s j ≤ 255) →
      exec .rsDecode s = .next (withOutcome s .argument 0x16 i)) ∧
    (blockAccepted s len → 1024 < e → exec .rsDecode s = .next (withOutcome s .argument 0x18 0)) ∧
    (blockAccepted s len → e ≤ 1024 → 512 < n → exec .rsDecode s = .next (withOutcome s .checksum 0x10 0)) ∧
    (blockAccepted s len → e ≤ 1024 → n ≤ 512 → n / 2 + 3 < e →
      exec .rsDecode s = .next (withOutcome s .checksum 0x11 0))

/-- RS_DECODE of a block whose syndromes are all zero: CW is not written, and the results are the clean ones
(41_reed_solomon R232). -/
def Obligations.RsDecodeLeavesACleanBlock : Prop :=
  ∀ s : State, decodeAccepted s → blockClean s → ∃ t, exec .rsDecode s = .next t ∧
    t = withOutcome { s with mem := t.mem, regs := { s.regs with synNz := false, rsNerr := 0, rsDeg := 0 } } .ok 0 0 ∧
    (∀ i, i < 512 → readWord t (0x3000 + 4 * i) = 0) ∧
    readWord t 0x4000 = 1 ∧ (∀ k, 0 < k → k < 512 → readWord t (0x4000 + 4 * k) = 0) ∧
    (∀ k, k < 512 → readWord t (0x4800 + 4 * k) = 0) ∧ (∀ j, j < 256 → readWord t (0x3800 + 4 * j) = 0) ∧
    sameExcept s t decodeBuffers

/-- RS_DECODE of a block with a non-zero syndrome that completes OK: the corrected block has all syndromes zero; ELOC
holds the corrected positions in rising order with their magnitudes, 0 above; each is XORed into its codeword and no
other codeword changes; RS_NERR = RS_DEG is their number; SYN holds the received block's syndromes; SIGMA[0] = 1, and
the inverse of every location is a root of SIGMA (41_reed_solomon R239, R240). What OMEGA holds is the key equation of
RsDecodeSolvesTheKeyEquation. -/
def Obligations.RsDecodeCorrectsToACodeBlock : Prop :=
  ∀ (s t : State) (len n d : Nat), len = s.regs.cwLen.toNat → n = s.regs.nec.toNat → decodeAccepted s →
    (∃ i, i < n ∧ syndromeAt s len i ≠ 0) → exec .rsDecode s = .next t → t.regs.err = false → d = t.regs.rsNerr.toNat →
    t = withOutcome { s with
      mem := t.mem
      regs := { s.regs with synNz := true, rsNerr := t.regs.rsNerr, rsDeg := t.regs.rsNerr } } .ok 0 0 ∧
    blockAccepted t len ∧ blockClean t ∧ d ≤ 255 ∧
    (∀ j, j < d → (elocAt t j).toNat % 2 ^ 16 < len ∧
      cwAt t ((elocAt t j).toNat % 2 ^ 16) =
        cwAt s ((elocAt t j).toNat % 2 ^ 16) ^^^ ((elocAt t j).toNat / 2 ^ 16) ∧
      polyValue ((List.range (d + 1)).map (fun k => sigmaAt t (d - k)))
        (alphaElem (255 - (len - 1 - (elocAt t j).toNat % 2 ^ 16))) = 0) ∧
    (∀ j, j + 1 < d → (elocAt t j).toNat % 2 ^ 16 < (elocAt t (j + 1)).toNat % 2 ^ 16) ∧
    (∀ j, d ≤ j → j < 256 → elocAt t j = 0) ∧
    (∀ i, i < 1024 → (∀ j, j < d → i ≠ (elocAt t j).toNat % 2 ^ 16) → cwAt t i = cwAt s i) ∧
    (∀ i, i < n → synAt t i = syndromeAt s len i) ∧ (∀ i, n ≤ i → i < 512 → synAt t i = 0) ∧
    sigmaAt t 0 = 1 ∧ (∀ k, d < k → k < 512 → sigmaAt t k = 0) ∧
    sameExcept s t ((0x1000, 0x1000 + 4 * len) :: decodeBuffers)

/-- RS_DECODE that corrects leaves in SIGMA and OMEGA a solution of the key equation: the product of the syndrome
polynomial and sigma is omega modulo x^NEC, and every coefficient of omega from x^(NEC div 2) on is 0
(41_reed_solomon R233, R235, R240). -/
def Obligations.RsDecodeSolvesTheKeyEquation : Prop :=
  ∀ (s t : State) (len n : Nat), len = s.regs.cwLen.toNat → n = s.regs.nec.toNat → decodeAccepted s →
    (∃ i, i < n ∧ syndromeAt s len i ≠ 0) → exec .rsDecode s = .next t → t.regs.err = false →
    (∀ k, k < n → omegaAt t k =
      (List.range (k + 1)).foldl (fun acc j => acc ^^^ gfMul (syndromeAt s len (k - j)) (sigmaAt t j)) 0) ∧
    (∀ k, n / 2 ≤ k → k < 512 → omegaAt t k = 0)

/-- RS_DECODE that fails after its pre-checks: the error is CHECKSUM 0x12 to 0x15 or 0x1B, CW keeps every byte, SYN holds
the syndromes, SYN_NZ is 1, RS_NERR and RS_DEG are 0, and SIGMA, OMEGA and ELOC are UNKNOWN (41_reed_solomon R240,
R241). -/
def Obligations.RsDecodeFailureKeepsTheBlock : Prop :=
  ∀ (s t : State) (len n : Nat), len = s.regs.cwLen.toNat → n = s.regs.nec.toNat → decodeAccepted s →
    exec .rsDecode s = .next t → t.regs.err = true →
    t.regs.detail ∈ [(0x12 : Byte), 0x13, 0x14, 0x15, 0x1B] ∧
    t = withOutcome { s with
      mem := t.mem
      marks := t.marks
      draws := t.draws
      regs := { s.regs with synNz := true, rsNerr := 0, rsDeg := 0 } } .checksum t.regs.detail 0 ∧
    (∀ i, i < n → readWord t (0x3000 + 4 * i) = (syndromeAt s len i).setWidth 32) ∧
    (∀ i, n ≤ i → i < 512 → readWord t (0x3000 + 4 * i) = 0) ∧
    freshRange s t 0x3800 0x3C00 ∧ freshRange s t 0x4000 0x5000 ∧ sameExcept s t decodeBuffers

/-- RS_DECODE restores a block with one codeword in error: for NEC from 2 to 512 and a block of at most 255 codewords,
the number of non-zero elements of the field (41_reed_solomon R233 to R241; the bound on the length: log 17). -/
def Obligations.RsDecodeRestoresOneError : Prop :=
  ∀ (s : State) (len p : Nat) (e : Gf) (block : List Gf), len = s.regs.cwLen.toNat → len ≤ 255 →
    2 ≤ s.regs.nec.toNat → decodeAccepted s → block.length = len → p < len → e ≠ 0 →
    (∀ i, i < s.regs.nec.toNat → polyValue block (alphaElem (i % 255)) = 0) →
    (∀ i, i < len → cwAt s i = (block.getD i 0 ^^^ (if i = p then e else 0)).toNat) →
    ∃ t, exec .rsDecode s = .next t ∧
      t = withOutcome { s with mem := t.mem, regs := { s.regs with synNz := true, rsNerr := 1, rsDeg := 1 } } .ok 0 0 ∧
      (∀ i, i < len → cwAt t i = (block.getD i 0).toNat) ∧
      readWord t 0x3800 = (0 : Byte) ++ e ++ BitVec.ofNat 16 p ∧ (∀ j, 0 < j → j < 256 → readWord t (0x3800 + 4 * j) = 0) ∧
      sameExcept s t ((0x1000, 0x1000 + 4 * len) :: decodeBuffers)

/-- RS_DECODE restores a block of at most 255 codewords with 1 to floor(NEC/2) codewords in error, and reports their
number, positions and magnitudes (41_reed_solomon R233 to R241; the bound on the length: log 17). -/
def Obligations.RsDecodeRestoresUpToHalfNec : Prop :=
  ∀ (s : State) (len : Nat) (errs : List (Nat × Gf)) (block : List Gf), len = s.regs.cwLen.toNat → len ≤ 255 →
    decodeAccepted s → block.length = len → 1 ≤ errs.length → errs.length ≤ s.regs.nec.toNat / 2 →
    errs.Pairwise (fun a b => a.1 < b.1) → (∀ e ∈ errs, e.1 < len ∧ e.2 ≠ 0) →
    (∀ i, i < s.regs.nec.toNat → polyValue block (alphaElem (i % 255)) = 0) →
    (∀ i, i < len → cwAt s i = (block.getD i 0 ^^^ (errs.lookup i).getD 0).toNat) →
    ∃ t, exec .rsDecode s = .next t ∧
      t = withOutcome { s with
        mem := t.mem
        regs := { s.regs with
          synNz := true, rsNerr := BitVec.ofNat 9 errs.length, rsDeg := BitVec.ofNat 9 errs.length } } .ok 0 0 ∧
      (∀ i, i < len → cwAt t i = (block.getD i 0).toNat) ∧
      (∀ j (hj : j < errs.length), elocAt t j = (0 : Byte) ++ errs[j].2 ++ BitVec.ofNat 16 errs[j].1) ∧
      (∀ j, errs.length ≤ j → j < 256 → elocAt t j = 0) ∧
      sameExcept s t ((0x1000, 0x1000 + 4 * len) :: decodeBuffers)

/-- SLD_CHECK: its checks in their order, the repair of a zero descriptor, and acceptance (41_reed_solomon R245). -/
def Obligations.SldCheckVerifiesAndRepairs : Prop :=
  decode 0x00000012 = .command .sldCheck ∧
  ∀ (s : State) (len n sld : Nat), len = s.regs.cwLen.toNat → n = s.regs.nec.toNat → sld = cwAt s 0 →
    ((len = 0 ∨ 1024 < len) → exec .sldCheck s = .next (withOutcome s .argument 0x23 0)) ∧
    (0 < len → len < 4 → exec .sldCheck s = .next (withOutcome s .format 0x20 0)) ∧
    (4 ≤ len → len ≤ 1024 → len < sld → exec .sldCheck s = .next (withOutcome s .format 0x21 0)) ∧
    (4 ≤ len → len ≤ 1024 → sld = 0 → len ≤ n → exec .sldCheck s = .next (withOutcome s .format 0x22 0)) ∧
    (4 ≤ len → len ≤ 1024 → sld = 0 → n < len → ∃ t, exec .sldCheck s = .next t ∧
      t = withOutcome { s with mem := t.mem } .ok 0 0 ∧ readWord t 0x1000 = BitVec.ofNat 32 (len - n) ∧
      sameExcept s t [(0x1000, 0x1004)]) ∧
    (4 ≤ len → len ≤ 1024 → 0 < sld → sld ≤ len → exec .sldCheck s = .next (withOutcome s .ok 0 0))

/-! ## The binarizer -/

/-- The black point: with f the lowest index of the tallest bucket and g the lowest index of the largest score
`hist[x] * (x - f)^2`, the estimate fails with NOT_FOUND 0x41 where they are less than 2 apart, and else is 8 times the
highest index of the largest valley score strictly between them (42_binarizer R273). -/
def Obligations.EstimateFindsPeaksAndValley : Prop :=
  ∀ (hist : List Nat) (f g lo hi : Nat), f < 32 → g < 32 →
    (∀ x, x < 32 → hist.getD x 0 ≤ hist.getD f 0) → (∀ x, x < f → hist.getD x 0 < hist.getD f 0) →
    (∀ x, x < 32 → (hist.getD x 0 : Int) * ((x : Int) - f) ^ 2 ≤ hist.getD g 0 * ((g : Int) - f) ^ 2) →
    (∀ x, x < g → (hist.getD x 0 : Int) * ((x : Int) - f) ^ 2 < hist.getD g 0 * ((g : Int) - f) ^ 2) →
    lo = min f g → hi = max f g →
    (hi < lo + 2 → estimate hist = .error { code := .notFound, detail := 0x41, index := 0 }) ∧
    (lo + 2 ≤ hi → ∃ b, lo < b ∧ b < hi ∧ estimate hist = .ok (8 * b) ∧
      (∀ x, lo < x → x < hi → (x - lo) ^ 2 * (hi - x) * (hist.getD f 0 - hist.getD x 0) ≤
        (b - lo) ^ 2 * (hi - b) * (hist.getD f 0 - hist.getD b 0)) ∧
      (∀ x, b < x → x < hi → (x - lo) ^ 2 * (hi - x) * (hist.getD f 0 - hist.getD x 0) <
        (b - lo) ^ 2 * (hi - b) * (hist.getD f 0 - hist.getD b 0)))

/-- BIN_ROW: its checks, the row's histogram, and where the estimate succeeds the sharpened and thresholded row with
clear end bits and padding (42_binarizer R285). -/
def Obligations.BinRowSharpensAndThresholds : Prop :=
  decode 0x00000020 = .command .binRow ∧
  ∀ (s : State) (w h y : Nat), w = s.regs.imgW.toNat → h = s.regs.imgH.toNat → y = s.regs.rowY.toNat →
    (¬ imageAccepted w h → exec .binRow s = .next (withOutcome s .argument 0x40 0)) ∧
    (imageAccepted w h → h ≤ y → exec .binRow s = .next (withOutcome s .argument 0x42 0)) ∧
    (imageAccepted w h → y < h → ∃ t, exec .binRow s = .next t ∧
      (∀ b, b < 32 → readWord t (0x900 + 4 * b) = BitVec.ofNat 32 (rowCount s w y b)) ∧
      (∀ bp, estimate ((List.range 32).map (rowCount s w y)) = .ok bp →
        t = withOutcome { s with mem := t.mem, regs := { s.regs with blackPt := BitVec.ofNat 8 bp } } .ok 0 0 ∧
        (∀ x, x < 32 * ((w + 31) / 32) → bitAt t 0x800 w x 0 =
          (decide (0 < x) && decide (x + 1 < w) &&
            decide ((4 * (pixel s w x y : Int) - pixel s w (x - 1) y - pixel s w (x + 1) y) / 2 < bp))) ∧
        sameExcept s t [(0x900, 0x980), (0x800, 0x800 + 4 * ((w + 31) / 32))]) ∧
      (∀ e, estimate ((List.range 32).map (rowCount s w y)) = .error e →
        t = withOutcome { s with mem := t.mem } .notFound 0x41 0 ∧ sameExcept s t [(0x900, 0x980)]))

/-- BIN_GLOBAL: its check, the histogram of the four sampled rows, and where the estimate succeeds one threshold for the
whole image with clear padding (42_binarizer R290). -/
def Obligations.BinGlobalThresholdsTheImage : Prop :=
  decode 0x00000021 = .command .binGlobal ∧
  ∀ (s : State) (w h : Nat), w = s.regs.imgW.toNat → h = s.regs.imgH.toNat →
    (¬ imageAccepted w h → exec .binGlobal s = .next (withOutcome s .argument 0x40 0)) ∧
    (imageAccepted w h → ∃ t, exec .binGlobal s = .next t ∧
      (∀ b, b < 32 → readWord t (0x900 + 4 * b) = BitVec.ofNat 32 (fourRowCount s w h b)) ∧
      (∀ bp, estimate ((List.range 32).map (fourRowCount s w h)) = .ok bp →
        t = withOutcome { s with
          mem := t.mem
          regs := { s.regs with blackPt := BitVec.ofNat 8 bp, binUsed := false } } .ok 0 0 ∧
        (∀ x y, x < 32 * ((w + 31) / 32) → y < h →
          bitAt t 0x100000 w x y = (decide (x < w) && decide (pixel s w x y < bp))) ∧
        sameExcept s t [(0x900, 0x980), (0x100000, 0x100000 + 4 * (h * ((w + 31) / 32)))]) ∧
      (∀ e, estimate ((List.range 32).map (fourRowCount s w h)) = .error e →
        t = withOutcome { s with mem := t.mem } .notFound 0x41 0 ∧ sameExcept s t [(0x900, 0x980)]))

/-- BIN_HYBRID: its check, the fall-back to BIN_GLOBAL below 40 pixels, and else the image thresholded block by block: a
pixel is dark where some block that covers it has a threshold above it, padding is clear, and HIST and BLACKPT are not
written (42_binarizer R295). -/
def Obligations.BinHybridThresholdsByBlocks : Prop :=
  decode 0x00000022 = .command .binHybrid ∧
  ∀ (s : State) (w h : Nat), w = s.regs.imgW.toNat → h = s.regs.imgH.toNat →
    (¬ imageAccepted w h → exec .binHybrid s = .next (withOutcome s .argument 0x40 0)) ∧
    (imageAccepted w h → (w < 40 ∨ h < 40) → exec .binHybrid s = exec .binGlobal s) ∧
    (imageAccepted w h → 40 ≤ w → 40 ≤ h → ∃ (t : State) (avg : Nat → Nat → Nat), exec .binHybrid s = .next t ∧
      t = withOutcome { s with mem := t.mem, regs := { s.regs with binUsed := true } } .ok 0 0 ∧
      (∀ bx yb, bx < (w + 7) / 8 → yb < (h + 7) / 8 → isBlockAverage s w h bx yb (avg bx yb)) ∧
      (∀ x y, x < 32 * ((w + 31) / 32) → y < h → (bitAt t 0x100000 w x y = true ↔
        x < w ∧ ∃ bx yb, bx < (w + 7) / 8 ∧ yb < (h + 7) / 8 ∧
          blockStart bx w ≤ x ∧ x < blockStart bx w + 8 ∧ blockStart yb h ≤ y ∧ y < blockStart yb h + 8 ∧
          pixel s w x y < thresholdFrom avg ((w + 7) / 8) ((h + 7) / 8) bx yb)) ∧
      sameExcept s t [(0x100000, 0x100000 + 4 * (h * ((w + 31) / 32)))])

/-! ## The perspective unit -/

/-- Each of the four operations on finite operands is the exact result rounded once, to nearest, ties to even, and has the
sign of IEEE 754: that of the exact result where it is not 0; of an exact 0, for a sum + unless both addends are negative,
for a product or quotient the exclusive or of the operands' signs (43_perspective R320, R12 of 00_scope). -/
def Obligations.FloatOperationsRoundOnce : Prop :=
  ∀ (a b : Word) (x y : ℚ), finiteValue a = some x → finiteValue b = some y →
    roundedOnce (x + y) (fadd a b) ∧ roundedOnce (x - y) (fsub a b) ∧ roundedOnce (x * y) (fmul a b) ∧
    (y ≠ 0 → roundedOnce (x / y) (fdiv a b)) ∧
    (x + y ≠ 0 → (fadd a b).getLsbD 31 = decide (x + y < 0)) ∧
    (x + y = 0 → fadd a b = if a.getLsbD 31 && b.getLsbD 31 then 0x80000000 else 0) ∧
    (x - y ≠ 0 → (fsub a b).getLsbD 31 = decide (x - y < 0)) ∧
    (x - y = 0 → fsub a b = if a.getLsbD 31 && !b.getLsbD 31 then 0x80000000 else 0) ∧
    (fmul a b).getLsbD 31 = (a.getLsbD 31 != b.getLsbD 31) ∧
    (y ≠ 0 → (fdiv a b).getLsbD 31 = (a.getLsbD 31 != b.getLsbD 31))

/-- Every NaN that an operation gives is 0x7FC00000; a NaN operand gives it; and so do 0/0, inf - inf, inf + (-inf),
0 * inf, inf * 0 and inf/inf of every sign. A finite non-zero value over zero is an infinity; an infinity plus, minus,
times or over what gives no NaN is an infinity, and a finite value over an infinity a zero, with the signs of IEEE 754
(43_perspective R320). -/
def Obligations.NanResultsAreCanonical : Prop :=
  (∀ a b : Word, (isNaN (fadd a b) → fadd a b = 0x7FC00000) ∧ (isNaN (fsub a b) → fsub a b = 0x7FC00000) ∧
    (isNaN (fmul a b) → fmul a b = 0x7FC00000) ∧ (isNaN (fdiv a b) → fdiv a b = 0x7FC00000)) ∧
  (∀ a b : Word, isNaN a ∨ isNaN b →
    fadd a b = 0x7FC00000 ∧ fsub a b = 0x7FC00000 ∧ fmul a b = 0x7FC00000 ∧ fdiv a b = 0x7FC00000) ∧
  (∀ a b : Word, finiteValue a = some 0 → finiteValue b = some 0 → fdiv a b = 0x7FC00000) ∧
  (∀ a : Word, finiteValue a = some 0 → fmul a 0x7F800000 = 0x7FC00000 ∧ fmul a 0xFF800000 = 0x7FC00000) ∧
  (∀ a b : Word, isInf a → finiteValue b = some 0 → fmul a b = 0x7FC00000 ∧ fmul b a = 0x7FC00000) ∧
  (∀ a b : Word, isInf a → isInf b →
    fdiv a b = 0x7FC00000 ∧ fmul a b = infOfSigns a b ∧
    (a = b → fadd a b = a ∧ fsub a b = 0x7FC00000) ∧ (a ≠ b → fadd a b = 0x7FC00000 ∧ fsub a b = a)) ∧
  (∀ (a b : Word) (x : ℚ), isInf a → finiteValue b = some x →
    fadd a b = a ∧ fadd b a = a ∧ fsub a b = a ∧ fsub b a = a ^^^ 0x80000000 ∧
    (x ≠ 0 → fmul a b = infOfSigns a b ∧ fmul b a = infOfSigns a b) ∧
    fdiv a b = infOfSigns a b ∧
    fdiv b a = if a.getLsbD 31 = b.getLsbD 31 then 0 else 0x80000000) ∧
  (∀ (a b : Word) (x : ℚ), finiteValue a = some x → x ≠ 0 → finiteValue b = some 0 →
    fdiv a b = if a.getLsbD 31 = b.getLsbD 31 then 0x7F800000 else 0xFF800000)

/-- PT_SOLVE: the nine coefficients, in the order of the registers, by the formulas of rules R322 to R325, each NaN
written as 0x7FC00000 (43_perspective R335). -/
def Obligations.PtSolveWritesTheTransform : Prop :=
  decode 0x00000030 = .command .ptSolve ∧
  (∀ s : State, exec .ptSolve s =
    .next (withOutcome { s with regs := { s.regs with
      t := times (squareToQuad s.regs.img) (adjoint (squareToQuad s.regs.grd)) } } .ok 0 0)) ∧
  (∀ q : Quad,
    let dx3 := fsub (fadd (fsub q.x0 q.x1) q.x2) q.x3
    let dy3 := fsub (fadd (fsub q.y0 q.y1) q.y2) q.y3
    let den := fsub (fmul (fsub q.x1 q.x2) (fsub q.y3 q.y2)) (fmul (fsub q.x3 q.x2) (fsub q.y1 q.y2))
    let a13 := fdiv (fsub (fmul dx3 (fsub q.y3 q.y2)) (fmul (fsub q.x3 q.x2) dy3)) den
    let a23 := fdiv (fsub (fmul (fsub q.x1 q.x2) dy3) (fmul dx3 (fsub q.y1 q.y2))) den
    ((finiteValue dx3 = some 0 ∧ finiteValue dy3 = some 0) → squareToQuad q =
      { a11 := fsub q.x1 q.x0, a21 := fsub q.x2 q.x1, a31 := q.x0, a12 := fsub q.y1 q.y0, a22 := fsub q.y2 q.y1,
        a32 := q.y0, a13 := 0, a23 := 0, a33 := 0x3F800000 }) ∧
    (¬ (finiteValue dx3 = some 0 ∧ finiteValue dy3 = some 0) → squareToQuad q =
      { a11 := fadd (fsub q.x1 q.x0) (fmul a13 q.x1), a21 := fadd (fsub q.x3 q.x0) (fmul a23 q.x3), a31 := q.x0,
        a12 := fadd (fsub q.y1 q.y0) (fmul a13 q.y1), a22 := fadd (fsub q.y3 q.y0) (fmul a23 q.y3), a32 := q.y0,
        a13 := a13, a23 := a23, a33 := 0x3F800000 })) ∧
  (∀ m : Transform, adjoint m =
    { a11 := fsub (fmul m.a22 m.a33) (fmul m.a23 m.a32), a21 := fsub (fmul m.a23 m.a31) (fmul m.a21 m.a33),
      a31 := fsub (fmul m.a21 m.a32) (fmul m.a22 m.a31), a12 := fsub (fmul m.a13 m.a32) (fmul m.a12 m.a33),
      a22 := fsub (fmul m.a11 m.a33) (fmul m.a13 m.a31), a32 := fsub (fmul m.a12 m.a31) (fmul m.a11 m.a32),
      a13 := fsub (fmul m.a12 m.a23) (fmul m.a13 m.a22), a23 := fsub (fmul m.a13 m.a21) (fmul m.a11 m.a23),
      a33 := fsub (fmul m.a11 m.a22) (fmul m.a12 m.a21) }) ∧
  (∀ m n : Transform, times m n =
    { a11 := fadd (fadd (fmul m.a11 n.a11) (fmul m.a21 n.a12)) (fmul m.a31 n.a13)
      a21 := fadd (fadd (fmul m.a11 n.a21) (fmul m.a21 n.a22)) (fmul m.a31 n.a23)
      a31 := fadd (fadd (fmul m.a11 n.a31) (fmul m.a21 n.a32)) (fmul m.a31 n.a33)
      a12 := fadd (fadd (fmul m.a12 n.a11) (fmul m.a22 n.a12)) (fmul m.a32 n.a13)
      a22 := fadd (fadd (fmul m.a12 n.a21) (fmul m.a22 n.a22)) (fmul m.a32 n.a23)
      a32 := fadd (fadd (fmul m.a12 n.a31) (fmul m.a22 n.a32)) (fmul m.a32 n.a33)
      a13 := fadd (fadd (fmul m.a13 n.a11) (fmul m.a23 n.a12)) (fmul m.a33 n.a13)
      a23 := fadd (fadd (fmul m.a13 n.a21) (fmul m.a23 n.a22)) (fmul m.a33 n.a23)
      a33 := fadd (fadd (fmul m.a13 n.a31) (fmul m.a23 n.a32)) (fmul m.a33 n.a33) }) ∧
  (∀ (m n : Transform), ∀ c ∈ [(times m n).a11, (times m n).a21, (times m n).a31, (times m n).a12, (times m n).a22,
    (times m n).a32, (times m n).a13, (times m n).a23, (times m n).a33], isNaN c → c = 0x7FC00000)

/-- PT_MAP: the input point mapped by the transform, operation by operation (43_perspective R340, R327). -/
def Obligations.PtMapWritesTheMappedPoint : Prop :=
  decode 0x00000031 = .command .ptMap ∧
  ∀ s : State,
    let x := s.regs.ptInX
    let y := s.regs.ptInY
    let den := fadd (fadd (fmul s.regs.t.a13 x) (fmul s.regs.t.a23 y)) s.regs.t.a33
    let px := fdiv (fadd (fadd (fmul s.regs.t.a11 x) (fmul s.regs.t.a21 y)) s.regs.t.a31) den
    let py := fdiv (fadd (fadd (fmul s.regs.t.a12 x) (fmul s.regs.t.a22 y)) s.regs.t.a32) den
    exec .ptMap s = .next (withOutcome { s with regs := { s.regs with ptOutX := px, ptOutY := py } } .ok 0 0) ∧
    (isNaN px → px = 0x7FC00000) ∧ (isNaN py → py = 0x7FC00000)

/-- The conversion to a pixel index truncates toward zero; it fails for NaN, infinity and a magnitude of at least 2^31,
and the sampler then raises NOT_FOUND 0x53 with the grid row (43_perspective R328). -/
def Obligations.ToIntTruncatesTowardZero : Prop :=
  (∀ (v : Word) (x : ℚ), finiteValue v = some x → |x| < 2 ^ 31 → toInt32 v = some (truncated x)) ∧
  (∀ (v : Word) (x : ℚ), finiteValue v = some x → 2 ^ 31 ≤ |x| → toInt32 v = none) ∧
  (∀ v : Word, finiteValue v = none → toInt32 v = none) ∧
  (∀ (y : Nat) (p : Point), (toInt32 p.x = none ∨ toInt32 p.y = none) →
    toPixel y p = .error { code := .notFound, detail := 0x53, index := BitVec.ofNat 16 y }) ∧
  (∀ (y : Nat) (p : Point) (i j : Int), toInt32 p.x = some i → toInt32 p.y = some j → toPixel y p = .ok (i, j))

/-- The nudge of a row. Each loop puts the points before the first one that is not one pixel outside onto the edge, leaves
that one and the later ones, and stops there; a point that it checks raises 0x53 where it does not convert and 0x51
where it lies beyond the margin, with the row as INDEX. The nudge is the loop from the start and then the loop from the
end. A coordinate of -1 becomes 0.0 and one of the image's size the last pixel, and nothing else changes (43_perspective
R329). -/
def Obligations.NudgeMovesEndPointsOntoTheEdge : Prop :=
  (∀ n, n ≤ 2048 → finiteValue (natTo32 n) = some (n : ℚ) ∧ toInt32 (natTo32 n) = some (n : Int)) ∧
  (∀ (w h y : Nat) (pre : List Point), (∀ p ∈ pre, onMargin w h p ∧ oneOutside w h p) →
    nudgeFrom w h y pre = .ok (pre.map (ontoEdge w h)) ∧
    ∀ (q : Point) (post : List Point),
      (onMargin w h q → ¬ oneOutside w h q →
        nudgeFrom w h y (pre ++ q :: post) = .ok (pre.map (ontoEdge w h) ++ q :: post)) ∧
      (¬ convertible q → nudgeFrom w h y (pre ++ q :: post) =
        .error { code := .notFound, detail := 0x53, index := BitVec.ofNat 16 y }) ∧
      (convertible q → ¬ onMargin w h q → nudgeFrom w h y (pre ++ q :: post) =
        .error { code := .notFound, detail := 0x51, index := BitVec.ofNat 16 y })) ∧
  (∀ (w h y : Nat) (ps qs : List Point) (e : CmdError),
    (nudgeFrom w h y ps = .error e → nudge w h y ps = .error e) ∧
    (nudgeFrom w h y ps = .ok qs → nudgeFrom w h y qs.reverse = .error e → nudge w h y ps = .error e) ∧
    (∀ rs, nudgeFrom w h y ps = .ok qs → nudgeFrom w h y qs.reverse = .ok rs → nudge w h y ps = .ok rs.reverse)) ∧
  (∀ (w h y : Nat) (ps qs : List Point), 0 < w → w ≤ 2048 → 0 < h → h ≤ 2048 → nudge w h y ps = .ok qs →
    qs.length = ps.length ∧
    ∀ k (hp : k < ps.length) (hq : k < qs.length),
      (qs[k].x = ps[k].x ∨ toInt32 ps[k].x = some (-1) ∧ qs[k].x = 0 ∨
        toInt32 ps[k].x = some (w : Int) ∧ toInt32 qs[k].x = some ((w : Int) - 1)) ∧
      (qs[k].y = ps[k].y ∨ toInt32 ps[k].y = some (-1) ∧ qs[k].y = 0 ∨
        toInt32 ps[k].y = some (h : Int) ∧ toInt32 qs[k].y = some ((h : Int) - 1)))

/-- PT_SAMPLE where every cell's point, the mapped centre (x + 1/2, y + 1/2) after the nudge of its row, lies in the image:
cell (x, y) gets the BM bit at the truncated point, padding is clear, and nothing else changes; so in particular where
the mapped centres lie in the image as they are (43_perspective R345). -/
def Obligations.PtSampleReadsTheCellCentres : Prop :=
  decode 0x00000032 = .command .ptSample ∧
  (∀ n, n < 1024 → finiteValue (halfPast32 n) = some ((n : ℚ) + 1 / 2)) ∧
  ∀ (s : State) (w h d : Nat) (px py : Nat → Nat → Nat), w = s.regs.imgW.toNat → h = s.regs.imgH.toNat →
    d = s.regs.gridDim.toNat → imageAccepted w h → 0 < d → d ≤ 1024 →
    ((∀ x y, x < d → y < d →
      inPixel w h (mapPoint s.regs.t { x := halfPast32 x, y := halfPast32 y }) (px x y) (py x y)) →
      ∃ t, exec .ptSample s = .next t ∧ gridSampled s t w d px py) ∧
    ((∀ y, y < d → ∃ qs, nudge w h y (samplePoints s d y) = .ok qs ∧
      ∀ x, x < d → ∃ q, qs[x]? = some q ∧ inPixel w h q (px x y) (py x y)) →
      ∃ t, exec .ptSample s = .next t ∧ gridSampled s t w d px py)

/-- PT_SAMPLE's failures: the size checks change nothing but the outcome; every other failure is NOT_FOUND 0x51, 0x52 or
0x53 with a grid row as INDEX, after which the grid's words are UNKNOWN and nothing else changed. The row is the first one
whose points are not all in the image after its nudge: the error is that of its nudge (0x51 or 0x53), or that of its
first point outside, 0x53 where the point does not convert, else 0x52 (43_perspective R345; which words become UNKNOWN:
log 16, the model's choice). -/
def Obligations.PtSampleFailures : Prop :=
  ∀ (s : State) (w h d : Nat), w = s.regs.imgW.toNat → h = s.regs.imgH.toNat → d = s.regs.gridDim.toNat →
    (¬ imageAccepted w h → exec .ptSample s = .next (withOutcome s .argument 0x54 0)) ∧
    (imageAccepted w h → (d = 0 ∨ 1024 < d) → exec .ptSample s = .next (withOutcome s .argument 0x50 0)) ∧
    (∀ t, imageAccepted w h → 0 < d → d ≤ 1024 → exec .ptSample s = .next t → t.regs.err = true →
      t.regs.detail ∈ [(0x51 : Byte), 0x52, 0x53] ∧ t.regs.index.toNat < d ∧
      t = withOutcome { s with mem := t.mem, marks := t.marks, draws := t.draws } .notFound t.regs.detail
        t.regs.index.toNat ∧
      freshRange s t 0x80000 (0x80000 + 4 * (d * ((d + 31) / 32))) ∧
      sameExcept s t [(0x80000, 0x80000 + 4 * (d * ((d + 31) / 32)))]) ∧
    (∀ y, imageAccepted w h → d ≤ 1024 → y < d → (∀ y', y' < y → rowInside s w h d y') →
      (∀ e, nudge w h y (samplePoints s d y) = .error e →
        ∃ t, exec .ptSample s = .next t ∧ t.regs.err = true ∧ t.regs.detail = e.detail ∧ t.regs.index.toNat = y) ∧
      (∀ pre q post, nudge w h y (samplePoints s d y) = .ok (pre ++ q :: post) →
        (∀ p ∈ pre, ∃ i j, inPixel w h p i j) → (¬ ∃ i j, inPixel w h q i j) →
        ∃ t, exec .ptSample s = .next t ∧ t.regs.err = true ∧ t.regs.index.toNat = y ∧
          (convertible q → t.regs.detail = 0x52) ∧ (¬ convertible q → t.regs.detail = 0x53)))

/-! ## The bitstream parser -/

/-- The four sub-mode tables, entry by entry (44_bitstream R378). -/
def Obligations.TextTablesAreAsListed : Prop :=
  (List.range 30).map (textEntry .alpha) =
    ([0x41, 0x42, 0x43, 0x44, 0x45, 0x46, 0x47, 0x48, 0x49, 0x4A, 0x4B, 0x4C, 0x4D, 0x4E, 0x4F, 0x50, 0x51, 0x52, 0x53,
      0x54, 0x55, 0x56, 0x57, 0x58, 0x59, 0x5A, 0x20] : List Byte).map .char ++ [.to .lower, .to .mixed, .shift .ps] ∧
  (List.range 30).map (textEntry .lower) =
    ([0x61, 0x62, 0x63, 0x64, 0x65, 0x66, 0x67, 0x68, 0x69, 0x6A, 0x6B, 0x6C, 0x6D, 0x6E, 0x6F, 0x70, 0x71, 0x72, 0x73,
      0x74, 0x75, 0x76, 0x77, 0x78, 0x79, 0x7A, 0x20] : List Byte).map .char ++ [.shift .as, .to .mixed, .shift .ps] ∧
  (List.range 30).map (textEntry .mixed) =
    ([0x30, 0x31, 0x32, 0x33, 0x34, 0x35, 0x36, 0x37, 0x38, 0x39, 0x26, 0x0D, 0x09, 0x2C, 0x3A, 0x23, 0x2D, 0x2E, 0x24,
      0x2F, 0x2B, 0x25, 0x2A, 0x3D, 0x5E] : List Byte).map .char ++
      [.to .punct, .char 0x20, .to .lower, .to .alpha, .shift .ps] ∧
  (List.range 30).map (textEntry .punct) =
    ([0x3B, 0x3C, 0x3E, 0x40, 0x5B, 0x5C, 0x5D, 0x5F, 0x60, 0x7E, 0x21, 0x0D, 0x09, 0x2C, 0x3A, 0x0A, 0x2D, 0x2E, 0x24,
      0x2F, 0x22, 0x7C, 0x2A, 0x28, 0x29, 0x3F, 0x7B, 0x7D, 0x27] : List Byte).map .char ++ [.to .alpha]

/-- What one codeword does. `emit` appends a byte, or raises FORMAT 0x65 on a full output (R375). The latches set the mode,
900 with sub-mode ALPHA and no shift, and empty the group (R376); in BYTE and NUMERIC mode the group is flushed first
(R382, R385). A half-codeword follows its table, a pending shift holds for exactly one of them, 29 under PS latches ALPHA
and 27 to 29 under AS do nothing (R379). 913 in TEXT mode takes the next codeword as one byte, FORMAT 0x62 from 256 on,
and leaves mode, sub-mode and shift (R380). The codewords 903 to 912, 914 to 923 and 925 to 928, and 913 in BYTE and
NUMERIC mode, change nothing (R389). The main loop takes the codewords in order and flushes the group at the end (R374, R377). All of 44_bitstream. -/
def Obligations.CodewordsActByTheMode : Prop :=
  (∀ (p : Parser) (b : Byte) (k : Nat),
    (p.out.length < 4096 → emit p b k = .ok { p with out := p.out ++ [b] }) ∧
    (4096 ≤ p.out.length → emit p b k = .error { code := .format, detail := 0x65, index := BitVec.ofNat 16 k })) ∧
  (∀ p : Parser,
    latch p 900 = { p with mode := .text, sub := .alpha, shift := .none, group := [] } ∧
    latch p 901 = { p with mode := .byte, group := [] } ∧ latch p 924 = { p with mode := .byte, group := [] } ∧
    latch p 902 = { p with mode := .numeric, group := [] }) ∧
  (∀ (p q : Parser) (e : CmdError) (c k : Nat), c ∈ [900, 901, 902, 924] →
    (p.mode = .text → codeword p c k = .ok (latch p c)) ∧
    (p.mode = .byte → flushBytes p = .ok q → codeword p c k = .ok (latch q c)) ∧
    (p.mode = .byte → flushBytes p = .error e → codeword p c k = .error e) ∧
    (p.mode = .numeric → flushNumeric p = .ok q → codeword p c k = .ok (latch q c)) ∧
    (p.mode = .numeric → flushNumeric p = .error e → codeword p c k = .error e)) ∧
  (∀ (p : Parser) (h k : Nat), h < 30 →
    (p.shift = .ps → h < 29 → ∃ b, textEntry .punct h = .char b ∧
      textValue p h k = emit { p with shift := .none } b k) ∧
    (p.shift = .ps → h = 29 → textValue p h k = .ok { p with shift := .none, sub := .alpha }) ∧
    (p.shift = .as → h ≤ 26 → textValue p h k = emit { p with shift := .none } (alphaChar h) k) ∧
    (p.shift = .as → 27 ≤ h → textValue p h k = .ok { p with shift := .none }) ∧
    (p.shift = .none → (∀ b, textEntry p.sub h = .char b → textValue p h k = emit p b k) ∧
      (∀ sub, textEntry p.sub h = .to sub → textValue p h k = .ok { p with sub := sub }) ∧
      (∀ sh, textEntry p.sub h = .shift sh → textValue p h k = .ok { p with shift := sh }))) ∧
  (∀ (p q : Parser) (e : CmdError) (c k : Nat), p.mode = .text → c < 900 →
    (textValue p (c / 30) k = .ok q → codeword p c k = textValue q (c % 30) k) ∧
    (textValue p (c / 30) k = .error e → codeword p c k = .error e)) ∧
  (∀ (p : Parser) (b k : Nat) (rest : List Nat), p.mode = .text →
    (b < 256 → p.out.length < 4096 → mainLoop p k (913 :: b :: rest) =
      mainLoop { p with out := p.out ++ [BitVec.ofNat 8 b] } (k + 2) rest) ∧
    (b < 256 → 4096 ≤ p.out.length → mainLoop p k (913 :: b :: rest) =
      .error { code := .format, detail := 0x65, index := BitVec.ofNat 16 (k + 1) }) ∧
    (256 ≤ b → mainLoop p k (913 :: b :: rest) =
      .error { code := .format, detail := 0x62, index := BitVec.ofNat 16 (k + 1) })) ∧
  (∀ (p q : Parser) (e : CmdError) (c k : Nat) (rest : List Nat), ¬ (p.mode = .text ∧ c = 913) →
    (codeword p c k = .ok q → mainLoop p k (c :: rest) = mainLoop q (k + 1) rest) ∧
    (codeword p c k = .error e → mainLoop p k (c :: rest) = .error e)) ∧
  (∀ (p : Parser) (k : Nat), (p.mode = .text → mainLoop p k [] = .ok p) ∧
    (p.mode = .byte → mainLoop p k [] = flushBytes p) ∧ (p.mode = .numeric → mainLoop p k [] = flushNumeric p)) ∧
  (∀ (p : Parser) (c k : Nat), (903 ≤ c ∧ c ≤ 912 ∨ 914 ≤ c ∧ c ≤ 923 ∨ 925 ≤ c ∧ c ≤ 928) →
    codeword p c k = .ok p) ∧
  (∀ (p : Parser) (k : Nat), p.mode ≠ .text → codeword p 913 k = .ok p)

/-- The up-front checks of DBS_DECODE, in their order; a stream that passes them, one that ends in the latch 900 too, never
fails with one of their details (44_bitstream R371). That OUT_LEN keeps its value after the ARGUMENT error, which a
sentence of 60_exceptions R453 contradicts, is the model's choice: log 18. -/
def Obligations.DbsDecodeUpFrontChecks : Prop :=
  ∀ (s : State) (len sld : Nat), len = s.regs.cwLen.toNat → sld = cwAt s 0 →
    ((len = 0 ∨ 1024 < len) → exec .dbsDecode s = .next (withOutcome s .argument 0x67 0)) ∧
    (0 < len → len ≤ 1024 → (sld = 0 ∨ len < sld) → ∃ t, exec .dbsDecode s = .next t ∧ parserFailed s t 0x66 0) ∧
    (∀ k, 0 < len → len ≤ 1024 → sld ≤ len → 0 < k → k < sld → 928 < cwAt s k →
      (∀ j, 0 < j → j < k → cwAt s j ≤ 928) → ∃ t, exec .dbsDecode s = .next t ∧ parserFailed s t 0x60 k) ∧
    (0 < len → len ≤ 1024 → 2 ≤ sld → sld ≤ len → (∀ j, 0 < j → j < sld → cwAt s j ≤ 928) →
      cwAt s (sld - 1) ∈ [901, 902, 913, 924] →
      ∃ t, exec .dbsDecode s = .next t ∧ parserFailed s t 0x61 (sld - 1)) ∧
    (∀ t, 0 < len → len ≤ 1024 → 1 ≤ sld → sld ≤ len → (∀ j, 0 < j → j < sld → cwAt s j ≤ 928) →
      (sld = 1 ∨ cwAt s (sld - 1) ∉ [901, 902, 913, 924]) → exec .dbsDecode s = .next t →
      t.regs.detail ∉ [(0x60 : Byte), 0x61, 0x66, 0x67])

/-- The results of the parser commands: a success writes OUT and OUT_LEN only, a FORMAT error leaves OUT_LEN 0 and OUT
UNKNOWN, an ARGUMENT error changes nothing; there is no other outcome (44_bitstream R390; OUT_LEN after an ARGUMENT error
is the model's choice: log 18). -/
def Obligations.ParserResultsOrNothing : Prop :=
  ∀ (i : Instr) (s t : State), (i = .dbsDecode ∨ i = .numB900) → exec i s = .next t →
    (∃ out, parserWrote s t out) ∨ parserFailed s t t.regs.detail t.regs.index.toNat ∨
    t = withOutcome s .argument t.regs.detail 0

/-- DBS_DECODE of a stream that passes the up-front checks, its modes mixed in any way, is the parser's machine, started in
TEXT, ALPHA with no shift, no group and no output, over CW[1] to CW[SLD-1]: what the machine emits is the output, and what
it raises is the error (44_bitstream R373, R374, R390, R400). Of text: data codewords `30*h1 + h2` give the characters of their half-codewords by the sub-mode tables,
from ALPHA with no shift, with the latches and single shifts of rule R379; upper-case text (every half-codeword from 0
to 26) gives the two characters of each codeword in order. Codewords at and after the descriptor's count are not read
(R374, R377 to R379, R390). -/
def Obligations.DbsDecodeEmitsText : Prop :=
  decode 0x00000040 = .command .dbsDecode ∧
  Parser.start = { mode := .text, sub := .alpha, shift := .none, group := [], out := [] } ∧
  (∀ (s : State) (len sld : Nat) (data : List Nat), len = s.regs.cwLen.toNat → len ≤ 1024 → sld = cwAt s 0 →
    1 ≤ sld → sld ≤ len → (∀ k, 0 < k → k < sld → cwAt s k ≤ 928) →
    (sld = 1 ∨ cwAt s (sld - 1) ∉ [901, 902, 913, 924]) →
    data = (List.range (sld - 1)).map (fun k => cwAt s (k + 1)) →
    (∀ p, mainLoop Parser.start 1 data = .ok p → ∃ t, exec .dbsDecode s = .next t ∧ parserWrote s t p.out) ∧
    (∀ e, mainLoop Parser.start 1 data = .error e →
      ∃ t, exec .dbsDecode s = .next t ∧ parserFailed s t e.detail e.index.toNat)) ∧
  ∀ (s : State) (len sld : Nat) (hs : List (Nat × Nat)), len = s.regs.cwLen.toNat → len ≤ 1024 → sld = cwAt s 0 →
    1 ≤ sld → sld ≤ len → hs.length + 1 = sld → (∀ k (hk : k < hs.length), cwAt s (k + 1) = 30 * hs[k].1 + hs[k].2) →
    ((∀ p ∈ hs, p.1 ≤ 26 ∧ p.2 ≤ 26) →
      ∃ t, exec .dbsDecode s = .next t ∧ parserWrote s t (hs.flatMap (fun p => [alphaChar p.1, alphaChar p.2]))) ∧
    ((∀ p ∈ hs, p.1 < 30 ∧ p.2 < 30) →
      ∃ t, exec .dbsDecode s = .next t ∧ parserWrote s t (textRun .alpha .none (hs.flatMap (fun p => [p.1, p.2]))))

/-- DBS_DECODE of data codewords after the latch 901 or 924: each five of them give the six base-256 numerals of their
base-900 value, most significant first, and up to four that remain give one byte each. A group of at least 2^48 fails
with FORMAT 0x63 at its fifth codeword, and a remaining codeword of at least 256 with FORMAT 0x62 at the first such one
(44_bitstream R382 to R384). -/
def Obligations.DbsDecodeConvertsByteGroups : Prop :=
  (∀ (s : State) (v : Nat), 7 ≤ s.regs.cwLen.toNat → s.regs.cwLen.toNat ≤ 1024 → cwAt s 0 = 7 →
    (cwAt s 1 = 901 ∨ cwAt s 1 = 924) → (∀ k, 2 ≤ k → k ≤ 6 → cwAt s k < 900) →
    v = numeral 900 [cwAt s 2, cwAt s 3, cwAt s 4, cwAt s 5, cwAt s 6] →
    (v < 2 ^ 48 → ∃ t out, exec .dbsDecode s = .next t ∧ parserWrote s t out ∧ out.length = 6 ∧
      numeral 256 (out.map BitVec.toNat) = v) ∧
    (2 ^ 48 ≤ v → ∃ t, exec .dbsDecode s = .next t ∧ parserFailed s t 0x63 6)) ∧
  (∀ (s : State) (groups : List (List Nat)) (tail : List Nat), (latchedStream s 901 ∨ latchedStream s 924) →
    latchedData s = groups.flatten ++ tail → (∀ g ∈ groups, g.length = 5 ∧ numeral 900 g < 2 ^ 48) →
    (tail.length ≤ 4 → (∀ b ∈ tail, b < 256) → ∃ t, exec .dbsDecode s = .next t ∧
      parserWrote s t (groups.flatMap (fun g => sixBytesOf (numeral 900 g)) ++ tail.map (BitVec.ofNat 8))) ∧
    (∀ pre b post, tail.length ≤ 4 → tail = pre ++ b :: post → (∀ c ∈ pre, c < 256) → 256 ≤ b →
      ∃ t, exec .dbsDecode s = .next t ∧ parserFailed s t 0x62 (2 + groups.flatten.length + pre.length)) ∧
    (∀ g rest, tail = g ++ rest → g.length = 5 → 2 ^ 48 ≤ numeral 900 g →
      ∃ t, exec .dbsDecode s = .next t ∧ parserFailed s t 0x63 (2 + groups.flatten.length + 4)))

/-- DBS_DECODE of data codewords after the latch 902: each 15 of them, and the 1 to 15 that remain, are a group whose
base-900 value has a decimal numeral that starts with 1, and give the digits after it in ASCII; a group whose numeral
starts otherwise fails with FORMAT 0x64 at its first codeword (44_bitstream R385, R386). -/
def Obligations.DbsDecodeConvertsNumericGroups : Prop :=
  ∀ (s : State) (groups : List (List Nat × List Nat)), latchedStream s 902 → (∀ g ∈ groups, numericGroup g) →
    (latchedData s = groups.flatMap Prod.fst → (∀ g ∈ groups.dropLast, g.1.length = 15) →
      ∃ t, exec .dbsDecode s = .next t ∧ parserWrote s t (groups.flatMap (fun g => asciiDigits g.2))) ∧
    (∀ bad rest, latchedData s = groups.flatMap Prod.fst ++ bad ++ rest → (∀ g ∈ groups, g.1.length = 15) →
      1 ≤ bad.length → bad.length ≤ 15 → (bad.length = 15 ∨ rest = []) →
      (∀ ds : List Nat, (∀ d ∈ ds, d < 10) → numeral 900 bad ≠ numeral 10 (1 :: ds)) →
      ∃ t, exec .dbsDecode s = .next t ∧ parserFailed s t 0x64 (2 + (groups.flatMap Prod.fst).length))

/-- NUM_B900: its checks in their order; a group whose base-900 value has the decimal numeral `1` followed by `ds` gives
`ds` in ASCII, leading zeros kept; any other group fails with FORMAT 0x64 (44_bitstream R410, R386; OUT_LEN after the
ARGUMENT error is the model's choice: log 18). -/
def Obligations.NumB900StripsTheLeadingOne : Prop :=
  decode 0x00000041 = .command .numB900 ∧
  ∀ (s : State) (n : Nat), n = s.regs.cwLen.toNat →
    ((n = 0 ∨ 15 < n) → exec .numB900 s = .next (withOutcome s .argument 0x68 0)) ∧
    (∀ i, 0 < n → n ≤ 15 → i < n → 900 ≤ cwAt s i → (∀ j, j < i → cwAt s j < 900) →
      ∃ t, exec .numB900 s = .next t ∧ parserFailed s t 0x60 i) ∧
    (∀ ds : List Nat, 0 < n → n ≤ 15 → (∀ i, i < n → cwAt s i < 900) → (∀ d ∈ ds, d < 10) →
      numeral 900 ((List.range n).map (cwAt s)) = numeral 10 (1 :: ds) →
      ∃ t, exec .numB900 s = .next t ∧ parserWrote s t (ds.map (fun d => BitVec.ofNat 8 (0x30 + d)))) ∧
    (0 < n → n ≤ 15 → (∀ i, i < n → cwAt s i < 900) →
      (∀ ds : List Nat, (∀ d ∈ ds, d < 10) → numeral 900 ((List.range n).map (cwAt s)) ≠ numeral 10 (1 :: ds)) →
      ∃ t, exec .numB900 s = .next t ∧ parserFailed s t 0x64 0)

/-! ## Control commands -/

/-- NOP changes nothing but the outcome; with WERR clear STATUS then reads 0x00000002 (45_control R440). -/
def Obligations.NopOnlyCompletes : Prop :=
  decode 0x00000000 = .command .nop ∧
  ∀ s : State, exec .nop s = .next (withOutcome s .ok 0 0) ∧
    (s.regs.werr = false → readReg (withOutcome s .ok 0 0) .status = 0x00000002)

/-- CW_PIPELINE runs RS_DECODE, SLD_CHECK on the corrected block and DBS_DECODE, and completes with the error and the
effects of the first stage that fails (45_control R441; RS_NERR and OUT_LEN after a failure: log 18). -/
def Obligations.PipelineRunsTheStagesInOrder : Prop :=
  ∀ s a : State, exec .rsDecode s = .next a →
    (a.regs.err = true → exec .cwPipeline s = .next a) ∧
    (a.regs.err = false → ∀ b, exec .sldCheck a = .next b →
      (b.regs.err = true → exec .cwPipeline s = .next b) ∧
      (b.regs.err = false → exec .cwPipeline s = exec .dbsDecode b))

/-- CW_PIPELINE emits text of a checked block only: after a success its output is that of DBS_DECODE on a block that
RS_DECODE left with all syndromes zero and SLD_CHECK accepted; it fails in its first two stages only, never with
ARGUMENT 0x23, and a failure writes neither OUT nor OUT_LEN (45_control R441; that OUT_LEN is kept then, against a
sentence of 60_exceptions R453, is the model's choice: log 18). -/
def Obligations.PipelineEmitsOnlyCheckedText : Prop :=
  ∀ s t : State, exec .cwPipeline s = .next t →
    (t.regs.err = false → ∃ a b, exec .rsDecode s = .next a ∧ a.regs.err = false ∧
      blockAccepted a s.regs.cwLen.toNat ∧ blockClean a ∧
      exec .sldCheck a = .next b ∧ b.regs.err = false ∧ exec .dbsDecode b = .next t) ∧
    (t.regs.err = true →
      t.regs.detail ∈ [(0x10 : Byte), 0x11, 0x12, 0x13, 0x14, 0x15, 0x16, 0x17, 0x18, 0x1B, 0x20, 0x21, 0x22] ∧
      t.regs.outLen = s.regs.outLen ∧ ∀ a, 0x5000 ≤ a → a < 0x6000 → readByte t a = readByte s a)

/-- CW_PIPELINE of a block with all syndromes zero and a good descriptor completes OK, leaves CW as it is, and writes at
most two bytes for each data codeword (45_control R441). -/
def Obligations.PipelineDecodesACleanBlock : Prop :=
  decode 0x00000050 = .command .cwPipeline ∧
  ∀ s : State, decodeAccepted s → blockClean s → 4 ≤ s.regs.cwLen.toNat → 1 ≤ cwAt s 0 →
    cwAt s 0 ≤ s.regs.cwLen.toNat → ∃ t, exec .cwPipeline s = .next t ∧
      t = withOutcome { s with
        mem := t.mem
        regs := { s.regs with synNz := false, rsNerr := 0, rsDeg := 0, outLen := t.regs.outLen } } .ok 0 0 ∧
      t.regs.outLen.toNat ≤ 2 * (cwAt s 0 - 1) ∧ sigmaAt t 0 = 1 ∧ (∀ i, i < 512 → synAt t i = 0) ∧
      sameExcept s t ((0x5000, 0x5000 + t.regs.outLen.toNat) :: decodeBuffers)

end
end

