-- ==== Sys2Proof/Laws/State.lean ====
section
/-! SUPPORT. One lemma per field of State for each update of it: later proofs unfold no record update. -/

namespace Sys2Proof.Machine

@[simp] theorem writeCells_regs (s : State) (lo hi : Nat) (cells : List Host.Cell) :
    (writeCells s lo hi cells).regs = s.regs := rfl
@[simp] theorem writeCells_mem (s : State) (lo hi : Nat) (cells : List Host.Cell) :
    (writeCells s lo hi cells).mem = spliceMem lo hi cells s.mem := rfl
@[simp] theorem writeCells_marks (s : State) (lo hi : Nat) (cells : List Host.Cell) :
    (writeCells s lo hi cells).marks = s.marks := rfl
@[simp] theorem writeCells_eng (s : State) (lo hi : Nat) (cells : List Host.Cell) :
    (writeCells s lo hi cells).eng = s.eng := rfl
@[simp] theorem writeCells_inputs (s : State) (lo hi : Nat) (cells : List Host.Cell) :
    (writeCells s lo hi cells).inputs = s.inputs := rfl
@[simp] theorem writeCells_reply (s : State) (lo hi : Nat) (cells : List Host.Cell) :
    (writeCells s lo hi cells).reply = s.reply := rfl
@[simp] theorem writeCells_latencies (s : State) (lo hi : Nat) (cells : List Host.Cell) :
    (writeCells s lo hi cells).latencies = s.latencies := rfl
@[simp] theorem writeCells_draws (s : State) (lo hi : Nat) (cells : List Host.Cell) :
    (writeCells s lo hi cells).draws = s.draws := rfl

@[simp] theorem forget_regs (s : State) (lo hi : Nat) :
    (forget s lo hi).regs = s.regs := rfl
@[simp] theorem forget_mem (s : State) (lo hi : Nat) :
    (forget s lo hi).mem = spliceMem lo hi [] s.mem := rfl
@[simp] theorem forget_marks (s : State) (lo hi : Nat) :
    (forget s lo hi).marks = { lo := lo, hi := hi, draw := s.draws + 1 } :: s.marks := rfl
@[simp] theorem forget_eng (s : State) (lo hi : Nat) :
    (forget s lo hi).eng = s.eng := rfl
@[simp] theorem forget_inputs (s : State) (lo hi : Nat) :
    (forget s lo hi).inputs = s.inputs := rfl
@[simp] theorem forget_reply (s : State) (lo hi : Nat) :
    (forget s lo hi).reply = s.reply := rfl
@[simp] theorem forget_latencies (s : State) (lo hi : Nat) :
    (forget s lo hi).latencies = s.latencies := rfl
@[simp] theorem forget_draws (s : State) (lo hi : Nat) :
    (forget s lo hi).draws = s.draws + 1 := rfl

@[simp] theorem forgetWindow_regs (s : State) (w : Window) :
    (forgetWindow s w).regs = s.regs := rfl
@[simp] theorem forgetWindow_eng (s : State) (w : Window) :
    (forgetWindow s w).eng = s.eng := rfl
@[simp] theorem forgetWindow_inputs (s : State) (w : Window) :
    (forgetWindow s w).inputs = s.inputs := rfl
@[simp] theorem forgetWindow_reply (s : State) (w : Window) :
    (forgetWindow s w).reply = s.reply := rfl
@[simp] theorem forgetWindow_latencies (s : State) (w : Window) :
    (forgetWindow s w).latencies = s.latencies := rfl
@[simp] theorem forgetWindow_draws (s : State) (w : Window) :
    (forgetWindow s w).draws = s.draws + 1 := rfl

@[simp] theorem storeBytes_regs (s : State) (a : Nat) (bs : List Byte) :
    (storeBytes s a bs).regs = s.regs := rfl
@[simp] theorem storeBytes_marks (s : State) (a : Nat) (bs : List Byte) :
    (storeBytes s a bs).marks = s.marks := rfl
@[simp] theorem storeBytes_eng (s : State) (a : Nat) (bs : List Byte) :
    (storeBytes s a bs).eng = s.eng := rfl
@[simp] theorem storeBytes_inputs (s : State) (a : Nat) (bs : List Byte) :
    (storeBytes s a bs).inputs = s.inputs := rfl
@[simp] theorem storeBytes_reply (s : State) (a : Nat) (bs : List Byte) :
    (storeBytes s a bs).reply = s.reply := rfl
@[simp] theorem storeBytes_latencies (s : State) (a : Nat) (bs : List Byte) :
    (storeBytes s a bs).latencies = s.latencies := rfl
@[simp] theorem storeBytes_draws (s : State) (a : Nat) (bs : List Byte) :
    (storeBytes s a bs).draws = s.draws := rfl

@[simp] theorem storeElems_regs (s : State) (w : Window) (es : List Word) :
    (storeElems s w es).regs = s.regs := rfl
@[simp] theorem storeElems_marks (s : State) (w : Window) (es : List Word) :
    (storeElems s w es).marks = s.marks := rfl
@[simp] theorem storeElems_eng (s : State) (w : Window) (es : List Word) :
    (storeElems s w es).eng = s.eng := rfl
@[simp] theorem storeElems_inputs (s : State) (w : Window) (es : List Word) :
    (storeElems s w es).inputs = s.inputs := rfl
@[simp] theorem storeElems_reply (s : State) (w : Window) (es : List Word) :
    (storeElems s w es).reply = s.reply := rfl
@[simp] theorem storeElems_latencies (s : State) (w : Window) (es : List Word) :
    (storeElems s w es).latencies = s.latencies := rfl
@[simp] theorem storeElems_draws (s : State) (w : Window) (es : List Word) :
    (storeElems s w es).draws = s.draws := rfl

@[simp] theorem setGfR_regs (s : State) (r : Gf) :
    (setGfR s r).regs = { s.regs with gfR := r } := rfl
@[simp] theorem setGfR_mem (s : State) (r : Gf) :
    (setGfR s r).mem = s.mem := rfl
@[simp] theorem setGfR_marks (s : State) (r : Gf) :
    (setGfR s r).marks = s.marks := rfl
@[simp] theorem setGfR_eng (s : State) (r : Gf) :
    (setGfR s r).eng = s.eng := rfl
@[simp] theorem setGfR_inputs (s : State) (r : Gf) :
    (setGfR s r).inputs = s.inputs := rfl
@[simp] theorem setGfR_reply (s : State) (r : Gf) :
    (setGfR s r).reply = s.reply := rfl
@[simp] theorem setGfR_latencies (s : State) (r : Gf) :
    (setGfR s r).latencies = s.latencies := rfl
@[simp] theorem setGfR_draws (s : State) (r : Gf) :
    (setGfR s r).draws = s.draws := rfl

@[simp] theorem writeSyndromes_regs (s : State) (syn : List Gf) :
    (writeSyndromes s syn).regs = { s.regs with synNz := !allZero syn } := rfl
@[simp] theorem writeSyndromes_marks (s : State) (syn : List Gf) :
    (writeSyndromes s syn).marks = s.marks := rfl
@[simp] theorem writeSyndromes_eng (s : State) (syn : List Gf) :
    (writeSyndromes s syn).eng = s.eng := rfl
@[simp] theorem writeSyndromes_inputs (s : State) (syn : List Gf) :
    (writeSyndromes s syn).inputs = s.inputs := rfl
@[simp] theorem writeSyndromes_reply (s : State) (syn : List Gf) :
    (writeSyndromes s syn).reply = s.reply := rfl
@[simp] theorem writeSyndromes_latencies (s : State) (syn : List Gf) :
    (writeSyndromes s syn).latencies = s.latencies := rfl
@[simp] theorem writeSyndromes_draws (s : State) (syn : List Gf) :
    (writeSyndromes s syn).draws = s.draws := rfl

@[simp] theorem writeDecodeResults_regs (s : State) (sg om : List Gf) (el : List Word) (n d : Nat) :
    (writeDecodeResults s sg om el n d).regs = { s.regs with rsNerr := BitVec.ofNat 9 n, rsDeg := BitVec.ofNat 9 d } := rfl
@[simp] theorem writeDecodeResults_marks (s : State) (sg om : List Gf) (el : List Word) (n d : Nat) :
    (writeDecodeResults s sg om el n d).marks = s.marks := rfl
@[simp] theorem writeDecodeResults_eng (s : State) (sg om : List Gf) (el : List Word) (n d : Nat) :
    (writeDecodeResults s sg om el n d).eng = s.eng := rfl
@[simp] theorem writeDecodeResults_inputs (s : State) (sg om : List Gf) (el : List Word) (n d : Nat) :
    (writeDecodeResults s sg om el n d).inputs = s.inputs := rfl
@[simp] theorem writeDecodeResults_reply (s : State) (sg om : List Gf) (el : List Word) (n d : Nat) :
    (writeDecodeResults s sg om el n d).reply = s.reply := rfl
@[simp] theorem writeDecodeResults_latencies (s : State) (sg om : List Gf) (el : List Word) (n d : Nat) :
    (writeDecodeResults s sg om el n d).latencies = s.latencies := rfl
@[simp] theorem writeDecodeResults_draws (s : State) (sg om : List Gf) (el : List Word) (n d : Nat) :
    (writeDecodeResults s sg om el n d).draws = s.draws := rfl

@[simp] theorem writeHist_regs (s : State) (h : List Nat) :
    (writeHist s h).regs = s.regs := rfl
@[simp] theorem writeHist_marks (s : State) (h : List Nat) :
    (writeHist s h).marks = s.marks := rfl
@[simp] theorem writeHist_eng (s : State) (h : List Nat) :
    (writeHist s h).eng = s.eng := rfl
@[simp] theorem writeHist_inputs (s : State) (h : List Nat) :
    (writeHist s h).inputs = s.inputs := rfl
@[simp] theorem writeHist_reply (s : State) (h : List Nat) :
    (writeHist s h).reply = s.reply := rfl
@[simp] theorem writeHist_latencies (s : State) (h : List Nat) :
    (writeHist s h).latencies = s.latencies := rfl
@[simp] theorem writeHist_draws (s : State) (h : List Nat) :
    (writeHist s h).draws = s.draws := rfl

@[simp] theorem setBlackPt_regs (s : State) (bp : Nat) :
    (setBlackPt s bp).regs = { s.regs with blackPt := BitVec.ofNat 8 bp } := rfl
@[simp] theorem setBlackPt_mem (s : State) (bp : Nat) :
    (setBlackPt s bp).mem = s.mem := rfl
@[simp] theorem setBlackPt_marks (s : State) (bp : Nat) :
    (setBlackPt s bp).marks = s.marks := rfl
@[simp] theorem setBlackPt_eng (s : State) (bp : Nat) :
    (setBlackPt s bp).eng = s.eng := rfl
@[simp] theorem setBlackPt_inputs (s : State) (bp : Nat) :
    (setBlackPt s bp).inputs = s.inputs := rfl
@[simp] theorem setBlackPt_reply (s : State) (bp : Nat) :
    (setBlackPt s bp).reply = s.reply := rfl
@[simp] theorem setBlackPt_latencies (s : State) (bp : Nat) :
    (setBlackPt s bp).latencies = s.latencies := rfl
@[simp] theorem setBlackPt_draws (s : State) (bp : Nat) :
    (setBlackPt s bp).draws = s.draws := rfl

@[simp] theorem setBinUsed_regs (s : State) (b : Bool) :
    (setBinUsed s b).regs = { s.regs with binUsed := b } := rfl
@[simp] theorem setBinUsed_mem (s : State) (b : Bool) :
    (setBinUsed s b).mem = s.mem := rfl
@[simp] theorem setBinUsed_marks (s : State) (b : Bool) :
    (setBinUsed s b).marks = s.marks := rfl
@[simp] theorem setBinUsed_eng (s : State) (b : Bool) :
    (setBinUsed s b).eng = s.eng := rfl
@[simp] theorem setBinUsed_inputs (s : State) (b : Bool) :
    (setBinUsed s b).inputs = s.inputs := rfl
@[simp] theorem setBinUsed_reply (s : State) (b : Bool) :
    (setBinUsed s b).reply = s.reply := rfl
@[simp] theorem setBinUsed_latencies (s : State) (b : Bool) :
    (setBinUsed s b).latencies = s.latencies := rfl
@[simp] theorem setBinUsed_draws (s : State) (b : Bool) :
    (setBinUsed s b).draws = s.draws := rfl

@[simp] theorem writeOut_regs (s : State) (out : List Byte) :
    (writeOut s out).regs = { s.regs with outLen := BitVec.ofNat 13 out.length } := rfl
@[simp] theorem writeOut_marks (s : State) (out : List Byte) :
    (writeOut s out).marks = s.marks := rfl
@[simp] theorem writeOut_eng (s : State) (out : List Byte) :
    (writeOut s out).eng = s.eng := rfl
@[simp] theorem writeOut_inputs (s : State) (out : List Byte) :
    (writeOut s out).inputs = s.inputs := rfl
@[simp] theorem writeOut_reply (s : State) (out : List Byte) :
    (writeOut s out).reply = s.reply := rfl
@[simp] theorem writeOut_latencies (s : State) (out : List Byte) :
    (writeOut s out).latencies = s.latencies := rfl
@[simp] theorem writeOut_draws (s : State) (out : List Byte) :
    (writeOut s out).draws = s.draws := rfl

@[simp] theorem failOut_regs (s : State) :
    (failOut s).regs = { s.regs with outLen := 0 } := rfl
@[simp] theorem failOut_eng (s : State) :
    (failOut s).eng = s.eng := rfl
@[simp] theorem failOut_inputs (s : State) :
    (failOut s).inputs = s.inputs := rfl
@[simp] theorem failOut_reply (s : State) :
    (failOut s).reply = s.reply := rfl
@[simp] theorem failOut_latencies (s : State) :
    (failOut s).latencies = s.latencies := rfl
@[simp] theorem failOut_draws (s : State) :
    (failOut s).draws = s.draws + 1 := rfl

@[simp] theorem endCommand_regs (s : State) (e : Option CmdError) :
    (endCommand s e).regs = { s.regs with done := true, err := e.any (fun x => decide (x.code ≠ .ok)), errcode := (e.map CmdError.code).getD .ok, detail := (e.map CmdError.detail).getD 0, index := (e.map CmdError.index).getD 0 } := rfl
@[simp] theorem endCommand_mem (s : State) (e : Option CmdError) :
    (endCommand s e).mem = s.mem := rfl
@[simp] theorem endCommand_marks (s : State) (e : Option CmdError) :
    (endCommand s e).marks = s.marks := rfl
@[simp] theorem endCommand_eng (s : State) (e : Option CmdError) :
    (endCommand s e).eng = .idle := rfl
@[simp] theorem endCommand_inputs (s : State) (e : Option CmdError) :
    (endCommand s e).inputs = s.inputs := rfl
@[simp] theorem endCommand_reply (s : State) (e : Option CmdError) :
    (endCommand s e).reply = s.reply := rfl
@[simp] theorem endCommand_latencies (s : State) (e : Option CmdError) :
    (endCommand s e).latencies = s.latencies := rfl
@[simp] theorem endCommand_draws (s : State) (e : Option CmdError) :
    (endCommand s e).draws = s.draws := rfl

@[simp] theorem issueWith_regs (k : Nat) (w : Word) (s : State) :
    (issueWith k w s).regs = issueRegs w s.regs := rfl
@[simp] theorem issueWith_mem (k : Nat) (w : Word) (s : State) :
    (issueWith k w s).mem = s.mem := rfl
@[simp] theorem issueWith_marks (k : Nat) (w : Word) (s : State) :
    (issueWith k w s).marks = s.marks := rfl
@[simp] theorem issueWith_eng (k : Nat) (w : Word) (s : State) :
    (issueWith k w s).eng = .running w k := rfl
@[simp] theorem issueWith_inputs (k : Nat) (w : Word) (s : State) :
    (issueWith k w s).inputs = s.inputs := rfl
@[simp] theorem issueWith_reply (k : Nat) (w : Word) (s : State) :
    (issueWith k w s).reply = s.reply := rfl
@[simp] theorem issueWith_latencies (k : Nat) (w : Word) (s : State) :
    (issueWith k w s).latencies = s.latencies := rfl
@[simp] theorem issueWith_draws (k : Nat) (w : Word) (s : State) :
    (issueWith k w s).draws = s.draws := rfl

@[simp] theorem issue_regs (w : Word) (s : State) :
    (issue w s).regs = issueRegs w s.regs := rfl
@[simp] theorem issue_mem (w : Word) (s : State) :
    (issue w s).mem = s.mem := rfl
@[simp] theorem issue_marks (w : Word) (s : State) :
    (issue w s).marks = s.marks := rfl
@[simp] theorem issue_eng (w : Word) (s : State) :
    (issue w s).eng = .running w (s.latencies.headD 0) := rfl
@[simp] theorem issue_inputs (w : Word) (s : State) :
    (issue w s).inputs = s.inputs := rfl
@[simp] theorem issue_reply (w : Word) (s : State) :
    (issue w s).reply = s.reply := rfl
@[simp] theorem issue_latencies (w : Word) (s : State) :
    (issue w s).latencies = s.latencies.tail := rfl
@[simp] theorem issue_draws (w : Word) (s : State) :
    (issue w s).draws = s.draws := rfl

@[simp] theorem dropWrite_regs (s : State) :
    (dropWrite s).regs = { s.regs with werr := true } := rfl
@[simp] theorem dropWrite_mem (s : State) :
    (dropWrite s).mem = s.mem := rfl
@[simp] theorem dropWrite_marks (s : State) :
    (dropWrite s).marks = s.marks := rfl
@[simp] theorem dropWrite_eng (s : State) :
    (dropWrite s).eng = s.eng := rfl
@[simp] theorem dropWrite_inputs (s : State) :
    (dropWrite s).inputs = s.inputs := rfl
@[simp] theorem dropWrite_reply (s : State) :
    (dropWrite s).reply = s.reply := rfl
@[simp] theorem dropWrite_latencies (s : State) :
    (dropWrite s).latencies = s.latencies := rfl
@[simp] theorem dropWrite_draws (s : State) :
    (dropWrite s).draws = s.draws := rfl

/-- The issue leaves every register but CMD, DONE, ERR, ERRCODE and ERRINFO as it was (30_encoding R140). -/
@[simp] theorem issueRegs_werr (w : Word) (r : Regs) : (issueRegs w r).werr = r.werr := rfl

end Sys2Proof.Machine
end

