-- ==== Sys2Proof/Laws/Memory.lean ====
section
/-! SUPPORT. The laws of the memory: what a byte reads as after a write or after it became UNKNOWN, and that every
memory operation keeps the canonical form. -/

namespace Sys2Proof.Machine

/-! ## Windows -/

/-- The size of each window as 20_memory R102 lists it. -/
@[simp] theorem Window.size_eq (w : Window) : w.size =
    match w with
    | .registers => 0x100
    | .row => 0x100
    | .hist => 0x80
    | .cw => 0x1000
    | .era => 0x1000
    | .syn => 0x800
    | .eloc => 0x400
    | .sigma => 0x800
    | .omega => 0x800
    | .out => 0x1000
    | .grid => 0x20000
    | .bm => 0x80000
    | .lum => 0x400000 := by
  cases w <;> rfl

theorem windowAt_of_contains (w : Window) (a : Nat) (h : w.contains a = true) : windowAt a = some w := by
  have hd : ∀ v, v ≠ w → v.contains a = false := by
    intro v hv
    rw [Bool.eq_false_iff]
    intro hc
    simp only [Window.contains, Bool.and_eq_true, decide_eq_true_eq] at h hc
    revert h hc hv
    cases w <;> cases v <;> simp [Window.base] <;> omega
  have hall : ∀ l : List Window, w ∈ l → l.find? (fun v => v.contains a) = some w := by
    intro l
    induction l with
    | nil => simp
    | cons v l ih =>
      intro hm
      by_cases hv : v = w
      · subst hv; simp [List.find?, h]
      · have hv' : w ∈ l := by
          rcases List.mem_cons.1 hm with he | he
          · exact absurd he.symm hv
          · exact he
        simp [List.find?, hd v hv, ih hv']
  exact hall Window.all (by cases w <;> decide)

theorem storedByte_of_contains (w : Window) (a : Nat) (h : w.contains a = true) :
    storedByte a = decide (a % 4 < w.definedBytes) := by
  simp [storedByte, windowAt_of_contains w a h]

theorem window_base_aligned (w : Window) : w.base % 4 = 0 := by cases w <;> rfl

theorem window_size_aligned (w : Window) : w.size % 4 = 0 := by cases w <;> rfl

theorem contains_iff (w : Window) (a : Nat) : w.contains a = true ↔ w.base ≤ a ∧ a < w.base + w.size := by
  simp [Window.contains]

theorem storedByte_elem (w : Window) (i j : Nat) (hi : 4 * i + 4 ≤ w.size) (hj : j < 4) :
    storedByte (w.base + 4 * i + j) = decide (j < w.definedBytes) := by
  rw [storedByte_of_contains w _ ((contains_iff w _).2 ⟨by omega, by omega⟩)]
  have := window_base_aligned w
  have h : (w.base + 4 * i + j) % 4 = j := by omega
  rw [h]

/-! ## Lookup -/

theorem memLookup_append (xs ys : List Host.Cell) (a : Nat) :
    memLookup (xs ++ ys) a = (memLookup xs a).or (memLookup ys a) := by
  induction xs with
  | nil => rfl
  | cons c cs ih =>
    simp only [List.cons_append, memLookup]
    split <;> simp_all

theorem memLookup_filter (p : Nat → Bool) (xs : List Host.Cell) (a : Nat) :
    memLookup (xs.filter (fun c => p c.1)) a = if p a then memLookup xs a else none := by
  induction xs with
  | nil => simp [memLookup]
  | cons c cs ih =>
    by_cases hc : p c.1 = true
    · rw [List.filter_cons_of_pos (p := fun d : Host.Cell => p d.1) hc]
      by_cases ha : c.1 = a
      · subst ha; simp [memLookup, hc]
      · simp [memLookup, ha, ih]
    · rw [List.filter_cons_of_neg (p := fun d : Host.Cell => p d.1) hc, ih]
      by_cases ha : c.1 = a
      · subst ha; simp [hc]
      · simp [memLookup, ha]

theorem memLookup_eq_none (xs : List Host.Cell) (a : Nat) (h : ∀ c ∈ xs, c.1 ≠ a) : memLookup xs a = none := by
  induction xs with
  | nil => rfl
  | cons c cs ih =>
    have h1 := h c (by simp)
    simp only [memLookup, h1, if_false]
    exact ih (fun d hd => h d (by simp [hd]))

/-- Inside the range replaced, a lookup finds the new cells. -/
theorem memLookup_splice_inside (lo hi : Nat) (cells mem : List Host.Cell) (a : Nat) (h1 : lo ≤ a) (h2 : a < hi) :
    memLookup (spliceMem lo hi cells mem) a = memLookup cells a := by
  unfold spliceMem
  rw [memLookup_append, memLookup_append, memLookup_filter (fun x => decide (x < lo)),
    memLookup_filter (fun x => decide (hi ≤ x))]
  have e1 : decide (a < lo) = false := by simp; omega
  have e2 : decide (hi ≤ a) = false := by simp; omega
  simp [e1, e2]

/-- Outside the range replaced, a lookup finds what it found before. -/
theorem memLookup_splice_outside (lo hi : Nat) (cells mem : List Host.Cell) (a : Nat) (h : a < lo ∨ hi ≤ a)
    (hc : ∀ c ∈ cells, lo ≤ c.1 ∧ c.1 < hi) :
    memLookup (spliceMem lo hi cells mem) a = memLookup mem a := by
  have hn : memLookup cells a = none := memLookup_eq_none cells a (fun c hm => by have := hc c hm; omega)
  unfold spliceMem
  rw [memLookup_append, memLookup_append, memLookup_filter (fun x => decide (x < lo)),
    memLookup_filter (fun x => decide (hi ≤ x)), hn]
  by_cases h1 : a < lo
  · by_cases h2 : hi ≤ a <;> simp [h1, h2]
  · have h2 : hi ≤ a := by omega
    simp [h1, h2]

/-! ## Reading a byte -/

theorem readByte_not_stored (s : State) (a : Nat) (h : storedByte a = false) : readByte s a = 0 := by
  simp [readByte, h]

theorem readByte_congr (s t : State) (a : Nat) (hm : memLookup t.mem a = memLookup s.mem a)
    (hk : drawAt t.marks a = drawAt s.marks a) : readByte t a = readByte s a := by
  simp [readByte, hm, unlistedByte, hk]

/-- A byte depends on the memory and the marks only. -/
theorem readByte_eq_of_mem_marks (s t : State) (a : Nat) (hm : t.mem = s.mem) (hk : t.marks = s.marks) :
    readByte t a = readByte s a :=
  readByte_congr s t a (by rw [hm]) (by rw [hk])

/-- A write leaves every byte outside its range as it was. -/
theorem readByte_writeCells_outside (s : State) (lo hi : Nat) (cells : List Host.Cell) (a : Nat)
    (h : a < lo ∨ hi ≤ a) (hc : ∀ c ∈ cells, lo ≤ c.1 ∧ c.1 < hi) :
    readByte (writeCells s lo hi cells) a = readByte s a :=
  readByte_congr _ _ _ (memLookup_splice_outside lo hi cells s.mem a h hc) rfl

/-- A byte that a write lists reads as what was written. -/
theorem readByte_writeCells_inside (s : State) (lo hi : Nat) (cells : List Host.Cell) (a : Nat) (b : Byte)
    (h1 : lo ≤ a) (h2 : a < hi) (hs : storedByte a = true) (hb : memLookup cells a = some b) :
    readByte (writeCells s lo hi cells) a = b := by
  simp [readByte, hs, memLookup_splice_inside lo hi cells s.mem a h1 h2, hb]

/-- Making a range UNKNOWN leaves every other byte as it was. -/
theorem readByte_forget_outside (s : State) (lo hi a : Nat) (h : a < lo ∨ hi ≤ a) :
    readByte (forget s lo hi) a = readByte s a := by
  apply readByte_congr
  · exact memLookup_splice_outside lo hi [] s.mem a h (by simp)
  · simp only [forget_marks, drawAt]
    rw [if_neg (by omega)]

/-- A byte made UNKNOWN reads as the fresh free value of its draw. -/
theorem readByte_forget_inside (s : State) (lo hi a : Nat) (h1 : lo ≤ a) (h2 : a < hi) (hs : storedByte a = true) :
    readByte (forget s lo hi) a = Config.unknownByte (s.draws + 1) a := by
  simp [readByte, hs, memLookup_splice_inside lo hi [] s.mem a h1 h2, memLookup, unlistedByte, drawAt, h1, h2]

/-! ## Consecutive bytes -/

theorem byteCells_mem (a : Nat) (bs : List Byte) (c : Host.Cell) (h : c ∈ byteCells a bs) :
    a ≤ c.1 ∧ c.1 < a + bs.length := by
  induction bs generalizing a with
  | nil => simp [byteCells] at h
  | cons b bs ih =>
    simp only [byteCells, List.mem_cons] at h
    rcases h with rfl | h
    · simp
    · have := ih (a + 1) h
      simp only [List.length_cons]; omega

theorem memLookup_byteCells (a : Nat) (bs : List Byte) (i : Nat) :
    memLookup (byteCells a bs) (a + i) = bs[i]? := by
  induction bs generalizing a i with
  | nil => simp [byteCells, memLookup]
  | cons b bs ih =>
    cases i with
    | zero => simp [byteCells, memLookup]
    | succ i =>
      simp only [byteCells, memLookup, List.getElem?_cons_succ]
      rw [if_neg (by omega), ← ih (a + 1) i]
      congr 1; omega

theorem readByte_storeBytes_outside (s : State) (a : Nat) (bs : List Byte) (x : Nat)
    (h : x < a ∨ a + bs.length ≤ x) : readByte (storeBytes s a bs) x = readByte s x :=
  readByte_writeCells_outside s _ _ _ x h (fun c hc => byteCells_mem a bs c hc)

theorem readByte_storeBytes_inside (s : State) (a : Nat) (bs : List Byte) (i : Nat) (h : i < bs.length)
    (hs : storedByte (a + i) = true) : readByte (storeBytes s a bs) (a + i) = bs[i] :=
  readByte_writeCells_inside s _ _ _ _ _ (by omega) (by omega) hs (by rw [memLookup_byteCells]; simp [h])

/-! ## Word elements -/

theorem elemCells_mem (k : Nat) (a : Nat) (es : List Word) (c : Host.Cell) (h : c ∈ elemCells k a es) :
    ∃ i j, i < es.length ∧ j < k ∧ c.1 = a + 4 * i + j := by
  induction es generalizing a with
  | nil => simp [elemCells] at h
  | cons e es ih =>
    simp only [elemCells, List.mem_append, List.mem_map, List.mem_range] at h
    rcases h with ⟨j, hj, rfl⟩ | h
    · exact ⟨0, j, by simp, hj, by simp⟩
    · obtain ⟨i, j, hi, hj, he⟩ := ih (a + 4) h
      exact ⟨i + 1, j, by simp; omega, hj, by omega⟩

theorem memLookup_elemRow (a k : Nat) (e : Word) (n j : Nat) (hj : j < n) (hn : n ≤ k) :
    memLookup ((List.range n).map (fun j => (a + j, byteOf e j))) (a + j) = some (byteOf e j) := by
  induction n with
  | zero => omega
  | succ n ih =>
    rw [List.range_succ, List.map_append, memLookup_append]
    by_cases h : j < n
    · rw [ih h (by omega)]; rfl
    · have : j = n := by omega
      subst this
      rw [memLookup_eq_none _ _ (by simp; omega)]
      simp [memLookup]

theorem memLookup_elemCells (k : Nat) (hk : k ≤ 4) (a : Nat) (es : List Word) (i j : Nat) (hi : i < es.length)
    (hj : j < k) : memLookup (elemCells k a es) (a + 4 * i + j) = some (byteOf es[i] j) := by
  induction es generalizing a i with
  | nil => simp at hi
  | cons e es ih =>
    simp only [elemCells, memLookup_append]
    cases i with
    | zero => simp [memLookup_elemRow a k e k j hj (le_refl k)]
    | succ i =>
      rw [memLookup_eq_none _ _ (by simp; omega)]
      have := ih (a + 4) i (by simpa using hi)
      simp only [Option.none_or, List.getElem_cons_succ]
      rw [← this]; congr 1; omega

theorem elemCells_in_range (k : Nat) (hk : k ≤ 4) (a : Nat) (es : List Word) :
    ∀ c ∈ elemCells k a es, a ≤ c.1 ∧ c.1 < a + 4 * es.length := by
  intro c hc
  obtain ⟨i, j, hi, hj, he⟩ := elemCells_mem k a es c hc
  omega

theorem definedBytes_le (w : Window) : w.definedBytes ≤ 4 := by cases w <;> decide

theorem readByte_storeElems_outside (s : State) (w : Window) (es : List Word) (x : Nat)
    (h : x < w.base ∨ w.base + 4 * es.length ≤ x) : readByte (storeElems s w es) x = readByte s x :=
  readByte_writeCells_outside s _ _ _ x h (elemCells_in_range _ (definedBytes_le w) _ es)

/-- A stored element's bytes: its defined bytes, 0 above them. -/
theorem readByte_storeElems_inside (s : State) (w : Window) (es : List Word) (i j : Nat) (hi : i < es.length)
    (hj : j < 4) (hw : 4 * es.length ≤ w.size) :
    readByte (storeElems s w es) (w.base + 4 * i + j) = if j < w.definedBytes then byteOf es[i] j else 0 := by
  have hst := storedByte_elem w i j (by omega) hj
  by_cases hd : j < w.definedBytes
  · rw [if_pos hd]
    apply readByte_writeCells_inside
    · omega
    · omega
    · simp [hst, hd]
    · exact memLookup_elemCells _ (definedBytes_le w) _ es i j hi hd
  · rw [if_neg hd]
    exact readByte_not_stored _ _ (by simp [hst, hd])

/-! ## The canonical form -/

theorem memWf_reset : Memory.wf State.reset.mem := by simp [State.reset, Memory.wf]

/-- Replacing a range by canonical cells of that range keeps the canonical form. -/
theorem memWf_splice (lo hi : Nat) (cells mem : List Host.Cell) (hle : lo ≤ hi) (hm : Memory.wf mem)
    (hc : Memory.wf cells) (hr : ∀ c ∈ cells, lo ≤ c.1 ∧ c.1 < hi) : Memory.wf (spliceMem lo hi cells mem) := by
  refine ⟨?_, ?_⟩
  · unfold spliceMem
    rw [List.pairwise_append, List.pairwise_append]
    refine ⟨⟨hm.1.filter _, hc.1, ?_⟩, hm.1.filter _, ?_⟩
    · intro c h1 d h2
      have := hr d h2
      simp at h1; omega
    · intro c h1 d h2
      simp only [List.mem_append, List.mem_filter, decide_eq_true_eq] at h1 h2
      rcases h1 with h1 | h1
      · omega
      · have := hr c h1; omega
  · intro c h
    simp only [spliceMem, List.mem_append, List.mem_filter] at h
    rcases h with (h | h) | h
    · exact hm.2 c h.1
    · exact hc.2 c h
    · exact hm.2 c h.1

theorem memWf_writeCells (s : State) (lo hi : Nat) (cells : List Host.Cell) (hle : lo ≤ hi) (hm : Memory.wf s.mem)
    (hc : Memory.wf cells) (hr : ∀ c ∈ cells, lo ≤ c.1 ∧ c.1 < hi) : Memory.wf (writeCells s lo hi cells).mem :=
  memWf_splice lo hi cells s.mem hle hm hc hr

theorem memWf_forget (s : State) (lo hi : Nat) (hle : lo ≤ hi) (hm : Memory.wf s.mem) :
    Memory.wf (forget s lo hi).mem :=
  memWf_splice lo hi [] s.mem hle hm (by simp [Memory.wf]) (by simp)

theorem memWf_byteCells (a : Nat) (bs : List Byte) (hs : ∀ i, i < bs.length → storedByte (a + i) = true) :
    Memory.wf (byteCells a bs) := by
  induction bs generalizing a with
  | nil => simp [byteCells, Memory.wf]
  | cons b bs ih =>
    have h := ih (a + 1) (fun i hi => by have := hs (i + 1) (by simp; omega); rwa [show a + 1 + i = a + (i + 1) by omega])
    refine ⟨?_, ?_⟩
    · refine List.pairwise_cons.2 ⟨?_, h.1⟩
      intro c hc
      have := byteCells_mem (a + 1) bs c hc
      omega
    · intro c hc
      simp only [byteCells, List.mem_cons] at hc
      rcases hc with rfl | hc
      · simpa using hs 0 (by simp)
      · exact h.2 c hc

theorem memWf_storeBytes (s : State) (a : Nat) (bs : List Byte) (hm : Memory.wf s.mem)
    (hs : ∀ i, i < bs.length → storedByte (a + i) = true) : Memory.wf (storeBytes s a bs).mem :=
  memWf_splice _ _ _ _ (by omega) hm (memWf_byteCells a bs hs) (fun c hc => byteCells_mem a bs c hc)

theorem elemCells_pairwise (k : Nat) (hk : k ≤ 4) (a : Nat) (es : List Word) :
    (elemCells k a es).Pairwise (fun c d => c.1 < d.1) := by
  induction es generalizing a with
  | nil => simp [elemCells]
  | cons e es ih =>
    simp only [elemCells]
    rw [List.pairwise_append]
    refine ⟨?_, ih (a + 4), ?_⟩
    · rw [List.pairwise_map]
      exact List.pairwise_lt_range.imp (fun h => by omega)
    · intro c hc d hd
      obtain ⟨i, j, _, _, he⟩ := elemCells_mem k (a + 4) es d hd
      simp only [List.mem_map, List.mem_range] at hc
      obtain ⟨j', hj', rfl⟩ := hc
      simp only; omega

/-- Storing elements that fit their window keeps the canonical form. -/
theorem memWf_storeElems (s : State) (w : Window) (es : List Word) (hm : Memory.wf s.mem)
    (hw : 4 * es.length ≤ w.size) : Memory.wf (storeElems s w es).mem := by
  refine memWf_splice _ _ _ _ (by omega) hm ⟨elemCells_pairwise _ (definedBytes_le w) _ es, ?_⟩
    (elemCells_in_range _ (definedBytes_le w) _ es)
  intro c hc
  obtain ⟨i, j, hi, hj, he⟩ := elemCells_mem _ _ es c hc
  rw [he, storedByte_elem w i j (by omega) (by have := definedBytes_le w; omega)]
  simpa using hj

/-- The cells of a host write are canonical and in their range. -/
theorem writtenCells_in_range (off n : Nat) (v : Word) :
    ∀ c ∈ writtenCells off n v, off ≤ c.1 ∧ c.1 < off + n := by
  intro c hc
  simp only [writtenCells, List.mem_map, List.mem_filter, List.mem_range] at hc
  obtain ⟨j, ⟨hj, _⟩, rfl⟩ := hc
  simp only; omega

theorem memWf_writtenCells (off n : Nat) (v : Word) : Memory.wf (writtenCells off n v) := by
  refine ⟨?_, ?_⟩
  · unfold writtenCells
    rw [List.pairwise_map]
    exact (List.pairwise_lt_range.filter _).imp (fun h => by omega)
  · intro c hc
    simp only [writtenCells, List.mem_map, List.mem_filter, List.mem_range] at hc
    obtain ⟨j, ⟨_, hs⟩, rfl⟩ := hc
    exact hs

theorem memWf_forgetRanges (rs : List (Nat × Nat)) (s : State) (hm : Memory.wf s.mem)
    (hr : ∀ r ∈ rs, r.1 ≤ r.2) : Memory.wf (forgetRanges s rs).mem := by
  induction rs generalizing s with
  | nil => exact hm
  | cons r rs ih =>
    exact ih (forget s r.1 r.2) (memWf_forget s _ _ (hr r (by simp)) hm) (fun x hx => hr x (by simp [hx]))

end Sys2Proof.Machine
end

