-- ==== Sys2Proof/Laws/Operands.lean ====
section
/-! SUPPORT. The laws of the operand forms: words and codewords read back after a store, the words of a bit matrix, and
the searches and fallible maps that the meanings share. -/

namespace Sys2Proof.Machine

/-! ## Words -/

theorem byteOf_wordOf (b0 b1 b2 b3 : Byte) :
    byteOf (wordOf b0 b1 b2 b3) 0 = b0 ∧ byteOf (wordOf b0 b1 b2 b3) 1 = b1 ∧
      byteOf (wordOf b0 b1 b2 b3) 2 = b2 ∧ byteOf (wordOf b0 b1 b2 b3) 3 = b3 := by
  refine ⟨?_, ?_, ?_, ?_⟩ <;>
  · apply BitVec.eq_of_getLsbD_eq
    intro i hi
    simp only [byteOf, wordOf, BitVec.getLsbD_extractLsb', BitVec.getLsbD_append]
    have h0 : i < 8 := hi
    have h1 : ¬ 8 + i < 8 := by omega
    have h2 : ¬ 16 + i < 8 := by omega
    have h3 : ¬ 16 + i - 8 < 8 := by omega
    have h4 : ¬ 24 + i < 8 := by omega
    have h5 : ¬ 24 + i - 8 < 8 := by omega
    have h6 : ¬ 24 + i - 8 - 8 < 8 := by omega
    have e1 : 8 + i - 8 = i := by omega
    have e2 : 16 + i - 8 - 8 = i := by omega
    have e3 : 24 + i - 8 - 8 - 8 = i := by omega
    simp [h0, h1, h2, h3, h4, h5, h6, e1, e2, e3]

/-- A word is the word of its bytes. -/
theorem wordOf_bytes (w : Word) : wordOf (byteOf w 0) (byteOf w 1) (byteOf w 2) (byteOf w 3) = w := by
  apply BitVec.eq_of_getLsbD_eq
  intro i hi
  simp only [byteOf, wordOf, BitVec.getLsbD_extractLsb', BitVec.getLsbD_append]
  by_cases h1 : i < 8
  · simp [h1]
  · by_cases h2 : i - 8 < 8
    · simp [h1, h2]; congr 1; omega
    · by_cases h3 : i - 8 - 8 < 8
      · simp [h1, h2, h3]; congr 1; omega
      · have h4 : i - 8 - 8 - 8 < 8 := by omega
        simp [h1, h2, h3, h4]; congr 1; omega

theorem readWord_congr (s t : State) (a : Nat) (h : ∀ j, j < 4 → readByte t (a + j) = readByte s (a + j)) :
    readWord t a = readWord s a := by
  have h0 := h 0 (by omega)
  have h1 := h 1 (by omega)
  have h2 := h 2 (by omega)
  have h3 := h 3 (by omega)
  simp only [Nat.add_zero] at h0
  simp [readWord, h0, h1, h2, h3]

/-- Everything that reads the buffers only depends on the memory and the marks. -/
theorem readWord_eq_of_mem_marks (s t : State) (a : Nat) (hm : t.mem = s.mem) (hk : t.marks = s.marks) :
    readWord t a = readWord s a :=
  readWord_congr s t a (fun _ _ => readByte_eq_of_mem_marks s t _ hm hk)

theorem cwAt_eq_of_mem_marks (s t : State) (i : Nat) (hm : t.mem = s.mem) (hk : t.marks = s.marks) :
    cwAt t i = cwAt s i := by
  simp [cwAt, readByte_eq_of_mem_marks s t _ hm hk]

/-- A word that was stored in a window of whole words reads back. -/
theorem readWord_storeElems_full (s : State) (w : Window) (es : List Word) (i : Nat) (hi : i < es.length)
    (hw : 4 * es.length ≤ w.size) (hd : w.definedBytes = 4) :
    readWord (storeElems s w es) (w.base + 4 * i) = es[i] := by
  have h := fun j hj => readByte_storeElems_inside s w es i j hi hj hw
  rw [hd] at h
  have h0 := h 0 (by omega)
  have h1 := h 1 (by omega)
  have h2 := h 2 (by omega)
  have h3 := h 3 (by omega)
  simp only [Nat.add_zero] at h0
  simp only [readWord, h0, h1, h2, h3]
  simpa using wordOf_bytes es[i]

/-- Words outside the stored elements read as before. -/
theorem readWord_storeElems_outside (s : State) (w : Window) (es : List Word) (a : Nat)
    (h : a + 4 ≤ w.base ∨ w.base + 4 * es.length ≤ a) : readWord (storeElems s w es) a = readWord s a :=
  readWord_congr _ _ _ (fun j hj => readByte_storeElems_outside s w es (a + j) (by omega))

/-! ## Bit matrices -/

theorem rowWords_length (w : Nat) (bit : Nat → Bool) : (rowWords w bit).length = rowSize w := by
  simp [rowWords]

theorem matrixWords_length (w h : Nat) (bit : Nat → Nat → Bool) : (matrixWords w h bit).length = h * rowSize w := by
  induction h with
  | zero => simp [matrixWords]
  | succ h ih =>
    unfold matrixWords at ih ⊢
    rw [List.range_succ, List.flatMap_append, List.length_append, ih]
    simp [rowWords_length, Nat.succ_mul]

theorem getLsbD_ofBoolListLE (bs : List Bool) (k : Nat) : (BitVec.ofBoolListLE bs).getLsbD k = bs.getD k false := by
  induction bs generalizing k with
  | nil => simp [BitVec.ofBoolListLE]
  | cons b bs ih =>
    rw [BitVec.ofBoolListLE, BitVec.getLsbD_concat]
    cases k with
    | zero => simp
    | succ k => simp [ih k]

/-- Bit k of word j of a row: the bit at 32*j + k, clear past the width (30_encoding R150). -/
theorem rowWord_getLsbD (w : Nat) (bit : Nat → Bool) (j k : Nat) (hk : k < 32) :
    (rowWord w bit j).getLsbD k = (decide (32 * j + k < w) && bit (32 * j + k)) := by
  rw [rowWord, BitVec.getLsbD_setWidth, getLsbD_ofBoolListLE]
  simp [hk]

/-- Word y * rowSize + j of a bit matrix is word j of row y (30_encoding R150). -/
theorem matrixWords_getElem? (w h : Nat) (bit : Nat → Nat → Bool) (y j : Nat) (hy : y < h) (hj : j < rowSize w) :
    (matrixWords w h bit)[y * rowSize w + j]? = some (rowWord w (fun x => bit x y) j) := by
  induction h with
  | zero => omega
  | succ h ih =>
    have hl := matrixWords_length w h bit
    unfold matrixWords at ih hl ⊢
    rw [List.range_succ, List.flatMap_append]
    by_cases hlt : y < h
    · rw [List.getElem?_append_left, ih hlt]
      rw [hl]
      calc y * rowSize w + j < y * rowSize w + rowSize w := by omega
        _ = (y + 1) * rowSize w := by ring
        _ ≤ h * rowSize w := Nat.mul_le_mul_right _ (by omega)
    · have hyh : y = h := by omega
      subst hyh
      rw [List.getElem?_append_right (by rw [hl]; omega), hl]
      have : y * rowSize w + j - y * rowSize w = j := by omega
      rw [this]
      simp [rowWords, hj]

/-! ## Searches and fallible maps -/

theorem firstIndex_none (bad : Nat → Bool) (vs : List Nat) (i : Nat) :
    firstIndex bad vs i = none ↔ ∀ v ∈ vs, bad v = false := by
  induction vs generalizing i with
  | nil => simp [firstIndex]
  | cons v vs ih =>
    by_cases h : bad v = true
    · simp [firstIndex, h]
    · simp [firstIndex, h, ih]

/-- A search answers the index of the first bad value. -/
theorem firstIndex_some (bad : Nat → Bool) (vs : List Nat) (i j : Nat) :
    firstIndex bad vs i = some j ↔
      ∃ k, ∃ h : k < vs.length, j = i + k ∧ bad vs[k] = true ∧ ∀ m, ∀ hm : m < k, bad (vs[m]'(by omega)) = false := by
  induction vs generalizing i with
  | nil => simp [firstIndex]
  | cons v vs ih =>
    by_cases hb : bad v = true
    · simp only [firstIndex, hb, if_true, Option.some.injEq]
      constructor
      · rintro rfl
        exact ⟨0, by simp, by simp, by simpa using hb, by simp⟩
      · rintro ⟨k, hk, rfl, _, hall⟩
        cases k with
        | zero => simp
        | succ k =>
          have := hall 0 (by omega)
          simp [hb] at this
    · simp only [firstIndex, hb, Bool.false_eq_true, if_false]
      rw [ih]
      constructor
      · rintro ⟨k, hk, rfl, h1, h2⟩
        refine ⟨k + 1, by simpa using hk, by omega, by simpa using h1, ?_⟩
        intro m hm
        cases m with
        | zero => simpa using hb
        | succ m => simpa using h2 m (by omega)
      · rintro ⟨k, hk, rfl, h1, h2⟩
        cases k with
        | zero => simp [hb] at h1
        | succ k =>
          refine ⟨k, by simpa using hk, by omega, by simpa using h1, ?_⟩
          intro m hm
          have := h2 (m + 1) (by omega)
          simpa using this

/-- A fallible map that succeeds gives one result for each entry. -/
theorem mapE_ok {α β : Type} (f : α → Except CmdError β) (as : List α) (bs : List β) (h : mapE f as = .ok bs) :
    bs.length = as.length ∧ ∀ i (h1 : i < as.length) (h2 : i < bs.length), f as[i] = .ok bs[i] := by
  induction as generalizing bs with
  | nil => simp only [mapE, Except.ok.injEq] at h; subst h; simp
  | cons a as ih =>
    simp only [mapE] at h
    split at h
    · cases h
    · rename_i b hb
      split at h
      · cases h
      · rename_i cs hcs
        cases h
        obtain ⟨hl, hi⟩ := ih cs hcs
        refine ⟨by simp [hl], ?_⟩
        intro i h1 h2
        cases i with
        | zero => simpa using hb
        | succ i => simpa using hi i (by simpa using h1) (by simpa using h2)

/-- A fallible map that fails does so at an entry. -/
theorem mapE_error {α β : Type} (f : α → Except CmdError β) (as : List α) (e : CmdError) (h : mapE f as = .error e) :
    ∃ a ∈ as, f a = .error e := by
  induction as with
  | nil => simp [mapE] at h
  | cons a as ih =>
    simp only [mapE] at h
    split at h
    · rename_i e' he
      cases h
      exact ⟨a, by simp, he⟩
    · split at h
      · rename_i e' he
        cases h
        obtain ⟨x, hx, hf⟩ := ih he
        exact ⟨x, by simp [hx], hf⟩
      · cases h

end Sys2Proof.Machine
end

