-- ==== Sys2Proof/Laws/Commands.lean ====
section
/-! SUPPORT. The laws of the completion step: what `finish` leaves, in the terms of the claims, and that every command
has one. -/

namespace Sys2Proof.Machine

open Sys2Proof.Safety

/-! ## The outcome of a completion step -/

/-- A body that raised nothing completes OK (60_exceptions R455). -/
theorem endCommand_none (s : State) : endCommand s none = withOutcome s .ok 0 0 := rfl

/-- A body that raised an error completes with it (60_exceptions R455). -/
theorem endCommand_some (s : State) (e : CmdError) :
    endCommand s (some e) = withOutcome s e.code e.detail e.index.toNat := by
  simp [endCommand, withOutcome]

theorem finish_ok (s : State) : finish (s, none) = .next (withOutcome s .ok 0 0) := rfl

theorem finish_error (s : State) (e : CmdError) :
    finish (s, some e) = .next (withOutcome s e.code e.detail e.index.toNat) := by
  rw [finish, endCommand_some]

theorem finish_argument (s : State) (d : Byte) : finish (s, some (argumentError d 0)) = .next (withOutcome s .argument d 0) := rfl

theorem finish_notFound (s : State) (d : Byte) (i : Nat) :
    finish (s, some (notFoundError d i)) = .next (withOutcome s .notFound d i) := rfl

theorem finish_format (s : State) (d : Byte) (i : Nat) :
    finish (s, some (formatError d i)) = .next (withOutcome s .format d i) := rfl

theorem finish_checksum (s : State) (d : Byte) (i : Nat) :
    finish (s, some (checksumError d i)) = .next (withOutcome s .checksum d i) := rfl

@[simp] theorem withOutcome_mem (s : State) (c : ErrCode) (d : Byte) (i : Nat) : (withOutcome s c d i).mem = s.mem := rfl
@[simp] theorem withOutcome_marks (s : State) (c : ErrCode) (d : Byte) (i : Nat) :
    (withOutcome s c d i).marks = s.marks := rfl
@[simp] theorem withOutcome_draws (s : State) (c : ErrCode) (d : Byte) (i : Nat) :
    (withOutcome s c d i).draws = s.draws := rfl
@[simp] theorem withOutcome_eng (s : State) (c : ErrCode) (d : Byte) (i : Nat) : (withOutcome s c d i).eng = .idle := rfl
@[simp] theorem withOutcome_regs (s : State) (c : ErrCode) (d : Byte) (i : Nat) : (withOutcome s c d i).regs =
    { s.regs with done := true, err := decide (c ≠ .ok), errcode := c, detail := d, index := BitVec.ofNat 16 i } := rfl

/-- The outcome changes no byte of a buffer. -/
@[simp] theorem readByte_withOutcome (s : State) (c : ErrCode) (d : Byte) (i a : Nat) :
    readByte (withOutcome s c d i) a = readByte s a :=
  readByte_eq_of_mem_marks _ _ a rfl rfl

@[simp] theorem readWord_withOutcome (s : State) (c : ErrCode) (d : Byte) (i a : Nat) :
    readWord (withOutcome s c d i) a = readWord s a :=
  readWord_eq_of_mem_marks _ _ a rfl rfl

@[simp] theorem readByte_endCommand (s : State) (e : Option CmdError) (a : Nat) :
    readByte (endCommand s e) a = readByte s a :=
  readByte_eq_of_mem_marks _ _ a rfl rfl

/-- Registers do not bear on the bytes of the buffers. -/
@[simp] theorem readByte_regs (s : State) (r : Regs) (a : Nat) : readByte { s with regs := r } a = readByte s a :=
  readByte_eq_of_mem_marks _ _ a rfl rfl

@[simp] theorem readWord_regs (s : State) (r : Regs) (a : Nat) : readWord { s with regs := r } a = readWord s a :=
  readWord_eq_of_mem_marks _ _ a rfl rfl

/-! ## Every command has a completion step -/

/-- The meaning of every command is the completion step of a body. -/
theorem exec_eq_finish (i : Instr) (s : State) : ∃ r : BodyResult, exec i s = finish r := by
  cases i <;> exact ⟨_, rfl⟩

/-- A command never faults and is never refused. -/
theorem exec_next (i : Instr) (s : State) : ∃ t, exec i s = .next t := by
  obtain ⟨r, hr⟩ := exec_eq_finish i s
  exact ⟨_, hr⟩

/-- The completion step of any word answers a next state. -/
theorem completionStep_next (w : Word) (s : State) : ∃ t, completionStep w s = .next t := by
  unfold completionStep
  split
  · exact exec_next _ _
  · exact ⟨_, rfl⟩

/-! ## What a running command may write -/

/-- When SLD_CHECK repairs the descriptor (41_reed_solomon R245). -/
theorem sldRepairs_iff (s : State) : sldRepairs s = true ↔
    4 ≤ s.regs.cwLen.toNat ∧ s.regs.cwLen.toNat ≤ 1024 ∧ cwAt s 0 = 0 ∧ s.regs.nec.toNat < s.regs.cwLen.toNat := by
  simp only [sldRepairs, Bool.and_eq_true, decide_eq_true_eq, and_assoc]
  rfl

/-- SLD_CHECK writes CW[0] where it repairs it and nothing else (41_reed_solomon R245). -/
theorem sldCheckBody_writes (s : State) : (sldCheckBody s).1 =
    if sldRepairs s then storeElems s .cw [BitVec.ofNat 32 (s.regs.cwLen.toNat - s.regs.nec.toNat)] else s := by
  simp only [sldCheckBody, sldRepairs_iff, Config.cwMax, Config.sldMinLen]
  by_cases h0 : cwAt s 0 = 0
  · simp only [h0, true_and, if_true]
    split_ifs <;> first | rfl | omega
  · simp only [h0, false_and, and_false, if_false]
    split_ifs <;> rfl

/-- When BIN_HYBRID performs BIN_GLOBAL (42_binarizer R271, R295). -/
theorem hybridFallsBack_iff (s : State) : hybridFallsBack s = true ↔ fallsBack s := by
  simp only [hybridFallsBack, imageSizeBad, Bool.and_eq_true, Bool.or_eq_true, Bool.not_eq_true', Bool.or_eq_false_iff,
    decide_eq_true_eq, decide_eq_false_iff_not]
  simp only [Config.imgMaxW, Config.imgMaxH, Config.hybMinDim, fallsBack]
  omega

/-- In the fall-back case BIN_HYBRID does what BIN_GLOBAL does (42_binarizer R295). -/
theorem binHybridBody_fallsBack (s : State) (h : hybridFallsBack s = true) : binHybridBody s = binGlobalBody s := by
  simp only [hybridFallsBack, Bool.and_eq_true, Bool.or_eq_true, Bool.not_eq_true', decide_eq_true_eq] at h
  simp [binHybridBody, h.1, h.2]

/-- The result registers of a running command, in the terms of the claims. -/
theorem commandRegs_eq (s : State) (i : Instr) : commandRegs s i = mayWriteRegs s i := by
  by_cases h : fallsBack s <;>
    cases i <;> simp [commandRegs, mayWriteRegs, resultRegs, hybridFallsBack_iff, h, -not_and, -not_or]

/-- The ranges of a running command, in the terms of the claims. -/
theorem commandRanges_eq (s : State) (i : Instr) : commandRanges s i = mayWrite s i := by
  cases i <;>
    simp [commandRanges, mayWrite, firstWords, wholeWindow, Window.base, bmRange, decodeBuffers, rowSize,
      sldRepairs_iff, hybridFallsBack_iff]

@[simp] theorem inRanges_iff (rs : List (Nat × Nat)) (a : Nat) : inRanges rs a = true ↔ within rs a := by
  simp [inRanges, within]

/-! ## One step -/

theorem step_completion (s : State) (w : Word) (h : s.eng = .running w 0) : step s = completionStep w s := by
  simp [step, h]

theorem step_countdown (s : State) (w : Word) (n : Nat) (h : s.eng = .running w (n + 1)) :
    step s = portStep { s with eng := .running w n } := by
  simp [step, h]

theorem step_idle (s : State) (h : s.eng = .idle) : step s = portStep s := by
  simp [step, h]

/-- What a step that answers a next state did: a completion step, or one input of the ports on the state with the
countdown one lower. -/
theorem step_cases (s t : State) (h : step s = .next t) :
    (∃ w, s.eng = .running w 0 ∧ completionStep w s = .next t) ∨
    (∃ u, (u = s ∧ s.eng = .idle ∨ ∃ w n, s.eng = .running w (n + 1) ∧ u = { s with eng := .running w n }) ∧
      ((u.inputs = [] ∧ t = u) ∨
       ∃ rest, (u.inputs = .idle :: rest ∧ t = { u with inputs := rest }) ∨
        (u.inputs = .rstLow :: rest ∧ t = powerOnReset { u with inputs := rest }) ∨
        ∃ a, u.inputs = .access a :: rest ∧ (hostAccess { u with inputs := rest } a).1.error = false ∧
          t = { (hostAccess { u with inputs := rest } a).2 with
            reply := some (hostAccess { u with inputs := rest } a).1 })) := by
  have port : ∀ u, portStep u = .next t →
      ((u.inputs = [] ∧ t = u) ∨
       ∃ rest, (u.inputs = .idle :: rest ∧ t = { u with inputs := rest }) ∨
        (u.inputs = .rstLow :: rest ∧ t = powerOnReset { u with inputs := rest }) ∨
        ∃ a, u.inputs = .access a :: rest ∧ (hostAccess { u with inputs := rest } a).1.error = false ∧
          t = { (hostAccess { u with inputs := rest } a).2 with
            reply := some (hostAccess { u with inputs := rest } a).1 }) := by
    intro u hu
    unfold portStep at hu
    split at hu
    · rename_i hin
      cases hu
      exact .inl ⟨hin, rfl⟩
    · rename_i i rest hin
      refine .inr ⟨rest, ?_⟩
      cases i with
      | idle => cases hu; exact .inl ⟨hin, rfl⟩
      | rstLow => cases hu; exact .inr (.inl ⟨hin, rfl⟩)
      | access a =>
        simp only [takeInput] at hu
        split at hu
        · cases hu
        · rename_i he
          cases hu
          exact .inr (.inr ⟨a, hin, by simpa using he, rfl⟩)
  cases he : s.eng with
  | idle =>
    rw [step_idle s he] at h
    exact .inr ⟨s, .inl ⟨rfl, rfl⟩, port s h⟩
  | running w n =>
    cases n with
    | zero =>
      rw [step_completion s w he] at h
      exact .inl ⟨w, rfl, h⟩
    | succ n =>
      rw [step_countdown s w n he] at h
      exact .inr ⟨_, .inr ⟨w, n, rfl, rfl⟩, port _ h⟩

end Sys2Proof.Machine
end

