-- ==== Sys2Proof/Laws/PerInstr.lean ====
section
/-! SUPPORT. Statements made per instruction: the command word of every command is one that names a command
(30_encoding R141, R142). -/

namespace Sys2Proof.Laws

/-- The command is well-formed, its word has RSVD = 0 and an assigned OPCODE, and the word's OPCODE field is the whole
word (30_encoding R141, R142). -/
def CommandWord.Statement (i : Instr) : Prop :=
  i.wellFormed = true ∧ wellFormedWord (encode i) = true ∧ opcodeField (encode i) = (encode i).toNat

theorem CommandWord.nop : CommandWord.Statement .nop := by unfold CommandWord.Statement; decide
theorem CommandWord.gfAdd : CommandWord.Statement .gfAdd := by unfold CommandWord.Statement; decide
theorem CommandWord.gfMul : CommandWord.Statement .gfMul := by unfold CommandWord.Statement; decide
theorem CommandWord.gfInv : CommandWord.Statement .gfInv := by unfold CommandWord.Statement; decide
theorem CommandWord.gfExp : CommandWord.Statement .gfExp := by unfold CommandWord.Statement; decide
theorem CommandWord.gfLog : CommandWord.Statement .gfLog := by unfold CommandWord.Statement; decide
theorem CommandWord.rsSyndrome : CommandWord.Statement .rsSyndrome := by unfold CommandWord.Statement; decide
theorem CommandWord.rsDecode : CommandWord.Statement .rsDecode := by unfold CommandWord.Statement; decide
theorem CommandWord.sldCheck : CommandWord.Statement .sldCheck := by unfold CommandWord.Statement; decide
theorem CommandWord.binRow : CommandWord.Statement .binRow := by unfold CommandWord.Statement; decide
theorem CommandWord.binGlobal : CommandWord.Statement .binGlobal := by unfold CommandWord.Statement; decide
theorem CommandWord.binHybrid : CommandWord.Statement .binHybrid := by unfold CommandWord.Statement; decide
theorem CommandWord.ptSolve : CommandWord.Statement .ptSolve := by unfold CommandWord.Statement; decide
theorem CommandWord.ptMap : CommandWord.Statement .ptMap := by unfold CommandWord.Statement; decide
theorem CommandWord.ptSample : CommandWord.Statement .ptSample := by unfold CommandWord.Statement; decide
theorem CommandWord.dbsDecode : CommandWord.Statement .dbsDecode := by unfold CommandWord.Statement; decide
theorem CommandWord.numB900 : CommandWord.Statement .numB900 := by unfold CommandWord.Statement; decide
theorem CommandWord.cwPipeline : CommandWord.Statement .cwPipeline := by unfold CommandWord.Statement; decide

end Sys2Proof.Laws
end

