-- ==== Sys2Proof/Laws/Port.lean ====
section
/-! SUPPORT. The laws of the slave port: which accesses a window takes, and what an access to a register or to a buffer
does, so that later proofs do not unfold `hostAccess`. -/

namespace Sys2Proof.Machine

/-! ## Windows of accesses -/

theorem windowAt_some (a : Nat) (w : Window) (h : windowAt a = some w) : w.contains a = true := by
  have := List.find?_some h
  simpa using this

theorem windowAt_none (a : Nat) (h : windowAt a = none) (w : Window) : w.contains a = false := by
  rw [Bool.eq_false_iff]
  intro hc
  rw [windowAt_of_contains w a hc] at h
  cases h

/-- A full-width access is one of a word. -/
@[simp] theorem fullWidth_iff (size : Size) : fullWidth size = true ↔ size = .word := by
  cases size <;> decide

/-- An access that is aligned, in a window and of a size the window takes. -/
theorem accessWindow_of_contains (a : Access) (w : Window) (h1 : a.off.toNat % a.size.bytes = 0)
    (h2 : w.contains a.off.toNat = true) (h3 : a.size = .word ∨ w.byteWide = true) : accessWindow a = some w := by
  simp [accessWindow, Access.aligned, h1, windowAt_of_contains w _ h2, h3]

/-- An access has a window only if it is aligned, in that window and of a size the window takes. -/
theorem accessWindow_some (a : Access) (w : Window) (h : accessWindow a = some w) :
    a.off.toNat % a.size.bytes = 0 ∧ w.contains a.off.toNat = true ∧ (a.size = .word ∨ w.byteWide = true) := by
  unfold accessWindow at h
  split at h
  · rename_i hal
    simp only [Access.aligned, beq_iff_eq] at hal
    split at h
    · rename_i v hv
      split at h
      · rename_i hs
        cases h
        exact ⟨hal, windowAt_some _ _ hv, by simpa using hs⟩
      · cases h
    · cases h
  · cases h

/-- A bus error answers 0 with an error and changes nothing (20_memory R107). -/
theorem hostAccess_none (s : State) (a : Access) (h : accessWindow a = none) :
    hostAccess s a = ({ error := true, data := 0 }, s) := by
  simp [hostAccess, h]

theorem hostAccess_read (s : State) (off : Offset) (size : Size) (w : Window)
    (h : accessWindow (.read off size) = some w) :
    hostAccess s (.read off size) = performRead s w off.toNat size := by
  simp [hostAccess, h]

theorem hostAccess_write (s : State) (off : Offset) (size : Size) (v : Word) (w : Window)
    (h : accessWindow (.write off size v) = some w) :
    hostAccess s (.write off size v) = ({ error := false, data := 0 }, performWrite s w off.toNat size v) := by
  simp [hostAccess, h]

@[simp] theorem sized_word (v : Word) : sized .word v = v := by
  simp [sized, Size.bytes]

/-! ## Registers -/

theorem regOffset_toNat (k : Nat) (h : k < 64) : (BitVec.ofNat 23 (4 * k)).toNat = 4 * k := by
  rw [BitVec.toNat_ofNat]; omega

theorem regAt_mul (k : Nat) : regAt (4 * k) = RegName.all[k]? := by
  simp [regAt]

/-- A 32-bit write at register offset 4*k. -/
theorem hostAccess_write_reg (s : State) (k : Nat) (v : Word) (h : k < 64) :
    hostAccess s (.write (BitVec.ofNat 23 (4 * k)) .word v) =
      ({ error := false, data := 0 }, (RegName.all[k]?).elim s (fun r => writeRegister s r v)) := by
  have hw : accessWindow (.write (BitVec.ofNat 23 (4 * k)) .word v) = some .registers := by
    apply accessWindow_of_contains
    · simp only [Access.off, Access.size, Size.bytes, regOffset_toNat k h]; omega
    · simp only [Access.off, regOffset_toNat k h, contains_iff, Window.base, Window.size_eq]; omega
    · exact .inl rfl
  rw [hostAccess_write s _ _ _ _ hw]
  simp only [performWrite, regOffset_toNat k h, regAt_mul]
  cases RegName.all[k]? <;> rfl

/-- A 32-bit read at register offset 4*k. -/
theorem hostAccess_read_reg (s : State) (k : Nat) (h : k < 64) :
    hostAccess s (.read (BitVec.ofNat 23 (4 * k)) .word) =
      if (RegName.all[k]?).any (fun r => (runningRegs s).contains r) then
        ({ error := false, data := Config.busyRead s.draws }, { s with draws := s.draws + 1 })
      else ({ error := false, data := (RegName.all[k]?).elim 0 (readReg s) }, s) := by
  have hw : accessWindow (.read (BitVec.ofNat 23 (4 * k)) .word) = some .registers := by
    apply accessWindow_of_contains
    · simp only [Access.off, Access.size, Size.bytes, regOffset_toNat k h]; omega
    · simp only [Access.off, regOffset_toNat k h, contains_iff, Window.base, Window.size_eq]; omega
    · exact .inl rfl
  rw [hostAccess_read s _ _ _ hw]
  simp only [performRead, readsRunning, windowValue, regOffset_toNat k h, regAt_mul, sized_word]

/-! ## Idle and busy -/

@[simp] theorem busy_idle (s : State) (h : s.eng = .idle) : busy s = false := by simp [busy, h]

@[simp] theorem busy_of_ne_idle (s : State) (h : s.eng ≠ .idle) : busy s = true := by
  unfold busy
  split
  · exact absurd ‹_› h
  · rfl

@[simp] theorem runningRegs_idle (s : State) (h : s.eng = .idle) : runningRegs s = [] := by simp [runningRegs, h]

@[simp] theorem runningRanges_idle (s : State) (h : s.eng = .idle) : runningRanges s = [] := by
  simp [runningRanges, h]

/-- A read while idle returns the value and changes nothing. -/
theorem performRead_idle (s : State) (w : Window) (off : Nat) (size : Size) (h : s.eng = .idle) :
    performRead s w off size = ({ error := false, data := sized size (windowValue s w off) }, s) := by
  have : readsRunning s w off = false := by
    unfold readsRunning
    split
    · simp [runningRegs_idle s h]
    · simp [runningRanges_idle s h, inRanges]
  simp [performRead, this]

/-- A write to a buffer window that the host may write, while idle. -/
theorem performWrite_idle (s : State) (w : Window) (off : Nat) (size : Size) (v : Word) (h : s.eng = .idle)
    (hr : w ≠ .registers) (hw : w.hostWritable = true) :
    performWrite s w off size v = writeCells s off (off + size.bytes) (writtenCells off size.bytes v) := by
  cases w <;> simp_all [performWrite]

/-- A write to a buffer window that the host may write, while BUSY. -/
theorem performWrite_busy (s : State) (w : Window) (off : Nat) (size : Size) (v : Word) (h : s.eng ≠ .idle)
    (hr : w ≠ .registers) (hw : w.hostWritable = true) :
    performWrite s w off size v = dropWrite s := by
  cases w <;> simp_all [performWrite]

/-- A write to a read-only buffer window. -/
theorem performWrite_readOnly (s : State) (w : Window) (off : Nat) (size : Size) (v : Word)
    (hr : w ≠ .registers) (hw : w.hostWritable = false) : performWrite s w off size v = s := by
  cases w <;> simp_all [performWrite]

/-! ## The bytes of a write -/

theorem memLookup_writtenCells (off n : Nat) (v : Word) (j : Nat) (hj : j < n) (hs : storedByte (off + j) = true) :
    memLookup (writtenCells off n v) (off + j) = some (byteOf v j) := by
  induction n with
  | zero => omega
  | succ n ih =>
    unfold writtenCells at ih ⊢
    rw [List.range_succ, List.filter_append, List.map_append, memLookup_append]
    by_cases h : j < n
    · rw [ih h]; rfl
    · have hjn : j = n := by omega
      subst hjn
      rw [memLookup_eq_none _ _ (by simp; omega)]
      simp [hs, memLookup]

/-- What a host write leaves of each byte: the stored bytes of its range, everything else as before. -/
theorem readByte_hostWrite (s : State) (off n : Nat) (v : Word) (a : Nat) :
    readByte (writeCells s off (off + n) (writtenCells off n v)) a =
      if off ≤ a ∧ a < off + n ∧ storedByte a = true then byteOf v (a - off) else readByte s a := by
  by_cases h : off ≤ a ∧ a < off + n
  · by_cases hs : storedByte a = true
    · rw [if_pos ⟨h.1, h.2, hs⟩]
      have ha : off + (a - off) = a := by omega
      have hl := memLookup_writtenCells off n v (a - off) (by omega) (by rw [ha]; exact hs)
      rw [ha] at hl
      exact readByte_writeCells_inside s _ _ _ a _ h.1 h.2 hs hl
    · rw [if_neg (by simp [hs])]
      have hs' : storedByte a = false := by simpa using hs
      rw [readByte_not_stored _ _ hs', readByte_not_stored _ _ hs']
  · rw [if_neg (by tauto)]
    exact readByte_writeCells_outside s _ _ _ a (by omega) (writtenCells_in_range off n v)

end Sys2Proof.Machine
end

