-- ==== Sys2Proof/Tests/Slice0.lean ====
section
/-! SUPPORT. Tests: the checks that refuse, the words of every command, one or two steps per command with results taken
from the worked examples of the spec (95_test_vectors and the rules), and a witness for the hypotheses of each
statement. -/

namespace Sys2Proof.Tests

open Sys2Proof Sys2Proof.Machine Sys2Proof.Safety

/-! ## Helpers -/

/-- The state after a command; the state itself if there is none. -/
def after (i : Instr) (s : State) : State :=
  match exec i s with
  | .next t => t
  | _ => s

/-- STATUS.ERRCODE, ERRINFO.DETAIL and ERRINFO.INDEX. -/
def outcome (s : State) : ErrCode × Nat × Nat := (s.regs.errcode, s.regs.detail.toNat, s.regs.index.toNat)

/-- A state with a block in CW and its counts. -/
def blockState (cw : List Nat) (len nec era : Nat) : State :=
  { State.reset with
    mem := elemCells 2 0x1000 (cw.map (BitVec.ofNat 32))
    regs :=
      { Regs.reset with
        cwLen := BitVec.ofNat 11 len
        nec := BitVec.ofNat 11 nec
        eraCnt := BitVec.ofNat 11 era } }

/-- A state with an image in LUM and its size. -/
def imageState (pixels : List Nat) (w h y : Nat) : State :=
  { State.reset with
    mem := byteCells 0x400000 (pixels.map (BitVec.ofNat 8))
    regs :=
      { Regs.reset with
        imgW := BitVec.ofNat 12 w
        imgH := BitVec.ofNat 12 h
        rowY := BitVec.ofNat 12 y } }

/-- A state with GF_A and GF_B. -/
def gfState (a b : Byte) : State := { State.reset with regs := { Regs.reset with gfA := a, gfB := b } }

/-- The transform of 43_perspective R335's example. -/
def exampleTransform : Transform where
  a11 := 0x43200000
  a21 := 0
  a31 := 0x43200000
  a12 := 0
  a22 := 0x43200000
  a32 := 0x43A00000
  a13 := 0
  a23 := 0
  a33 := 0x41800000

/-- The identity transform. -/
def identity : Transform where
  a11 := 0x3F800000
  a21 := 0
  a31 := 0
  a12 := 0
  a22 := 0x3F800000
  a32 := 0
  a13 := 0
  a23 := 0
  a33 := 0x3F800000

/-- A state with a bit matrix, a transform and a grid dimension. -/
def gridState (bm : List Nat) (w h d : Nat) (t : Transform) : State :=
  { State.reset with
    mem := elemCells 4 0x100000 (bm.map (BitVec.ofNat 32))
    regs :=
      { Regs.reset with
        imgW := BitVec.ofNat 12 w
        imgH := BitVec.ofNat 12 h
        gridDim := BitVec.ofNat 11 d
        t := t } }

/-- Running NOP, to complete after `n` more steps. -/
def runningState (w : Word) (n : Nat) : State := { State.reset with eng := .running w n }

/-! ## What the checks refuse -/

theorem smoke_word_rsvd : wellFormedWord 0x00000111 = false := by decide
theorem smoke_word_opcode : wellFormedWord 0x00000006 = false := by decide
theorem smoke_word_accepts : wellFormedWord 0x00000050 = true := by decide
theorem smoke_access_misaligned : (Access.read 0x002 .word).aligned = false := by decide
theorem smoke_access_misaligned_half : (Access.write 0x400001 .half 0).aligned = false := by decide
theorem smoke_access_accepts : (Access.read 0x400001 .byte).aligned = true := by decide
theorem smoke_width : accessWindow (.read 0x001000 .byte) = none := by decide
theorem smoke_unmapped : accessWindow (.read 0x000100 .word) = none := by decide
theorem smoke_memory_order : ¬ Memory.wf [(0x400001, 1), (0x400000, 2)] := by decide
theorem smoke_memory_undefined_byte : ¬ Memory.wf [(0x001002, 1)] := by decide

/-! ## The command words, written out from 30_encoding R142 -/

theorem test_decode_nop : decode 0b00000000000000000000000000000000 = .command .nop := by decide
theorem test_decode_gfAdd : decode 0b00000000000000000000000000000001 = .command .gfAdd := by decide
theorem test_decode_gfMul : decode 0b00000000000000000000000000000010 = .command .gfMul := by decide
theorem test_decode_gfInv : decode 0b00000000000000000000000000000011 = .command .gfInv := by decide
theorem test_decode_gfExp : decode 0b00000000000000000000000000000100 = .command .gfExp := by decide
theorem test_decode_gfLog : decode 0b00000000000000000000000000000101 = .command .gfLog := by decide
theorem test_decode_rsSyndrome : decode 0b00000000000000000000000000010000 = .command .rsSyndrome := by decide
theorem test_decode_rsDecode : decode 0b00000000000000000000000000010001 = .command .rsDecode := by decide
theorem test_decode_sldCheck : decode 0b00000000000000000000000000010010 = .command .sldCheck := by decide
theorem test_decode_binRow : decode 0b00000000000000000000000000100000 = .command .binRow := by decide
theorem test_decode_binGlobal : decode 0b00000000000000000000000000100001 = .command .binGlobal := by decide
theorem test_decode_binHybrid : decode 0b00000000000000000000000000100010 = .command .binHybrid := by decide
theorem test_decode_ptSolve : decode 0b00000000000000000000000000110000 = .command .ptSolve := by decide
theorem test_decode_ptMap : decode 0b00000000000000000000000000110001 = .command .ptMap := by decide
theorem test_decode_ptSample : decode 0b00000000000000000000000000110010 = .command .ptSample := by decide
theorem test_decode_dbsDecode : decode 0b00000000000000000000000001000000 = .command .dbsDecode := by decide
theorem test_decode_numB900 : decode 0b00000000000000000000000001000001 = .command .numB900 := by decide
theorem test_decode_cwPipeline : decode 0b00000000000000000000000001010000 = .command .cwPipeline := by decide

/-- ENC-1. -/
theorem test_decode_illegal : decode 0x00000111 = .illegal .reservedBits ∧ decode 0x80000006 = .illegal .reservedBits ∧
    decode 0x000000FF = .illegal .reservedOpcode := by decide

theorem test_decodeTableWord : decodeTableWord 32 0x41 = some .numB900 ∧ decodeTableWord 32 0x111 = none ∧
    decodeTableWord 8 0x12 = some .sldCheck := by decide

/-- ENC-1: an ILLEGAL outcome gives STATUS = 0x00000056 and ERRINFO = 0x00000070. -/
theorem test_illegal_outcome :
    (match step (State.reset.withFetchWord 32 0x06) with
     | .next t => (statusWord t, errInfoWord t.regs)
     | _ => (0, 0)) = (0x00000056, 0x00000070) := by decide

/-! ## One step of each command -/

/-- CTL-1. -/
theorem test_nop : statusWord (after .nop State.reset) = 0x00000002 := by decide
theorem test_gfAdd : (after .gfAdd (gfState 0x53 0xCA)).regs.gfR = 0x99 := by decide
theorem test_gfMul : (after .gfMul (gfState 0x53 0xCA)).regs.gfR = 0x8F := by decide +kernel
theorem test_gfMul_reduces : (after .gfMul (gfState 0x02 0x80)).regs.gfR = 0x1D := by decide +kernel
theorem test_gfInv : (after .gfInv (gfState 0x53 0)).regs.gfR = 0x8C := by decide +kernel
theorem test_gfInv_zero : outcome (after .gfInv (gfState 0 0)) = (.argument, 0x30, 0) := by decide +kernel
theorem test_gfExp : (after .gfExp (gfState 254 0)).regs.gfR = 0x8E := by decide +kernel
theorem test_gfExp_wraps : (after .gfExp (gfState 255 0)).regs.gfR = 1 := by decide +kernel
theorem test_gfLog : (after .gfLog (gfState 0xFF 0)).regs.gfR = 175 := by decide +kernel
theorem test_gfLog_zero : outcome (after .gfLog (gfState 0 0)) = (.argument, 0x31, 0) := by decide +kernel

/-- 41_reed_solomon R225's example. -/
theorem test_rsSyndrome :
    (List.range 5).map (synAt (after .rsSyndrome (blockState [5, 72, 63, 108, 232, 217, 189, 200] 8 4 0))) =
      [90, 143, 48, 78, 0] := by decide +kernel
theorem test_rsSyndrome_codeword :
    outcome (after .rsSyndrome (blockState [5, 256] 2 4 0)) = (.argument, 0x16, 1) := by decide +kernel

/-- 41_reed_solomon R230's example. -/
theorem test_rsDecode :
    let t := after .rsDecode (blockState [5, 72, 63, 108, 232, 217, 189, 200] 8 4 0)
    (cwAt t 2, t.regs.rsNerr, elocAt t 0) = (101, 1, 0x005A0002) := by decide +kernel

/-- 41_reed_solomon R234: with NEC = 1 a non-zero syndrome fails 0x12. -/
theorem test_rsDecode_fails : outcome (after .rsDecode (blockState [1, 2] 2 1 0)) = (.checksum, 0x12, 0) := by
  decide +kernel

/-- 41_reed_solomon R245's example. -/
theorem test_sldCheck_repairs : cwAt (after .sldCheck (blockState [0, 1, 63, 211, 218, 55] 6 2 0)) 0 = 4 := by
  decide +kernel
theorem test_sldCheck_rejects : outcome (after .sldCheck (blockState [7, 1, 63, 211, 218, 55] 6 2 0)) = (.format, 0x21, 0) := by
  decide +kernel

/-- 42_binarizer R285's example. -/
theorem test_binRow :
    let t := after .binRow (imageState [200, 200, 40, 40, 200, 200, 40, 200, 200, 200, 40, 40] 12 1 0)
    (t.regs.blackPt, readWord t 0x800, histAt t 5, histAt t 25) = (144, 0x0000044C, 5, 7) := by decide +kernel
theorem test_binRow_row : outcome (after .binRow (imageState [0] 1 1 1)) = (.argument, 0x42, 0) := by decide +kernel

/-- 42_binarizer R290: a uniform white image gives the black point 168 and completes OK. -/
theorem test_binGlobal_white :
    let t := after .binGlobal (imageState [255] 1 1 0)
    (outcome t, t.regs.blackPt, readWord t 0x100000) = ((.ok, 0, 0), 168, 0) := by decide +kernel
theorem test_binGlobal_contrast : outcome (after .binGlobal (imageState [0] 1 1 0)) = (.notFound, 0x41, 0) := by
  decide +kernel

/-- 42_binarizer R295: below 40 pixels the global strategy. -/
theorem test_binHybrid_fallback :
    let t := after .binHybrid (imageState [255] 1 1 0)
    (t.regs.blackPt, t.regs.binUsed) = (168, false) := by decide +kernel
theorem test_binHybrid_size : outcome (after .binHybrid (imageState [] 0 40 0)) = (.argument, 0x40, 0) := by
  decide +kernel

/-- 43_perspective R335's example. -/
theorem test_ptSolve :
    (after .ptSolve
      { State.reset with
        regs :=
          { Regs.reset with
            grd := { Quad.reset with x1 := 0x40800000, x2 := 0x40800000, y2 := 0x40800000, y3 := 0x40800000 }
            img :=
              { x0 := 0x41200000, y0 := 0x41A00000, x1 := 0x42480000, y1 := 0x41A00000
                x2 := 0x42480000, y2 := 0x42700000, x3 := 0x41200000, y3 := 0x42700000 } } }).regs.t =
      exampleTransform := by decide +kernel

/-- 43_perspective R340's example. -/
theorem test_ptMap :
    let t := after .ptMap
      { State.reset with regs := { Regs.reset with t := exampleTransform, ptInX := 0x3F000000, ptInY := 0x3F000000 } }
    (t.regs.ptOutX, t.regs.ptOutY) = (0x41700000, 0x41C80000) := by decide +kernel

/-- 43_perspective R345: the identity samples the matrix itself. -/
theorem test_ptSample :
    let t := after .ptSample (gridState [0b10, 0b01] 2 2 2 identity)
    (readWord t 0x80000, readWord t 0x80004) = (0b10, 0b01) := by decide +kernel
theorem test_ptSample_nan :
    outcome (after .ptSample (gridState [] 2 2 2 Transform.reset)) = (.notFound, 0x53, 0) := by decide +kernel

/-- 44_bitstream R400's example. -/
theorem test_dbsDecode :
    let t := after .dbsDecode (blockState [5, 453, 178, 121, 239, 0, 0] 7 0 0)
    ((List.range 6).map (outAt t), t.regs.outLen) = ([0x50, 0x44, 0x46, 0x34, 0x31, 0x37], 6) := by decide +kernel

/-- DBS-E7. -/
theorem test_dbsDecode_shift : outcome (after .dbsDecode (blockState [4, 913, 300, 1] 4 0 0)) = (.format, 0x62, 2) := by
  decide +kernel

/-- NUM-1: "000213298174000". -/
theorem test_numB900 :
    let t := after .numB900 (blockState [1, 624, 434, 632, 282, 200] 6 0 0)
    ((List.range 15).map (fun i => (outAt t i).toNat - 0x30), t.regs.outLen) =
      ([0, 0, 0, 2, 1, 3, 2, 9, 8, 1, 7, 4, 0, 0, 0], 15) := by decide +kernel
theorem test_numB900_zero : outcome (after .numB900 (blockState [0] 1 0 0)) = (.format, 0x64, 0) := by decide +kernel

/-- CTL-2: "ABCDHB". -/
theorem test_cwPipeline :
    let t := after .cwPipeline (blockState [4, 1, 30, 211, 166, 79] 6 2 0)
    (cwAt t 2, (List.range 6).map (outAt t), t.regs.outLen) = (63, [0x41, 0x42, 0x43, 0x44, 0x48, 0x42], 6) := by
  decide +kernel

/-- CTL-4: the corrected block is kept when the descriptor check fails. -/
theorem test_cwPipeline_sld :
    let t := after .cwPipeline (blockState [7, 9, 63, 211, 135, 109] 6 2 0)
    (outcome t, cwAt t 1) = ((.format, 0x21, 0), 1) := by decide +kernel

/-! ## Witnesses: for each statement with hypotheses, values that meet them, clause by clause -/

theorem witness_DecodeAndEncodeAgree : Instr.wellFormed .cwPipeline = true ∧ decode 0x50 = .command .cwPipeline := by
  decide

theorem witness_ReservedWordsCompleteIllegal :
    (0x00000100 : Word).toNat / 256 ≠ 0 ∧ (0x80000006 : Word).toNat / 256 ≠ 0 ∧
    (0x000000FF : Word).toNat / 256 = 0 ∧ (0x000000FF : Word).toNat % 256 ∉ assignedOpcodes ∧
    (0x00000006 : Word).toNat / 256 = 0 ∧ (0x00000006 : Word).toNat % 256 ∉ assignedOpcodes := by decide

theorem witness_StepRunsTheDecodedCommand :
    (runningState 0x11 0).eng = .running 0x11 0 ∧ decode 0x11 = .command .rsDecode ∧
      Instr.wellFormed .rsDecode = true := by decide

theorem witness_CommandsCompleteWhateverTheLatency :
    (runningState 0x02 2).eng = .running 0x02 2 ∧ decode 0x02 = .command .gfMul ∧ (runningState 0x02 2).inputs = [] ∧
    ({ runningState 0x02 2 with inputs := [.idle, .idle, .rstLow] } : State).inputs =
      List.replicate 2 .idle ++ [.rstLow] := by decide

theorem witness_CommandsCompleteWhateverTheLatency_reserved :
    (runningState 0x06 0).eng = .running 0x06 0 ∧ decode 0x06 = .illegal .reservedOpcode ∧
      ({ runningState 0x06 0 with inputs := [.rstLow] } : State).inputs = List.replicate 0 .idle ++ [.rstLow] := by decide

theorem witness_CommandsWriteOnlyTheirResults :
    exec .gfAdd (gfState 1 2) = .next (after .gfAdd (gfState 1 2)) ∧ Window.contains .cw 0x1000 = true ∧
    Instr.gfAdd ∉ writersOf .cw ∧ RegName.gfA ∉ resultRegs .gfAdd ∧ RegName.gfA ≠ .status ∧ RegName.gfA ≠ .errInfo :=
  ⟨rfl, by decide, by decide, by decide, by decide, by decide⟩

/-- A state at whose port one good access waits. -/
def portState (a : Access) : State := { State.reset with inputs := [.access a] }

theorem good_status : goodAccess (.read 0x00C .word) :=
  ⟨by decide, .registers, by decide, by decide, by decide, .inl rfl⟩

theorem good_ctrl : goodAccess (.write 0x018 .word 1) :=
  ⟨by decide, .registers, by decide, by decide, by decide, .inl rfl⟩

/-- A STATUS poll and a soft reset, each arriving one step before the countdown of a command ends. -/
theorem witness_CommandsCompleteWhateverTheLatency_access :
    let s : State := { runningState 0x11 1 with inputs := [.access (.read 0x00C .word)] }
    let u : State := { runningState 0x11 1 with inputs := [.access (.write 0x018 .word 1)] }
    s.eng = .running 0x11 (0 + 1) ∧ s.inputs = .access (.read 0x00C .word) :: [] ∧ goodAccess (.read 0x00C .word) ∧
    (∀ v : Word, v.getLsbD 0 = true → Access.read 0x00C .word ≠ .write 0x018 .word v) ∧
    u.eng = .running 0x11 (0 + 1) ∧ u.inputs = .access (.write 0x018 .word 1) :: [] ∧
    goodAccess (.write 0x018 .word 1) ∧ (1 : Word).getLsbD 0 = true :=
  ⟨rfl, rfl, good_status, nofun, rfl, rfl, good_ctrl, rfl⟩

theorem good_lum : goodAccess (.write 0x7FFFFF .byte 1) :=
  ⟨by decide, .lum, by decide, by decide, by decide, .inr (.inr rfl)⟩

theorem good_out : goodAccess (.write 0x005FFE .half 1) :=
  ⟨by decide, .out, by decide, by decide, by decide, .inr (.inl rfl)⟩

theorem good_row : goodAccess (.write 0x000800 .word 1) :=
  ⟨by decide, .row, by decide, by decide, by decide, .inl rfl⟩

theorem good_cw : goodAccess (.write 0x001FFC .word 1) :=
  ⟨by decide, .cw, by decide, by decide, by decide, .inl rfl⟩

theorem bad_misaligned : ¬ goodAccess (.read 0x002 .word) := fun h => absurd h.1 (by decide)

theorem bad_unmapped : ¬ goodAccess (.write 0x000100 .word 1) := by
  rintro ⟨_, w, _, h1, h2, _⟩
  revert h1 h2
  cases w <;> decide

theorem witness_GoodInputsNeverFault : goodInputs (portState (.read 0x00C .word)) := by
  intro a ha
  simp only [portState, List.mem_singleton, Input.access.injEq] at ha
  subst ha
  exact good_status

theorem witness_StepKeepsTheMemoryCanonical :
    Memory.wf (runningState 0x00 0).mem ∧ step (runningState 0x00 0) = .next (after .nop (runningState 0x00 0)) :=
  ⟨by decide, rfl⟩

theorem witness_StepKeepsTheResultRegisters : ResultInv State.reset ∧ step State.reset = .next State.reset :=
  ⟨⟨by decide, by decide, by intro w n h; simp [State.reset] at h, by decide, by decide, by decide⟩, rfl⟩

theorem witness_CmdWriteIssuesAndStatusWriteAcknowledges :
    State.reset.eng = .idle ∧ (runningState 0x00 1).eng ≠ .idle ∧ Size.half ≠ .word ∧ Size.byte ≠ .word ∧
    (after .nop State.reset).eng = .idle := by decide

theorem witness_IrqFollowsFlagsAndEnables :
    let s : State := { runningState 0x00 0 with regs := { Regs.reset with doneIe := true, errIe := true } }
    s.regs.doneIe = true ∧ completionStep 0x00 s = .next (after .nop s) ∧ s.regs.errIe = true ∧ s.eng ≠ .idle ∧
      State.reset.eng = .idle ∧ State.reset.regs.werr = false :=
  ⟨rfl, rfl, rfl, by decide, rfl, rfl⟩

theorem witness_BusErrorsChangeNothing :
    (¬ goodAccess (.read 0x002 .word) ∧ ¬ goodAccess (.write 0x000100 .word 1)) ∧ goodAccess (.write 0x7FFFFF .byte 1) ∧
    (portState (.read 0x002 .word)).eng = .idle ∧
    (portState (.read 0x002 .word)).inputs = .access (.read 0x002 .word) :: [] ∧
    (portState (.read 0x00C .word)).inputs = .access (.read 0x00C .word) :: [] ∧ goodAccess (.read 0x00C .word) ∧
    { portState (.read 0x002 .word) with eng := .running 0 (0 + 1) }.eng = .running 0 (0 + 1) :=
  ⟨⟨bad_misaligned, bad_unmapped⟩, good_lum, rfl, rfl, rfl, good_status, rfl⟩

theorem witness_BytesAreLittleEndian :
    State.reset.eng = .idle ∧
    (Window.cw ≠ .registers ∧ Window.contains .cw 0x1FFC = true ∧ 0x1FFC % 4 = 0 ∧ 0x1FFC < 0x800000 ∧
      Window.cw ≠ .out ∧ Window.cw ≠ .lum ∧ Size.half ≠ .word) ∧
    (0x400000 ≤ 0x7FFFFC ∧ 0x7FFFFC < 0x800000 ∧ 0x7FFFFC % 4 = 0 ∧ 0x7FFFFE % 2 = 0) ∧
    (0x5000 ≤ 0x5000 ∧ 0x5FFF < 0x6000) ∧
    (0x7FFFFF % Size.byte.bytes = 0 ∧ 0x400002 % Size.half.bytes = 0 ∧ 0x400000 % Size.word.bytes = 0) := by decide

theorem witness_ReservedAndReadOnlyAreIgnored :
    (53 ≤ 53 ∧ 63 < 64) ∧ goodAccess (.write 0x000800 .word 1) ∧ goodAccess (.write 0x005FFE .half 1) ∧
    Window.contains .row (0x000800 : Offset).toNat = true ∧ Window.contains .out (0x005FFE : Offset).toNat = true ∧
    State.reset.eng = .idle ∧ (0x1000 ≤ 0x1000 ∧ 0x2FFC < 0x3000 ∧ 0x2FFC % 4 = 0) ∧
    (0x100000 ≤ 0x100000 ∧ 0x17FFFC < 0x180000 ∧ 0x17FFFC % 4 = 0) :=
  ⟨by decide, good_row, good_out, by decide, by decide, rfl, by decide, by decide⟩

theorem witness_WritesWhileBusyAreDropped :
    (runningState 0x11 3).eng ≠ .idle ∧
    ({ runningState 0x11 3 with regs := { Regs.reset with errIe := true } } : State).regs.errIe = true ∧ (0x00000002 : Word).getLsbD 0 = false ∧ (0x00000001 : Word).getLsbD 0 = true ∧
    (2 ∈ [2, 8, 9, 12, 13, 14, 18, 19, 20, 23] ∧ 24 ≤ 50 ∧ 50 ≤ 50) ∧
    goodAccess (.write 0x001FFC .word 1) ∧ Window.contains .cw (0x001FFC : Offset).toNat = true ∧
    goodAccess (.write 0x7FFFFF .byte 1) ∧ Window.contains .lum (0x7FFFFF : Offset).toNat = true ∧
    (51 ≤ 51 ∧ 63 < 64) ∧ goodAccess (.write 0x005FFE .half 1) ∧
    Window.contains .out (0x005FFE : Offset).toNat = true ∧ ¬ goodAccess (.write 0x000100 .word 1) :=
  ⟨by decide, rfl, by decide, by decide, by decide, good_cw, by decide, good_lum, by decide, by decide, good_out,
    by decide, bad_unmapped⟩

theorem good_lum_read : goodAccess (.read 0x7FFFFF .byte) :=
  ⟨by decide, .lum, by decide, by decide, by decide, .inr (.inr rfl)⟩

theorem good_cw_read : goodAccess (.read 0x00101C .word) :=
  ⟨by decide, .cw, by decide, by decide, by decide, .inl rfl⟩

theorem witness_ReadsHaveNoSideEffect :
    State.reset.eng = .idle ∧ RegName.all[52]? = some .ptOutY ∧
    ((runningState 0x31 0).eng = .running 0x31 0 ∧ decode 0x31 = .command .ptMap ∧
      RegName.ptOutY ∈ mayWriteRegs (runningState 0x31 0) .ptMap) ∧
    (RegName.all[10]? = some .gfR ∧ decode 0x03 = .command .gfInv ∧
      RegName.gfR ∉ mayWriteRegs (runningState 0x03 0) .gfInv ∧ RegName.gfR ≠ .errInfo) ∧
    (goodAccess (.read 0x7FFFFF .byte) ∧ goodAccess (.read 0x00101C .word) ∧ Window.lum ≠ .registers ∧
      Window.contains .lum (0x7FFFFF : Offset).toNat = true ∧ Window.contains .cw (0x00101C : Offset).toNat = true) ∧
    (let s : State := { runningState 0x00000011 0 with regs := { Regs.reset with cwLen := 8 } }
     within (mayWrite s .rsDecode) (0x00101C : Offset).toNat ∧ ¬ within (mayWrite s .rsDecode) (0x7FFFFF : Offset).toNat) ∧
    (RegName.blackPt ∉ mayWriteRegs (imageState [] 0 1 0) .binHybrid ∧
      RegName.blackPt ∉ mayWriteRegs (imageState [] 39 2049 0) .binHybrid ∧
      RegName.blackPt ∈ mayWriteRegs (imageState [] 39 2048 0) .binHybrid) ∧
    decode 0x06 = .illegal .reservedOpcode ∧ RegName.all[5]? = some .errInfo := by
  refine ⟨rfl, rfl, by decide, by decide, ⟨good_lum_read, good_cw_read, by decide, by decide, by decide⟩, ?_, by decide,
    by decide, rfl⟩
  unfold within
  decide

theorem witness_RegistersReadBackTheirFields :
    State.reset.eng = .idle ∧
    (4, 2) ∈ [(4, 2), (8, 8), (9, 8), (12, 11), (13, 11), (14, 11), (18, 12), (19, 12), (20, 12), (23, 11)] ∧
    24 ≤ 24 ∧ 50 ≤ 50 ∧ 32 = 32 ∧ 63 < 64 ∧ 63 ≠ 24 := by decide

theorem witness_ResetRegisterValues : 63 < 64 ∧ storedByte 0x7FFFFF = true ∧ storedByte 0x001000 = true := by decide

theorem witness_ResetsWhileIdle :
    (after .nop State.reset).eng = .idle ∧ (0xFFFFFFFF : Word).getLsbD 0 = true ∧ (0xFFFFFFFE : Word).getLsbD 0 = false := by
  decide

theorem witness_ResetsWhileIdle_step :
    let s : State := { runningState 0x11 1 with inputs := [.rstLow] }
    s.inputs = .rstLow :: [] ∧ ∀ w, s.eng ≠ .running w 0 := ⟨rfl, nofun⟩

theorem witness_SoftResetAbandonsTheCommand :
    (runningState 0x11 5).eng = .running 0x11 5 ∧ decode 0x11 = .command .rsDecode ∧ (1 : Word).getLsbD 0 = true ∧
    Window.contains .lum 0x400000 = true ∧ Instr.rsDecode ∉ writersOf .lum ∧
    (0x3000, 0x3800) ∈ mayWrite (runningState 0x11 5) .rsDecode ∧ decode 0x106 = .illegal .reservedBits := by decide

theorem witness_GfAddAndGfMulCombineTheOperands :
    (gfState 0 7).regs.gfA = 0 ∧ (gfState 7 0).regs.gfB = 0 ∧
    (gfState 0x8E 0x8E).regs.gfA = alphaElem 254 ∧ (gfState 0x8E 0x8E).regs.gfB = alphaElem 254 ∧
    (gfState 1 2).regs.gfA = alphaElem 0 ∧ (gfState 1 2).regs.gfB = alphaElem 1 := by decide +kernel

theorem witness_GfInvNegatesTheExponent :
    (gfState 0 0).regs.gfA = 0 ∧ (gfState 1 0).regs.gfA = alphaElem 0 ∧ (gfState 0x8E 0).regs.gfA = alphaElem 254 := by
  decide +kernel

theorem witness_GfExpAndGfLogInvertEachOther :
    (gfState 0 0).regs.gfA = 0 ∧ (gfState 1 0).regs.gfA = alphaElem 0 ∧ (gfState 0x8E 0).regs.gfA = alphaElem 254 ∧
    255 ≤ 255 ∧ 254 < 255 ∧ (1 : Gf) ≠ 0 ∧ gfExp 0 = 1 := by decide +kernel

theorem witness_FieldLaws : (255 : Gf) ≠ 0 ∧ (1 : Gf) ≠ 0 := by decide

theorem witness_LongDivisionLeavesASmallerRemainder :
    normalPoly [1, 0, 5] ∧ normalPoly [7] ∧ ([7] : Poly) ≠ [0] ∧ normalPoly [0] :=
  ⟨.inr (by decide), .inr (by decide), by decide, .inl rfl⟩

/-- 41_reed_solomon R225's block. -/
def exampleBlock : State := blockState [5, 72, 63, 108, 232, 217, 189, 200] 8 4 0

/-- The valid block V4 of 95_test_vectors. -/
def validBlock : State := blockState [5, 72, 101, 108, 232, 217, 189, 200] 8 4 5

theorem accepted_exampleBlock : decodeAccepted exampleBlock := by
  unfold decodeAccepted blockAccepted
  decide +kernel

theorem accepted_validBlock : decodeAccepted validBlock := by
  unfold decodeAccepted blockAccepted
  decide +kernel

theorem clean_validBlock : blockClean validBlock := by
  unfold blockClean
  decide +kernel

theorem witness_RsSyndromeEvaluatesTheBlock :
    (blockState [] 0 0 0).regs.cwLen.toNat = 0 ∧ 1024 < (blockState [] 1025 0 0).regs.cwLen.toNat ∧
    (255 < cwAt (blockState [255, 256] 2 0 0) 1 ∧ cwAt (blockState [255, 256] 2 0 0) 0 ≤ 255) ∧
    (blockAccepted (blockState [255] 1 513 0) 1 ∧ 512 < (blockState [255] 1 513 0).regs.nec.toNat) ∧
    (blockAccepted (blockState [255] 1 512 0) 1 ∧ (blockState [255] 1 512 0).regs.nec.toNat ≤ 512) ∧
    syndromeAt exampleBlock 8 0 ≠ 0 := by
  unfold blockAccepted
  decide +kernel

theorem witness_RsDecodePreChecks :
    (blockState [] 0 0 0).regs.cwLen.toNat = 0 ∧ 1024 < (blockState [] 1025 0 0).regs.cwLen.toNat ∧
    (255 < cwAt (blockState [255, 256] 2 0 0) 1 ∧ cwAt (blockState [255, 256] 2 0 0) 0 ≤ 255) ∧
    (blockAccepted (blockState [255] 1 0 1025) 1 ∧ 1024 < (blockState [255] 1 0 1025).regs.eraCnt.toNat) ∧
    (blockAccepted (blockState [255] 1 513 1024) 1 ∧ (blockState [255] 1 513 1024).regs.eraCnt.toNat ≤ 1024 ∧
      512 < (blockState [255] 1 513 1024).regs.nec.toNat) ∧
    (blockAccepted (blockState [255] 1 512 260) 1 ∧ (blockState [255] 1 512 260).regs.nec.toNat ≤ 512 ∧
      (blockState [255] 1 512 260).regs.nec.toNat / 2 + 3 < (blockState [255] 1 512 260).regs.eraCnt.toNat) := by
  unfold blockAccepted
  decide +kernel

theorem witness_RsDecodeLeavesACleanBlock : decodeAccepted validBlock ∧ blockClean validBlock :=
  ⟨accepted_validBlock, clean_validBlock⟩

theorem witness_RsDecodeCorrectsToACodeBlock :
    decodeAccepted exampleBlock ∧ (∃ i, i < exampleBlock.regs.nec.toNat ∧ syndromeAt exampleBlock 8 i ≠ 0) ∧
    exec .rsDecode exampleBlock = .next (after .rsDecode exampleBlock) ∧
    (after .rsDecode exampleBlock).regs.err = false ∧ (after .rsDecode exampleBlock).regs.rsNerr.toNat = 1 :=
  ⟨accepted_exampleBlock, ⟨0, by decide, by decide +kernel⟩, rfl, by decide +kernel, by decide +kernel⟩

theorem witness_RsDecodeSolvesTheKeyEquation :
    decodeAccepted exampleBlock ∧ (∃ i, i < exampleBlock.regs.nec.toNat ∧ syndromeAt exampleBlock 8 i ≠ 0) ∧
    exec .rsDecode exampleBlock = .next (after .rsDecode exampleBlock) ∧
    (after .rsDecode exampleBlock).regs.err = false ∧ 3 < exampleBlock.regs.nec.toNat ∧
    exampleBlock.regs.nec.toNat / 2 ≤ 2 :=
  ⟨accepted_exampleBlock, ⟨0, by decide, by decide +kernel⟩, rfl, by decide +kernel, by decide, by decide⟩

theorem witness_RsDecodeFailureKeepsTheBlock :
    decodeAccepted (blockState [1, 2] 2 1 0) ∧
    exec .rsDecode (blockState [1, 2] 2 1 0) = .next (after .rsDecode (blockState [1, 2] 2 1 0)) ∧
    (after .rsDecode (blockState [1, 2] 2 1 0)).regs.err = true := by
  refine ⟨?_, rfl, by decide +kernel⟩
  unfold decodeAccepted blockAccepted
  decide +kernel

theorem witness_RsDecodeRestoresOneError :
    let block : List Gf := [5, 72, 101, 108, 232, 217, 189, 200]
    8 = exampleBlock.regs.cwLen.toNat ∧ 8 ≤ 255 ∧ 2 ≤ exampleBlock.regs.nec.toNat ∧ decodeAccepted exampleBlock ∧
    block.length = 8 ∧ 2 < 8 ∧ (0x5A : Gf) ≠ 0 ∧
    (∀ i, i < exampleBlock.regs.nec.toNat → polyValue block (alphaElem (i % 255)) = 0) ∧
    (∀ i, i < 8 → cwAt exampleBlock i = (block.getD i 0 ^^^ (if i = 2 then 0x5A else 0)).toNat) :=
  ⟨by decide, by decide, by decide, accepted_exampleBlock, rfl, by decide, by decide, by decide +kernel,
    by decide +kernel⟩

/-- The valid block with two codewords in error, as many as its four EC codewords can restore. -/
def twoErrors : State := blockState [4, 72, 101, 108, 232, 217, 189, 55] 8 4 0

theorem accepted_twoErrors : decodeAccepted twoErrors := by
  unfold decodeAccepted blockAccepted
  decide +kernel

theorem witness_RsDecodeRestoresUpToHalfNec :
    let block : List Gf := [5, 72, 101, 108, 232, 217, 189, 200]
    let errs : List (Nat × Gf) := [(0, 1), (7, 0xFF)]
    8 = twoErrors.regs.cwLen.toNat ∧ 8 ≤ 255 ∧ decodeAccepted twoErrors ∧ block.length = 8 ∧
    1 ≤ errs.length ∧ errs.length ≤ twoErrors.regs.nec.toNat / 2 ∧ errs.Pairwise (fun a b => a.1 < b.1) ∧
    (∀ e ∈ errs, e.1 < 8 ∧ e.2 ≠ 0) ∧
    (∀ i, i < twoErrors.regs.nec.toNat → polyValue block (alphaElem (i % 255)) = 0) ∧
    (∀ i, i < 8 → cwAt twoErrors i = (block.getD i 0 ^^^ (errs.lookup i).getD 0).toNat) :=
  ⟨by decide, by decide, accepted_twoErrors, rfl, by decide, by decide, by decide, by decide, by decide +kernel,
    by decide +kernel⟩

theorem witness_SldCheckVerifiesAndRepairs :
    (blockState [] 0 0 0).regs.cwLen.toNat = 0 ∧ 1024 < (blockState [] 1025 0 0).regs.cwLen.toNat ∧
    (0 < 1 ∧ (blockState [] 3 0 0).regs.cwLen.toNat < 4) ∧
    ((blockState [1025] 1024 0 0).regs.cwLen.toNat = 1024 ∧ 1024 < cwAt (blockState [1025] 1024 0 0) 0) ∧
    (cwAt (blockState [0] 4 4 0) 0 = 0 ∧ (blockState [0] 4 4 0).regs.cwLen.toNat ≤ (blockState [0] 4 4 0).regs.nec.toNat) ∧
    (cwAt (blockState [0] 4 3 0) 0 = 0 ∧ (blockState [0] 4 3 0).regs.nec.toNat < (blockState [0] 4 3 0).regs.cwLen.toNat) ∧
    (0 < cwAt (blockState [4] 4 0 0) 0 ∧ cwAt (blockState [4] 4 0 0) 0 ≤ (blockState [4] 4 0 0).regs.cwLen.toNat) := by
  decide +kernel

/-- A uniform histogram of bucket 31: f = 31 and g = 0. -/
theorem witness_EstimateFindsPeaksAndValley :
    let hist : List Nat := List.replicate 31 0 ++ [4]
    let flat : List Nat := [4, 3]
    ((∀ x, x < 32 → hist.getD x 0 ≤ hist.getD 31 0) ∧ (∀ x, x < 31 → hist.getD x 0 < hist.getD 31 0) ∧
      (∀ x, x < 32 → (hist.getD x 0 : Int) * ((x : Int) - (31 : Nat)) ^ 2 ≤ hist.getD 0 0 * (((0 : Nat) : Int) - (31 : Nat)) ^ 2) ∧
      (∀ x, x < 0 → (hist.getD x 0 : Int) * ((x : Int) - (31 : Nat)) ^ 2 < hist.getD 0 0 * (((0 : Nat) : Int) - (31 : Nat)) ^ 2) ∧
      min 31 0 + 2 ≤ max 31 0) ∧
    ((∀ x, x < 32 → flat.getD x 0 ≤ flat.getD 0 0) ∧ (∀ x, x < 0 → flat.getD x 0 < flat.getD 0 0) ∧
      (∀ x, x < 32 → (flat.getD x 0 : Int) * ((x : Int) - (0 : Nat)) ^ 2 ≤ flat.getD 1 0 * (((1 : Nat) : Int) - (0 : Nat)) ^ 2) ∧
      (∀ x, x < 1 → (flat.getD x 0 : Int) * ((x : Int) - (0 : Nat)) ^ 2 < flat.getD 1 0 * (((1 : Nat) : Int) - (0 : Nat)) ^ 2) ∧
      max 0 1 < min 0 1 + 2) := by decide +kernel

theorem witness_BinRowSharpensAndThresholds :
    (¬ imageAccepted 0 1 ∧ ¬ imageAccepted 2049 1 ∧ imageAccepted 1 1 ∧ 1 ≤ 1 ∧ 0 < 1) ∧
    (imageState [255] 1 1 0).regs.imgW.toNat = 1 ∧ (imageState [] 2049 1 0).regs.imgW.toNat = 2049 ∧
    estimate ((List.range 32).map (rowCount (imageState [255] 1 1 0) 1 0)) = .ok 168 ∧
    estimate ((List.range 32).map (rowCount (imageState [0] 1 1 0) 1 0)) =
      .error { code := .notFound, detail := 0x41, index := 0 } := by
  refine ⟨?_, by decide, by decide, ?_, ?_⟩
  · unfold imageAccepted
    decide
  · decide +kernel
  · decide +kernel

theorem witness_BinGlobalThresholdsTheImage :
    (¬ imageAccepted 1 0 ∧ ¬ imageAccepted 1 2049 ∧ imageAccepted 2048 2048) ∧
    estimate ((List.range 32).map (fourRowCount (imageState [255] 1 1 0) 1 1)) = .ok 168 ∧
    estimate ((List.range 32).map (fourRowCount (imageState [0] 1 1 0) 1 1)) =
      .error { code := .notFound, detail := 0x41, index := 0 } := by
  refine ⟨?_, ?_, ?_⟩
  · unfold imageAccepted
    decide
  · decide +kernel
  · decide +kernel

theorem witness_BinHybridThresholdsByBlocks :
    ¬ imageAccepted 0 0 ∧ (imageAccepted 39 40 ∧ 39 < 40) ∧ (imageAccepted 40 2048 ∧ 40 ≤ 40 ∧ 40 ≤ 2048) ∧
    (imageState [] 40 40 0).regs.imgW.toNat = 40 ∧ (imageState [] 40 40 0).regs.imgH.toNat = 40 := by
  unfold imageAccepted
  decide

theorem finite_one : finiteValue 0x3F800000 = some 1 := by
  have h : unpack32 0x3F800000 = .finite false 8388608 (-23) := by decide
  simp only [finiteValue, h]
  norm_num

theorem finite_zero : finiteValue 0 = some 0 := by
  have h : unpack32 0 = .finite false 0 (-149) := by decide
  simp only [finiteValue, h]
  norm_num

theorem finite_big : finiteValue 0x4F000000 = some (2 ^ 31) := by
  have h : unpack32 0x4F000000 = .finite false 8388608 8 := by decide
  simp only [finiteValue, h]
  norm_num

theorem witness_FloatOperationsRoundOnce :
    finiteValue 0x3F800000 = some 1 ∧ finiteValue 0 = some 0 ∧ (1 : ℚ) ≠ 0 ∧ (1 : ℚ) + 0 ≠ 0 ∧ (0 : ℚ) + 0 = 0 ∧
    (1 : ℚ) - 0 ≠ 0 ∧ (1 : ℚ) - 1 = 0 := ⟨finite_one, finite_zero, by norm_num, by norm_num, by norm_num, by norm_num,
      by norm_num⟩

theorem witness_NanResultsAreCanonical :
    isNaN (fadd 0x7F800000 0xFF800000) ∧ isNaN (fsub 0x7F800000 0x7F800000) ∧ isNaN (fmul 0 0x7F800000) ∧
    isNaN (fdiv 0 0) ∧ isNaN 0xFFFFFFFF ∧ finiteValue 0 = some 0 ∧ finiteValue 0x3F800000 = some 1 ∧ (1 : ℚ) ≠ 0 ∧
    isInf 0x7F800000 ∧ isInf 0xFF800000 ∧ (0x7F800000 : Word) ≠ 0xFF800000 := by
  refine ⟨?_, ?_, ?_, ?_, ?_, finite_zero, finite_one, by norm_num, .inl rfl, .inr rfl, by decide⟩ <;>
  · unfold isNaN
    decide

theorem witness_PtSolveWritesTheTransform :
    (finiteValue (fsub (fadd (fsub (0 : Word) 0) 0) 0) = some 0) ∧
    ¬ (finiteValue (fsub (fadd (fsub (0x3F800000 : Word) 0) 0) 0) = some 0) ∧
    isNaN (times { identity with a11 := 0x7FFFFFFF } identity).a11 := by
  have h0 : fsub (fadd (fsub (0 : Word) 0) 0) 0 = 0 := by decide +kernel
  have h1 : fsub (fadd (fsub (0x3F800000 : Word) 0) 0) 0 = 0x3F800000 := by decide +kernel
  refine ⟨by rw [h0]; exact finite_zero, by rw [h1, finite_one]; norm_num, ?_⟩
  unfold isNaN
  decide +kernel

theorem witness_PtMapWritesTheMappedPoint :
    isNaN (fdiv (fadd (fadd (fmul 0 0) (fmul 0 0)) 0) (fadd (fadd (fmul 0 0) (fmul 0 0)) 0)) := by
  unfold isNaN
  decide +kernel

theorem witness_ToIntTruncatesTowardZero :
    (finiteValue 0x3F800000 = some 1 ∧ |(1 : ℚ)| < 2 ^ 31) ∧
    (finiteValue 0x4F000000 = some (2 ^ 31) ∧ (2 : ℚ) ^ 31 ≤ |(2 : ℚ) ^ 31|) ∧
    (finiteValue 0x7F800000 = none ∧ finiteValue 0x7FC00000 = none) ∧
    toInt32 0x7FC00000 = none ∧ toInt32 0xBF800000 = some (-1) ∧ toInt32 0x3F800000 = some 1 := by
  refine ⟨⟨finite_one, by norm_num⟩, ⟨finite_big, le_abs_self _⟩, ⟨?_, ?_⟩, by decide +kernel, by decide +kernel,
    by decide +kernel⟩
  · have h : unpack32 0x7F800000 = .inf false := by decide
    simp only [finiteValue, h]
  · have h : unpack32 0x7FC00000 = .nan := by decide
    simp only [finiteValue, h]

/-- Points of a 4 x 4 image: one pixel outside at the left and at the bottom, inside, beyond the margin, and a NaN. -/
def leftOf : Point := { x := 0xBF800000, y := 0x3F800000 }
def belowOf : Point := { x := 0x3F800000, y := 0x40800000 }
def insideOf : Point := { x := 0x3F800000, y := 0x3F800000 }
def beyondOf : Point := { x := 0xC0000000, y := 0x3F800000 }
def nanOf : Point := { x := 0x7FC00000, y := 0 }

theorem witness_NudgeMovesEndPointsOntoTheEdge :
    (∀ p ∈ [leftOf, belowOf], onMargin 4 4 p ∧ oneOutside 4 4 p) ∧
    (onMargin 4 4 insideOf ∧ ¬ oneOutside 4 4 insideOf) ∧ ¬ convertible nanOf ∧
    (convertible beyondOf ∧ ¬ onMargin 4 4 beyondOf) ∧
    (nudgeFrom 4 4 0 [nanOf] = .error (notFoundError 0x53 0) ∧ nudgeFrom 4 4 0 [insideOf, nanOf] = .ok [insideOf, nanOf] ∧
      nudgeFrom 4 4 0 [nanOf, insideOf] = .error (notFoundError 0x53 0)) ∧
    nudge 1 1 0 [{ x := 0xBF800000, y := 0x3F800000 }] = .ok [{ x := 0, y := 0 }] := by
  have l : toInt32 leftOf.x = some (-1) ∧ toInt32 leftOf.y = some 1 := by decide +kernel
  have b : toInt32 belowOf.x = some 1 ∧ toInt32 belowOf.y = some 4 := by decide +kernel
  have i : toInt32 insideOf.x = some 1 ∧ toInt32 insideOf.y = some 1 := by decide +kernel
  have o : toInt32 beyondOf.x = some (-2) ∧ toInt32 beyondOf.y = some 1 := by decide +kernel
  have n : toInt32 nanOf.x = none := by decide +kernel
  refine ⟨?_, ⟨⟨1, 1, i.1, i.2, by decide⟩, ?_⟩, ?_, ⟨⟨_, _, o⟩, ?_⟩, ⟨rfl, rfl, rfl⟩, rfl⟩
  · simp only [List.mem_cons, List.not_mem_nil, or_false, forall_eq_or_imp, forall_eq]
    exact ⟨⟨⟨-1, 1, l.1, l.2, by decide⟩, .inl l.1⟩, ⟨⟨1, 4, b.1, b.2, by decide⟩, .inr (.inr (.inr b.2))⟩⟩
  · simp [oneOutside, i.1, i.2]
  · rintro ⟨x, _, hx, _⟩
    rw [n] at hx
    cases hx
  · rintro ⟨x, _, hx, _, h, _⟩
    rw [o.1] at hx
    cases hx
    omega

theorem nudge_one : nudge 1 1 0 (samplePoints (gridState [1] 1 1 1 identity) 1 0) =
    .ok [{ x := 0x3F000000, y := 0x3F000000 }] := by decide +kernel

theorem witness_PtSampleReadsTheCellCentres :
    let s := gridState [1] 1 1 1 identity
    s.regs.imgW.toNat = 1 ∧ s.regs.imgH.toNat = 1 ∧ s.regs.gridDim.toNat = 1 ∧ imageAccepted 1 1 ∧ 0 < 1 ∧ 1 ≤ 1024 ∧
    1023 < 1024 ∧ inPixel 1 1 (mapPoint s.regs.t { x := halfPast32 0, y := halfPast32 0 }) 0 0 ∧
    nudge 1 1 0 (samplePoints s 1 0) = .ok [{ x := 0x3F000000, y := 0x3F000000 }] ∧
    inPixel 1 1 { x := 0x3F000000, y := 0x3F000000 } 0 0 := by
  unfold imageAccepted inPixel
  refine ⟨by decide, by decide, by decide, by decide, by decide, by decide, by decide, by decide +kernel,
    nudge_one, by decide +kernel⟩

theorem witness_PtSampleFailures :
    (¬ imageAccepted 2049 1) ∧ (imageAccepted 1 1 ∧ 1024 < (gridState [] 1 1 1025 identity).regs.gridDim.toNat) ∧
    (imageAccepted 2 2 ∧ 0 < 2 ∧ 2 ≤ 1024) ∧
    exec .ptSample (gridState [] 2 2 2 Transform.reset) = .next (after .ptSample (gridState [] 2 2 2 Transform.reset)) ∧
    (after .ptSample (gridState [] 2 2 2 Transform.reset)).regs.err = true ∧
    nudge 2 2 0 (samplePoints (gridState [] 2 2 2 Transform.reset) 2 0) = .error (notFoundError 0x53 0) := by
  refine ⟨?_, ?_, ?_, rfl, by decide +kernel, rfl⟩ <;>
  · unfold imageAccepted
    decide

/-- The row causes: a row inside the image, and one whose middle point is outside and not reached by the nudge. -/
theorem witness_PtSampleFailures_outside :
    let s := gridState [1] 1 1 1 identity
    rowInside s 1 1 1 0 ∧
    ∃ qs q, nudge 2 2 0 [insideOf, leftOf, insideOf] = .ok qs ∧ qs = [insideOf] ++ q :: [insideOf] ∧
      (∃ i j, inPixel 2 2 insideOf i j) ∧ (¬ ∃ i j, inPixel 2 2 q i j) ∧ convertible q := by
  have l : toInt32 leftOf.x = some (-1) ∧ toInt32 leftOf.y = some 1 := by decide +kernel
  have c : toInt32 insideOf.x = some 1 := by decide +kernel
  refine ⟨⟨[{ x := 0x3F000000, y := 0x3F000000 }], nudge_one, ?_⟩, _, leftOf, rfl, rfl, ⟨1, 1, c, c, by decide⟩, ?_, ⟨_, _, l⟩⟩
  · simp only [List.mem_singleton, forall_eq]
    refine ⟨0, 0, ?_⟩
    unfold inPixel
    decide +kernel
  · rintro ⟨i, _, h, _⟩
    rw [l.1] at h
    simp only [Option.some.injEq] at h
    omega

theorem witness_CodewordsActByTheMode :
    (903 ≤ 903 ∧ 912 ≤ 912 ∧ 914 ≤ 914 ∧ 923 ≤ 923 ∧ 925 ≤ 925 ∧ 928 ≤ 928) ∧
    (latch Parser.start 901).mode = .byte ∧ (latch Parser.start 902).mode = .numeric ∧ Parser.start.mode = .text ∧
    Parser.start.shift = .none ∧ Parser.start.out.length < 4096 ∧ textEntry .alpha 0 = .char 0x41 ∧
    textEntry .alpha 27 = .to .lower ∧ textEntry .alpha 29 = .shift .ps ∧
    flushBytes { latch Parser.start 901 with group := [(65, 2)] } = .ok { latch Parser.start 901 with out := [65] } ∧
    flushBytes { latch Parser.start 901 with group := [(256, 2)] } = .error (formatError 0x62 2) ∧
    flushNumeric { latch Parser.start 902 with group := [(17, 2)] } = .ok { latch Parser.start 902 with out := [0x37] } ∧
    flushNumeric { latch Parser.start 902 with group := [(0, 2)] } = .error (formatError 0x64 2) ∧
    textValue Parser.start 0 1 = .ok { Parser.start with out := [0x41] } ∧
    codeword Parser.start 0 1 = .ok { Parser.start with out := [0x41, 0x41] } := by
  refine ⟨by decide, rfl, rfl, rfl, rfl, by decide, rfl, rfl, rfl, rfl, rfl, rfl, rfl, rfl, rfl⟩

theorem witness_DbsDecodeUpFrontChecks :
    (blockState [] 0 0 0).regs.cwLen.toNat = 0 ∧ 1024 < (blockState [] 1025 0 0).regs.cwLen.toNat ∧
    (cwAt (blockState [0] 1 0 0) 0 = 0 ∧ (blockState [2] 1 0 0).regs.cwLen.toNat < cwAt (blockState [2] 1 0 0) 0) ∧
    (cwAt (blockState [3, 928, 929] 3 0 0) 0 = 3 ∧ 928 < cwAt (blockState [3, 928, 929] 3 0 0) 2 ∧
      cwAt (blockState [3, 928, 929] 3 0 0) 1 ≤ 928) ∧
    (2 ≤ cwAt (blockState [2, 913] 2 0 0) 0 ∧ cwAt (blockState [2, 913] 2 0 0) (2 - 1) ∈ [901, 902, 913, 924]) ∧
    (cwAt (blockState [1] 1 0 0) 0 = 1) ∧ (cwAt (blockState [2, 900] 2 0 0) 0 = 2 ∧
      cwAt (blockState [2, 900] 2 0 0) (2 - 1) ∉ [901, 902, 913, 924]) := by
  decide +kernel

theorem witness_ParserResultsOrNothing :
    exec .dbsDecode (blockState [1] 1 0 0) = .next (after .dbsDecode (blockState [1] 1 0 0)) ∧
    exec .numB900 (blockState [1] 1 0 0) = .next (after .numB900 (blockState [1] 1 0 0)) := ⟨rfl, rfl⟩

theorem witness_DbsDecodeEmitsText :
    let s := blockState [3, 0, 30 * 26 + 26] 3 0 0
    let hs := [(0, 0), (26, 26)]
    let u := blockState [2, 30 * 29 + 29] 2 0 0
    (s.regs.cwLen.toNat = 3 ∧ cwAt s 0 = 3 ∧ hs.length + 1 = 3 ∧ (∀ p ∈ hs, p.1 ≤ 26 ∧ p.2 ≤ 26) ∧
      cwAt s 1 = 30 * 0 + 0 ∧ cwAt s 2 = 30 * 26 + 26) ∧
    (u.regs.cwLen.toNat = 2 ∧ cwAt u 0 = 2 ∧ cwAt u 1 = 30 * 29 + 29 ∧ 29 < 30) := by decide +kernel

/-- `AB`, the byte 200 by 913, the numeric group [17] by 902, back to text by 900, the ignored 903, `AB`, and a stream
that stops at a byte of 256 (44_bitstream R374, R376, R380, R385, R389). -/
theorem witness_DbsDecodeEmitsText_mixed :
    let s := blockState [9, 1, 913, 200, 902, 17, 900, 903, 1] 9 0 0
    let u := blockState [5, 902, 17, 901, 256] 5 0 0
    (s.regs.cwLen.toNat = 9 ∧ cwAt s 0 = 9 ∧ (∀ k, k < 9 → cwAt s k ≤ 928) ∧ cwAt s (9 - 1) ∉ [901, 902, 913, 924] ∧
      (mainLoop Parser.start 1 ((List.range (9 - 1)).map (fun k => cwAt s (k + 1)))).toOption.map Parser.out =
        some [0x41, 0x42, 200, 0x37, 0x41, 0x42]) ∧
    (u.regs.cwLen.toNat = 5 ∧ cwAt u 0 = 5 ∧ (∀ k, k < 5 → cwAt u k ≤ 928) ∧ cwAt u (5 - 1) ∉ [901, 902, 913, 924] ∧
      mainLoop Parser.start 1 ((List.range (5 - 1)).map (fun k => cwAt u (k + 1))) = .error (formatError 0x62 4)) := by
  refine ⟨⟨?_, ?_, ?_, ?_, ?_⟩, ?_, ?_, ?_, ?_, ?_⟩
  all_goals decide +kernel

/-- The sub-modes and shifts of text: `aB;C9` by LL, AS, PS, an AL under PS and ML (44_bitstream R378, R379). -/
theorem test_textRun : textRun .alpha .none [27, 0, 27, 1, 29, 0, 29, 29, 2, 28, 9, 29] = [0x61, 0x42, 0x3B, 0x43, 0x39] := by
  decide

theorem witness_DbsDecodeConvertsByteGroups :
    let s := blockState [7, 901, 0, 0, 0, 0, 0] 7 0 0
    let u := blockState [7, 924, 899, 899, 899, 899, 899] 8 0 0
    (7 ≤ s.regs.cwLen.toNat ∧ cwAt s 0 = 7 ∧ cwAt s 1 = 901 ∧ (∀ k, k < 5 → cwAt s (k + 2) < 900) ∧
      numeral 900 [0, 0, 0, 0, 0] < 2 ^ 48) ∧
    (cwAt u 0 = 7 ∧ cwAt u 1 = 924 ∧ (∀ k, k < 5 → cwAt u (k + 2) < 900) ∧
      2 ^ 48 ≤ numeral 900 [899, 899, 899, 899, 899]) := by decide +kernel

theorem witness_DbsDecodeConvertsByteGroups_streams :
    let s := blockState [9, 901, 1, 2, 3, 4, 5, 255, 256] 9 0 0
    let u := blockState [8, 924, 899, 899, 899, 899, 899, 7] 8 0 0
    (latchedStream s 901 ∧ latchedData s = [[1, 2, 3, 4, 5]].flatten ++ [255, 256] ∧
      numeral 900 [1, 2, 3, 4, 5] < 2 ^ 48 ∧ [255, 256] = [255] ++ 256 :: []) ∧
    (latchedStream u 924 ∧ latchedData u = [].flatten ++ ([899, 899, 899, 899, 899] ++ [7]) ∧
      2 ^ 48 ≤ numeral 900 [899, 899, 899, 899, 899]) := by
  unfold latchedStream
  decide +kernel

theorem foldl_numeral_ge (ds : List Nat) (v : Nat) (h : 1 ≤ v) : 1 ≤ ds.foldl (fun v d => v * 10 + d) v := by
  induction ds generalizing v with
  | nil => exact h
  | cons d ds ih => exact ih (v * 10 + d) (by omega)

/-- The value 0 has no numeral that starts with 1. -/
theorem numeral_zero_ne (ds : List Nat) : 0 ≠ numeral 10 (1 :: ds) := by
  have := foldl_numeral_ge ds (0 * 10 + 1) (by omega)
  simp only [numeral, List.foldl_cons]
  omega

/-- The group of 44_bitstream R410's example and a short one, and a group of value 0. -/
theorem witness_DbsDecodeConvertsNumericGroups :
    let s := blockState [5, 902, 1, 624, 434] 5 0 0
    let u := blockState [3, 902, 0] 3 0 0
    (latchedStream s 902 ∧ numericGroup ([1, 624, 434], [3, 7, 2, 0, 3, 4]) ∧
      latchedData s = [([1, 624, 434], [3, 7, 2, 0, 3, 4])].flatMap Prod.fst) ∧
    (latchedStream u 902 ∧ latchedData u = [].flatMap (Prod.fst (β := List Nat)) ++ [0] ++ [] ∧
      ∀ ds : List Nat, (∀ d ∈ ds, d < 10) → numeral 900 [0] ≠ numeral 10 (1 :: ds)) := by
  refine ⟨?_, ?_, by decide +kernel, fun ds _ => numeral_zero_ne ds⟩
  · unfold latchedStream numericGroup
    decide +kernel
  · unfold latchedStream
    decide +kernel

theorem witness_NumB900StripsTheLeadingOne :
    (blockState [] 0 0 0).regs.cwLen.toNat = 0 ∧ 15 < (blockState [] 16 0 0).regs.cwLen.toNat ∧
    (900 ≤ cwAt (blockState [899, 900] 2 0 0) 1 ∧ cwAt (blockState [899, 900] 2 0 0) 0 < 900) ∧
    (cwAt (blockState [1] 1 0 0) 0 < 900 ∧
      numeral 900 ((List.range 1).map (cwAt (blockState [1] 1 0 0))) = numeral 10 (1 :: [])) ∧
    (cwAt (blockState [17] 1 0 0) 0 < 900 ∧
      numeral 900 ((List.range 1).map (cwAt (blockState [17] 1 0 0))) = numeral 10 (1 :: [7])) := by decide +kernel

/-- A group of value 0 has no numeral that starts with 1. -/
theorem witness_NumB900StripsTheLeadingOne_fails :
    cwAt (blockState [0] 1 0 0) 0 < 900 ∧
    ∀ ds : List Nat, (∀ d ∈ ds, d < 10) →
      numeral 900 ((List.range 1).map (cwAt (blockState [0] 1 0 0))) ≠ numeral 10 (1 :: ds) := by
  refine ⟨by decide +kernel, fun ds _ => ?_⟩
  have h0 : numeral 900 ((List.range 1).map (cwAt (blockState [0] 1 0 0))) = 0 := by decide +kernel
  rw [h0]
  exact numeral_zero_ne ds

theorem witness_NopOnlyCompletes : State.reset.regs.werr = false := by decide

theorem witness_PipelineRunsTheStagesInOrder :
    (exec .rsDecode (blockState [] 0 0 0) = .next (after .rsDecode (blockState [] 0 0 0)) ∧
      (after .rsDecode (blockState [] 0 0 0)).regs.err = true) ∧
    (exec .rsDecode (blockState [5] 1 0 0) = .next (after .rsDecode (blockState [5] 1 0 0)) ∧
      (after .rsDecode (blockState [5] 1 0 0)).regs.err = false ∧
      (after .sldCheck (after .rsDecode (blockState [5] 1 0 0))).regs.err = true) ∧
    ((after .rsDecode (blockState [1, 0, 0, 0] 4 0 0)).regs.err = false ∧
      (after .sldCheck (after .rsDecode (blockState [1, 0, 0, 0] 4 0 0))).regs.err = false) :=
  ⟨⟨rfl, by decide +kernel⟩, ⟨rfl, by decide +kernel, by decide +kernel⟩, by decide +kernel, by decide +kernel⟩

theorem witness_PipelineEmitsOnlyCheckedText :
    exec .cwPipeline (blockState [5] 1 0 0) = .next (after .cwPipeline (blockState [5] 1 0 0)) ∧
    (after .cwPipeline (blockState [5] 1 0 0)).regs.err = true ∧
    exec .cwPipeline (blockState [1, 0, 0, 0] 4 0 0) = .next (after .cwPipeline (blockState [1, 0, 0, 0] 4 0 0)) ∧
    (after .cwPipeline (blockState [1, 0, 0, 0] 4 0 0)).regs.err = false :=
  ⟨rfl, by decide +kernel, rfl, by decide +kernel⟩

theorem witness_PipelineDecodesACleanBlock :
    decodeAccepted validBlock ∧ blockClean validBlock ∧ 4 ≤ validBlock.regs.cwLen.toNat ∧ 1 ≤ cwAt validBlock 0 ∧
    cwAt validBlock 0 ≤ validBlock.regs.cwLen.toNat :=
  ⟨accepted_validBlock, clean_validBlock, by decide +kernel, by decide +kernel, by decide +kernel⟩

end Sys2Proof.Tests
end

section
/-! PROOFS. What the body of each command writes, stated once: its result buffers and registers, each store inside its
window. That a command leaves everything else (O7) and keeps the memory canonical follows. -/

namespace Sys2Proof.Machine

open Sys2Proof.Safety

/-! ## What the writes of a command leave unchanged -/

/-- A register depends on the registers and the engine only. -/
theorem readReg_congr (s t : State) (r : RegName) (hr : t.regs = s.regs) (he : t.eng = s.eng) :
    readReg t r = readReg s r := by
  cases r <;> simp [readReg, statusWord, busy, hr, he]

theorem Window.mem_all (w : Window) : w ∈ Window.all := by
  cases w <;> decide

/-- An offset of one window is in no other. -/
theorem outside_of_contains (w b : Window) (a : Nat) (hb : b.contains a = true) (hne : b ≠ w) :
    a < w.base ∨ w.base + w.size ≤ a := by
  by_contra h
  have hw : w.contains a = true := (contains_iff w a).2 (by omega)
  have heq := (windowAt_of_contains b a hb).symm.trans (windowAt_of_contains w a hw)
  exact hne (Option.some.inj heq)

/-- `t` is `s` after writes that command `i` may make: to the buffers of `writersOf` and the registers of `resultRegs`
only, each store inside its window, so that the memory stays canonical. -/
structure WritesResults (i : Instr) (s t : State) : Prop where
  bytes : ∀ (b : Window) (a : Nat), b.contains a = true → i ∉ writersOf b → readByte t a = readByte s a
  canonical : Memory.wf s.mem → Memory.wf t.mem
  regs : ∀ r : RegName, r ∉ resultRegs i → readReg t r = readReg s r
  werr : t.regs.werr = s.regs.werr
  eng : t.eng = s.eng
  inputs : t.inputs = s.inputs
  reply : t.reply = s.reply
  latencies : t.latencies = s.latencies

namespace WritesResults

variable {i j : Instr} {s t u : State}

theorem refl (i : Instr) (s : State) : WritesResults i s s :=
  ⟨fun _ _ _ _ => rfl, id, fun _ _ => rfl, rfl, rfl, rfl, rfl, rfl⟩

theorem trans (h : WritesResults i s t) (k : WritesResults i t u) : WritesResults i s u where
  bytes b a hb hi := (k.bytes b a hb hi).trans (h.bytes b a hb hi)
  canonical hm := k.canonical (h.canonical hm)
  regs r hr := (k.regs r hr).trans (h.regs r hr)
  werr := k.werr.trans h.werr
  eng := k.eng.trans h.eng
  inputs := k.inputs.trans h.inputs
  reply := k.reply.trans h.reply
  latencies := k.latencies.trans h.latencies

/-- A command may write what another one may, where the tables list it for both. -/
theorem mono (hb : ∀ b ∈ Window.all, i ∈ writersOf b → j ∈ writersOf b) (hr : resultRegs i ⊆ resultRegs j)
    (h : WritesResults i s t) : WritesResults j s t :=
  { h with
    bytes := fun b a ha hj => h.bytes b a ha (fun hi => hj (hb b b.mem_all hi))
    regs := fun r hj => h.regs r (fun hi => hj (hr hi)) }

/-- A change of the first `n` bytes of a window which the command writes. -/
theorem of_window (w : Window) (n : Nat) (mem : List Host.Cell) (marks : List Mark) (draws : Nat)
    (hi : i ∈ writersOf w) (hfit : n ≤ w.size)
    (hbytes : ∀ a, a < w.base ∨ w.base + n ≤ a →
      readByte { s with mem := mem, marks := marks, draws := draws } a = readByte s a)
    (hmem : Memory.wf s.mem → Memory.wf mem) :
    WritesResults i s { s with mem := mem, marks := marks, draws := draws } where
  bytes b a hb hni := by
    have hout := outside_of_contains w b a hb (fun h => hni (h ▸ hi))
    exact hbytes a (by omega)
  canonical := hmem
  regs r _ := readReg_congr _ _ r rfl rfl
  werr := rfl
  eng := rfl
  inputs := rfl
  reply := rfl
  latencies := rfl

/-- A store of elements that fit a window which the command writes. -/
theorem of_storeElems (w : Window) (es : List Word) (hi : i ∈ writersOf w) (hfit : 4 * es.length ≤ w.size) :
    WritesResults i s (storeElems s w es) :=
  of_window w (4 * es.length) (storeElems s w es).mem s.marks s.draws hi hfit
    (fun a ha => readByte_storeElems_outside s w es a ha) (fun hm => memWf_storeElems s w es hm hfit)

/-- The first bytes of a window which the command writes become UNKNOWN. -/
theorem of_forget (w : Window) (n : Nat) (hi : i ∈ writersOf w) (hfit : n ≤ w.size) :
    WritesResults i s (forget s w.base (w.base + n)) :=
  of_window w n (forget s w.base (w.base + n)).mem (forget s w.base (w.base + n)).marks (s.draws + 1) hi hfit
    (fun a ha => readByte_forget_outside s _ _ a ha) (fun hm => memWf_forget s _ _ (Nat.le_add_right _ _) hm)

theorem of_forgetWindow (w : Window) (hi : i ∈ writersOf w) : WritesResults i s (forgetWindow s w) :=
  of_forget w w.size hi le_rfl

/-- A write of registers of which only result registers of the command read differently. -/
theorem of_regs (regs : Regs) (hw : regs.werr = s.regs.werr)
    (hr : ∀ r ∉ resultRegs i, readReg { s with regs := regs } r = readReg s r) :
    WritesResults i s { s with regs := regs } where
  bytes _ a _ _ := readByte_regs s regs a
  canonical := id
  regs := hr
  werr := hw
  eng := rfl
  inputs := rfl
  reply := rfl
  latencies := rfl

end WritesResults

/-! ## Reading the result registers after a write -/

theorem readReg_setGfR (s : State) (v : Gf) (r : RegName) (h : r ≠ .gfR) : readReg (setGfR s v) r = readReg s r := by
  cases r
  case gfR => exact absurd rfl h
  all_goals rfl

theorem readReg_setSynNz (s : State) (b : Bool) (r : RegName) (h : r ≠ .rsFlags) :
    readReg { s with regs := { s.regs with synNz := b } } r = readReg s r := by
  cases r
  case rsFlags => exact absurd rfl h
  all_goals rfl

theorem readReg_setDecodeCounts (s : State) (n d : BitVec 9) (r : RegName) (hn : r ≠ .rsNerr) (hd : r ≠ .rsDeg) :
    readReg { s with regs := { s.regs with rsNerr := n, rsDeg := d } } r = readReg s r := by
  cases r
  case rsNerr => exact absurd rfl hn
  case rsDeg => exact absurd rfl hd
  all_goals rfl

theorem readReg_setOutLen (s : State) (n : BitVec 13) (r : RegName) (h : r ≠ .outLen) :
    readReg { s with regs := { s.regs with outLen := n } } r = readReg s r := by
  cases r
  case outLen => exact absurd rfl h
  all_goals rfl

theorem readReg_setBlackPt (s : State) (bp : Nat) (r : RegName) (h : r ≠ .blackPt) :
    readReg (setBlackPt s bp) r = readReg s r := by
  cases r
  case blackPt => exact absurd rfl h
  all_goals rfl

theorem readReg_setBinUsed (s : State) (b : Bool) (r : RegName) (h : r ≠ .binUsed) :
    readReg (setBinUsed s b) r = readReg s r := by
  cases r
  case binUsed => exact absurd rfl h
  all_goals rfl

theorem readReg_setTransform (s : State) (m : Transform) (r : RegName) (h : r ∉ resultRegs .ptSolve) :
    readReg { s with regs := { s.regs with t := m } } r = readReg s r := by
  cases r
  case tA11 | tA21 | tA31 | tA12 | tA22 | tA32 | tA13 | tA23 | tA33 => exact absurd (by decide) h
  all_goals rfl

theorem readReg_setPtOut (s : State) (x y : Word) (r : RegName) (hx : r ≠ .ptOutX) (hy : r ≠ .ptOutY) :
    readReg { s with regs := { s.regs with ptOutX := x, ptOutY := y } } r = readReg s r := by
  cases r
  case ptOutX => exact absurd rfl hx
  case ptOutY => exact absurd rfl hy
  all_goals rfl

/-- The completion writes STATUS and ERRINFO, and no other register (60_exceptions R455). -/
theorem readReg_endCommand (s : State) (e : Option CmdError) (r : RegName) (hs : r ≠ .status) (he : r ≠ .errInfo) :
    readReg (endCommand s e) r = readReg s r := by
  cases r
  case status => exact absurd rfl hs
  case errInfo => exact absurd rfl he
  all_goals rfl

/-! ## The GF commands -/

theorem setGfR_writesResults (i : Instr) (s : State) (v : Gf) (hi : RegName.gfR ∈ resultRegs i) :
    WritesResults i s (setGfR s v) :=
  .of_regs _ rfl fun r hr => readReg_setGfR s v r (ne_of_mem_of_not_mem hi hr).symm

/-! ## The binarizer -/

theorem imageSizeBad_eq_false (w h : Nat) : imageSizeBad w h = false ↔ imageAccepted w h := by
  simp only [imageSizeBad, Bool.or_eq_false_iff, decide_eq_false_iff_not]
  simp only [Config.imgMaxW, Config.imgMaxH, imageAccepted]
  omega

theorem rowSize_le (w n : Nat) (h : w ≤ 32 * n) : rowSize w ≤ n := by
  unfold rowSize
  omega

/-- The words of a bit matrix of at most `32*m` columns and `n` rows. -/
theorem matrixWords_length_le (w h m n : Nat) (bit : Nat → Nat → Bool) (hw : w ≤ 32 * m) (hh : h ≤ n) :
    (matrixWords w h bit).length ≤ n * m := by
  rw [matrixWords_length]
  exact Nat.mul_le_mul hh (rowSize_le w m hw)

theorem histogram_length (samples : List Nat) : (histogram samples).length = 32 := by
  simp [histogram, Config.histBuckets]

theorem writeHist_writesResults (i : Instr) (s : State) (samples : List Nat) (hi : i ∈ writersOf .hist) :
    WritesResults i s (writeHist s (histogram samples)) :=
  .of_storeElems .hist _ hi (by simp [histogram_length])

theorem setBlackPt_writesResults (i : Instr) (s : State) (bp : Nat) (hi : RegName.blackPt ∈ resultRegs i) :
    WritesResults i s (setBlackPt s bp) :=
  .of_regs _ rfl fun r hr => readReg_setBlackPt s bp r (ne_of_mem_of_not_mem hi hr).symm

theorem setBinUsed_writesResults (i : Instr) (s : State) (b : Bool) (hi : RegName.binUsed ∈ resultRegs i) :
    WritesResults i s (setBinUsed s b) :=
  .of_regs _ rfl fun r hr => readReg_setBinUsed s b r (ne_of_mem_of_not_mem hi hr).symm

/-- A row of an accepted image fits ROW. -/
theorem storeRow_writesResults (s : State) (w : Nat) (bit : Nat → Bool) (hw : w ≤ 2048) :
    WritesResults .binRow s (storeElems s .row (rowWords w bit)) := by
  refine .of_storeElems .row _ (by decide) ?_
  have hlen := rowSize_le w 64 hw
  have hsize : Window.row.size = 0x100 := rfl
  rw [rowWords_length]
  omega

/-- The bit matrix of an accepted image fits BM. -/
theorem storeBm_writesResults (i : Instr) (s : State) (w h : Nat) (bit : Nat → Nat → Bool) (hi : i ∈ writersOf .bm)
    (hw : w ≤ 2048) (hh : h ≤ 2048) : WritesResults i s (storeElems s .bm (matrixWords w h bit)) := by
  refine .of_storeElems .bm _ hi ?_
  have hlen := matrixWords_length_le w h 64 2048 bit hw hh
  have hsize : Window.bm.size = 0x80000 := rfl
  omega

theorem binRowBody_writesResults (s : State) : WritesResults .binRow s (binRowBody s).1 := by
  unfold binRowBody
  dsimp only
  split_ifs with hsize hrow
  · exact .refl _ s
  · exact .refl _ s
  · obtain ⟨-, hw, -, -⟩ := (imageSizeBad_eq_false _ _).1 (Bool.eq_false_iff.2 hsize)
    have hhist := writeHist_writesResults .binRow s
      ((List.range s.regs.imgW.toNat).map (fun x => lumXY s s.regs.imgW.toNat x s.regs.rowY.toNat)) (by decide)
    split
    · exact hhist
    · exact (hhist.trans (storeRow_writesResults _ _ _ hw)).trans (setBlackPt_writesResults _ _ _ (by decide))

theorem binGlobalBody_writesResults (s : State) : WritesResults .binGlobal s (binGlobalBody s).1 := by
  unfold binGlobalBody
  dsimp only
  split_ifs with hsize
  · exact .refl _ s
  · obtain ⟨-, hw, -, hh⟩ := (imageSizeBad_eq_false _ _).1 (Bool.eq_false_iff.2 hsize)
    have hhist : WritesResults .binGlobal s
        (writeHist s (globalHistogram s s.regs.imgW.toNat s.regs.imgH.toNat)) :=
      writeHist_writesResults .binGlobal s _ (by decide)
    split
    · exact hhist
    · exact ((hhist.trans (storeBm_writesResults _ _ _ _ _ (by decide) hw hh)).trans
        (setBlackPt_writesResults _ _ _ (by decide))).trans (setBinUsed_writesResults _ _ _ (by decide))

theorem binHybridBody_writesResults (s : State) : WritesResults .binHybrid s (binHybridBody s).1 := by
  unfold binHybridBody
  dsimp only
  split_ifs with hsize hsmall
  · exact .refl _ s
  · exact (binGlobalBody_writesResults s).mono (by decide) (by decide)
  · obtain ⟨-, hw, -, hh⟩ := (imageSizeBad_eq_false _ _).1 (Bool.eq_false_iff.2 hsize)
    exact (storeBm_writesResults _ _ _ _ _ (by decide) hw hh).trans (setBinUsed_writesResults _ _ _ (by decide))

/-! ## The Reed-Solomon unit -/

theorem blockCheck_none (len : Nat) (block : List Nat) (h : blockCheck len block = none) : len ≤ 1024 := by
  by_contra hlen
  have hbad : len = 0 ∨ len > Config.cwMax := .inr (not_le.1 hlen)
  simp [blockCheck, hbad] at h

theorem decodeCheck_none (len n e : Nat) (block : List Nat) (h : decodeCheck len n e block = none) : len ≤ 1024 := by
  unfold decodeCheck at h
  split at h
  · cases h
  · exact blockCheck_none len block ‹_›

theorem correct_length (block : List Gf) (pairs : List (Nat × Gf)) : (correct block pairs).length = block.length := by
  induction pairs generalizing block with
  | nil => rfl
  | cons c rest ih => simp [correct, ih]

/-- The block of a decoding that succeeds is the received one with its corrections (41_reed_solomon R239). -/
theorem decodeBlock_ok_block (block : List Gf) (n : Nat) (syn : List Gf) (c : Correction)
    (h : decodeBlock block n syn = .ok c) : c.block = correct block c.pairs := by
  simp only [decodeBlock] at h
  repeat' split at h
  all_goals cases h
  rfl

@[simp] theorem padElems_length (n : Nat) (vals : List Gf) : (padElems n vals).length = n := by
  simp [padElems]

/-- A store of values with zeros above them, as many elements as fit the window. -/
theorem storePadded_writesResults (i : Instr) (s : State) (w : Window) (n : Nat) (vals : List Gf)
    (hi : i ∈ writersOf w) (hfit : 4 * n ≤ w.size) : WritesResults i s (storeElems s w (padElems n vals)) :=
  .of_storeElems w _ hi (by rwa [padElems_length])

theorem writeSyndromes_writesResults (i : Instr) (s : State) (syn : List Gf) (hb : i ∈ writersOf .syn)
    (hr : RegName.rsFlags ∈ resultRegs i) : WritesResults i s (writeSyndromes s syn) :=
  (storePadded_writesResults i s .syn Config.synMax syn hb le_rfl).trans
    (.of_regs _ rfl fun r hn => readReg_setSynNz _ _ r (ne_of_mem_of_not_mem hr hn).symm)

theorem setDecodeCounts_writesResults (s : State) (n d : BitVec 9) :
    WritesResults .rsDecode s { s with regs := { s.regs with rsNerr := n, rsDeg := d } } :=
  .of_regs _ rfl fun r hr => readReg_setDecodeCounts s n d r (fun h => hr (h ▸ by decide)) (fun h => hr (h ▸ by decide))

theorem writeDecodeResults_writesResults (s : State) (sigma omega : List Gf) (eloc : List Word) (nerr deg : Nat) :
    WritesResults .rsDecode s (writeDecodeResults s sigma omega eloc nerr deg) := by
  have hsigma := storePadded_writesResults .rsDecode s .sigma Config.polyMax sigma (by decide) le_rfl
  have homega := hsigma.trans (storePadded_writesResults _ _ .omega Config.polyMax omega (by decide) le_rfl)
  have heloc := homega.trans (.of_storeElems .eloc ((List.range Config.elocMax).map (fun j => eloc.getD j 0))
    (by decide) (by rw [List.length_map, List.length_range]; exact le_rfl))
  exact heloc.trans (setDecodeCounts_writesResults _ _ _)

/-- A corrected block fits CW: its length is CW_LEN, which the checks bound. -/
theorem storeBlock_writesResults (s : State) (es : List Word) (h : es.length ≤ 1024) :
    WritesResults .rsDecode s (storeElems s .cw es) := by
  refine .of_storeElems .cw es (by decide) ?_
  have hsize : Window.cw.size = 0x1000 := rfl
  omega

theorem rsSyndromeBody_writesResults (s : State) : WritesResults .rsSyndrome s (rsSyndromeBody s).1 := by
  unfold rsSyndromeBody
  dsimp only
  split
  · exact .refl _ s
  · split_ifs
    · exact .refl _ s
    · exact writeSyndromes_writesResults _ s _ (by decide) (by decide)

theorem rsDecodeBody_writesResults (s : State) : WritesResults .rsDecode s (rsDecodeBody s).1 := by
  unfold rsDecodeBody
  dsimp only
  split
  · exact .refl _ s
  · rename_i hcheck
    have hlen := decodeCheck_none _ _ _ _ hcheck
    have hsyn := writeSyndromes_writesResults .rsDecode s
      (syndromes (gfBlock (cwList s s.regs.cwLen.toNat)) s.regs.nec.toNat) (by decide) (by decide)
    split_ifs
    · exact hsyn.trans (writeDecodeResults_writesResults _ _ _ _ _ _)
    · split
      · exact (((hsyn.trans (.of_forgetWindow .sigma (by decide))).trans (.of_forgetWindow .omega (by decide))).trans
          (.of_forgetWindow .eloc (by decide))).trans (setDecodeCounts_writesResults _ _ _)
      · rename_i c hdecode
        have hblock : (c.block.map (fun v => v.setWidth 32)).length ≤ 1024 := by
          rw [decodeBlock_ok_block _ _ _ _ hdecode]
          simpa [correct_length, gfBlock, cwList] using hlen
        exact (hsyn.trans (storeBlock_writesResults _ _ hblock)).trans (writeDecodeResults_writesResults _ _ _ _ _ _)

theorem sldCheckBody_writesResults (s : State) : WritesResults .sldCheck s (sldCheckBody s).1 := by
  rw [sldCheckBody_writes]
  split_ifs
  · exact .of_storeElems .cw _ (by decide) (show 4 * 1 ≤ 0x1000 by decide)
  · exact .refl _ s

/-! ## The sampler -/

theorem ptSampleBody_writesResults (s : State) : WritesResults .ptSample s (ptSampleBody s).1 := by
  unfold ptSampleBody
  dsimp only
  split_ifs with hsize hdim
  · exact .refl _ s
  · exact .refl _ s
  · have hle : s.regs.gridDim.toNat ≤ 1024 := not_lt.1 fun h => hdim (.inr h)
    have hgrid : Window.grid.size = 0x20000 := rfl
    split
    · refine .of_forget .grid _ (by decide) ?_
      have hwords := Nat.mul_le_mul hle (rowSize_le _ 32 hle)
      omega
    · refine .of_storeElems .grid _ (by decide) ?_
      exact (Nat.mul_le_mul_left 4 (matrixWords_length_le _ _ 32 1024 _ hle hle)).trans hgrid.ge

/-! ## The parser: the output never exceeds OUT -/

/-- The output gathered so far fits OUT (44_bitstream R375). -/
def OutFits (p : Parser) : Prop := p.out.length ≤ Config.outMax

theorem emit_outFits {p q : Parser} {b : Byte} {i : Nat} (h : emit p b i = .ok q) : OutFits q := by
  unfold emit at h
  split at h
  · cases h
    simpa [OutFits] using ‹_›
  · cases h

theorem emitAll_outFits {p q : Parser} {i : Nat} {bs : List Byte} (hp : OutFits p) (h : emitAll p i bs = .ok q) :
    OutFits q := by
  induction bs generalizing p with
  | nil => cases h; exact hp
  | cons b bs ih =>
    simp only [emitAll] at h
    split at h
    · cases h
    · exact ih (emit_outFits ‹_›) h

theorem emitGroup_outFits {p q : Parser} {gs : List (Nat × Nat)} (hp : OutFits p) (h : emitGroup p gs = .ok q) :
    OutFits q := by
  induction gs generalizing p with
  | nil => cases h; exact hp
  | cons g gs ih =>
    simp only [emitGroup] at h
    split at h
    · cases h
    · exact ih (emit_outFits ‹_›) h

/-- A latch changes no output (44_bitstream R376). -/
theorem latch_outFits {p : Parser} (c : Nat) (hp : OutFits p) : OutFits (latch p c) := by
  unfold latch
  split_ifs <;> exact hp

theorem textValue_outFits {p q : Parser} {h ci : Nat} (hp : OutFits p) (hq : textValue p h ci = .ok q) : OutFits q := by
  unfold textValue at hq
  split at hq
  · dsimp only at hq
    split at hq
    · exact emit_outFits hq
    · cases hq; exact hp
  · dsimp only at hq
    split_ifs at hq
    · exact emit_outFits hq
    · exact emit_outFits hq
    · cases hq; exact hp
  · split at hq
    · exact emit_outFits hq
    · cases hq; exact hp
    · cases hq; exact hp

theorem textPair_outFits {p q : Parser} {c ci : Nat} (hp : OutFits p) (h : textPair p c ci = .ok q) : OutFits q := by
  unfold textPair at h
  split at h
  · cases h
  · exact textValue_outFits (textValue_outFits hp ‹_›) h

theorem textCodeword_outFits {p q : Parser} {c ci : Nat} (hp : OutFits p) (h : textCodeword p c ci = .ok q) :
    OutFits q := by
  unfold textCodeword at h
  split_ifs at h
  · exact textPair_outFits hp h
  · cases h; exact latch_outFits c hp
  · cases h; exact hp

theorem convertGroup_outFits {p q : Parser} {i : Nat} (hp : OutFits p) (h : convertGroup p i = .ok q) : OutFits q := by
  unfold convertGroup at h
  dsimp only at h
  split_ifs at h
  exact emitAll_outFits (p := { p with group := [] }) hp h

theorem flushBytes_outFits {p q : Parser} (hp : OutFits p) (h : flushBytes p = .ok q) : OutFits q := by
  unfold flushBytes at h
  split at h
  · cases h
  · exact emitGroup_outFits (p := { p with group := [] }) hp h

theorem byteCodeword_outFits {p q : Parser} {c ci : Nat} (hp : OutFits p) (h : byteCodeword p c ci = .ok q) :
    OutFits q := by
  unfold byteCodeword at h
  dsimp only at h
  split_ifs at h
  · exact convertGroup_outFits (p := { p with group := p.group ++ [(c, ci)] }) hp h
  · cases h; exact hp
  · split at h
    · cases h
    · cases h; exact latch_outFits c (flushBytes_outFits hp ‹_›)
  · cases h; exact hp

theorem flushNumeric_outFits {p q : Parser} (hp : OutFits p) (h : flushNumeric p = .ok q) : OutFits q := by
  unfold flushNumeric at h
  split at h
  · cases h; exact hp
  · split at h
    · exact emitAll_outFits (p := { p with group := [] }) hp h
    · cases h

theorem numericCodeword_outFits {p q : Parser} {c ci : Nat} (hp : OutFits p) (h : numericCodeword p c ci = .ok q) :
    OutFits q := by
  unfold numericCodeword at h
  dsimp only at h
  split_ifs at h
  · exact flushNumeric_outFits (p := { p with group := p.group ++ [(c, ci)] }) hp h
  · cases h; exact hp
  · split at h
    · cases h
    · cases h; exact latch_outFits c (flushNumeric_outFits hp ‹_›)
  · cases h; exact hp

theorem codeword_outFits {p q : Parser} {c ci : Nat} (hp : OutFits p) (h : codeword p c ci = .ok q) : OutFits q := by
  unfold codeword at h
  split at h
  · exact textCodeword_outFits hp h
  · exact byteCodeword_outFits hp h
  · exact numericCodeword_outFits hp h

theorem shiftedByte_outFits {p q : Parser} {b bi : Nat} (h : shiftedByte p b bi = .ok q) : OutFits q := by
  unfold shiftedByte at h
  split_ifs at h
  exact emit_outFits h

theorem endOfStream_outFits {p q : Parser} (hp : OutFits p) (h : endOfStream p = .ok q) : OutFits q := by
  unfold endOfStream at h
  split at h
  · cases h; exact hp
  · exact flushBytes_outFits hp h
  · exact flushNumeric_outFits hp h

theorem mainLoop_outFits {p q : Parser} {k : Nat} {cs : List Nat} (hp : OutFits p) (h : mainLoop p k cs = .ok q) :
    OutFits q := by
  fun_induction mainLoop p k cs with
  | case1 p k => exact endOfStream_outFits hp h
  | case2 p k c hshift => cases h
  | case3 p k c hshift e he => cases h
  | case4 p k c hshift r hr => exact endOfStream_outFits (codeword_outFits hp hr) h
  | case5 p k c b rest hshift e he => cases h
  | case6 p k c b rest hshift r hr ih => exact ih (shiftedByte_outFits hr) h
  | case7 p k c b rest hshift e he => cases h
  | case8 p k c b rest hshift r hr ih => exact ih (codeword_outFits hp hr) h

/-! ## The parser commands and the pipeline -/

theorem storedByte_out (i : Nat) (h : i < 4096) : storedByte (Window.out.base + i) = true := by
  have hbase : Window.out.base = 0x5000 := rfl
  have hsize : Window.out.size = 0x1000 := rfl
  have hdefined : Window.out.definedBytes = 4 := rfl
  rw [storedByte_of_contains .out _ ((contains_iff _ _).2 (by omega)), decide_eq_true_eq]
  omega

theorem setOutLen_writesResults (i : Instr) (s : State) (n : BitVec 13) (hr : RegName.outLen ∈ resultRegs i) :
    WritesResults i s { s with regs := { s.regs with outLen := n } } :=
  .of_regs _ rfl fun r hn => readReg_setOutLen s n r (ne_of_mem_of_not_mem hr hn).symm

/-- A store of bytes that fit OUT. -/
theorem storeOut_writesResults (i : Instr) (s : State) (bs : List Byte) (hi : i ∈ writersOf .out)
    (hfit : bs.length ≤ 4096) : WritesResults i s (storeBytes s Window.out.base bs) :=
  .of_window .out bs.length (storeBytes s Window.out.base bs).mem s.marks s.draws hi hfit
    (fun a ha => readByte_storeBytes_outside s _ bs a ha)
    (fun hm => memWf_storeBytes s _ bs hm fun k hk => storedByte_out k (lt_of_lt_of_le hk hfit))

theorem writeOut_writesResults (i : Instr) (s : State) (out : List Byte) (hi : i ∈ writersOf .out)
    (hr : RegName.outLen ∈ resultRegs i) (hfit : out.length ≤ 4096) : WritesResults i s (writeOut s out) :=
  (storeOut_writesResults i s out hi hfit).trans (setOutLen_writesResults i _ _ hr)

theorem outError_writesResults (i : Instr) (s : State) (e : CmdError) (hi : i ∈ writersOf .out)
    (hr : RegName.outLen ∈ resultRegs i) : WritesResults i s (outError s e).1 := by
  unfold outError
  dsimp only
  split_ifs
  · exact .refl _ s
  · exact (WritesResults.of_forgetWindow .out hi).trans (setOutLen_writesResults i _ _ hr)

theorem start_outFits (group : List (Nat × Nat)) : OutFits { Parser.start with group := group } := Nat.zero_le _

theorem dbsDecodeBody_writesResults (s : State) : WritesResults .dbsDecode s (dbsDecodeBody s).1 := by
  unfold dbsDecodeBody
  dsimp only
  split
  · exact outError_writesResults _ s _ (by decide) (by decide)
  · split
    · exact outError_writesResults _ s _ (by decide) (by decide)
    · exact writeOut_writesResults _ s _ (by decide) (by decide) (mainLoop_outFits (start_outFits []) ‹_›)

theorem numB900Body_writesResults (s : State) : WritesResults .numB900 s (numB900Body s).1 := by
  unfold numB900Body
  dsimp only
  split_ifs
  · exact outError_writesResults _ s _ (by decide) (by decide)
  · split
    · exact outError_writesResults _ s _ (by decide) (by decide)
    · split
      · exact outError_writesResults _ s _ (by decide) (by decide)
      · exact writeOut_writesResults _ s _ (by decide) (by decide) (flushNumeric_outFits (start_outFits _) ‹_›)

theorem thenStage_writesResults {i : Instr} {s : State} {r : BodyResult} {stage : State → BodyResult}
    (h : WritesResults i s r.1) (k : WritesResults i r.1 (stage r.1).1) : WritesResults i s (thenStage r stage).1 := by
  unfold thenStage
  split
  · exact h
  · exact h.trans k

theorem cwPipelineBody_writesResults (s : State) : WritesResults .cwPipeline s (cwPipelineBody s).1 := by
  have hrs : WritesResults .cwPipeline s (rsDecodeBody s).1 :=
    (rsDecodeBody_writesResults s).mono (by decide) (by decide)
  have hsld : ∀ u, WritesResults .cwPipeline u (sldCheckBody u).1 := fun u =>
    (sldCheckBody_writesResults u).mono (by decide) (by decide)
  have hdbs : ∀ u, WritesResults .cwPipeline u (dbsDecodeBody u).1 := fun u =>
    (dbsDecodeBody_writesResults u).mono (by decide) (by decide)
  exact thenStage_writesResults (thenStage_writesResults hrs (hsld _)) (hdbs _)

/-! ## Every command -/

/-- Every command is the completion step of a body that makes its writes and no other (10_state R38, 30_encoding
R143). -/
theorem exec_writesResults (i : Instr) (s : State) :
    ∃ r : BodyResult, exec i s = finish r ∧ WritesResults i s r.1 := by
  cases i with
  | nop => exact ⟨_, rfl, .refl _ s⟩
  | gfAdd | gfMul | gfExp => exact ⟨_, rfl, setGfR_writesResults _ s _ (by decide)⟩
  | gfInv | gfLog =>
    refine ⟨_, rfl, ?_⟩
    split
    · exact setGfR_writesResults _ s _ (by decide)
    · exact .refl _ s
  | rsSyndrome => exact ⟨_, rfl, rsSyndromeBody_writesResults s⟩
  | rsDecode => exact ⟨_, rfl, rsDecodeBody_writesResults s⟩
  | sldCheck => exact ⟨_, rfl, sldCheckBody_writesResults s⟩
  | binRow => exact ⟨_, rfl, binRowBody_writesResults s⟩
  | binGlobal => exact ⟨_, rfl, binGlobalBody_writesResults s⟩
  | binHybrid => exact ⟨_, rfl, binHybridBody_writesResults s⟩
  | ptSolve => exact ⟨_, rfl, .of_regs _ rfl (readReg_setTransform s _)⟩
  | ptMap =>
    exact ⟨_, rfl, .of_regs _ rfl fun r hr =>
      readReg_setPtOut s _ _ r (fun h => hr (h ▸ by decide)) (fun h => hr (h ▸ by decide))⟩
  | ptSample => exact ⟨_, rfl, ptSampleBody_writesResults s⟩
  | dbsDecode => exact ⟨_, rfl, dbsDecodeBody_writesResults s⟩
  | numB900 => exact ⟨_, rfl, numB900Body_writesResults s⟩
  | cwPipeline => exact ⟨_, rfl, cwPipelineBody_writesResults s⟩

theorem memWf_exec (i : Instr) (s t : State) (hm : Memory.wf s.mem) (h : exec i s = .next t) : Memory.wf t.mem := by
  obtain ⟨r, hexec, hr⟩ := exec_writesResults i s
  rw [hexec] at h
  cases h
  exact hr.canonical hm

/-- Settles O7: each command's body makes its writes only, and the completion adds STATUS and ERRINFO. -/
theorem commandsWriteOnlyTheirResults : Obligations.CommandsWriteOnlyTheirResults := by
  intro i s t h
  obtain ⟨r, hexec, hr⟩ := exec_writesResults i s
  rw [hexec] at h
  cases h
  refine ⟨fun b a hb hi => ?_, fun q hq hs he => ?_, hr.werr, hr.inputs, hr.reply, hr.latencies⟩
  · rw [readByte_endCommand]
    exact hr.bytes b a hb hi
  · rw [readReg_endCommand _ _ q hs he]
    exact hr.regs q hq

end Sys2Proof.Machine
end

section
/-! PROOFS. Every step keeps the canonical form of the memory (O9): the commands by their writes, the port access by
access. -/

namespace Sys2Proof.Machine

open Sys2Proof.Safety

/-! ## The canonical form at the port -/

theorem memWf_completionStep (w : Word) (s t : State) (hm : Memory.wf s.mem) (h : completionStep w s = .next t) :
    Memory.wf t.mem := by
  unfold completionStep at h
  split at h
  · exact memWf_exec _ s t hm h
  · cases h; exact hm

/-- The ends of the ranges of a command stand in order. -/
theorem commandRanges_ordered (s : State) (i : Instr) : ∀ r ∈ commandRanges s i, r.1 ≤ r.2 := by
  cases i
  case sldCheck | binHybrid =>
    simp only [commandRanges]
    split_ifs <;> simp [firstWords, wholeWindow]
  all_goals simp [commandRanges, firstWords, wholeWindow]

theorem runningRanges_ordered (s : State) : ∀ r ∈ runningRanges s, r.1 ≤ r.2 := by
  unfold runningRanges
  split
  · simp
  · split
    · exact commandRanges_ordered s _
    · simp

theorem memWf_softReset (s : State) (hm : Memory.wf s.mem) : Memory.wf (softReset s).mem :=
  memWf_forgetRanges _ s hm (runningRanges_ordered s)

theorem memWf_powerOnReset (s : State) (hm : Memory.wf s.mem) : Memory.wf (powerOnReset s).mem :=
  memWf_forget s 0 _ (Nat.zero_le _) hm

/-- Of the writes to registers only a soft reset bears on the buffers. -/
theorem memWf_writeRegister (s : State) (r : RegName) (v : Word) (hm : Memory.wf s.mem) :
    Memory.wf (writeRegister s r v).mem := by
  unfold writeRegister
  split
  · exact hm
  · split_ifs <;> exact hm
  · split_ifs <;> exact hm
  · split
    · exact hm
    · exact hm
    · split_ifs
      · exact memWf_softReset s hm
      · exact hm
    · exact hm

theorem memWf_performWrite (s : State) (w : Window) (off : Nat) (size : Size) (v : Word) (hm : Memory.wf s.mem) :
    Memory.wf (performWrite s w off size v).mem := by
  unfold performWrite
  split
  · split
    · exact memWf_writeRegister s _ v hm
    · exact hm
  · split_ifs
    · exact hm
    · exact memWf_writeCells s _ _ _ (by omega) hm (memWf_writtenCells _ _ v) (writtenCells_in_range _ _ v)
    · exact hm

theorem performRead_mem (s : State) (w : Window) (off : Nat) (size : Size) :
    (performRead s w off size).2.mem = s.mem := by
  unfold performRead
  split_ifs <;> rfl

theorem memWf_hostAccess (s : State) (a : Access) (hm : Memory.wf s.mem) : Memory.wf (hostAccess s a).2.mem := by
  cases hw : accessWindow a with
  | none => rwa [hostAccess_none s a hw]
  | some w =>
    cases a with
    | read off size =>
      rw [hostAccess_read s off size w hw, performRead_mem]
      exact hm
    | write off size v =>
      rw [hostAccess_write s off size v w hw]
      exact memWf_performWrite s w _ size v hm

/-- Settles O9: a step is a completion step, an access, a power-on reset or nothing, and each keeps the form. -/
theorem stepKeepsTheMemoryCanonical : Obligations.StepKeepsTheMemoryCanonical := by
  intro s t hm h
  rcases step_cases s t h with ⟨w, -, hw⟩ | ⟨u, hu, hport⟩
  · exact memWf_completionStep w s t hm hw
  · have hum : Memory.wf u.mem := by
      rcases hu with ⟨rfl, -⟩ | ⟨w, n, -, rfl⟩ <;> exact hm
    rcases hport with ⟨-, rfl⟩ | ⟨rest, ⟨-, rfl⟩ | ⟨-, rfl⟩ | ⟨a, -, -, rfl⟩⟩
    · exact hum
    · exact hum
    · exact memWf_powerOnReset { u with inputs := rest } hum
    · exact memWf_hostAccess { u with inputs := rest } a hum

end Sys2Proof.Machine
end

section
/-! PROOFS. The registers as the port reads and writes them while idle (O19), and the state after reset (O11, O20). -/

namespace Sys2Proof.Machine

open Sys2Proof.Safety

/-! ## Fields of a register word -/

/-- A field above others counts with the weight of its lowest bit. -/
theorem toNat_append_eq_add {m n : Nat} (x : BitVec m) (y : BitVec n) :
    (x ++ y).toNat = x.toNat * 2 ^ n + y.toNat := by
  rw [BitVec.toNat_append, ← Nat.shiftLeft_add_eq_or_of_lt y.isLt, Nat.shiftLeft_eq]

theorem setWidth_ofBool (b : Bool) : (BitVec.ofBool b).setWidth 32 = if b then (1 : Word) else 0 := by
  cases b <;> rfl

theorem errCode_number_toNat (c : ErrCode) : c.number.toNat = codeNumber c := by
  cases c <;> rfl

theorem busy_toNat (s : State) : (busy s).toNat = if s.eng = .idle then 0 else 1 := by
  by_cases h : s.eng = .idle <;> simp [h]

/-- STATUS as a sum of its fields (10_state R34). -/
theorem statusWord_toNat (s : State) : (statusWord s).toNat =
    (if s.eng = .idle then 0 else 1) + 2 * s.regs.done.toNat + 4 * s.regs.err.toNat + 8 * s.regs.werr.toNat +
      16 * codeNumber s.regs.errcode := by
  simp only [statusWord, toNat_append_eq_add, BitVec.toNat_ofBool, busy_toNat, errCode_number_toNat, BitVec.toNat_ofNat]
  omega

theorem irqEnWord_toNat (r : Regs) : (irqEnWord r).toNat = r.doneIe.toNat + 2 * r.errIe.toNat := by
  simp only [irqEnWord, toNat_append_eq_add, BitVec.toNat_ofBool, BitVec.toNat_ofNat]
  omega

theorem errInfoWord_toNat (r : Regs) : (errInfoWord r).toNat = r.detail.toNat + 2 ^ 16 * r.index.toNat := by
  simp only [errInfoWord, toNat_append_eq_add, BitVec.toNat_ofNat]
  omega

/-! ## Registers at the port while idle -/

theorem hostAccess_read_reg_idle (s : State) (k : Nat) (hk : k < 64) (hs : s.eng = .idle) :
    hostAccess s (.read (BitVec.ofNat 23 (4 * k)) .word) =
      ({ error := false, data := (RegName.all[k]?).elim 0 (readReg s) }, s) := by
  simp [hostAccess_read_reg s k hk, hs]

theorem regName_eq_of_getElem? {j k : Nat} {r : RegName} (hj : RegName.all[j]? = some r)
    (hk : RegName.all[k]? = some r) : j = k := by
  have hnodup : RegName.all.Nodup := by decide
  obtain ⟨hlt, -⟩ := List.getElem?_eq_some_iff.1 hj
  exact (List.getElem?_inj hlt hnodup).1 (hj.trans hk.symm)

/-- How many bits of a register a 32-bit write while idle stores; 0 for the registers it does not store to. -/
def storedBits : RegName → Nat
  | .irqEn => 2
  | .gfA | .gfB => 8
  | .cwLen | .nec | .eraCnt | .gridDim => 11
  | .imgW | .imgH | .rowY => 12
  | r => if r.writeKind = .readWrite then 32 else 0

/-- The registers after a 32-bit write while idle that stores to a register. -/
def storeReg (v : Word) (regs : Regs) : RegName → Regs
  | .irqEn => writeIrqEn v regs
  | r => writeRwReg v regs r

theorem eq_irqEn_or_readWrite (r : RegName) (h : storedBits r ≠ 0) : r = .irqEn ∨ r.writeKind = .readWrite := by
  revert h
  cases r <;> decide

theorem storeReg_of_readWrite (v : Word) (regs : Regs) (r : RegName) (h : r.writeKind = .readWrite) :
    storeReg v regs r = writeRwReg v regs r := by
  cases r
  case irqEn => cases h
  all_goals rfl

/-- While idle a write to such a register stores, and nothing else happens (10_state R34). -/
theorem writeRegister_idle (s : State) (r : RegName) (v : Word) (hs : s.eng = .idle) (hr : storedBits r ≠ 0) :
    writeRegister s r v = { s with regs := storeReg v s.regs r } := by
  rcases eq_irqEn_or_readWrite r hr with rfl | hk
  · rfl
  · simp [writeRegister, hk, hs, storeReg_of_readWrite]

theorem storeReg_werr (v : Word) (regs : Regs) (r : RegName) : (storeReg v regs r).werr = regs.werr := by
  cases r <;> rfl

/-- A field of `n` bits reads as the low `n` bits of the word written, with zeros above. -/
theorem setWidth_field (n : Nat) (v : Word) : (field n v).setWidth 32 = BitVec.ofNat 32 (v.toNat % 2 ^ n) := by
  apply BitVec.eq_of_toNat_eq
  simp [field]

theorem word_eq_ofNat (v : Word) : v = BitVec.ofNat 32 (v.toNat % 2 ^ 32) := by
  rw [Nat.mod_eq_of_lt v.isLt, BitVec.ofNat_toNat, BitVec.setWidth_eq]

theorem irqEnWord_writeIrqEn (v : Word) (regs : Regs) :
    irqEnWord (writeIrqEn v regs) = BitVec.ofNat 32 (v.toNat % 2 ^ 2) := by
  apply BitVec.eq_of_toNat_eq
  have h0 : (v.getLsbD 0).toNat = v.toNat / 2 ^ 0 % 2 := Nat.toNat_testBit _ _
  have h1 : (v.getLsbD 1).toNat = v.toNat / 2 ^ 1 % 2 := Nat.toNat_testBit _ _
  rw [irqEnWord_toNat, BitVec.toNat_ofNat, writeIrqEn, h0, h1]
  omega

theorem readReg_storeReg_same (s : State) (r : RegName) (v : Word) (hr : storedBits r ≠ 0) :
    readReg { s with regs := storeReg v s.regs r } r = BitVec.ofNat 32 (v.toNat % 2 ^ storedBits r) := by
  cases r
  case irqEn => exact irqEnWord_writeIrqEn v s.regs
  case gfA | gfB => exact setWidth_field 8 v
  case cwLen | nec | eraCnt | gridDim => exact setWidth_field 11 v
  case imgW | imgH | rowY => exact setWidth_field 12 v
  case id | version | cmd | status | errInfo | ctrl | gfPrim | gfR | rsFlags | rsNerr | rsDeg | outLen | blackPt |
      binUsed | ptOutX | ptOutY => exact absurd rfl hr
  all_goals exact word_eq_ofNat v

/-- A store replaces one field, and no other register reads that field: register by register. -/
theorem readReg_storeReg_other (s : State) (r q : RegName) (v : Word) (h : q ≠ r) :
    readReg { s with regs := storeReg v s.regs r } q = readReg s q := by
  cases q
  case id | version | ctrl | gfPrim => rfl
  all_goals
    dsimp only [readReg, statusWord, irqEnWord, errInfoWord, busy]
    cases r
    all_goals first | exact rfl | exact absurd rfl h

/-- The offsets of the registers that a 32-bit write while idle stores to, with the bits stored (10_state R34). -/
theorem storedBits_at (k n : Nat)
    (h : (k, n) ∈ [(4, 2), (8, 8), (9, 8), (12, 11), (13, 11), (14, 11), (18, 12), (19, 12), (20, 12), (23, 11)] ∨
      24 ≤ k ∧ k ≤ 50 ∧ n = 32) :
    k < 64 ∧ n ≠ 0 ∧ ∃ r, RegName.all[k]? = some r ∧ storedBits r = n := by
  have hfields : ∀ p ∈ [(4, 2), (8, 8), (9, 8), (12, 11), (13, 11), (14, 11), (18, 12), (19, 12), (20, 12), (23, 11)],
      p.1 < 64 ∧ p.2 ≠ 0 ∧ (RegName.all[p.1]?).map storedBits = some p.2 := by decide
  have hwords : ∀ j, j < 51 → 24 ≤ j → (RegName.all[j]?).map storedBits = some 32 := by decide
  rcases h with h | ⟨hlo, hhi, rfl⟩
  · obtain ⟨hk, hn, hr⟩ := hfields (k, n) h
    exact ⟨hk, hn, Option.map_eq_some_iff.1 hr⟩
  · exact ⟨by omega, by omega, Option.map_eq_some_iff.1 (hwords k (by omega) hlo)⟩

/-- Settles O19: what each register reads is its definition field by field; a write while idle is `storeReg`. -/
theorem registersReadBackTheirFields : Obligations.RegistersReadBackTheirFields := by
  refine ⟨fun s => ?_, fun s v k n hs hkn => ?_⟩
  · exact ⟨rfl, rfl, rfl, rfl, rfl, statusWord_toNat s, irqEnWord_toNat s.regs, errInfoWord_toNat s.regs, rfl, rfl, rfl,
      setWidth_ofBool _, rfl, rfl, rfl, rfl, rfl, rfl, rfl, rfl, rfl, rfl, setWidth_ofBool _, rfl, rfl, rfl, rfl, rfl,
      rfl, rfl, rfl⟩
  · obtain ⟨hk, hn, r, hr, rfl⟩ := storedBits_at k n hkn
    have hwrite : (hostAccess s (.write (BitVec.ofNat 23 (4 * k)) .word v)).2 =
        { s with regs := storeReg v s.regs r } := by
      rw [hostAccess_write_reg s k v hk, hr]
      exact writeRegister_idle s r v hs hn
    intro t
    have ht : t = { s with regs := storeReg v s.regs r } := hwrite
    have hread : ∀ j, j < 64 → (hostAccess t (.read (BitVec.ofNat 23 (4 * j)) .word)).1 =
        { error := false, data := (RegName.all[j]?).elim 0 (readReg t) } := fun j hj => by
      rw [hostAccess_read_reg_idle t j hj (ht ▸ hs)]
    refine ⟨?_, ?_, fun j hj hjk => ?_, ?_⟩
    · rw [ht]
    · rw [hread k hk, hr, ht, Option.elim_some, readReg_storeReg_same s r v hn]
    · rw [hread j hj, hostAccess_read_reg_idle s j hj hs, ht]
      cases hq : RegName.all[j]? with
      | none => rfl
      | some q =>
        have hqr : q ≠ r := fun h => hjk (regName_eq_of_getElem? (h ▸ hq) hr)
        rw [Option.elim_some, Option.elim_some, readReg_storeReg_other s r q v hqr]
    · rw [ht, storeReg_werr]

/-! ## After reset -/

/-- Settles O11: the memory is empty, and the registers hold 0. -/
theorem resetMeetsTheInvariants : Obligations.ResetMeetsTheInvariants :=
  ⟨memWf_reset,
    { err_code := by decide
      ok_info := by decide
      running := fun _ _ => nofun
      out_len := by decide
      nerr_deg := by decide
      black_point := by decide }⟩

/-- Settles O20: the reset column, offset by offset; a byte that nothing lists or marks is UNKNOWN since power-on. -/
theorem resetRegisterValues : Obligations.ResetRegisterValues := by
  have hcolumn : ∀ k, k < 64 → (RegName.all[k]?).elim 0 (readReg State.reset) =
      if k = 0 then 0x50444131 else if k = 1 then 0x00010000 else if k = 7 then 0x0002011D else 0 := by decide
  refine ⟨fun k hk => ?_, rfl, rfl, fun a ha => ?_⟩
  · rw [hostAccess_read_reg_idle State.reset k hk rfl, hcolumn k hk]
  · simp [readByte, ha, State.reset, memLookup, unlistedByte, drawAt]

end Sys2Proof.Machine
end

section
/-! PROOFS. The step: of a command word whose latency is over (O4), of an access that the bus answers with an error
(O14), and of good accesses, which never faults (O8). -/

namespace Sys2Proof.Machine

open Sys2Proof.Safety

/-! ## The step of a command word -/

theorem decode_encode (i : Instr) : decode (encode i) = .command i := by
  cases i <;> rfl

/-- The word placed by `withFetchWord` is the one given, if it has 32 bits. -/
theorem withFetchWord_toNat (s : State) (w : Word) : s.withFetchWord 32 w.toNat = issueWith 0 w s := by
  simp [State.withFetchWord, placeWord, Nat.mod_eq_of_lt w.isLt]

theorem step_of_decode (s : State) (w : Word) (i : Instr) (he : s.eng = .running w 0) (hd : decode w = .command i) :
    step s = exec i s := by
  rw [step_completion s w he, completionStep, hd]

/-- Settles O4: the completion step of a word that decodes to a command is `exec` of it. -/
theorem stepRunsTheDecodedCommand : Obligations.StepRunsTheDecodedCommand := by
  refine ⟨fun s w i he hd _ => step_of_decode s w i he hd, fun s i _ => ?_⟩
  rw [withFetchWord_toNat]
  exact step_of_decode _ (encode i) i rfl (decode_encode i)

/-! ## Good accesses -/

theorem byteWide_iff (w : Window) : w.byteWide = true ↔ w = .out ∨ w = .lum := by
  cases w <;> decide

/-- The good accesses are those that have a window: the claims' form of `accessWindow`. -/
theorem goodAccess_iff (a : Access) : goodAccess a ↔ ∃ w, accessWindow a = some w := by
  constructor
  · rintro ⟨haligned, w, -, hlo, hhi, hsize⟩
    exact ⟨w, accessWindow_of_contains a w haligned ((contains_iff w _).2 ⟨hlo, hhi⟩)
      (hsize.imp_right (byteWide_iff w).2)⟩
  · rintro ⟨w, h⟩
    obtain ⟨haligned, hin, hsize⟩ := accessWindow_some a w h
    obtain ⟨hlo, hhi⟩ := (contains_iff w _).1 hin
    exact ⟨haligned, w, w.mem_all, hlo, hhi, hsize.imp_right (byteWide_iff w).1⟩

theorem accessWindow_eq_none_of_not_good (a : Access) (h : ¬ goodAccess a) : accessWindow a = none := by
  rw [goodAccess_iff, not_exists] at h
  exact Option.eq_none_iff_forall_ne_some.2 h

/-- The window of a good access is the one its offset lies in. -/
theorem accessWindow_of_good (a : Access) (b : Window) (h : goodAccess a) (hb : b.contains a.off.toNat = true) :
    accessWindow a = some b := by
  obtain ⟨w, hw⟩ := (goodAccess_iff a).1 h
  obtain ⟨-, hin, -⟩ := accessWindow_some a w hw
  have heq := (windowAt_of_contains w _ hin).symm.trans (windowAt_of_contains b _ hb)
  rw [hw, heq]

theorem hostAccess_bad (s : State) (a : Access) (h : ¬ goodAccess a) :
    hostAccess s a = ({ error := true, data := 0 }, s) :=
  hostAccess_none s a (accessWindow_eq_none_of_not_good a h)

theorem performRead_error (s : State) (w : Window) (off : Nat) (size : Size) :
    (performRead s w off size).1.error = false := by
  unfold performRead
  split <;> rfl

theorem hostAccess_good_error (s : State) (a : Access) (h : goodAccess a) : (hostAccess s a).1.error = false := by
  obtain ⟨w, hw⟩ := (goodAccess_iff a).1 h
  cases a with
  | read off size =>
    rw [hostAccess_read s off size w hw]
    exact performRead_error s w _ size
  | write off size v => rw [hostAccess_write s off size v w hw]

/-! ## One input of the port -/

theorem portStep_cons (s : State) (i : Input) (rest : List Input) (h : s.inputs = i :: rest) :
    portStep s = takeInput i { s with inputs := rest } := by
  simp [portStep, h]

theorem takeInput_bad (s : State) (a : Access) (h : ¬ goodAccess a) :
    takeInput (.access a) s = .fault (.busError a) := by
  simp [takeInput, hostAccess_bad s a h]

theorem takeInput_good (s : State) (a : Access) (h : goodAccess a) :
    takeInput (.access a) s = .next { (hostAccess s a).2 with reply := some (hostAccess s a).1 } := by
  simp [takeInput, hostAccess_good_error s a h]

/-- Settles O14: an access that is not good has no window, and the step that takes it faults. -/
theorem busErrorsChangeNothing : Obligations.BusErrorsChangeNothing := by
  refine ⟨hostAccess_bad, hostAccess_good_error, fun s a rest he hin hbad => ?_, fun s a rest w n he hin hbad => ?_,
    fun s a rest he hin hgood => ?_⟩
  · rw [step_idle s he, portStep_cons s _ rest hin, takeInput_bad _ a hbad]
  · rw [step_countdown s w n he, portStep_cons { s with eng := .running w n } _ rest hin,
      takeInput_bad _ a hbad]
  · rw [step_idle s he, portStep_cons s _ rest hin, takeInput_good _ a hgood]

/-! ## The inputs that still wait -/

theorem forgetRanges_inputs (rs : List (Nat × Nat)) (s : State) : (forgetRanges s rs).inputs = s.inputs := by
  induction rs generalizing s with
  | nil => rfl
  | cons r rs ih => exact ih (forget s r.1 r.2)

theorem softReset_inputs (s : State) : (softReset s).inputs = s.inputs :=
  forgetRanges_inputs (runningRanges s) s

theorem writeRegister_inputs (s : State) (r : RegName) (v : Word) : (writeRegister s r v).inputs = s.inputs := by
  unfold writeRegister
  split
  · rfl
  · split_ifs <;> rfl
  · split_ifs <;> rfl
  · split
    · rfl
    · rfl
    · split_ifs
      · exact softReset_inputs s
      · rfl
    · rfl

theorem performWrite_inputs (s : State) (w : Window) (off : Nat) (size : Size) (v : Word) :
    (performWrite s w off size v).inputs = s.inputs := by
  unfold performWrite
  split
  · split
    · exact writeRegister_inputs s _ v
    · rfl
  · split_ifs <;> rfl

/-- A read changes the number of draws at most, and while idle not even that (20_memory R108). -/
theorem performRead_state (s : State) (w : Window) (off : Nat) (size : Size) :
    ∃ n, (performRead s w off size).2 = { s with draws := n } ∧ (s.eng = .idle → n = s.draws) := by
  by_cases h : readsRunning s w off = true
  · refine ⟨s.draws + 1, by simp [performRead, h], fun he => ?_⟩
    have hidle := congrArg (·.2.draws) (performRead_idle s w off size he)
    simp [performRead, h] at hidle
  · exact ⟨s.draws, by simp [performRead, h], fun _ => rfl⟩

theorem hostAccess_read_state (s : State) (off : Offset) (size : Size) :
    ∃ n, (hostAccess s (.read off size)).2 = { s with draws := n } ∧ (s.eng = .idle → n = s.draws) := by
  cases hw : accessWindow (.read off size) with
  | none => exact ⟨s.draws, by rw [hostAccess_none s _ hw], fun _ => rfl⟩
  | some w =>
    rw [hostAccess_read s off size w hw]
    exact performRead_state s w _ size

theorem hostAccess_inputs (s : State) (a : Access) : (hostAccess s a).2.inputs = s.inputs := by
  cases a with
  | read off size =>
    obtain ⟨n, hn, -⟩ := hostAccess_read_state s off size
    rw [hn]
  | write off size v =>
    cases hw : accessWindow (.write off size v) with
    | none => rw [hostAccess_none s _ hw]
    | some w =>
      rw [hostAccess_write s off size v w hw]
      exact performWrite_inputs s w _ size v

theorem completionStep_inputs (w : Word) (s : State) : ∃ t, completionStep w s = .next t ∧ t.inputs = s.inputs := by
  unfold completionStep
  split
  · rename_i i _
    obtain ⟨r, hexec, hr⟩ := exec_writesResults i s
    exact ⟨_, hexec, hr.inputs⟩
  · exact ⟨_, rfl, rfl⟩

/-- Taking one good input answers a next state and leaves the inputs behind it to wait. -/
theorem takeInput_next (i : Input) (s : State) (h : ∀ a, i = .access a → goodAccess a) :
    ∃ t, takeInput i s = .next t ∧ t.inputs = s.inputs := by
  cases i with
  | idle => exact ⟨s, rfl, rfl⟩
  | rstLow => exact ⟨powerOnReset s, rfl, rfl⟩
  | access a => exact ⟨_, takeInput_good s a (h a rfl), hostAccess_inputs s a⟩

theorem portStep_goodInputs (s : State) (h : goodInputs s) : ∃ t, portStep s = .next t ∧ goodInputs t := by
  cases hin : s.inputs with
  | nil => exact ⟨s, by simp [portStep, hin], h⟩
  | cons i rest =>
    have hwait : ∀ a, Input.access a ∈ i :: rest → goodAccess a := fun a ha => h a (hin ▸ ha)
    obtain ⟨t, ht, hrest⟩ := takeInput_next i { s with inputs := rest }
      (fun a ha => hwait a (ha ▸ List.mem_cons_self))
    refine ⟨t, by rw [portStep_cons s i rest hin, ht], fun a ha => hwait a (List.mem_cons_of_mem i ?_)⟩
    rwa [hrest] at ha

theorem step_goodInputs (s : State) (h : goodInputs s) : ∃ t, step s = .next t ∧ goodInputs t := by
  cases he : s.eng with
  | idle =>
    rw [step_idle s he]
    exact portStep_goodInputs s h
  | running w n =>
    cases n with
    | zero =>
      obtain ⟨t, ht, hin⟩ := completionStep_inputs w s
      refine ⟨t, by rw [step_completion s w he, ht], ?_⟩
      rwa [goodInputs, hin]
    | succ n =>
      rw [step_countdown s w n he]
      exact portStep_goodInputs _ h

theorem takeInput_not_refused (i : Input) (s : State) (r : Refusal) : takeInput i s ≠ .refused r := by
  cases i with
  | idle | rstLow => exact nofun
  | access a =>
    by_cases h : goodAccess a
    · rw [takeInput_good s a h]; exact nofun
    · rw [takeInput_bad s a h]; exact nofun

theorem portStep_not_refused (s : State) (r : Refusal) : portStep s ≠ .refused r := by
  unfold portStep
  split
  · exact nofun
  · exact takeInput_not_refused _ _ r

theorem step_not_refused (s : State) (r : Refusal) : step s ≠ .refused r := by
  cases he : s.eng with
  | idle =>
    rw [step_idle s he]
    exact portStep_not_refused s r
  | running w n =>
    cases n with
    | zero =>
      obtain ⟨t, ht⟩ := completionStep_next w s
      rw [step_completion s w he, ht]
      exact nofun
    | succ n =>
      rw [step_countdown s w n he]
      exact portStep_not_refused _ r

/-- Settles O8: the only fault is that of an access which is not good, and the inputs only get fewer. -/
theorem goodInputsNeverFault : Obligations.GoodInputsNeverFault :=
  ⟨step_goodInputs, step_not_refused⟩

end Sys2Proof.Machine
end

section
/-! PROOFS. What a read returns, while idle and while a command runs (O18). -/

namespace Sys2Proof.Machine

open Sys2Proof.Safety

/-! ## Reads of buffers and of registers -/

theorem sized_toNat (size : Size) (v : Word) : (sized size v).toNat = v.toNat % 2 ^ (8 * size.bytes) := by
  have hle : v.toNat % 2 ^ (8 * size.bytes) ≤ v.toNat := Nat.mod_le _ _
  rw [sized, BitVec.toNat_setWidth, BitVec.toNat_setWidth, Nat.mod_eq_of_lt (hle.trans_lt v.isLt)]

theorem sized_eq_lowBits (size : Size) (v : Word) : sized size v = lowBits size v := by
  have hlt := (sized size v).isLt
  apply BitVec.eq_of_toNat_eq
  rw [lowBits, BitVec.toNat_ofNat, ← sized_toNat, Nat.mod_eq_of_lt hlt]

/-- A read of a buffer: a fresh free value of what the running command may write, else the bytes from the offset on
(20_memory R108, R111). -/
theorem hostAccess_read_buffer (s : State) (off : Offset) (size : Size) (b : Window)
    (hw : accessWindow (.read off size) = some b) (hb : b ≠ .registers) :
    hostAccess s (.read off size) =
      if inRanges (runningRanges s) off.toNat = true then
        ({ error := false, data := lowBits size (Config.busyRead s.draws) }, { s with draws := s.draws + 1 })
      else ({ error := false, data := lowBits size (readWord s off.toNat) }, s) := by
  have hrun : readsRunning s b off.toNat = inRanges (runningRanges s) off.toNat := by
    cases b
    case registers => exact absurd rfl hb
    all_goals rfl
  have hval : windowValue s b off.toNat = readWord s off.toNat := by
    cases b
    case registers => exact absurd rfl hb
    all_goals rfl
  rw [hostAccess_read s off size b hw, performRead, hrun, hval, sized_eq_lowBits, sized_eq_lowBits]

theorem hostAccess_read_buffer_exact (s : State) (off : Offset) (size : Size) (b : Window)
    (hw : accessWindow (.read off size) = some b) (hb : b ≠ .registers) (hn : ¬ within (runningRanges s) off.toNat) :
    hostAccess s (.read off size) = ({ error := false, data := lowBits size (readWord s off.toNat) }, s) := by
  rw [hostAccess_read_buffer s off size b hw hb, if_neg (by rwa [inRanges_iff])]

/-- A read of a register: a fresh free value of what the running command writes, else the register. -/
theorem hostAccess_read_named (s : State) (k : Nat) (r : RegName) (hr : RegName.all[k]? = some r) :
    hostAccess s (.read (BitVec.ofNat 23 (4 * k)) .word) =
      if r ∈ runningRegs s then
        ({ error := false, data := Config.busyRead s.draws }, { s with draws := s.draws + 1 })
      else ({ error := false, data := readReg s r }, s) := by
  obtain ⟨hlt, -⟩ := List.getElem?_eq_some_iff.1 hr
  have hk : k < 64 := lt_trans hlt (by decide)
  simp [hostAccess_read_reg s k hk, hr]

theorem mem_runningRegs_command (s : State) (w : Word) (n : Nat) (i : Instr) (r : RegName)
    (he : s.eng = .running w n) (hd : decode w = .command i) :
    r ∈ runningRegs s ↔ r ∈ mayWriteRegs s i ∨ r = .errInfo := by
  simp [runningRegs, he, hd, commandRegs_eq, or_comm]

theorem mem_runningRegs_illegal (s : State) (w : Word) (n : Nat) (x : IllegalWord) (r : RegName)
    (he : s.eng = .running w n) (hd : decode w = .illegal x) : r ∈ runningRegs s ↔ r = .errInfo := by
  simp [runningRegs, he, hd]

theorem runningRanges_command (s : State) (w : Word) (n : Nat) (i : Instr) (he : s.eng = .running w n)
    (hd : decode w = .command i) : runningRanges s = mayWrite s i := by
  simp [runningRanges, he, hd, commandRanges_eq]

theorem runningRanges_illegal (s : State) (w : Word) (n : Nat) (x : IllegalWord) (he : s.eng = .running w n)
    (hd : decode w = .illegal x) : runningRanges s = [] := by
  simp [runningRanges, he, hd]

theorem not_within_nil (a : Nat) : ¬ within [] a := by
  rintro ⟨r, hr, -⟩
  exact absurd hr List.not_mem_nil

/-- Settles O18: a read is a draw or the value, by whether the running word's lists hold its location. -/
theorem readsHaveNoSideEffect : Obligations.ReadsHaveNoSideEffect := by
  refine ⟨hostAccess_read_state, fun s k r he hr => ?_, fun s w n k r i he hd hr => ?_,
    fun s w n off size b i he hd hgood hb hin => ?_, fun s w n k r x he hd hr => ?_,
    fun s w n off size b x he hd hgood hb hin => ?_⟩
  · simp [hostAccess_read_named s k r hr, he]
  · have hmem := mem_runningRegs_command s w n i r he hd
    rw [hostAccess_read_named s k r hr]
    refine ⟨fun hfree => ?_, fun hnot hinfo => ?_⟩
    · rw [if_pos (hmem.2 hfree)]
    · rw [if_neg (hmem.not.2 (not_or.2 ⟨hnot, hinfo⟩))]
  · have hw := accessWindow_of_good _ b hgood hin
    refine ⟨fun hfree => ?_, fun hexact => ?_⟩
    · rw [← runningRanges_command s w n i he hd, ← inRanges_iff] at hfree
      rw [hostAccess_read_buffer s off size b hw hb, if_pos hfree]
    · rw [← runningRanges_command s w n i he hd] at hexact
      exact hostAccess_read_buffer_exact s off size b hw hb hexact
  · have hmem := mem_runningRegs_illegal s w n x r he hd
    rw [hostAccess_read_named s k r hr]
    refine ⟨fun hinfo => ?_, fun hnot => ?_⟩
    · rw [if_pos (hmem.2 hinfo)]
    · rw [if_neg (hmem.not.2 hnot)]
  · refine hostAccess_read_buffer_exact s off size b (accessWindow_of_good _ b hgood hin) hb ?_
    rw [runningRanges_illegal s w n x he hd]
    exact not_within_nil _

end Sys2Proof.Machine
end

section
/-! PROOFS. The byte order of accesses (O15), and what of a write is stored and what is ignored (O16). -/

namespace Sys2Proof.Machine

open Sys2Proof.Safety

/-! ## The bytes of a word -/

theorem wordOf_toNat (b0 b1 b2 b3 : Byte) : (wordOf b0 b1 b2 b3).toNat =
    b0.toNat + 2 ^ 8 * b1.toNat + 2 ^ 16 * b2.toNat + 2 ^ 24 * b3.toNat := by
  simp only [wordOf, toNat_append_eq_add]
  omega

/-- A word of which only the low `k` bytes hold something. -/
theorem wordOf_toNat_lt (k : Nat) (hk : k ≤ 4) (bytes : Nat → Byte) (h : ∀ j, j < 4 → k ≤ j → bytes j = 0) :
    (wordOf (bytes 0) (bytes 1) (bytes 2) (bytes 3)).toNat < 2 ^ (8 * k) := by
  have hzero : ∀ j, j < 4 → k ≤ j → (bytes j).toNat = 0 := fun j hj hkj => by rw [h j hj hkj]; rfl
  have h0 := hzero 0 (by decide)
  have h1 := hzero 1 (by decide)
  have h2 := hzero 2 (by decide)
  have h3 := hzero 3 (by decide)
  rw [wordOf_toNat]
  interval_cases k <;> omega

/-- The low byte of a word is its first one. -/
theorem lowBits_byte_wordOf (b0 b1 b2 b3 : Byte) : lowBits .byte (wordOf b0 b1 b2 b3) = b0.setWidth 32 := by
  apply BitVec.eq_of_toNat_eq
  rw [← sized_eq_lowBits, sized_toNat, wordOf_toNat, BitVec.toNat_setWidth, Size.bytes]
  omega

/-- The low half of a word is its first two bytes, the first least significant. -/
theorem lowBits_half_wordOf (b0 b1 b2 b3 : Byte) : lowBits .half (wordOf b0 b1 b2 b3) = (b1 ++ b0).setWidth 32 := by
  apply BitVec.eq_of_toNat_eq
  rw [← sized_eq_lowBits, sized_toNat, wordOf_toNat, BitVec.toNat_setWidth, toNat_append_eq_add, Size.bytes]
  omega

theorem lowBits_word (v : Word) : lowBits .word v = v := by
  rw [← sized_eq_lowBits, sized_word]

theorem byteOf_toNat (v : Word) (j : Nat) : (byteOf v j).toNat = v.toNat / 2 ^ (8 * j) % 2 ^ 8 := by
  rw [byteOf, BitVec.extractLsb'_toNat, Nat.shiftRight_eq_div_pow]

/-- The word of the low two bytes. -/
theorem wordOf_low_bytes (v : Word) : wordOf (byteOf v 0) (byteOf v 1) 0 0 = v &&& 0xFFFF := by
  apply BitVec.eq_of_toNat_eq
  have hmask : (v &&& 0xFFFF).toNat = v.toNat % 2 ^ 16 := Nat.and_two_pow_sub_one_eq_mod _ 16
  have hzero : (0 : Byte).toNat = 0 := rfl
  rw [wordOf_toNat, byteOf_toNat, byteOf_toNat, hmask, hzero]
  omega

/-! ## Accesses at an offset of a buffer -/

theorem offset_toNat (o : Nat) (b : Window) (h : b.contains o = true) : (BitVec.ofNat 23 o).toNat = o := by
  have hlt : b.base + b.size ≤ 2 ^ 23 := by cases b <;> decide
  have hin := (contains_iff b o).1 h
  rw [BitVec.toNat_ofNat]
  omega

/-- The window of an access at an offset given as a number. -/
theorem accessWindow_at (a : Access) (o : Nat) (b : Window) (hoff : a.off = BitVec.ofNat 23 o)
    (hb : b.contains o = true) (hal : o % a.size.bytes = 0) (hsize : a.size = .word ∨ b.byteWide = true) :
    accessWindow a = some b := by
  have ho : a.off.toNat = o := by rw [hoff, offset_toNat o b hb]
  exact accessWindow_of_contains a b (ho.symm ▸ hal) (ho.symm ▸ hb) hsize

/-- Only the byte windows take accesses of fewer than four bytes (20_memory R102). -/
theorem accessWindow_narrow (a : Access) (b : Window) (hb : b.contains a.off.toNat = true) (hwide : b.byteWide = false)
    (hsize : a.size ≠ .word) : accessWindow a = none := by
  refine Option.eq_none_iff_forall_ne_some.2 fun w hw => ?_
  obtain ⟨-, hin, hs⟩ := accessWindow_some a w hw
  have heq : w = b := Option.some.inj ((windowAt_of_contains w _ hin).symm.trans (windowAt_of_contains b _ hb))
  rw [heq, hwide] at hs
  exact hs.elim hsize nofun

theorem hostAccess_read_buffer_idle (s : State) (o : Nat) (size : Size) (b : Window) (hs : s.eng = .idle)
    (hb : b ≠ .registers) (hin : b.contains o = true) (hal : o % size.bytes = 0)
    (hsize : size = .word ∨ b.byteWide = true) :
    hostAccess s (.read (BitVec.ofNat 23 o) size) = ({ error := false, data := lowBits size (readWord s o) }, s) := by
  have hw : accessWindow (.read (BitVec.ofNat 23 o) size) = some b := accessWindow_at _ o b rfl hin hal hsize
  have hn : ¬ within (runningRanges s) (BitVec.ofNat 23 o).toNat := by
    rw [runningRanges_idle s hs]
    exact not_within_nil _
  rw [hostAccess_read_buffer_exact s _ size b hw hb hn, offset_toNat o b hin]

/-! ## A write to a buffer while idle -/

/-- What a write of `size` at offset `o` leaves of the state (20_memory R104, R106). -/
def hostWrite (s : State) (o : Nat) (size : Size) (v : Word) : State :=
  writeCells s o (o + size.bytes) (writtenCells o size.bytes v)

theorem hostAccess_write_buffer_idle (s : State) (o : Nat) (size : Size) (v : Word) (b : Window) (hs : s.eng = .idle)
    (hb : b ≠ .registers) (hwr : b.hostWritable = true) (hin : b.contains o = true) (hal : o % size.bytes = 0)
    (hsize : size = .word ∨ b.byteWide = true) :
    (hostAccess s (.write (BitVec.ofNat 23 o) size v)).2 = hostWrite s o size v := by
  have hw : accessWindow (.write (BitVec.ofNat 23 o) size v) = some b := accessWindow_at _ o b rfl hin hal hsize
  rw [hostAccess_write s _ size v b hw, performWrite_idle s b _ size v hs hb hwr, offset_toNat o b hin, hostWrite]

theorem hostWrite_sameExcept (s : State) (o : Nat) (size : Size) (v : Word) :
    sameExcept s (hostWrite s o size v) [(o, o + size.bytes)] := by
  intro a ha
  have hout := ha (o, o + size.bytes) List.mem_cons_self
  rw [hostWrite, readByte_hostWrite, if_neg (by omega)]

/-- Of a word element only the bytes that the buffer holds are stored, and the others read 0 (20_memory R106). -/
theorem readByte_hostWrite_at (s : State) (o : Nat) (size : Size) (v : Word) (j : Nat) (hj : j < size.bytes) :
    readByte (hostWrite s o size v) (o + j) = if storedByte (o + j) = true then byteOf v j else 0 := by
  by_cases hst : storedByte (o + j) = true
  · rw [hostWrite, readByte_hostWrite, if_pos ⟨by omega, by omega, hst⟩, if_pos hst, Nat.add_sub_cancel_left]
  · rw [if_neg hst, readByte_not_stored _ _ (Bool.eq_false_iff.2 hst)]

/-- An element's byte is held by its buffer if it is one of the defined bytes. -/
theorem storedByte_offset (b : Window) (o j : Nat) (hin : b.contains o = true) (hal : o % 4 = 0) (hj : j < 4) :
    storedByte (o + j) = decide (j < b.definedBytes) := by
  have hbase := window_base_aligned b
  have hsize := window_size_aligned b
  have hrange := (contains_iff b o).1 hin
  rw [storedByte_of_contains b (o + j) ((contains_iff b _).2 ⟨by omega, by omega⟩), show (o + j) % 4 = j by omega]

/-- LUM holds a byte at every offset (10_state R38). -/
theorem storedByte_lum (a : Nat) (hlo : 0x400000 ≤ a) (hhi : a < 0x800000) : storedByte a = true := by
  rw [storedByte_of_contains .lum a ((contains_iff _ a).2 ⟨hlo, hhi⟩), decide_eq_true_eq]
  exact Nat.mod_lt a (by decide)

/-- The word that a write of a whole element leaves: its defined bytes, 0 above them. -/
theorem readWord_hostWrite (s : State) (o : Nat) (v : Word) (b : Window) (hin : b.contains o = true) (hal : o % 4 = 0) :
    readWord (hostWrite s o .word v) o =
      wordOf (if 0 < b.definedBytes then byteOf v 0 else 0) (if 1 < b.definedBytes then byteOf v 1 else 0)
        (if 2 < b.definedBytes then byteOf v 2 else 0) (if 3 < b.definedBytes then byteOf v 3 else 0) := by
  have hbyte : ∀ j, j < 4 →
      readByte (hostWrite s o .word v) (o + j) = if j < b.definedBytes then byteOf v j else 0 := fun j hj => by
    simp only [readByte_hostWrite_at s o .word v j hj, storedByte_offset b o j hin hal hj, decide_eq_true_eq]
  rw [readWord, hbyte 1 (by decide), hbyte 2 (by decide), hbyte 3 (by decide), ← hbyte 0 (by decide), Nat.add_zero]

/-- Settles O15: a read returns the bytes of `readWord`, a write stores `byteOf` byte by byte. -/
theorem bytesAreLittleEndian : Obligations.BytesAreLittleEndian := by
  refine ⟨fun s o b hs hb hin hal => ?_, fun s o b size ho hout hlum hin hsize => ?_, fun s o hs ho => ?_,
    fun s o size v hs hlo hhi hal => ?_⟩
  · rw [hostAccess_read_buffer_idle s o .word b hs hb hin hal (.inl rfl), lowBits_word]
    rfl
  · refine hostAccess_none s _ (accessWindow_narrow _ b ?_ ?_ hsize)
    · rwa [Access.off, offset_toNat o b hin]
    · rw [Bool.eq_false_iff, Ne, byteWide_iff]
      exact not_or.2 ⟨hout, hlum⟩
  · obtain ⟨b, hb, hwide, hin⟩ : ∃ b : Window, b ≠ .registers ∧ b.byteWide = true ∧ b.contains o = true := by
      rcases ho with ho | ho
      · exact ⟨.lum, by decide, rfl, (contains_iff _ o).2 ho⟩
      · exact ⟨.out, by decide, rfl, (contains_iff _ o).2 ho⟩
    refine ⟨?_, fun heven => ?_⟩
    · rw [hostAccess_read_buffer_idle s o .byte b hs hb hin (Nat.mod_one o) (.inr hwide), readWord,
        lowBits_byte_wordOf]
    · rw [hostAccess_read_buffer_idle s o .half b hs hb hin heven (.inr hwide), readWord, lowBits_half_wordOf]
  · have hin : Window.contains .lum o = true := (contains_iff _ o).2 ⟨hlo, hhi⟩
    intro t
    have ht : t = hostWrite s o size v :=
      hostAccess_write_buffer_idle s o size v .lum hs (by decide) rfl hin hal (.inr rfl)
    rw [ht]
    refine ⟨rfl, hostWrite_sameExcept s o size v, fun j hj => ?_⟩
    have hend : o + size.bytes ≤ 0x800000 := by
      cases size <;> simp only [Size.bytes] at hal ⊢ <;> omega
    have hst : storedByte (o + j) = true := storedByte_lum (o + j) (by omega) (by omega)
    rw [readByte_hostWrite_at s o size v j hj, if_pos hst, byteOf]

/-! ## What is ignored -/

/-- A write to a read-only window changes nothing and is no bus error (20_memory R106). -/
theorem hostAccess_write_readOnly (s : State) (off : Offset) (size : Size) (v : Word) (b : Window)
    (hgood : goodAccess (.write off size v)) (hin : b.contains off.toNat = true) (hb : b ≠ .registers)
    (hro : b.hostWritable = false) : hostAccess s (.write off size v) = ({ error := false, data := 0 }, s) := by
  rw [hostAccess_write s off size v b (accessWindow_of_good _ b hgood hin), performWrite_readOnly s b _ size v hb hro]

theorem writeRegister_readOnly (s : State) (r : RegName) (v : Word) (h : r.writeKind = .readOnly) :
    writeRegister s r v = s := by
  simp [writeRegister, h]

/-- The undefined bytes of an element read 0 (10_state R38, 20_memory R106). -/
theorem readWord_elem_lt (s : State) (b : Window) (i : Nat) (hi : 4 * i + 4 ≤ b.size) :
    (readWord s (b.base + 4 * i)).toNat < 2 ^ (8 * b.definedBytes) := by
  refine wordOf_toNat_lt b.definedBytes (definedBytes_le b) (fun j => readByte s (b.base + 4 * i + j))
    fun j hj hund => ?_
  apply readByte_not_stored
  rw [storedByte_elem b i j hi hj]
  exact decide_eq_false hund.not_gt

/-- No register lies at a reserved offset (10_state R34). -/
theorem regName_reserved (k : Nat) (h : 53 ≤ k) : RegName.all[k]? = none :=
  List.getElem?_eq_none h

/-- The register numbers of the read-only registers of 10_state R34. -/
theorem regName_readOnly (k : Nat) (h : k ∈ [0, 1, 5, 7, 10, 11, 15, 16, 17, 21, 22, 51, 52]) :
    k < 64 ∧ ∃ r, RegName.all[k]? = some r ∧ r.writeKind = .readOnly := by
  have hall : ∀ j ∈ [0, 1, 5, 7, 10, 11, 15, 16, 17, 21, 22, 51, 52],
      j < 64 ∧ (RegName.all[j]?).map RegName.writeKind = some .readOnly := by decide
  obtain ⟨hk, hr⟩ := hall k h
  exact ⟨hk, Option.map_eq_some_iff.1 hr⟩

theorem readWord_hostWrite_codeword (s : State) (o : Nat) (v : Word) (b : Window) (hin : b.contains o = true)
    (hal : o % 4 = 0) (hdef : b.definedBytes = 2) : readWord (hostWrite s o .word v) o = v &&& 0xFFFF := by
  rw [readWord_hostWrite s o v b hin hal, hdef]
  exact wordOf_low_bytes v

theorem readWord_hostWrite_full (s : State) (o : Nat) (v : Word) (b : Window) (hin : b.contains o = true)
    (hal : o % 4 = 0) (hdef : b.definedBytes = 4) : readWord (hostWrite s o .word v) o = v := by
  rw [readWord_hostWrite s o v b hin hal, hdef]
  exact wordOf_bytes v

/-- The windows of word elements that the host may write: CW and ERA of codewords, BM of whole words. -/
theorem exists_writableElement (o : Nat) (h : 0x1000 ≤ o ∧ o < 0x3000 ∨ 0x100000 ≤ o ∧ o < 0x180000) :
    ∃ b : Window, b ≠ .registers ∧ b.hostWritable = true ∧ b.contains o = true ∧
      b.definedBytes = if o < 0x3000 then 2 else 4 := by
  by_cases hcw : o < 0x2000
  · exact ⟨.cw, by decide, rfl, (contains_iff _ o).2 (by simp [Window.base]; omega), by rw [if_pos (by omega)]; rfl⟩
  · by_cases hera : o < 0x3000
    · exact ⟨.era, by decide, rfl, (contains_iff _ o).2 (by simp [Window.base]; omega), by rw [if_pos hera]; rfl⟩
    · exact ⟨.bm, by decide, rfl, (contains_iff _ o).2 (by simp [Window.base]; omega), by rw [if_neg hera]; rfl⟩

/-- Settles O16: reserved and read-only locations have no write, and an element stores and reads its defined bytes. -/
theorem reservedAndReadOnlyAreIgnored : Obligations.ReservedAndReadOnlyAreIgnored := by
  refine ⟨fun s k hlo hhi => ⟨?_, fun v => ?_⟩, fun s v k hk => ?_, fun s off size v hgood hwin => ?_,
    fun s o v hs hal ho => ?_, fun s i => ⟨fun hi => ?_, fun hi => ?_, fun hi => ?_, fun hi => ?_⟩⟩
  · rw [hostAccess_read_reg s k hhi, regName_reserved k hlo]
    rfl
  · rw [hostAccess_write_reg s k v hhi, regName_reserved k hlo]
    rfl
  · obtain ⟨hlt, r, hr, hro⟩ := regName_readOnly k hk
    rw [hostAccess_write_reg s k v hlt, hr, Option.elim_some, writeRegister_readOnly s r v hro]
  · obtain ⟨b, hb, hin⟩ := hwin
    have hkind : ∀ b ∈ [Window.row, .hist, .syn, .eloc, .sigma, .omega, .out, .grid],
        b ≠ .registers ∧ b.hostWritable = false := by decide
    obtain ⟨hreg, hro⟩ := hkind b hb
    exact hostAccess_write_readOnly s off size v b hgood hin hreg hro
  · obtain ⟨b, hreg, hwr, hin, hdef⟩ := exists_writableElement o ho
    intro t
    have ht : t = hostWrite s o .word v :=
      hostAccess_write_buffer_idle s o .word v b hs hreg hwr hin hal (.inl rfl)
    rw [ht]
    refine ⟨rfl, hostWrite_sameExcept s o .word v, ?_⟩
    by_cases hcw : o < 0x3000
    · rw [if_pos hcw] at hdef ⊢
      exact readWord_hostWrite_codeword s o v b hin hal hdef
    · rw [if_neg hcw] at hdef ⊢
      exact readWord_hostWrite_full s o v b hin hal hdef
  · by_cases hcw : i < 1024
    · exact readWord_elem_lt s .cw i (by simp; omega)
    · have hera := readWord_elem_lt s .era (i - 1024) (by simp; omega)
      rwa [show Window.era.base + 4 * (i - 1024) = 0x1000 + 4 * i by simp [Window.base]; omega] at hera
  · exact readWord_elem_lt s .syn i (by simp; omega)
  · exact readWord_elem_lt s .eloc i (by simp; omega)
  · by_cases hsigma : i < 512
    · exact readWord_elem_lt s .sigma i (by simp; omega)
    · have homega := readWord_elem_lt s .omega (i - 512) (by simp; omega)
      rwa [show Window.omega.base + 4 * (i - 512) = 0x4000 + 4 * i by simp [Window.base]; omega] at homega

end Sys2Proof.Machine
end

section
/-! PROOFS. The encoding: the opcode map read both ways (O1, O2), and the words that are no command (O3). -/

namespace Sys2Proof.Machine

open Sys2Proof.Safety

/-! ## The opcode map -/

/-- The opcode map lists each command at its word's number and nowhere else (30_encoding R142). -/
theorem commandOfOpcode_eq_some_iff (n : Nat) (i : Instr) : commandOfOpcode n = some i ↔ n = (encode i).toNat := by
  constructor
  · intro h
    unfold commandOfOpcode at h
    split at h <;> cases h <;> rfl
  · rintro rfl
    cases i <;> rfl

theorem mem_assignedOpcodes_iff (n : Nat) : n ∈ assignedOpcodes ↔ ∃ i, commandOfOpcode n = some i := by
  have hlisted : ∀ n ∈ assignedOpcodes, (commandOfOpcode n).isSome := by decide
  refine ⟨fun h => Option.isSome_iff_exists.1 (hlisted n h), ?_⟩
  rintro ⟨i, hi⟩
  rw [(commandOfOpcode_eq_some_iff n i).1 hi]
  cases i <;> decide

/-! ## The decoder -/

theorem decode_of_rsvd (w : Word) (h : rsvdField w ≠ 0) : decode w = .illegal .reservedBits := by
  rw [decode, if_pos h]

theorem decode_of_opcode (w : Word) (i : Instr) (h : rsvdField w = 0) (hi : commandOfOpcode (opcodeField w) = some i) :
    decode w = .command i := by
  simp [decode, h, hi]

theorem decode_of_reserved (w : Word) (h : rsvdField w = 0) (hn : opcodeField w ∉ assignedOpcodes) :
    decode w = .illegal .reservedOpcode := by
  have hnone : commandOfOpcode (opcodeField w) = none :=
    Option.eq_none_iff_forall_ne_some.2 fun i hi => hn ((mem_assignedOpcodes_iff _).2 ⟨i, hi⟩)
  simp [decode, h, hnone]

/-- A word that decodes to a command has RSVD 0 and the OPCODE of that command. -/
theorem decode_eq_command (w : Word) (i : Instr) (h : decode w = .command i) :
    rsvdField w = 0 ∧ commandOfOpcode (opcodeField w) = some i := by
  by_cases hr : rsvdField w = 0
  · cases hc : commandOfOpcode (opcodeField w) with
    | none => simp [decode, hr, hc] at h
    | some j =>
      rw [decode_of_opcode w j hr hc] at h
      cases h
      exact ⟨hr, rfl⟩
  · rw [decode_of_rsvd w hr] at h
    cases h

/-- With RSVD 0 the word is its OPCODE field, so the encoding is the only word of a command. -/
theorem eq_encode_of_decode (w : Word) (i : Instr) (h : decode w = .command i) : w = encode i := by
  obtain ⟨hr, hc⟩ := decode_eq_command w i h
  have hop := (commandOfOpcode_eq_some_iff _ i).1 hc
  unfold rsvdField at hr
  unfold opcodeField at hop
  exact BitVec.eq_of_toNat_eq (by omega)

theorem wellFormedWord_iff (w : Word) :
    wellFormedWord w = true ↔ rsvdField w = 0 ∧ opcodeField w ∈ assignedOpcodes := by
  simp [wellFormedWord, rsvdField, opcodeField]

/-- Settles O2: a word of RSVD 0 is its OPCODE, and the opcode map is the inverse of the encoder. -/
theorem decodeAndEncodeAgree : Obligations.DecodeAndEncodeAgree := by
  refine ⟨fun i _ => decode_encode i, eq_encode_of_decode, fun w => ?_⟩
  rw [wellFormedWord_iff, mem_assignedOpcodes_iff]
  constructor
  · rintro ⟨hr, i, hi⟩
    exact ⟨i, decode_of_opcode w i hr hi⟩
  · rintro ⟨i, hi⟩
    obtain ⟨hr, hc⟩ := decode_eq_command w i hi
    exact ⟨hr, i, hc⟩

/-- Settles O1: each word of the map is the encoding of its command. -/
theorem commandWordsDecode : Obligations.CommandWordsDecode :=
  ⟨decode_encode .nop, decode_encode .gfAdd, decode_encode .gfMul, decode_encode .gfInv, decode_encode .gfExp,
    decode_encode .gfLog, decode_encode .rsSyndrome, decode_encode .rsDecode, decode_encode .sldCheck,
    decode_encode .binRow, decode_encode .binGlobal, decode_encode .binHybrid, decode_encode .ptSolve,
    decode_encode .ptMap, decode_encode .ptSample, decode_encode .dbsDecode, decode_encode .numB900,
    decode_encode .cwPipeline⟩

/-! ## Words that are no command -/

/-- The completion step of a word that is no command is ILLEGAL with the detail of its reason, whatever the state. -/
theorem completionStep_illegal (s : State) (w : Word) (r : IllegalWord) (h : decode w = .illegal r) :
    completionStep w s = .next (withOutcome s .illegal r.detail 0) := by
  rw [completionStep, h]
  rfl

/-- Settles O3: the decoder looks at RSVD first and then at the opcode map. -/
theorem reservedWordsCompleteIllegal : Obligations.ReservedWordsCompleteIllegal := fun s w =>
  ⟨fun h => completionStep_illegal s w .reservedBits (decode_of_rsvd w h),
    fun h hn => completionStep_illegal s w .reservedOpcode (decode_of_reserved w h hn)⟩

end Sys2Proof.Machine
end

section
/-! PROOFS. The issue of a command and the host's acknowledgement (O12). -/

namespace Sys2Proof.Machine

open Sys2Proof.Safety

/-! ## STATUS.BUSY -/

theorem busy_iff (s : State) : busy s = true ↔ s.eng ≠ .idle := by
  by_cases h : s.eng = .idle <;> simp [h]

/-- Bit 0 of STATUS is BUSY (10_state R34). -/
theorem statusWord_getLsbD_zero (s : State) : (statusWord s).getLsbD 0 = busy s := by
  rw [statusWord, BitVec.getLsbD_append, if_pos (by decide), BitVec.getLsbD_ofBool, decide_eq_true rfl, Bool.true_and]

theorem status_busy_iff (s : State) : (readReg s .status).getLsbD 0 = true ↔ s.eng ≠ .idle := by
  rw [readReg, statusWord_getLsbD_zero, busy_iff]

/-! ## Writes to CMD and STATUS -/

theorem hostAccess_write_cmd (s : State) (w : Word) :
    hostAccess s (.write 0x008 .word w) =
      ({ error := false, data := 0 }, if busy s then dropWrite s else issue w s) :=
  hostAccess_write_reg s 2 w (by decide)

theorem hostAccess_write_status (s : State) (v : Word) :
    hostAccess s (.write 0x00C .word v) = ({ error := false, data := 0 }, { s with regs := ackStatus v s.regs }) :=
  hostAccess_write_reg s 3 v (by decide)

theorem hostAccess_write_cmd_idle (s : State) (w : Word) (h : s.eng = .idle) :
    hostAccess s (.write 0x008 .word w) = ({ error := false, data := 0 }, issue w s) := by
  rw [hostAccess_write_cmd, busy_idle s h, if_neg Bool.false_ne_true]

theorem hostAccess_write_cmd_busy (s : State) (w : Word) (h : s.eng ≠ .idle) :
    hostAccess s (.write 0x008 .word w) = ({ error := false, data := 0 }, dropWrite s) := by
  rw [hostAccess_write_cmd, busy_of_ne_idle s h, if_pos rfl]

/-- The register window takes accesses of four bytes only (20_memory R102). -/
theorem hostAccess_write_cmd_narrow (s : State) (size : Size) (w : Word) (h : size ≠ .word) :
    hostAccess s (.write 0x008 size w) = ({ error := true, data := 0 }, s) :=
  hostAccess_none s _ (accessWindow_narrow _ .registers rfl rfl h)

theorem errInfoWord_issueRegs (w : Word) (r : Regs) : errInfoWord (issueRegs w r) = 0 := by
  apply BitVec.eq_of_toNat_eq
  rw [errInfoWord_toNat]
  rfl

/-- A 1 written clears the flag, a 0 leaves it (60_exceptions R456). -/
theorem and_not_eq_ite (flag one : Bool) : (flag && !one) = if one then false else flag := by
  cases one <;> simp

/-- Settles O12: a CMD write is the issue, the drop or the bus error; a STATUS write is the acknowledgement. -/
theorem cmdWriteIssuesAndStatusWriteAcknowledges : Obligations.CmdWriteIssuesAndStatusWriteAcknowledges := by
  refine ⟨fun s w => ⟨fun h => ?_, hostAccess_write_cmd_busy s w, fun size => hostAccess_write_cmd_narrow s size w⟩,
    fun s v => ?_, fun s w h => ?_, status_busy_iff⟩
  · exact ⟨_, _, hostAccess_write_cmd_idle s w h⟩
  · simp only [hostAccess_write_status, ackStatus, and_not_eq_ite]
  · rw [hostAccess_write_cmd_idle s w h]
    exact ⟨⟨_, rfl⟩, rfl, rfl, rfl, errInfoWord_issueRegs w s.regs, (status_busy_iff _).2 nofun⟩

end Sys2Proof.Machine
end

section
/-! PROOFS. Which errors the fallible parts of the commands raise: one code for each part, never OK. -/

namespace Sys2Proof.Machine

/-- If the result is an error, its code is `c`. -/
def RaisesOnly {α : Type} (c : ErrCode) (x : Except CmdError α) : Prop := ∀ e, x = .error e → e.code = c

namespace RaisesOnly

variable {α β : Type} {c : ErrCode} {e : CmdError}

theorem ok (a : α) : RaisesOnly c (.ok a) := nofun

theorem error (h : e.code = c) : RaisesOnly c (.error e : Except CmdError α) := by
  rintro _ ⟨⟩
  exact h

/-- An error handed on by a caller. -/
theorem handOn {x : Except CmdError α} (h : RaisesOnly c x) (hx : x = .error e) :
    RaisesOnly c (.error e : Except CmdError β) :=
  error (h e hx)

theorem mapE {f : α → Except CmdError β} (h : ∀ a, RaisesOnly c (f a)) (as : List α) :
    RaisesOnly c (Machine.mapE f as) := by
  intro e he
  obtain ⟨a, -, ha⟩ := mapE_error f as e he
  exact h a e ha

end RaisesOnly

/-! ## The Reed-Solomon unit -/

theorem blockCheck_some (len : Nat) (block : List Nat) (e : CmdError) (h : blockCheck len block = some e) :
    e.code = .argument := by
  unfold blockCheck at h
  split_ifs at h
  · cases h; rfl
  · obtain ⟨i, -, rfl⟩ := Option.map_eq_some_iff.1 h
    rfl

theorem decodeCheck_some (len n era : Nat) (block : List Nat) (e : CmdError)
    (h : decodeCheck len n era block = some e) : e.code = .argument ∨ e.code = .checksum := by
  unfold decodeCheck at h
  split at h
  · cases h
    exact .inl (blockCheck_some len block _ ‹_›)
  · split_ifs at h <;> cases h
    · exact .inl rfl
    · exact .inr rfl
    · exact .inr rfl

theorem euclidLoop_raisesChecksum (n fuel : Nat) (rLast r tLast t : Poly) :
    RaisesOnly .checksum (euclidLoop n fuel rLast r tLast t) := by
  induction fuel generalizing rLast r tLast t with
  | zero => exact .error rfl
  | succ fuel ih =>
    unfold euclidLoop
    split_ifs
    · exact .error rfl
    · exact ih _ _ _ _
    · exact .ok _

theorem euclid_raisesChecksum (n : Nat) (sx : Poly) : RaisesOnly .checksum (euclid n sx) := by
  unfold euclid
  dsimp only
  split_ifs <;> exact euclidLoop_raisesChecksum _ _ _ _ _ _

theorem normalise_raisesChecksum (r t : Poly) : RaisesOnly .checksum (normalise r t) := by
  unfold normalise
  dsimp only
  split_ifs
  · exact .error rfl
  · exact .ok _

theorem chien_raisesChecksum (sigma : Poly) : RaisesOnly .checksum (chien sigma) := by
  unfold chien
  dsimp only
  split_ifs
  · exact .ok _
  · exact .ok _
  · exact .error rfl

theorem forneyAt_raisesChecksum (omega : Poly) (xs : List Gf) (i : Nat) :
    RaisesOnly .checksum (forneyAt omega xs i) := by
  unfold forneyAt
  dsimp only
  split_ifs
  · exact .error rfl
  · exact .ok _
  · exact .ok _

theorem positionOf_raisesChecksum (len : Nat) (x : Gf) : RaisesOnly .checksum (positionOf len x) := by
  unfold positionOf
  dsimp only
  split_ifs
  · exact .ok _
  · exact .error rfl

/-- Every failure of the decoding steps is a CHECKSUM failure (41_reed_solomon R233 to R239). -/
theorem decodeBlock_raisesChecksum (block : List Gf) (n : Nat) (syn : List Gf) :
    RaisesOnly .checksum (decodeBlock block n syn) := by
  unfold decodeBlock
  split
  · exact (euclid_raisesChecksum n _).handOn ‹_›
  split
  · exact (normalise_raisesChecksum _ _).handOn ‹_›
  split
  · exact (chien_raisesChecksum _).handOn ‹_›
  split
  · exact (RaisesOnly.mapE (forneyAt_raisesChecksum _ _) _).handOn ‹_›
  split
  · exact (RaisesOnly.mapE (positionOf_raisesChecksum _) _).handOn ‹_›
  dsimp only
  split_ifs
  · exact .ok _
  · exact .error rfl

/-! ## The binarizer and the sampler -/

theorem estimate_raisesNotFound (hist : List Nat) : RaisesOnly .notFound (estimate hist) := by
  unfold estimate
  dsimp only
  split_ifs
  · exact .error rfl
  · exact .ok _

theorem toPixel_raisesNotFound (y : Nat) (p : Point) : RaisesOnly .notFound (toPixel y p) := by
  unfold toPixel
  split
  · exact .ok _
  · exact .error rfl

theorem checkPoint_raisesNotFound (w h y : Nat) (p : Point) : RaisesOnly .notFound (checkPoint w h y p) := by
  unfold checkPoint
  split
  · exact (toPixel_raisesNotFound y p).handOn ‹_›
  · dsimp only
    split_ifs
    · exact .error rfl
    · exact .ok _

theorem nudgeFrom_raisesNotFound (w h y : Nat) (ps : List Point) : RaisesOnly .notFound (nudgeFrom w h y ps) := by
  induction ps with
  | nil => exact .ok _
  | cons p ps ih =>
    unfold nudgeFrom
    split
    · exact (checkPoint_raisesNotFound w h y p).handOn ‹_›
    · split_ifs
      · split
        · exact ih.handOn ‹_›
        · exact .ok _
      · exact .ok _

theorem nudge_raisesNotFound (w h y : Nat) (ps : List Point) : RaisesOnly .notFound (nudge w h y ps) := by
  unfold nudge
  split
  · exact (nudgeFrom_raisesNotFound w h y _).handOn ‹_›
  · split
    · exact (nudgeFrom_raisesNotFound w h y _).handOn ‹_›
    · exact .ok _

theorem sampleBit_raisesNotFound (s : State) (w h y : Nat) (p : Point) :
    RaisesOnly .notFound (sampleBit s w h y p) := by
  unfold sampleBit
  split
  · exact (toPixel_raisesNotFound y p).handOn ‹_›
  · split_ifs
    · exact .ok _
    · exact .error rfl

theorem sampleRow_raisesNotFound (s : State) (w h dim y : Nat) : RaisesOnly .notFound (sampleRow s w h dim y) := by
  unfold sampleRow
  split
  · exact (nudge_raisesNotFound w h y _).handOn ‹_›
  · exact .mapE (sampleBit_raisesNotFound s w h y) _

/-- Every failure of the sampling is a NOT_FOUND failure (43_perspective R345). -/
theorem sampleGrid_raisesNotFound (s : State) (w h dim : Nat) : RaisesOnly .notFound (sampleGrid s w h dim) :=
  .mapE (sampleRow_raisesNotFound s w h dim) _

/-! ## The parser -/

theorem emit_raisesFormat (p : Parser) (b : Byte) (i : Nat) : RaisesOnly .format (emit p b i) := by
  unfold emit
  split_ifs
  · exact .ok _
  · exact .error rfl

theorem emitAll_raisesFormat (p : Parser) (i : Nat) (bs : List Byte) : RaisesOnly .format (emitAll p i bs) := by
  induction bs generalizing p with
  | nil => exact .ok _
  | cons b bs ih =>
    unfold emitAll
    split
    · exact (emit_raisesFormat p b i).handOn ‹_›
    · exact ih _

theorem emitGroup_raisesFormat (p : Parser) (gs : List (Nat × Nat)) : RaisesOnly .format (emitGroup p gs) := by
  induction gs generalizing p with
  | nil => exact .ok _
  | cons g gs ih =>
    unfold emitGroup
    split
    · exact (emit_raisesFormat p _ _).handOn ‹_›
    · exact ih _

theorem textValue_raisesFormat (p : Parser) (h ci : Nat) : RaisesOnly .format (textValue p h ci) := by
  unfold textValue
  split
  · dsimp only
    split
    · exact emit_raisesFormat _ _ _
    · exact .ok _
  · dsimp only
    split_ifs
    · exact emit_raisesFormat _ _ _
    · exact emit_raisesFormat _ _ _
    · exact .ok _
  · split
    · exact emit_raisesFormat _ _ _
    · exact .ok _
    · exact .ok _

theorem textPair_raisesFormat (p : Parser) (c ci : Nat) : RaisesOnly .format (textPair p c ci) := by
  unfold textPair
  split
  · exact (textValue_raisesFormat p _ _).handOn ‹_›
  · exact textValue_raisesFormat _ _ _

theorem textCodeword_raisesFormat (p : Parser) (c ci : Nat) : RaisesOnly .format (textCodeword p c ci) := by
  unfold textCodeword
  split_ifs
  · exact textPair_raisesFormat p c ci
  · exact .ok _
  · exact .ok _

theorem convertGroup_raisesFormat (p : Parser) (i : Nat) : RaisesOnly .format (convertGroup p i) := by
  unfold convertGroup
  dsimp only
  split_ifs
  · exact .error rfl
  · exact emitAll_raisesFormat _ _ _

theorem flushBytes_raisesFormat (p : Parser) : RaisesOnly .format (flushBytes p) := by
  unfold flushBytes
  split
  · exact .error rfl
  · exact emitGroup_raisesFormat _ _

theorem byteCodeword_raisesFormat (p : Parser) (c ci : Nat) : RaisesOnly .format (byteCodeword p c ci) := by
  unfold byteCodeword
  dsimp only
  split_ifs
  · exact convertGroup_raisesFormat _ _
  · exact .ok _
  · split
    · exact (flushBytes_raisesFormat p).handOn ‹_›
    · exact .ok _
  · exact .ok _

theorem flushNumeric_raisesFormat (p : Parser) : RaisesOnly .format (flushNumeric p) := by
  unfold flushNumeric
  split
  · exact .ok _
  · split
    · exact emitAll_raisesFormat _ _ _
    · exact .error rfl

theorem numericCodeword_raisesFormat (p : Parser) (c ci : Nat) : RaisesOnly .format (numericCodeword p c ci) := by
  unfold numericCodeword
  dsimp only
  split_ifs
  · exact flushNumeric_raisesFormat _
  · exact .ok _
  · split
    · exact (flushNumeric_raisesFormat p).handOn ‹_›
    · exact .ok _
  · exact .ok _

theorem codeword_raisesFormat (p : Parser) (c ci : Nat) : RaisesOnly .format (codeword p c ci) := by
  unfold codeword
  split
  · exact textCodeword_raisesFormat p c ci
  · exact byteCodeword_raisesFormat p c ci
  · exact numericCodeword_raisesFormat p c ci

theorem shiftedByte_raisesFormat (p : Parser) (b bi : Nat) : RaisesOnly .format (shiftedByte p b bi) := by
  unfold shiftedByte
  split_ifs
  · exact .error rfl
  · exact emit_raisesFormat _ _ _

theorem endOfStream_raisesFormat (p : Parser) : RaisesOnly .format (endOfStream p) := by
  unfold endOfStream
  split
  · exact .ok _
  · exact flushBytes_raisesFormat p
  · exact flushNumeric_raisesFormat p

/-- Every failure of the parser is a FORMAT failure (44_bitstream R390). -/
theorem mainLoop_raisesFormat (p : Parser) (k : Nat) (cs : List Nat) : RaisesOnly .format (mainLoop p k cs) := by
  fun_induction mainLoop p k cs with
  | case1 p k => exact endOfStream_raisesFormat p
  | case2 p k c hshift => exact .error rfl
  | case3 p k c hshift e he => exact (codeword_raisesFormat p c k).handOn he
  | case4 p k c hshift q hq => exact endOfStream_raisesFormat q
  | case5 p k c b rest hshift e he => exact (shiftedByte_raisesFormat p b _).handOn he
  | case6 p k c b rest hshift q hq ih => exact ih
  | case7 p k c b rest hshift e he => exact (codeword_raisesFormat p c k).handOn he
  | case8 p k c b rest hshift q hq ih => exact ih

theorem streamCheck_some (len sld : Nat) (data : List Nat) (e : CmdError) (h : streamCheck len sld data = some e) :
    e.code = .argument ∨ e.code = .format := by
  unfold streamCheck at h
  split at h
  · cases h; exact .inl rfl
  split at h
  · cases h; exact .inr rfl
  split at h
  · cases h; exact .inr rfl
  · split_ifs at h
    cases h
    exact .inr rfl

end Sys2Proof.Machine
end

section
/-! PROOFS. Every step keeps what the result registers and STATUS hold (O10): the commands body by body, the port access
by access. -/

namespace Sys2Proof.Machine

open Sys2Proof.Safety

/-! ## The values of the result registers -/

theorem chienScan_length_le (sigma : Poly) (is : List Nat) (n : Nat) : (chienScan sigma is n).length ≤ is.length := by
  fun_induction chienScan sigma is n with
  | case1 | case2 => simp
  | case3 i is n x hroot ih => simpa using ih
  | case4 i is n x hroot ih => exact ih.trans (by simp)

/-- The Chien search answers as many locations as the degree of sigma, and it looks at 255 elements (41_reed_solomon
R236). -/
theorem chien_ok (sigma : Poly) (xs : List Gf) (h : chien sigma = .ok xs) :
    xs.length = polyDeg sigma ∧ xs.length ≤ 255 := by
  unfold chien at h
  dsimp only at h
  split_ifs at h with hone hfound
  · cases h
    exact ⟨hone.symm, Nat.succ_le_succ (Nat.zero_le 254)⟩
  · cases h
    exact ⟨hfound, by simpa using chienScan_length_le sigma ((List.range 255).map (fun i => i + 1)) (polyDeg sigma)⟩

/-- A decoding that succeeds went through all its stages (41_reed_solomon R233 to R239). -/
theorem decodeBlock_ok (block : List Gf) (n : Nat) (syn : List Gf) (c : Correction)
    (h : decodeBlock block n syn = .ok c) :
    ∃ r t xs ys ps, euclid n (syndromePoly syn) = .ok (r, t) ∧ normalise r t = .ok (c.sigma, c.omega) ∧
      chien c.sigma = .ok xs ∧ forney c.omega xs = .ok ys ∧ positions block.length xs = .ok ps ∧
      c.pairs = ps.zip ys ∧ c.block = correct block c.pairs ∧ allZero (syndromes c.block n) = true := by
  unfold decodeBlock at h
  split at h
  · cases h
  split at h
  · cases h
  split at h
  · cases h
  split at h
  · cases h
  split at h
  · cases h
  dsimp only at h
  split_ifs at h with hzero
  cases h
  exact ⟨_, _, _, _, _, ‹_›, ‹_›, ‹_›, ‹_›, ‹_›, rfl, rfl, hzero⟩

/-- There are as many corrections as the degree of sigma (41_reed_solomon R240). -/
theorem decodeBlock_ok_counts (block : List Gf) (n : Nat) (syn : List Gf) (c : Correction)
    (h : decodeBlock block n syn = .ok c) : c.pairs.length = polyDeg c.sigma ∧ c.pairs.length ≤ 255 := by
  obtain ⟨r, t, xs, ys, ps, -, -, hxs, hys, hps, hpairs, -, -⟩ := decodeBlock_ok block n syn c h
  obtain ⟨hdeg, hle⟩ := chien_ok c.sigma xs hxs
  obtain ⟨hylen, -⟩ := mapE_ok _ _ ys hys
  obtain ⟨hplen, -⟩ := mapE_ok _ _ ps hps
  have hlen : c.pairs.length = xs.length := by
    rw [hpairs, List.length_zip, hplen, hylen, List.length_range, min_self]
  exact ⟨hlen.trans hdeg, hlen.trans_le hle⟩

/-- The black point is a bucket index times 8 (42_binarizer R273). -/
theorem estimate_ok (hist : List Nat) (bp : Nat) (h : estimate hist = .ok bp) : bp % 8 = 0 := by
  unfold estimate at h
  dsimp only at h
  split_ifs at h
  cases h
  rw [Nat.shiftLeft_eq]
  exact Nat.mul_mod_left _ _

/-! ## What a command's body leaves -/

/-- The result registers that `ResultInv` speaks of, in their ranges. -/
structure ResultRanges (r : Regs) : Prop where
  out_len : r.outLen.toNat ≤ 4096
  nerr_deg : r.rsNerr = r.rsDeg ∧ r.rsNerr.toNat ≤ 255
  black_point : r.blackPt.toNat % 8 = 0 ∧ r.blackPt.toNat ≤ 248

/-- What a command's body did keeps the result registers in their ranges, and an error it raised has an error code. -/
structure SoundBody (r : BodyResult) : Prop where
  ranges : ResultRanges r.1.regs
  code : ∀ e, r.2 = some e → e.code ≠ .ok

namespace SoundBody

variable {s : State} {e : CmdError}

theorem done (h : ResultRanges s.regs) : SoundBody (s, none) := ⟨h, nofun⟩

theorem raised (h : ResultRanges s.regs) (he : e.code ≠ .ok) : SoundBody (s, some e) := by
  refine ⟨h, ?_⟩
  rintro _ ⟨⟩
  exact he

/-- An error that a fallible part of the body raised. -/
theorem raisedBy {α : Type} {x : Except CmdError α} {c : ErrCode} (h : ResultRanges s.regs) (hx : x = .error e)
    (hc : RaisesOnly c x) (hok : c ≠ .ok) : SoundBody (s, some e) :=
  raised h (hc e hx ▸ hok)

theorem thenStage {r : BodyResult} {stage : State → BodyResult} (h : SoundBody r)
    (k : ∀ u : State, ResultRanges u.regs → SoundBody (stage u)) : SoundBody (Machine.thenStage r stage) := by
  unfold Machine.thenStage
  split
  · exact raised h.ranges (h.code _ ‹_›)
  · exact k r.1 h.ranges

end SoundBody

theorem ResultRanges.setBlackPt {r : Regs} (h : ResultRanges r) (bp : Nat) (hbp : bp % 8 = 0) :
    ResultRanges { r with blackPt := BitVec.ofNat 8 bp } :=
  { h with
    black_point := by
      rw [BitVec.toNat_ofNat]
      omega }

theorem ResultRanges.setDecodeCounts {r : Regs} (h : ResultRanges r) (n d : Nat) (hnd : n = d) (hn : n ≤ 255) :
    ResultRanges { r with rsNerr := BitVec.ofNat 9 n, rsDeg := BitVec.ofNat 9 d } :=
  { h with
    nerr_deg := by
      refine ⟨by rw [hnd], ?_⟩
      rw [BitVec.toNat_ofNat]
      omega }

theorem ResultRanges.setOutLen {r : Regs} (h : ResultRanges r) (n : Nat) (hn : n ≤ 4096) :
    ResultRanges { r with outLen := BitVec.ofNat 13 n } :=
  { h with
    out_len := by
      rw [BitVec.toNat_ofNat]
      omega }

/-! ## The binarizer and the sampler -/

theorem binRowBody_sound (s : State) (h : ResultRanges s.regs) : SoundBody (binRowBody s) := by
  unfold binRowBody
  dsimp only
  split_ifs
  · exact .raised h nofun
  · exact .raised h nofun
  · split
    · exact .raisedBy h ‹_› (estimate_raisesNotFound _) nofun
    · exact .done (h.setBlackPt _ (estimate_ok _ _ ‹_›))

theorem binGlobalBody_sound (s : State) (h : ResultRanges s.regs) : SoundBody (binGlobalBody s) := by
  unfold binGlobalBody
  dsimp only
  split_ifs
  · exact .raised h nofun
  · split
    · exact .raisedBy h ‹_› (estimate_raisesNotFound _) nofun
    · have hbp := h.setBlackPt _ (estimate_ok _ _ ‹_›)
      exact .done { hbp with }

theorem binHybridBody_sound (s : State) (h : ResultRanges s.regs) : SoundBody (binHybridBody s) := by
  unfold binHybridBody
  dsimp only
  split_ifs
  · exact .raised h nofun
  · exact binGlobalBody_sound s h
  · exact .done { h with }

theorem ptSampleBody_sound (s : State) (h : ResultRanges s.regs) : SoundBody (ptSampleBody s) := by
  unfold ptSampleBody
  dsimp only
  split_ifs
  · exact .raised h nofun
  · exact .raised h nofun
  · split
    · exact .raisedBy h ‹_› (sampleGrid_raisesNotFound _ _ _ _) nofun
    · exact .done h

/-! ## The Reed-Solomon unit -/

theorem rsSyndromeBody_sound (s : State) (h : ResultRanges s.regs) : SoundBody (rsSyndromeBody s) := by
  unfold rsSyndromeBody
  dsimp only
  split
  · rename_i e he
    exact .raised h (blockCheck_some _ _ e he ▸ nofun)
  · split_ifs
    · exact .raised h nofun
    · exact .done { h with }

theorem rsDecodeBody_sound (s : State) (h : ResultRanges s.regs) : SoundBody (rsDecodeBody s) := by
  unfold rsDecodeBody
  dsimp only
  split
  · rename_i e he
    refine .raised h ?_
    rcases decodeCheck_some _ _ _ _ e he with hc | hc <;> exact hc ▸ nofun
  · have hsyn (syn : List Gf) : ResultRanges (writeSyndromes s syn).regs := { h with }
    split_ifs
    · exact .done ((hsyn _).setDecodeCounts 0 0 rfl (by decide))
    · split
      · exact .raisedBy ((hsyn _).setDecodeCounts 0 0 rfl (by decide)) ‹_› (decodeBlock_raisesChecksum _ _ _) nofun
      · obtain ⟨hdeg, hle⟩ := decodeBlock_ok_counts _ _ _ _ ‹_›
        exact .done ((hsyn _).setDecodeCounts _ _ hdeg hle)

theorem sldCheckBody_sound (s : State) (h : ResultRanges s.regs) : SoundBody (sldCheckBody s) := by
  unfold sldCheckBody
  dsimp only
  split_ifs
  · exact .raised h nofun
  · exact .raised h nofun
  · exact .raised h nofun
  · exact .done h
  · exact .raised h nofun
  · exact .done h

/-! ## The parser commands and the pipeline -/

theorem outError_sound (s : State) (e : CmdError) (h : ResultRanges s.regs) (he : e.code ≠ .ok) :
    SoundBody (outError s e) := by
  unfold outError
  split_ifs
  · exact .raised h he
  · exact .raised (h.setOutLen 0 (by decide)) he

theorem writeOut_sound (s : State) (p : Parser) (h : ResultRanges s.regs) (hp : OutFits p) :
    SoundBody (writeOut s p.out, none) :=
  .done (h.setOutLen _ hp)

theorem dbsDecodeBody_sound (s : State) (h : ResultRanges s.regs) : SoundBody (dbsDecodeBody s) := by
  unfold dbsDecodeBody
  dsimp only
  split
  · rename_i e he
    refine outError_sound s e h ?_
    rcases streamCheck_some _ _ _ e he with hc | hc <;> exact hc ▸ nofun
  · split
    · rename_i e he
      exact outError_sound s e h (mainLoop_raisesFormat _ _ _ e he ▸ nofun)
    · exact writeOut_sound s _ h (mainLoop_outFits (start_outFits []) ‹_›)

theorem numB900Body_sound (s : State) (h : ResultRanges s.regs) : SoundBody (numB900Body s) := by
  unfold numB900Body
  dsimp only
  split_ifs
  · exact outError_sound s _ h nofun
  · split
    · exact outError_sound s _ h nofun
    · split
      · rename_i e he
        exact outError_sound s e h (flushNumeric_raisesFormat _ e he ▸ nofun)
      · exact writeOut_sound s _ h (flushNumeric_outFits (start_outFits _) ‹_›)

theorem cwPipelineBody_sound (s : State) (h : ResultRanges s.regs) : SoundBody (cwPipelineBody s) :=
  ((rsDecodeBody_sound s h).thenStage sldCheckBody_sound).thenStage dbsDecodeBody_sound

/-! ## Every command -/

theorem setGfR_sound (s : State) (v : Gf) (h : ResultRanges s.regs) : SoundBody (setGfR s v, none) :=
  .done { h with }

/-- Every command is the completion step of a sound body. -/
theorem exec_sound (i : Instr) (s : State) (h : ResultRanges s.regs) :
    ∃ r : BodyResult, exec i s = finish r ∧ SoundBody r := by
  cases i with
  | nop => exact ⟨_, rfl, .done h⟩
  | gfAdd | gfMul | gfExp => exact ⟨_, rfl, setGfR_sound s _ h⟩
  | gfInv | gfLog =>
    refine ⟨_, rfl, ?_⟩
    split
    · exact setGfR_sound s _ h
    · exact .raised h nofun
  | rsSyndrome => exact ⟨_, rfl, rsSyndromeBody_sound s h⟩
  | rsDecode => exact ⟨_, rfl, rsDecodeBody_sound s h⟩
  | sldCheck => exact ⟨_, rfl, sldCheckBody_sound s h⟩
  | binRow => exact ⟨_, rfl, binRowBody_sound s h⟩
  | binGlobal => exact ⟨_, rfl, binGlobalBody_sound s h⟩
  | binHybrid => exact ⟨_, rfl, binHybridBody_sound s h⟩
  | ptSolve | ptMap => exact ⟨_, rfl, .done { h with }⟩
  | ptSample => exact ⟨_, rfl, ptSampleBody_sound s h⟩
  | dbsDecode => exact ⟨_, rfl, dbsDecodeBody_sound s h⟩
  | numB900 => exact ⟨_, rfl, numB900Body_sound s h⟩
  | cwPipeline => exact ⟨_, rfl, cwPipelineBody_sound s h⟩

/-- The completion step of any word is that of a sound body: a word that is no command raises ILLEGAL. -/
theorem completionStep_sound (w : Word) (s : State) (h : ResultRanges s.regs) :
    ∃ r : BodyResult, completionStep w s = finish r ∧ SoundBody r := by
  unfold completionStep
  split
  · exact exec_sound _ s h
  · exact ⟨_, rfl, .raised h nofun⟩

/-! ## The invariant -/

theorem ResultRanges.of_resultInv {s : State} (h : ResultInv s) : ResultRanges s.regs := { h with }

/-- The completion of a sound body: ERR stands with the error's code, and without an error ERRINFO is 0. -/
theorem SoundBody.resultInv {r : BodyResult} (h : SoundBody r) : ResultInv (endCommand r.1 r.2) := by
  obtain ⟨u, e⟩ := r
  have hu := h.ranges
  cases e with
  | none => exact { hu with err_code := nofun, ok_info := fun _ => ⟨rfl, rfl⟩, running := nofun }
  | some e =>
    have he := h.code e rfl
    exact { hu with err_code := fun _ => he, ok_info := fun hok => absurd hok he, running := nofun }

theorem resultInv_issue (w : Word) (s : State) (h : ResultInv s) : ResultInv (issue w s) :=
  { h with
    err_code := nofun
    ok_info := fun _ => ⟨rfl, rfl⟩
    running := by
      rintro _ _ ⟨⟩
      exact ⟨rfl, rfl, rfl, rfl⟩ }

/-- An acknowledgement only clears flags. -/
theorem resultInv_ackStatus (v : Word) (s : State) (h : ResultInv s) :
    ResultInv { s with regs := ackStatus v s.regs } :=
  { h with
    err_code := fun herr => h.err_code (Bool.and_elim_left herr)
    running := fun w left he => by
      obtain ⟨hcmd, hdone, herr, hcode⟩ := h.running w left he
      exact ⟨hcmd, by simp [ackStatus, hdone], by simp [ackStatus, herr], hcode⟩ }

/-- The RW registers are none of those that `ResultInv` speaks of. -/
theorem resultInv_writeRwReg (v : Word) (r : RegName) (s : State) (h : ResultInv s) :
    ResultInv { s with regs := writeRwReg v s.regs r } := by
  cases r <;> exact { h with }

theorem resultInv_dropWrite (s : State) (h : ResultInv s) : ResultInv (dropWrite s) := { h with }

theorem resultInv_softReset (s : State) : ResultInv (softReset s) := { resetMeetsTheInvariants.2 with }

theorem resultInv_powerOnReset (s : State) : ResultInv (powerOnReset s) := { resetMeetsTheInvariants.2 with }

theorem resultInv_writeRegister (s : State) (r : RegName) (v : Word) (h : ResultInv s) :
    ResultInv (writeRegister s r v) := by
  unfold writeRegister
  split
  · exact h
  · split_ifs
    · exact resultInv_dropWrite s h
    · exact resultInv_writeRwReg v r s h
  · split_ifs
    · exact resultInv_dropWrite s h
    · exact resultInv_issue v s h
  · split
    · exact resultInv_ackStatus v s h
    · exact { h with }
    · split_ifs
      · exact resultInv_softReset s
      · exact h
    · exact h

theorem resultInv_performWrite (s : State) (w : Window) (off : Nat) (size : Size) (v : Word) (h : ResultInv s) :
    ResultInv (performWrite s w off size v) := by
  unfold performWrite
  split
  · split
    · exact resultInv_writeRegister s _ v h
    · exact h
  · split_ifs
    · exact resultInv_dropWrite s h
    · exact { h with }
    · exact h

theorem resultInv_hostAccess (s : State) (a : Access) (h : ResultInv s) : ResultInv (hostAccess s a).2 := by
  cases a with
  | read off size =>
    obtain ⟨n, hn, -⟩ := hostAccess_read_state s off size
    rw [hn]
    exact { h with }
  | write off size v =>
    cases hw : accessWindow (.write off size v) with
    | none => rwa [hostAccess_none s _ hw]
    | some w =>
      rw [hostAccess_write s off size v w hw]
      exact resultInv_performWrite s w _ size v h

/-- The countdown of a running command is no part of the invariant. -/
theorem resultInv_countdown (s : State) (w : Word) (n : Nat) (h : ResultInv s) (he : s.eng = .running w (n + 1)) :
    ResultInv { s with eng := .running w n } :=
  { h with
    running := by
      rintro _ _ ⟨⟩
      exact h.running w (n + 1) he }

/-- Settles O10: a step is the completion of a sound body, an access, a power-on reset or nothing, and each keeps the
invariant. -/
theorem stepKeepsTheResultRegisters : Obligations.StepKeepsTheResultRegisters := by
  intro s t hs h
  rcases step_cases s t h with ⟨w, -, hw⟩ | ⟨u, hu, hport⟩
  · obtain ⟨r, hfinish, hr⟩ := completionStep_sound w s (.of_resultInv hs)
    rw [hfinish] at hw
    cases hw
    exact hr.resultInv
  · have hui : ResultInv u := by
      rcases hu with ⟨rfl, -⟩ | ⟨w, n, he, rfl⟩
      · exact hs
      · exact resultInv_countdown s w n hs he
    rcases hport with ⟨-, rfl⟩ | ⟨rest, ⟨-, rfl⟩ | ⟨-, rfl⟩ | ⟨a, -, -, rfl⟩⟩
    · exact hui
    · exact { hui with }
    · exact resultInv_powerOnReset _
    · have hin : ResultInv { u with inputs := rest } := { hui with }
      exact { resultInv_hostAccess _ a hin with }

end Sys2Proof.Machine
end

section
/-! PROOFS. The field GF(256): the tables are the powers of alpha and their exponents, multiplication by alpha is linear,
and so the arithmetic by the tables satisfies the field laws (O26). The GF commands (O23 to O25) follow. -/

namespace Sys2Proof.Machine

open Sys2Proof.Safety

/-! ## Multiplication by alpha -/

/-- The product with alpha: shift left, reduce by 0x11D where a bit falls out (40_gf256 R180). -/
def mulAlpha (x : Gf) : Gf := (x <<< 1) ^^^ (if x.msb then 0x1D else 0)

theorem mulAlpha_xor (x y : Gf) : mulAlpha (x ^^^ y) = mulAlpha x ^^^ mulAlpha y := by
  have hmask : (if (x ^^^ y).msb then (0x1D : Gf) else 0) =
      (if x.msb then 0x1D else 0) ^^^ (if y.msb then 0x1D else 0) := by
    rw [BitVec.msb_xor]
    cases x.msb <;> cases y.msb <;> rfl
  simp only [mulAlpha, BitVec.shiftLeft_xor_distrib, hmask]
  ac_rfl

theorem mulAlpha_zero : mulAlpha 0 = 0 := rfl

theorem iterate_mulAlpha_xor (n : Nat) (x y : Gf) : mulAlpha^[n] (x ^^^ y) = mulAlpha^[n] x ^^^ mulAlpha^[n] y :=
  Function.Semiconj₂.iterate mulAlpha_xor n x y

theorem iterate_mulAlpha_zero (n : Nat) : mulAlpha^[n] 0 = 0 := Function.iterate_fixed mulAlpha_zero n

/-! ## The powers of alpha -/

theorem alphaTo_succ (n : Nat) : alphaTo (n + 1) = expStep (alphaTo n) := by
  rw [alphaTo, expStep, Nat.shiftLeft_eq, pow_one, mul_comm]
  split_ifs
  · omega
  · rfl
  · rfl
  · omega

theorem alphaTo_eq_iterate (n : Nat) : alphaTo n = expStep^[n] 1 := by
  induction n with
  | zero => rfl
  | succ n ih => rw [alphaTo_succ, ih, Function.iterate_succ_apply']

/-- The step of the table is the product with alpha. -/
theorem expStep_toNat : ∀ x : Gf, expStep x.toNat = (mulAlpha x).toNat := by decide +kernel

theorem alphaTo_eq_toNat (n : Nat) : alphaTo n = (mulAlpha^[n] 1).toNat := by
  induction n with
  | zero => rfl
  | succ n ih => rw [alphaTo_succ, ih, expStep_toNat, Function.iterate_succ_apply']

theorem alphaTo_lt (n : Nat) : alphaTo n < 256 := by
  rw [alphaTo_eq_toNat]
  exact BitVec.isLt _

theorem alphaElem_eq_iterate (n : Nat) : alphaElem n = mulAlpha^[n] 1 := by
  rw [alphaElem, alphaTo_eq_toNat, BitVec.ofNat_toNat, BitVec.setWidth_eq]

theorem alphaElem_zero : alphaElem 0 = 1 := rfl

theorem iterate_mulAlpha_alphaElem (m n : Nat) : mulAlpha^[m] (alphaElem n) = alphaElem (m + n) := by
  rw [alphaElem_eq_iterate, alphaElem_eq_iterate, Function.iterate_add_apply]

/-- alpha has order 255 (40_gf256 R180). -/
theorem alphaElem_255 : alphaElem 255 = 1 := by decide +kernel

theorem alphaElem_mod (n : Nat) : alphaElem (n % 255) = alphaElem n := by
  have hperiod : Function.IsPeriodicPt mulAlpha 255 1 := (alphaElem_eq_iterate 255).symm.trans alphaElem_255
  rw [alphaElem_eq_iterate, alphaElem_eq_iterate, hperiod.iterate_mod_apply]

/-! ## The tables -/

theorem packedEntry_packTable (table : List Nat) (i : Nat) (h : ∀ b ∈ table, b < 256) :
    packedEntry (packTable table) i = table.getD i 0 := by
  induction table generalizing i with
  | nil => simp [packTable, packedEntry]
  | cons b bs ih =>
    have hb : b < 256 := h b List.mem_cons_self
    cases i with
    | zero =>
      simp only [packTable, packedEntry, mul_zero, Nat.shiftRight_zero, List.getD_cons_zero]
      omega
    | succ i =>
      have hrest : packTable (b :: bs) >>> 8 = packTable bs := by
        rw [packTable, Nat.shiftRight_eq_div_pow]
        omega
      rw [packedEntry, mul_add, mul_one, add_comm, Nat.shiftRight_add, hrest, List.getD_cons_succ]
      exact ih i fun c hc => h c (List.mem_cons_of_mem b hc)

theorem expLoop_eq_map (n x : Nat) : expLoop n x = (List.range n).map (fun i => expStep^[i] x) := by
  induction n generalizing x with
  | zero => rfl
  | succ n ih =>
    rw [expLoop, ih, List.range_succ_eq_map, List.map_cons, List.map_map]
    rfl

theorem expTable_eq_map : expTable = (List.range 256).map alphaTo := by
  rw [expTable, expLoop_eq_map]
  exact List.map_congr_left fun i _ => (alphaTo_eq_iterate i).symm

theorem gfExp_eq_alphaElem (i : Nat) (h : i < 256) : gfExp i = alphaElem i := by
  have hbytes : ∀ b ∈ expTable, b < 256 := by
    intro b hb
    rw [expTable_eq_map] at hb
    obtain ⟨n, -, rfl⟩ := List.mem_map.1 hb
    exact alphaTo_lt n
  rw [gfExp, expRom, packedEntry_packTable _ _ hbytes, expTable_eq_map, alphaElem]
  simp [h]

theorem gfLog_zero : gfLog 0 = none := rfl

/-- `log[exp[i]] = i` (40_gf256 R181). -/
theorem gfLog_gfExp (i : Nat) (h : i < 255) : gfLog (gfExp i) = some i := by
  have htable : ∀ i : Fin 255, gfLog (gfExp i) = some i.val := by decide +kernel
  exact htable ⟨i, h⟩

theorem gfLog_alphaElem (i : Nat) (h : i < 255) : gfLog (alphaElem i) = some i := by
  rw [← gfExp_eq_alphaElem i (by omega), gfLog_gfExp i h]

theorem alphaElem_ne_zero (i : Nat) : alphaElem i ≠ 0 := by
  have hlog := gfLog_alphaElem (i % 255) (Nat.mod_lt _ (by decide))
  rw [alphaElem_mod] at hlog
  intro h
  rw [h, gfLog_zero] at hlog
  cases hlog

/-- The powers of alpha are all the non-zero elements (40_gf256 R180). -/
theorem exists_alphaElem (a : Gf) (h : a ≠ 0) : ∃ i, i < 255 ∧ a = alphaElem i := by
  have htable : ∀ a : Gf, a ≠ 0 → packedEntry logRom a.toNat < 255 ∧ gfExp (packedEntry logRom a.toNat) = a := by
    decide +kernel
  obtain ⟨hlt, hexp⟩ := htable a h
  exact ⟨_, hlt, by rw [← gfExp_eq_alphaElem _ (by omega), hexp]⟩

/-- An element is 0 or a power of alpha. -/
theorem eq_zero_or_alphaElem (a : Gf) : a = 0 ∨ ∃ i, i < 255 ∧ a = alphaElem i :=
  or_iff_not_imp_left.2 (exists_alphaElem a)

/-! ## The arithmetic -/

/-- 0 is neutral for addition; in the model's spelling `0` of the element, which `BitVec.xor_zero` does not match. -/
theorem xor_gfZero (a : Gf) : a ^^^ 0 = a := BitVec.xor_zero

theorem gfZero_xor (a : Gf) : 0 ^^^ a = a := BitVec.zero_xor

theorem gf_xor_self (a : Gf) : a ^^^ a = 0 := BitVec.xor_self

theorem zero_gfMul (b : Gf) : gfMul 0 b = 0 := rfl

theorem gfMul_zero (a : Gf) : gfMul a 0 = 0 := by
  rw [gfMul, gfLog_zero]
  cases gfLog a <;> rfl

/-- Exponents add up (40_gf256 R183). -/
theorem gfMul_alphaElem (i j : Nat) : gfMul (alphaElem i) (alphaElem j) = alphaElem (i + j) := by
  have hlt (n : Nat) : n % 255 < 255 := Nat.mod_lt n (by decide)
  rw [← alphaElem_mod i, ← alphaElem_mod j, gfMul, gfLog_alphaElem _ (hlt i), gfLog_alphaElem _ (hlt j)]
  dsimp only
  rw [gfExp_eq_alphaElem _ (by have := hlt (i % 255 + j % 255); omega), ← Nat.add_mod, alphaElem_mod]

/-- The product with a power of alpha is a linear map. -/
theorem alphaElem_gfMul (i : Nat) (b : Gf) : gfMul (alphaElem i) b = mulAlpha^[i] b := by
  rcases eq_zero_or_alphaElem b with rfl | ⟨j, -, rfl⟩
  · rw [gfMul_zero, iterate_mulAlpha_zero]
  · rw [gfMul_alphaElem, iterate_mulAlpha_alphaElem]

theorem gfMul_comm (a b : Gf) : gfMul a b = gfMul b a := by
  rcases eq_zero_or_alphaElem a with rfl | ⟨i, -, rfl⟩
  · rw [zero_gfMul, gfMul_zero]
  · rcases eq_zero_or_alphaElem b with rfl | ⟨j, -, rfl⟩
    · rw [zero_gfMul, gfMul_zero]
    · rw [gfMul_alphaElem, gfMul_alphaElem, add_comm]

theorem gfMul_assoc (a b c : Gf) : gfMul a (gfMul b c) = gfMul (gfMul a b) c := by
  rcases eq_zero_or_alphaElem a with rfl | ⟨i, -, rfl⟩
  · simp only [zero_gfMul]
  · rcases eq_zero_or_alphaElem b with rfl | ⟨j, -, rfl⟩
    · simp only [zero_gfMul, gfMul_zero]
    · rw [gfMul_alphaElem, alphaElem_gfMul, alphaElem_gfMul, alphaElem_gfMul, Function.iterate_add_apply]

theorem gfMul_xor (a b c : Gf) : gfMul a (b ^^^ c) = gfMul a b ^^^ gfMul a c := by
  rcases eq_zero_or_alphaElem a with rfl | ⟨i, -, rfl⟩
  · simp only [zero_gfMul, xor_gfZero]
  · rw [alphaElem_gfMul, alphaElem_gfMul, alphaElem_gfMul, iterate_mulAlpha_xor]

theorem xor_gfMul (a b c : Gf) : gfMul (a ^^^ b) c = gfMul a c ^^^ gfMul b c := by
  rw [gfMul_comm, gfMul_xor, gfMul_comm c a, gfMul_comm c b]

theorem one_gfMul (a : Gf) : gfMul 1 a = a := alphaElem_gfMul 0 a

theorem gfMul_one (a : Gf) : gfMul a 1 = a := by
  rw [gfMul_comm, one_gfMul]

/-- The inverse negates the exponent (40_gf256 R184). -/
theorem gfInv_alphaElem (i : Nat) (h : i < 255) : gfInv (alphaElem i) = some (alphaElem (255 - i)) := by
  rw [gfInv, gfLog_alphaElem i h, Option.map_some, gfExp_eq_alphaElem _ (by omega)]

theorem gfInv_zero : gfInv 0 = none := rfl

theorem gfMul_alphaElem_inverse (i : Nat) (h : i < 255) : gfMul (alphaElem i) (alphaElem (255 - i)) = 1 := by
  rw [gfMul_alphaElem, Nat.add_sub_cancel' h.le, alphaElem_255]

theorem gfInv_inverse (i : Nat) (h : i < 255) : gfInv (alphaElem (255 - i)) = some (alphaElem i) := by
  rw [← alphaElem_mod, gfInv_alphaElem _ (Nat.mod_lt _ (by decide)), ← alphaElem_mod i,
    ← alphaElem_mod (255 - (255 - i) % 255)]
  congr 2
  omega

theorem gfMul_gfInvNz (a : Gf) (h : a ≠ 0) : gfMul a (gfInvNz a) = 1 := by
  obtain ⟨i, hi, rfl⟩ := exists_alphaElem a h
  rw [gfInvNz, gfInv_alphaElem i hi, Option.getD_some, gfMul_alphaElem_inverse i hi]

/-- Settles O26: every non-zero element is a power of alpha, and the product with one is linear. -/
theorem fieldLaws : Obligations.FieldLaws := by
  refine ⟨gfMul_comm, fun a ha => ?_, gfMul_one, gfMul_zero, gfMul_assoc, gfMul_xor, fun a ha => ?_⟩
  · obtain ⟨i, hi, rfl⟩ := exists_alphaElem a ha
    exact ⟨_, gfInv_alphaElem i hi, gfMul_alphaElem_inverse i hi, gfInv_inverse i hi⟩
  · obtain ⟨i, hi, rfl⟩ := exists_alphaElem a ha
    exact ⟨i, gfLog_alphaElem i hi, gfExp_eq_alphaElem i (by omega)⟩

/-! ## The GF commands -/

theorem exec_gfAdd (s : State) :
    exec .gfAdd s = .next (withOutcome (setGfR s (s.regs.gfA ^^^ s.regs.gfB)) .ok 0 0) := rfl

theorem exec_gfMul (s : State) :
    exec .gfMul s = .next (withOutcome (setGfR s (gfMul s.regs.gfA s.regs.gfB)) .ok 0 0) := rfl

theorem exec_gfExp (s : State) :
    exec .gfExp s = .next (withOutcome (setGfR s (alphaElem s.regs.gfA.toNat)) .ok 0 0) := by
  rw [← gfExp_eq_alphaElem _ s.regs.gfA.isLt]
  rfl

theorem exec_gfInv_zero (s : State) (h : s.regs.gfA = 0) :
    exec .gfInv s = .next (withOutcome s .argument 0x30 0) := by
  change execGfInv s = _
  rw [execGfInv, h, gfInv_zero]
  rfl

theorem exec_gfInv_some (s : State) (r : Gf) (h : gfInv s.regs.gfA = some r) :
    exec .gfInv s = .next (withOutcome (setGfR s r) .ok 0 0) := by
  change execGfInv s = _
  rw [execGfInv, h]
  rfl

theorem exec_gfLog_zero (s : State) (h : s.regs.gfA = 0) :
    exec .gfLog s = .next (withOutcome s .argument 0x31 0) := by
  change execGfLog s = _
  rw [execGfLog, h, gfLog_zero]
  rfl

theorem exec_gfLog_some (s : State) (i : Nat) (h : gfLog s.regs.gfA = some i) :
    exec .gfLog s = .next (withOutcome (setGfR s (BitVec.ofNat 8 i)) .ok 0 0) := by
  change execGfLog s = _
  rw [execGfLog, h]
  rfl

/-- Settles O23: addition is the exclusive or, and the product of two powers of alpha adds the exponents. -/
theorem gfAddAndGfMulCombineTheOperands : Obligations.GfAddAndGfMulCombineTheOperands := by
  refine ⟨decode_encode .gfAdd, decode_encode .gfMul, exec_gfAdd, fun s h => ?_, fun s i j _ _ ha hb => ?_⟩
  · have hzero : gfMul s.regs.gfA s.regs.gfB = 0 := by
      rcases h with h | h
      · rw [h, zero_gfMul]
      · rw [h, gfMul_zero]
    rw [exec_gfMul, hzero]
    rfl
  · rw [exec_gfMul, ha, hb, gfMul_alphaElem, ← alphaElem_mod]
    rfl

/-- Settles O24: 0 has no inverse, and the inverse of a power of alpha negates the exponent. -/
theorem gfInvNegatesTheExponent : Obligations.GfInvNegatesTheExponent := by
  refine ⟨decode_encode .gfInv, exec_gfInv_zero, fun s i hi ha => ?_⟩
  exact exec_gfInv_some s _ (by rw [ha, gfInv_alphaElem i hi])

/-- Settles O25: the exp table holds the powers of alpha, and the log table their exponents. -/
theorem gfExpAndGfLogInvertEachOther : Obligations.GfExpAndGfLogInvertEachOther := by
  have hexp : ∀ i, i ≤ 255 → gfExp i = alphaElem i := fun i hi => gfExp_eq_alphaElem i (by omega)
  refine ⟨decode_encode .gfExp, decode_encode .gfLog, exec_gfExp, exec_gfLog_zero, fun s i hi ha => ?_, hexp, ?_,
    ?_, gfLog_zero, fun i hi => ?_, fun a ha => ?_⟩
  · exact exec_gfLog_some s i (by rw [ha, gfLog_alphaElem i hi])
  · rw [hexp 255 le_rfl, hexp 0 (by decide), alphaElem_255, alphaElem_zero]
  · rw [hexp 0 (by decide), alphaElem_zero]
  · rw [hexp i hi.le]
    exact alphaElem_ne_zero i
  · obtain ⟨i, hi, rfl⟩ := exists_alphaElem a ha
    have hlog := gfLog_alphaElem i hi
    refine ⟨i, hi, hexp i hi.le, hlog, fun j hj heq => ?_⟩
    rw [← heq, gfLog_gfExp j hj] at hlog
    exact Option.some.inj hlog

end Sys2Proof.Machine
end

section
/-! PROOFS. Polynomials over GF(256): each operation by its coefficients, and long division (O27). A polynomial in normal
form is determined by its coefficients, so that the identity `a = q*b + r` is one of coefficients. -/

namespace Sys2Proof.Machine

open Sys2Proof.Safety

/-! ## Normal forms -/

theorem normalPoly_zero : normalPoly [0] := .inl rfl

theorem normalPoly_polyNorm (p : Poly) : normalPoly (polyNorm p) := by
  induction p with
  | nil => exact normalPoly_zero
  | cons c cs ih =>
    rw [polyNorm]
    split_ifs with hc
    · exact ih
    · exact .inr ⟨List.cons_ne_nil _ _, hc⟩

theorem polyIsZero_iff (p : Poly) (h : normalPoly p) : polyIsZero p = true ↔ p = [0] := by
  rw [polyIsZero, beq_iff_eq]
  refine ⟨fun hzero => h.resolve_right fun hne => hne.2 hzero, ?_⟩
  rintro rfl
  rfl

theorem polyIsZero_eq_false_iff (p : Poly) (h : normalPoly p) : polyIsZero p = false ↔ p ≠ [0] := by
  rw [← Bool.not_eq_true, polyIsZero_iff p h]

theorem normalPoly_polyAdd (a b : Poly) (ha : normalPoly a) (hb : normalPoly b) : normalPoly (polyAdd a b) := by
  rw [polyAdd]
  split_ifs
  · exact hb
  · exact ha
  · exact normalPoly_polyNorm _

theorem normalPoly_polyMono (d : Nat) (c : Gf) : normalPoly (polyMono d c) := normalPoly_polyNorm _

theorem normalPoly_polyMulMono (a : Poly) (d : Nat) (c : Gf) : normalPoly (polyMulMono a d c) := by
  rw [polyMulMono]
  split_ifs
  · exact normalPoly_zero
  · exact normalPoly_polyNorm _

theorem normalPoly_polyMul (a b : Poly) : normalPoly (polyMul a b) := by
  rw [polyMul]
  split_ifs
  · exact normalPoly_zero
  · exact normalPoly_polyNorm _

/-! ## The coefficients of a polynomial -/

theorem polyCoef_nil (k : Nat) : polyCoef [] k = 0 := rfl

/-- The first coefficient is the one at the degree (40_gf256 R187). -/
theorem polyCoef_cons (c : Gf) (cs : Poly) (k : Nat) :
    polyCoef (c :: cs) k = if k = cs.length then c else polyCoef cs k := by
  rw [polyCoef, polyCoef, List.reverse_cons]
  rcases lt_trichotomy k cs.length with hk | rfl | hk
  · rw [List.getD_append _ _ _ _ (by simpa using hk), if_neg hk.ne]
  · rw [List.getD_append_right _ _ _ _ (by simp)]
    simp
  · rw [List.getD_eq_default _ _ (by simpa using hk), List.getD_eq_default _ _ (by simpa using hk.le), if_neg hk.ne']

theorem polyCoef_of_length_le (p : Poly) (k : Nat) (h : p.length ≤ k) : polyCoef p k = 0 :=
  List.getD_eq_default _ _ (by simpa using h)

theorem polyCoef_of_polyDeg_lt (p : Poly) (k : Nat) (h : polyDeg p < k) : polyCoef p k = 0 :=
  polyCoef_of_length_le p k (by rw [polyDeg] at h; omega)

@[simp] theorem polyCoef_zero (k : Nat) : polyCoef [0] k = 0 := by
  rw [polyCoef_cons, polyCoef_nil, ite_self]

theorem polyCoef_reverse (low : List Gf) (k : Nat) : polyCoef low.reverse k = low.getD k 0 := by
  rw [polyCoef, List.reverse_reverse]

@[simp] theorem polyCoef_polyNorm (p : Poly) (k : Nat) : polyCoef (polyNorm p) k = polyCoef p k := by
  induction p with
  | nil => exact polyCoef_zero k
  | cons c cs ih =>
    rw [polyNorm]
    split_ifs with hc
    · rw [ih, polyCoef_cons, hc]
      split_ifs with hk
      · exact polyCoef_of_length_le cs k hk.ge
      · rfl
    · rfl

theorem polyCoef_polyDeg_ne_zero (p : Poly) (h : normalPoly p) (hp : p ≠ [0]) : polyCoef p (polyDeg p) ≠ 0 := by
  obtain ⟨hnil, hhead⟩ := h.resolve_left hp
  cases p with
  | nil => exact absurd rfl hnil
  | cons c cs => simpa [polyDeg, polyCoef_cons] using hhead

theorem polyDeg_le_of_polyCoef_ne_zero (p : Poly) (k : Nat) (h : polyCoef p k ≠ 0) : k ≤ polyDeg p := by
  by_contra hk
  exact h (polyCoef_of_polyDeg_lt p k (by omega))

/-- A polynomial in normal form whose coefficients from `n` on are 0 has a degree below `n`, or is zero. -/
theorem polyDeg_lt_of_polyCoef (p : Poly) (n : Nat) (h : normalPoly p) (hcoef : ∀ k, n ≤ k → polyCoef p k = 0) :
    p = [0] ∨ polyDeg p < n := by
  by_contra hne
  obtain ⟨hp, hn⟩ := not_or.1 hne
  exact polyCoef_polyDeg_ne_zero p h hp (hcoef _ (by omega))

/-- The coefficients determine a polynomial in normal form (40_gf256 R187). -/
theorem polyCoef_injective (p q : Poly) (hp : normalPoly p) (hq : normalPoly q)
    (h : ∀ k, polyCoef p k = polyCoef q k) : p = q := by
  have hzero (p q : Poly) (hp : normalPoly p) (h : ∀ k, polyCoef p k = polyCoef q k) (hq : q = [0]) : p = [0] := by
    by_contra hne
    apply polyCoef_polyDeg_ne_zero p hp hne
    rw [h, hq, polyCoef_zero]
  by_cases hp0 : p = [0]
  · rw [hp0, hzero q p hq (fun k => (h k).symm) hp0]
  by_cases hq0 : q = [0]
  · rw [hq0, hzero p q hp h hq0]
  have hpq := polyDeg_le_of_polyCoef_ne_zero q _ (h _ ▸ polyCoef_polyDeg_ne_zero p hp hp0)
  have hqp := polyDeg_le_of_polyCoef_ne_zero p _ (h _ ▸ polyCoef_polyDeg_ne_zero q hq hq0)
  have hppos := List.length_pos_iff.2 (hp.resolve_left hp0).1
  have hqpos := List.length_pos_iff.2 (hq.resolve_left hq0).1
  rw [polyDeg, polyDeg] at hpq hqp
  have hlen : p.length = q.length := by omega
  apply List.reverse_injective
  refine List.ext_getElem (by simpa using hlen) fun k hk hk' => ?_
  rw [← List.getD_eq_getElem _ 0 hk, ← List.getD_eq_getElem _ 0 hk']
  exact h k

/-! ## Sums -/

theorem addLow_nil (as : List Gf) : addLow as [] = as := by
  cases as <;> rfl

theorem addLow_getD (as bs : List Gf) (k : Nat) : (addLow as bs).getD k 0 = as.getD k 0 ^^^ bs.getD k 0 := by
  induction as generalizing bs k with
  | nil => simp [addLow]
  | cons a as ih =>
    cases bs with
    | nil => simp [addLow_nil]
    | cons b bs =>
      cases k with
      | zero => rfl
      | succ k => simpa [addLow] using ih bs k

/-- Addition is coefficient by coefficient (40_gf256 R188). -/
theorem polyCoef_polyAdd (a b : Poly) (ha : normalPoly a) (hb : normalPoly b) (k : Nat) :
    polyCoef (polyAdd a b) k = polyCoef a k ^^^ polyCoef b k := by
  rw [polyAdd]
  split_ifs with hza hzb
  · rw [(polyIsZero_iff a ha).1 hza, polyCoef_zero, gfZero_xor]
  · rw [(polyIsZero_iff b hb).1 hzb, polyCoef_zero, xor_gfZero]
  · rw [polyCoef_polyNorm, polyCoef_reverse, addLow_getD]
    rfl

/-! ## Products -/

theorem polyCoef_map_gfMul (p : Poly) (c : Gf) (k : Nat) :
    polyCoef (p.map (fun x => gfMul x c)) k = gfMul (polyCoef p k) c := by
  induction p with
  | nil => rfl
  | cons x xs ih =>
    rw [List.map_cons, polyCoef_cons, polyCoef_cons, ih, List.length_map]
    split_ifs <;> rfl

theorem polyCoef_append_zeros (p : Poly) (d k : Nat) :
    polyCoef (p ++ List.replicate d 0) k = if k < d then 0 else polyCoef p (k - d) := by
  rw [polyCoef, polyCoef, List.reverse_append, List.reverse_replicate]
  split_ifs with hk
  · rw [List.getD_append _ _ _ _ (by simpa using hk), List.getD_replicate _ hk]
  · rw [List.getD_append_right _ _ _ _ (by simpa using hk), List.length_replicate]

/-- The product with a monomial scales and shifts (40_gf256 R189). -/
theorem polyCoef_polyMulMono (p : Poly) (d : Nat) (c : Gf) (k : Nat) :
    polyCoef (polyMulMono p d c) k = if k < d then 0 else gfMul (polyCoef p (k - d)) c := by
  rw [polyMulMono]
  split_ifs with hc hk hk
  · exact polyCoef_zero k
  · rw [hc, gfMul_zero, polyCoef_zero]
  · rw [polyCoef_polyNorm, polyCoef_append_zeros, if_pos hk]
  · rw [polyCoef_polyNorm, polyCoef_append_zeros, if_neg hk, polyCoef_map_gfMul]

theorem polyCoef_polyMono (d : Nat) (c : Gf) (k : Nat) : polyCoef (polyMono d c) k = if k = d then c else 0 := by
  rw [polyMono, polyCoef_polyNorm, ← List.singleton_append, polyCoef_append_zeros, polyCoef_cons, polyCoef_nil,
    List.length_nil]
  rcases lt_trichotomy k d with hk | rfl | hk
  · rw [if_pos hk, if_neg hk.ne]
  · rw [if_neg (lt_irrefl k), if_pos (Nat.sub_self k), if_pos rfl]
  · rw [if_neg hk.not_gt, if_neg (Nat.sub_ne_zero_of_lt hk), if_neg hk.ne']

/-- Coefficient `k` of the product of two polynomials that are given by their coefficients. -/
def coefMul : (Nat → Gf) → (Nat → Gf) → Nat → Gf
  | f, g, 0 => gfMul (f 0) (g 0)
  | f, g, k + 1 => gfMul (f 0) (g (k + 1)) ^^^ coefMul (fun i => f (i + 1)) g k

theorem coefMul_zero_left (g : Nat → Gf) (k : Nat) : coefMul (fun _ => 0) g k = 0 := by
  induction k with
  | zero => exact zero_gfMul _
  | succ k ih => rw [coefMul, ih, zero_gfMul, xor_gfZero]

theorem coefMul_zero_right (f : Nat → Gf) (k : Nat) : coefMul f (fun _ => 0) k = 0 := by
  induction k generalizing f with
  | zero => exact gfMul_zero _
  | succ k ih => rw [coefMul, ih, gfMul_zero, xor_gfZero]

theorem coefMul_xor_left (f f' g : Nat → Gf) (k : Nat) :
    coefMul (fun i => f i ^^^ f' i) g k = coefMul f g k ^^^ coefMul f' g k := by
  induction k generalizing f f' with
  | zero => exact xor_gfMul _ _ _
  | succ k ih =>
    rw [coefMul, coefMul, coefMul, xor_gfMul, ih (fun i => f (i + 1)) (fun i => f' (i + 1))]
    ac_rfl

/-- The product with a monomial of degree `d`. -/
theorem coefMul_single (d : Nat) (c : Gf) (g : Nat → Gf) (k : Nat) :
    coefMul (fun i => if i = d then c else 0) g k = if k < d then 0 else gfMul c (g (k - d)) := by
  induction k generalizing d with
  | zero =>
    cases d with
    | zero => rfl
    | succ d => exact zero_gfMul _
  | succ k ih =>
    cases d with
    | zero =>
      have htail : (fun i : Nat => if i + 1 = 0 then c else 0) = fun _ => 0 := by simp
      rw [coefMul, htail, coefMul_zero_left, xor_gfZero]
      rfl
    | succ d =>
      have htail : (fun i : Nat => if i + 1 = d + 1 then c else 0) = fun i => if i = d then c else 0 := by simp
      rw [coefMul, htail, ih, if_neg (Nat.succ_ne_zero d).symm, zero_gfMul, gfZero_xor, Nat.add_sub_add_right]
      simp only [Nat.add_lt_add_iff_right]

theorem mulLow_getD (as bs : List Gf) (k : Nat) :
    (mulLow as bs).getD k 0 = coefMul (fun i => as.getD i 0) (fun i => bs.getD i 0) k := by
  induction as generalizing k with
  | nil => exact (coefMul_zero_left _ k).symm
  | cons a as ih =>
    have hscale : (bs.map (fun b => gfMul a b)).getD k 0 = gfMul a (bs.getD k 0) := by
      rw [← gfMul_zero a, List.getD_map, gfMul_zero]
    rw [mulLow, addLow_getD, hscale]
    cases k with
    | zero => exact xor_gfZero _
    | succ k => rw [List.getD_cons_succ, ih]; rfl

/-- The coefficients of a product are the sums of products (40_gf256 R189). -/
theorem polyCoef_polyMul (a b : Poly) (ha : normalPoly a) (hb : normalPoly b) (k : Nat) :
    polyCoef (polyMul a b) k = coefMul (polyCoef a) (polyCoef b) k := by
  have hnull : polyCoef [0] = fun _ => 0 := funext polyCoef_zero
  rw [polyMul]
  split_ifs with hzero
  · rw [Bool.or_eq_true, polyIsZero_iff a ha, polyIsZero_iff b hb] at hzero
    rcases hzero with rfl | rfl
    · rw [hnull, coefMul_zero_left]
    · rw [hnull, coefMul_zero_right]
  · rw [polyCoef_polyNorm, polyCoef_reverse, mulLow_getD]
    rfl

/-! ## Long division -/

/-- Coefficient `k` of `q*b + r`, which long division of a polynomial by `b` keeps (40_gf256 R190). -/
def divCoef (b q r : Poly) (k : Nat) : Gf := coefMul (polyCoef q) (polyCoef b) k ^^^ polyCoef r k

/-- The coefficient of the monomial that a round of long division takes off (40_gf256 R190). -/
def divFactor (b r : Poly) : Gf := gfMul (polyCoef r (polyDeg r)) (gfInvNz (polyCoef b (polyDeg b)))

/-- The next quotient of a round of long division. -/
def divQuot (b q r : Poly) : Poly := polyAdd q (polyMono (polyDeg r - polyDeg b) (divFactor b r))

/-- The next remainder of a round of long division. -/
def divRem (b r : Poly) : Poly := polyAdd r (polyMulMono b (polyDeg r - polyDeg b) (divFactor b r))

theorem divLoop_round (b : Poly) (fuel : Nat) (q r : Poly) (hr : normalPoly r) (hr0 : r ≠ [0])
    (hdeg : polyDeg b ≤ polyDeg r) :
    divLoop b (gfInvNz (polyCoef b (polyDeg b))) (fuel + 1) q r =
      divLoop b (gfInvNz (polyCoef b (polyDeg b))) fuel (divQuot b q r) (divRem b r) := by
  rw [divLoop, if_pos ⟨hdeg, (polyIsZero_eq_false_iff r hr).2 hr0⟩]
  rfl

theorem divLoop_stop (b : Poly) (dinv : Gf) (fuel : Nat) (q r : Poly) (h : r = [0] ∨ polyDeg r < polyDeg b) :
    divLoop b dinv fuel q r = (q, r) := by
  cases fuel with
  | zero => rfl
  | succ fuel =>
    rw [divLoop, if_neg]
    rintro ⟨hdeg, hzero⟩
    rcases h with rfl | h
    · cases hzero
    · omega

theorem normalPoly_divQuot (b q r : Poly) (hq : normalPoly q) : normalPoly (divQuot b q r) :=
  normalPoly_polyAdd _ _ hq (normalPoly_polyMono _ _)

theorem normalPoly_divRem (b r : Poly) (hr : normalPoly r) : normalPoly (divRem b r) :=
  normalPoly_polyAdd _ _ hr (normalPoly_polyMulMono _ _ _)

theorem polyCoef_divQuot (b q r : Poly) (hq : normalPoly q) (k : Nat) :
    polyCoef (divQuot b q r) k = polyCoef q k ^^^ if k = polyDeg r - polyDeg b then divFactor b r else 0 := by
  rw [divQuot, polyCoef_polyAdd _ _ hq (normalPoly_polyMono _ _), polyCoef_polyMono]

theorem polyCoef_divRem (b r : Poly) (hr : normalPoly r) (k : Nat) :
    polyCoef (divRem b r) k = polyCoef r k ^^^
      if k < polyDeg r - polyDeg b then 0 else gfMul (polyCoef b (k - (polyDeg r - polyDeg b))) (divFactor b r) := by
  rw [divRem, polyCoef_polyAdd _ _ hr (normalPoly_polyMulMono _ _ _), polyCoef_polyMulMono]

/-- A round adds the same multiple of `b` to `q*b` and to `r`. -/
theorem divCoef_round (b q r : Poly) (hq : normalPoly q) (hr : normalPoly r) (k : Nat) :
    divCoef b (divQuot b q r) (divRem b r) k = divCoef b q r k := by
  have hcancel (x m y : Gf) : (x ^^^ m) ^^^ (y ^^^ m) = x ^^^ y := by
    calc (x ^^^ m) ^^^ (y ^^^ m) = (x ^^^ y) ^^^ (m ^^^ m) := by ac_rfl
      _ = x ^^^ y := by rw [gf_xor_self, xor_gfZero]
  rw [divCoef, funext (polyCoef_divQuot b q r hq), coefMul_xor_left (polyCoef q), coefMul_single,
    polyCoef_divRem b r hr, gfMul_comm (divFactor b r), hcancel, divCoef]

/-- The monomial is chosen to cancel the leading coefficient. -/
theorem gfMul_divFactor (b r : Poly) (hb : normalPoly b) (hb0 : b ≠ [0]) :
    gfMul (polyCoef b (polyDeg b)) (divFactor b r) = polyCoef r (polyDeg r) := by
  rw [gfMul_comm, divFactor, ← gfMul_assoc, gfMul_comm (gfInvNz _),
    gfMul_gfInvNz _ (polyCoef_polyDeg_ne_zero b hb hb0), gfMul_one]

/-- A round lowers the degree of the remainder. -/
theorem polyDeg_divRem_lt (b r : Poly) (hb : normalPoly b) (hb0 : b ≠ [0]) (hr : normalPoly r)
    (hdeg : polyDeg b ≤ polyDeg r) : divRem b r = [0] ∨ polyDeg (divRem b r) < polyDeg r := by
  refine polyDeg_lt_of_polyCoef _ _ (normalPoly_divRem b r hr) fun k hk => ?_
  rw [polyCoef_divRem b r hr, if_neg (by omega)]
  rcases hk.eq_or_lt with rfl | hk
  · rw [Nat.sub_sub_self hdeg, gfMul_divFactor b r hb hb0, gf_xor_self]
  · rw [polyCoef_of_polyDeg_lt r k hk, polyCoef_of_polyDeg_lt b _ (by omega), zero_gfMul, xor_gfZero]

/-- What the loop of long division leaves: `q*b + r` is kept and the degree of the remainder is below that of `b`, if
the fuel is above the degree of `r` (40_gf256 R190). -/
theorem divLoop_spec (b : Poly) (hb : normalPoly b) (hb0 : b ≠ [0]) (fuel : Nat) (q r : Poly) (hq : normalPoly q)
    (hr : normalPoly r) (hfuel : r = [0] ∨ polyDeg r < fuel) :
    ∃ q' r', divLoop b (gfInvNz (polyCoef b (polyDeg b))) fuel q r = (q', r') ∧ normalPoly q' ∧ normalPoly r' ∧
      (∀ k, divCoef b q' r' k = divCoef b q r k) ∧ (r' = [0] ∨ polyDeg r' < polyDeg b) := by
  induction fuel generalizing q r with
  | zero => exact ⟨q, r, rfl, hq, hr, fun _ => rfl, .inl (hfuel.resolve_right (Nat.not_lt_zero _))⟩
  | succ fuel ih =>
    by_cases hstop : r = [0] ∨ polyDeg r < polyDeg b
    · exact ⟨q, r, divLoop_stop b _ _ q r hstop, hq, hr, fun _ => rfl, hstop⟩
    · obtain ⟨hr0, hdeg⟩ := not_or.1 hstop
      have hle : polyDeg r ≤ fuel := Nat.le_of_lt_succ (hfuel.resolve_left hr0)
      have hless := (polyDeg_divRem_lt b r hb hb0 hr (not_lt.1 hdeg)).imp_right fun h => h.trans_le hle
      obtain ⟨q', r', hloop, hq', hr', hkeep, hsmall⟩ :=
        ih _ _ (normalPoly_divQuot b q r hq) (normalPoly_divRem b r hr) hless
      rw [divLoop_round b fuel q r hr hr0 (not_lt.1 hdeg)]
      exact ⟨q', r', hloop, hq', hr', fun k => (hkeep k).trans (divCoef_round b q r hq hr k), hsmall⟩

/-- Settles O27: long division keeps the coefficients of `q*b + r`, which are those of `a` at the start. -/
theorem longDivisionLeavesASmallerRemainder : Obligations.LongDivisionLeavesASmallerRemainder := by
  intro a b ha hb hb0
  have hfuel : a = [0] ∨ polyDeg a < a.length :=
    ha.imp_right fun h => Nat.sub_lt (List.length_pos_iff.2 h.1) Nat.one_pos
  obtain ⟨q, r, hdiv, hq, hr, hkeep, hsmall⟩ := divLoop_spec b hb hb0 a.length [0] a normalPoly_zero ha hfuel
  rw [polyDivMod, hdiv]
  refine ⟨hq, hr, ?_, hsmall⟩
  have hqb := normalPoly_polyMul q b
  refine polyCoef_injective _ _ (normalPoly_polyAdd _ _ hqb hr) ha fun k => ?_
  calc polyCoef (polyAdd (polyMul q b) r) k
      = divCoef b q r k := by rw [polyCoef_polyAdd _ _ hqb hr, polyCoef_polyMul q b hq hb, divCoef]
    _ = divCoef b [0] a k := hkeep k
    _ = polyCoef a k := by rw [divCoef, funext polyCoef_zero, coefMul_zero_left, gfZero_xor]

end Sys2Proof.Machine
end

section
/-! PROOFS. The Reed-Solomon commands as writes: how the elements of CW, SYN, SIGMA, OMEGA and ELOC read back, and the
checks on the block. With them RS_SYNDROME (O28), RS_DECODE's pre-checks (O29) and clean exit (O30), and SLD_CHECK (O36)
are settled. -/

namespace Sys2Proof.Machine

open Sys2Proof.Safety

/-! ## Elements read back -/

/-- An element whose undefined bytes are 0 reads back as a word. -/
theorem readWord_storeElems (s : State) (w : Window) (es : List Word) (i : Nat) (hi : i < es.length)
    (hw : 4 * es.length ≤ w.size) (hz : ∀ j, j < 4 → w.definedBytes ≤ j → byteOf es[i] j = 0) :
    readWord (storeElems s w es) (w.base + 4 * i) = es[i] := by
  have hbyte (j : Nat) (hj : j < 4) : readByte (storeElems s w es) (w.base + 4 * i + j) = byteOf es[i] j := by
    rw [readByte_storeElems_inside s w es i j hi hj hw]
    split_ifs with hd
    · rfl
    · exact (hz j hj (not_lt.1 hd)).symm
  have h0 := hbyte 0 (by decide)
  rw [Nat.add_zero] at h0
  rw [readWord, h0, hbyte 1 (by decide), hbyte 2 (by decide), hbyte 3 (by decide), wordOf_bytes]

theorem byteOf_setWidth_zero (v : Gf) : byteOf (v.setWidth 32) 0 = v := by
  ext k hk
  simp only [byteOf, BitVec.getElem_extractLsb', mul_zero, zero_add, BitVec.getLsbD_setWidth,
    BitVec.getLsbD_eq_getElem hk, Bool.and_eq_right_iff_imp, decide_eq_true_eq]
  omega

theorem byteOf_setWidth_succ (v : Gf) (j : Nat) : byteOf (v.setWidth 32) (j + 1) = 0 := by
  ext k hk
  simp [byteOf, BitVec.getLsbD_of_ge v (8 * (j + 1) + k) (by omega)]

/-- The low byte of a word that holds a field element. -/
theorem readByte_of_readWord (s : State) (a : Nat) (v : Gf) (h : readWord s a = v.setWidth 32) : readByte s a = v :=
  calc readByte s a = byteOf (readWord s a) 0 := (byteOf_wordOf _ _ _ _).1.symm
    _ = v := by rw [h, byteOf_setWidth_zero]

/-- Values of one byte, zeros above them, read back where a window's elements define their low byte. -/
theorem readWord_storePadded (s : State) (w : Window) (n : Nat) (vals : List Gf) (i : Nat) (hi : i < n)
    (hw : 4 * n ≤ w.size) (hd : 1 ≤ w.definedBytes) :
    readWord (storeElems s w (padElems n vals)) (w.base + 4 * i) = (vals.getD i 0).setWidth 32 := by
  have hget : (padElems n vals)[i]'(by rwa [padElems_length]) = (vals.getD i 0).setWidth 32 := by
    simp [padElems]
  rw [readWord_storeElems s w _ i (by rwa [padElems_length]) (by rwa [padElems_length]), hget]
  intro j _ hj
  obtain ⟨j, rfl⟩ := Nat.exists_eq_add_of_le' (hd.trans hj)
  rw [hget, byteOf_setWidth_succ]

/-- A codeword that was stored as a field element. -/
theorem cwAt_storeElems (s : State) (block : List Gf) (i : Nat) (hi : i < block.length) (hlen : block.length ≤ 1024) :
    cwAt (storeElems s .cw (block.map (fun v => v.setWidth 32))) i = block[i].toNat := by
  have hfit : 4 * (block.map (fun v : Gf => v.setWidth 32)).length ≤ Window.cw.size := by
    rw [List.length_map]
    exact Nat.mul_le_mul_left 4 hlen
  have hbyte := fun j hj => readByte_storeElems_inside s .cw _ i j (by rwa [List.length_map]) hj hfit
  have h0 := hbyte 0 (by decide)
  rw [if_pos (by decide), List.getElem_map, byteOf_setWidth_zero, Nat.add_zero] at h0
  have h1 := hbyte 1 (by decide)
  rw [if_pos (by decide), List.getElem_map, byteOf_setWidth_succ] at h1
  rw [cwAt, h0, h1, halfOf, BitVec.toNat_append]
  exact Nat.zero_or _

theorem cwAt_congr (s t : State) (i : Nat)
    (h : ∀ j, j < 2 → readByte t (0x1000 + 4 * i + j) = readByte s (0x1000 + 4 * i + j)) : cwAt t i = cwAt s i := by
  have h0 : readByte t (Window.cw.base + 4 * i) = readByte s (Window.cw.base + 4 * i) := h 0 (by decide)
  have h1 : readByte t (Window.cw.base + 4 * i + 1) = readByte s (Window.cw.base + 4 * i + 1) := h 1 (by decide)
  rw [cwAt, cwAt, h0, h1]

/-- Codewords outside the ranges that were written are as they were. -/
theorem cwAt_of_sameExcept (s t : State) (ranges : List (Nat × Nat)) (i : Nat) (h : sameExcept s t ranges)
    (hout : ∀ r ∈ ranges, 0x1000 + 4 * i + 2 ≤ r.1 ∨ r.2 ≤ 0x1000 + 4 * i) : cwAt t i = cwAt s i :=
  cwAt_congr s t i fun j hj => h _ fun r hr => by
    have := hout r hr
    omega

/-! ## Ranges left as they were -/

theorem sameExcept_trans {s t u : State} {ranges : List (Nat × Nat)} (h : sameExcept s t ranges)
    (k : sameExcept t u ranges) : sameExcept s u ranges :=
  fun a ha => (k a ha).trans (h a ha)

theorem sameExcept_mono {s t : State} {ranges ranges' : List (Nat × Nat)} (h : sameExcept s t ranges)
    (hsub : ranges ⊆ ranges') : sameExcept s t ranges' :=
  fun a ha => h a fun r hr => ha r (hsub hr)

/-- A store changes the range of its elements only. -/
theorem sameExcept_storeElems (s : State) (w : Window) (es : List Word) :
    sameExcept s (storeElems s w es) [(w.base, w.base + 4 * es.length)] :=
  fun a ha => readByte_storeElems_outside s w es a (ha _ List.mem_cons_self)

theorem sameExcept_storePadded (s : State) (w : Window) (n : Nat) (vals : List Gf) :
    sameExcept s (storeElems s w (padElems n vals)) [(w.base, w.base + 4 * n)] := by
  have h := sameExcept_storeElems s w (padElems n vals)
  rwa [padElems_length] at h

/-- Forgetting a window changes that window only. -/
theorem sameExcept_forgetWindow (s : State) (w : Window) :
    sameExcept s (forgetWindow s w) [(w.base, w.base + w.size)] :=
  fun a ha => readByte_forget_outside s _ _ a (ha _ List.mem_cons_self)

/-- Registers and the outcome are no bytes of a buffer. -/
theorem sameExcept_regs {s : State} {r : Regs} {ranges : List (Nat × Nat)} :
    sameExcept s { s with regs := r } ranges :=
  fun a _ => readByte_regs s r a

theorem sameExcept_withOutcome {s t : State} {c : ErrCode} {d : Byte} {i : Nat} {ranges : List (Nat × Nat)}
    (h : sameExcept s t ranges) : sameExcept s (withOutcome t c d i) ranges :=
  fun a ha => (readByte_withOutcome t c d i a).trans (h a ha)

/-! ## The writes of the syndromes and of the results -/

theorem readWord_writeSyndromes (s : State) (syn : List Gf) (i : Nat) (hi : i < 512) :
    readWord (writeSyndromes s syn) (0x3000 + 4 * i) = (syn.getD i 0).setWidth 32 :=
  (readWord_regs _ _ _).trans (readWord_storePadded s .syn Config.synMax syn i hi le_rfl (by decide))

theorem sameExcept_writeSyndromes (s : State) (syn : List Gf) :
    sameExcept s (writeSyndromes s syn) [(0x3000, 0x3800)] :=
  sameExcept_trans (sameExcept_storePadded s .syn Config.synMax syn) sameExcept_regs

theorem sameExcept_writeSyndromes_decodeBuffers (s : State) (syn : List Gf) :
    sameExcept s (writeSyndromes s syn) decodeBuffers :=
  sameExcept_mono (sameExcept_writeSyndromes s syn) (by decide)

/-- The fields of an ELOC element (41_reed_solomon R240). -/
theorem elocWord_toNat (c : Nat × Gf) : (elocWord c).toNat = c.2.toNat * 2 ^ 16 + c.1 % 2 ^ 16 := by
  have hpos : (BitVec.ofNat 16 c.1).toNat < 2 ^ 16 := BitVec.isLt _
  have hfields : (elocWord c).toNat = ((0#8).toNat <<< 8 ||| c.2.toNat) <<< 16 ||| (BitVec.ofNat 16 c.1).toNat := by
    rw [← BitVec.toNat_append, ← BitVec.toNat_append]
    rfl
  rw [hfields, BitVec.toNat_ofNat, Nat.zero_mod, Nat.zero_shiftLeft, Nat.zero_or,
    ← Nat.shiftLeft_add_eq_or_of_lt hpos, Nat.shiftLeft_eq, BitVec.toNat_ofNat]

theorem byteOf_elocWord_three (c : Nat × Gf) : byteOf (elocWord c) 3 = 0 := by
  apply BitVec.eq_of_toNat_eq
  have hmag : c.2.toNat < 2 ^ 8 := c.2.isLt
  rw [byteOf, BitVec.extractLsb'_toNat, elocWord_toNat, Nat.shiftRight_eq_div_pow]
  change _ = 0
  omega

section Results

variable (s : State) (sigma omega : List Gf) (pairs : List (Nat × Gf)) (nerr deg : Nat)

/-- The elements of ELOC: the corrections, then zeros (41_reed_solomon R240). -/
def elocElems : List Word := (List.range Config.elocMax).map (fun j => (pairs.map elocWord).getD j 0)

/-- The state after the stores to SIGMA, OMEGA and ELOC, in that order. -/
def storeResults : State :=
  storeElems (storeElems (storeElems s .sigma (padElems Config.polyMax sigma)) .omega (padElems Config.polyMax omega))
    .eloc (elocElems pairs)

theorem writeDecodeResults_eq : writeDecodeResults s sigma omega (pairs.map elocWord) nerr deg =
    { storeResults s sigma omega pairs with
      regs := { s.regs with rsNerr := BitVec.ofNat 9 nerr, rsDeg := BitVec.ofNat 9 deg } } := rfl

theorem elocElems_length : (elocElems pairs).length = 256 := by
  rw [elocElems, List.length_map, List.length_range]
  rfl

theorem elocElems_getElem (j : Nat) (hj : j < (elocElems pairs).length) :
    (elocElems pairs)[j] = (pairs.map elocWord).getD j 0 := by
  simp only [elocElems, List.getElem_map, List.getElem_range]

theorem readWord_storeResults_sigma (k : Nat) (hk : k < 512) :
    readWord (storeResults s sigma omega pairs) (0x4000 + 4 * k) = (sigma.getD k 0).setWidth 32 := by
  rw [storeResults, readWord_storeElems_outside, readWord_storeElems_outside]
  · exact readWord_storePadded s .sigma Config.polyMax sigma k hk le_rfl (by decide)
  · exact .inl (show 0x4000 + 4 * k + 4 ≤ 0x4800 by omega)
  · rw [elocElems_length]
    exact .inr (show 0x3C00 ≤ 0x4000 + 4 * k by omega)

theorem readWord_storeResults_omega (k : Nat) (hk : k < 512) :
    readWord (storeResults s sigma omega pairs) (0x4800 + 4 * k) = (omega.getD k 0).setWidth 32 := by
  rw [storeResults, readWord_storeElems_outside]
  · exact readWord_storePadded _ .omega Config.polyMax omega k hk le_rfl (by decide)
  · rw [elocElems_length]
    exact .inr (show 0x3C00 ≤ 0x4800 + 4 * k by omega)

/-- SYN keeps its elements when the results are stored. -/
theorem readWord_storeResults_syn (i : Nat) (hi : i < 512) :
    readWord (storeResults s sigma omega pairs) (0x3000 + 4 * i) = readWord s (0x3000 + 4 * i) := by
  rw [storeResults, readWord_storeElems_outside, readWord_storeElems_outside, readWord_storeElems_outside]
  · exact .inl (show 0x3000 + 4 * i + 4 ≤ 0x4000 by omega)
  · exact .inl (show 0x3000 + 4 * i + 4 ≤ 0x4800 by omega)
  · exact .inl (show 0x3000 + 4 * i + 4 ≤ 0x3800 by omega)

theorem elocAt_storeResults (j : Nat) (hj : j < 256) :
    elocAt (storeResults s sigma omega pairs) j = (pairs.map elocWord).getD j 0 := by
  have hlen := elocElems_length pairs
  have hget := elocElems_getElem pairs j (by rwa [hlen])
  refine (readWord_storeElems _ .eloc _ j (by rwa [hlen]) (by rw [hlen]; decide) fun i hi hd => ?_).trans hget
  obtain rfl : i = 3 := Nat.le_antisymm (Nat.le_of_lt_succ hi) hd
  rw [hget]
  by_cases hp : j < pairs.length
  · rw [List.getD_eq_getElem _ _ (by rwa [List.length_map]), List.getElem_map, byteOf_elocWord_three]
  · rw [List.getD_eq_default _ _ (by rw [List.length_map]; exact not_lt.1 hp)]
    rfl

theorem sameExcept_storeResults : sameExcept s (storeResults s sigma omega pairs) decodeBuffers := by
  have heloc (t : State) : sameExcept t (storeElems t .eloc (elocElems pairs)) [(0x3800, 0x3C00)] := by
    have hstore := sameExcept_storeElems t .eloc (elocElems pairs)
    rwa [elocElems_length] at hstore
  have hsigma := sameExcept_mono (ranges' := decodeBuffers) (sameExcept_storePadded s .sigma Config.polyMax sigma)
    (by decide)
  have homega := sameExcept_trans hsigma (sameExcept_mono (sameExcept_storePadded _ .omega Config.polyMax omega)
    (by decide))
  exact sameExcept_trans homega (sameExcept_mono (heloc _) (by decide))

end Results

/-! ## Evaluation and the syndromes -/

/-- Horner's rule is the value of a polynomial (40_gf256 R191). -/
theorem horner_eq_foldl (a r : Gf) (cs : List Gf) : horner a r cs = cs.foldl (fun acc c => gfMul acc a ^^^ c) r := by
  induction cs generalizing r with
  | nil => rfl
  | cons c cs ih => rw [horner, ih, gfAdd, gfMul_comm, List.foldl_cons]

theorem polyValue_cons (c : Gf) (cs : List Gf) (x : Gf) :
    polyValue (c :: cs) x = cs.foldl (fun acc c => gfMul acc x ^^^ c) c := by
  rw [polyValue, List.foldl_cons, zero_gfMul, gfZero_xor]

/-- Evaluation at a non-zero element answers the value (40_gf256 R191). -/
theorem polyEval_eq_polyValue (p : Poly) (x : Gf) (hp : p ≠ []) (hx : x ≠ 0) : polyEval p x = polyValue p x := by
  rw [polyEval, if_neg hx]
  cases p with
  | nil => exact absurd rfl hp
  | cons c cs =>
    rw [polyValue_cons]
    split_ifs with hone
    · rw [List.foldl_cons, gfAdd, gfZero_xor, hone]
      simp only [gfMul_one]
      rfl
    · exact horner_eq_foldl x c cs

/-- Leading zeros do not change the value. -/
theorem polyValue_polyNorm (p : Poly) (x : Gf) : polyValue (polyNorm p) x = polyValue p x := by
  induction p with
  | nil => exact polyValue_cons 0 [] x
  | cons c cs ih =>
    rw [polyNorm]
    split_ifs with hc
    · rw [ih, hc, polyValue_cons]
      rfl
    · rfl

theorem normalPoly_ne_nil (p : Poly) (h : normalPoly p) : p ≠ [] := by
  rcases h with rfl | h
  · exact List.cons_ne_nil _ _
  · exact h.1

theorem alphaPow_eq_alphaElem (i : Nat) : alphaPow i = alphaElem (i % 255) :=
  gfExp_eq_alphaElem _ ((Nat.mod_lt i (by decide)).trans (by decide))

/-- The syndromes are the values at the powers of alpha (41_reed_solomon R222). -/
theorem syndromes_getD (block : List Gf) (n i : Nat) (hi : i < n) :
    (syndromes block n).getD i 0 = polyValue block (alphaElem (i % 255)) := by
  have hget : (syndromes block n).getD i 0 = polyEval (receivedPoly block) (alphaPow i) := by
    simp [syndromes, Config.rsFcr, hi]
  rw [hget, alphaPow_eq_alphaElem, receivedPoly,
    polyEval_eq_polyValue _ _ (normalPoly_ne_nil _ (normalPoly_polyNorm _)) (alphaElem_ne_zero _), polyValue_polyNorm]

theorem syndromes_length (block : List Gf) (n : Nat) : (syndromes block n).length = n := by
  simp [syndromes]

theorem syndromes_getD_of_le (block : List Gf) (n i : Nat) (hi : n ≤ i) : (syndromes block n).getD i 0 = 0 :=
  List.getD_eq_default _ _ (by rwa [syndromes_length])

theorem allZero_iff (syn : List Gf) : allZero syn = true ↔ ∀ i, i < syn.length → syn.getD i 0 = 0 := by
  simp only [allZero, List.all_eq_true, beq_iff_eq]
  constructor
  · intro h i hi
    rw [List.getD_eq_getElem _ _ hi]
    exact h _ (List.getElem_mem hi)
  · intro h x hx
    obtain ⟨i, hi, rfl⟩ := List.getElem_of_mem hx
    rw [← h i hi, List.getD_eq_getElem _ _ hi]

/-- Every syndrome of a block is 0 (41_reed_solomon R239). -/
theorem allZero_syndromes_iff (block : List Gf) (n : Nat) :
    allZero (syndromes block n) = true ↔ ∀ i, i < n → polyValue block (alphaElem (i % 255)) = 0 := by
  rw [allZero_iff, syndromes_length]
  exact forall₂_congr fun i hi => by rw [syndromes_getD block n i hi]

/-! ## The block of a state -/

theorem gfBlock_cwList (s : State) (len : Nat) : gfBlock (cwList s len) = blockOf s len := by
  rw [gfBlock, cwList, List.map_map, blockOf]
  rfl

/-- The syndromes that the commands compute. -/
def receivedSyndromes (s : State) : List Gf := syndromes (blockOf s s.regs.cwLen.toNat) s.regs.nec.toNat

theorem receivedSyndromes_getD (s : State) (i : Nat) (hi : i < s.regs.nec.toNat) :
    (receivedSyndromes s).getD i 0 = syndromeAt s s.regs.cwLen.toNat i :=
  syndromes_getD _ _ i hi

theorem receivedSyndromes_getD_of_le (s : State) (i : Nat) (hi : s.regs.nec.toNat ≤ i) :
    (receivedSyndromes s).getD i 0 = 0 :=
  syndromes_getD_of_le _ _ i hi

theorem allZero_receivedSyndromes_iff (s : State) : allZero (receivedSyndromes s) = true ↔ blockClean s :=
  allZero_syndromes_iff _ _

/-! ## The checks on the block -/

theorem blockCheck_of_length (len : Nat) (block : List Nat) (h : len = 0 ∨ 1024 < len) :
    blockCheck len block = some (argumentError 0x17 0) :=
  if_pos h

theorem blockCheck_of_length_le (len : Nat) (block : List Nat) (h0 : 0 < len) (h1 : len ≤ 1024) :
    blockCheck len block = (firstIndex (fun v => decide (v > 255)) block 0).map (fun i => argumentError 0x16 i) :=
  if_neg fun h => h.elim h0.ne' (not_lt.2 h1)

/-- The first codeword that is no field element (41_reed_solomon R224). -/
theorem blockCheck_of_codeword (s : State) (len i : Nat) (h0 : 0 < len) (h1 : len ≤ 1024) (hi : i < len)
    (hbad : 255 < cwAt s i) (hfirst : ∀ j, j < i → cwAt s j ≤ 255) :
    blockCheck len (cwList s len) = some (argumentError 0x16 i) := by
  have hindex : firstIndex (fun v => decide (v > 255)) (cwList s len) 0 = some i := by
    refine (firstIndex_some _ _ 0 i).2 ⟨i, by simpa [cwList] using hi, (Nat.zero_add i).symm, ?_, fun m hm => ?_⟩
    · simpa [cwList] using hbad
    · simpa [cwList] using hfirst m hm
  rw [blockCheck_of_length_le _ _ h0 h1, hindex]
  rfl

theorem blockCheck_of_accepted (s : State) (len : Nat) (h : blockAccepted s len) :
    blockCheck len (cwList s len) = none := by
  obtain ⟨h0, h1, hcw⟩ := h
  have hindex : firstIndex (fun v => decide (v > 255)) (cwList s len) 0 = none := by
    rw [firstIndex_none]
    simpa [cwList] using hcw
  rw [blockCheck_of_length_le _ _ h0 h1, hindex]
  rfl

theorem decodeCheck_of_blockCheck (len n era : Nat) (block : List Nat) (e : CmdError)
    (h : blockCheck len block = some e) : decodeCheck len n era block = some e := by
  rw [decodeCheck, h]

/-- The checks on the counts, of a block that passes its own (41_reed_solomon R231). -/
theorem decodeCheck_of_accepted (s : State) (len n era : Nat) (h : blockAccepted s len) :
    decodeCheck len n era (cwList s len) =
      if era > 1024 then some (argumentError 0x18 0)
      else if n > 512 then some (checksumError 0x10 0)
      else if era > n / 2 + 3 then some (checksumError 0x11 0)
      else none := by
  rw [decodeCheck, blockCheck_of_accepted s len h]
  rfl

theorem decodeCheck_of_decodeAccepted (s : State) (h : decodeAccepted s) :
    decodeCheck s.regs.cwLen.toNat s.regs.nec.toNat s.regs.eraCnt.toNat (cwList s s.regs.cwLen.toNat) = none := by
  obtain ⟨hblock, hera, hnec, hcap⟩ := h
  rw [decodeCheck_of_accepted s _ _ _ hblock, if_neg (not_lt.2 hera), if_neg (not_lt.2 hnec), if_neg (not_lt.2 hcap)]

/-! ## RS_SYNDROME -/

theorem exec_rsSyndrome_error (s : State) (e : CmdError)
    (h : blockCheck s.regs.cwLen.toNat (cwList s s.regs.cwLen.toNat) = some e) :
    exec .rsSyndrome s = finish (s, some e) := by
  change finish (rsSyndromeBody s) = _
  simp only [rsSyndromeBody, h]

theorem exec_rsSyndrome_accepted (s : State) (h : blockAccepted s s.regs.cwLen.toNat) :
    exec .rsSyndrome s = finish (if s.regs.nec.toNat > 512 then (s, some (argumentError 0x10 0))
      else (writeSyndromes s (receivedSyndromes s), none)) := by
  change finish (rsSyndromeBody s) = _
  simp only [rsSyndromeBody, blockCheck_of_accepted s _ h, gfBlock_cwList]
  rfl

/-- Settles O28: the checks in their order, and then the syndromes with zeros above them. -/
theorem rsSyndromeEvaluatesTheBlock : Obligations.RsSyndromeEvaluatesTheBlock := by
  refine ⟨decode_encode .rsSyndrome, ?_⟩
  rintro s len n rfl rfl
  refine ⟨fun hlen => ?_, fun i h0 h1 hi hbad hfirst => ?_, fun hblock hn => ?_, fun hblock hn => ?_⟩
  · rw [exec_rsSyndrome_error s _ (blockCheck_of_length _ _ hlen)]
    rfl
  · rw [exec_rsSyndrome_error s _ (blockCheck_of_codeword s _ i h0 h1 hi hbad hfirst)]
    rfl
  · rw [exec_rsSyndrome_accepted s hblock, if_pos hn]
    rfl
  · refine ⟨withOutcome (writeSyndromes s (receivedSyndromes s)) .ok 0 0, ?_, rfl, ?_, fun i hi => ?_,
      fun i hi hi' => ?_, sameExcept_withOutcome (sameExcept_writeSyndromes s _)⟩
    · rw [exec_rsSyndrome_accepted s hblock, if_neg (not_lt.2 hn)]
      rfl
    · have hclean := allZero_receivedSyndromes_iff s
      simp only [withOutcome_regs, writeSyndromes_regs, Bool.not_eq_true', ← Bool.not_eq_true, hclean, blockClean]
      push Not
      rfl
    · rw [readWord_withOutcome, readWord_writeSyndromes _ _ i (hi.trans_le hn), receivedSyndromes_getD s i hi]
    · rw [readWord_withOutcome, readWord_writeSyndromes _ _ i hi', receivedSyndromes_getD_of_le s i hi]
      rfl

/-! ## SLD_CHECK -/

theorem exec_sldCheck (s : State) : exec .sldCheck s = finish (
    if s.regs.cwLen.toNat = 0 ∨ s.regs.cwLen.toNat > 1024 then (s, some (argumentError 0x23 0))
    else if s.regs.cwLen.toNat < 4 then (s, some (formatError 0x20 0))
    else if cwAt s 0 > s.regs.cwLen.toNat then (s, some (formatError 0x21 0))
    else if cwAt s 0 = 0 then
      if s.regs.nec.toNat < s.regs.cwLen.toNat then
        (storeElems s .cw [BitVec.ofNat 32 (s.regs.cwLen.toNat - s.regs.nec.toNat)], none)
      else (s, some (formatError 0x22 0))
    else (s, none)) := rfl

/-- The checks on the length and the descriptor, passed (41_reed_solomon R245). -/
theorem exec_sldCheck_checked (s : State) (h4 : 4 ≤ s.regs.cwLen.toNat) (hmax : s.regs.cwLen.toNat ≤ 1024)
    (hsld : cwAt s 0 ≤ s.regs.cwLen.toNat) : exec .sldCheck s = finish (
    if cwAt s 0 = 0 then
      if s.regs.nec.toNat < s.regs.cwLen.toNat then
        (storeElems s .cw [BitVec.ofNat 32 (s.regs.cwLen.toNat - s.regs.nec.toNat)], none)
      else (s, some (formatError 0x22 0))
    else (s, none)) := by
  rw [exec_sldCheck, if_neg (by omega), if_neg (not_lt.2 h4), if_neg (not_lt.2 hsld)]

/-- A repaired descriptor reads back: it has at most 11 bits. -/
theorem readWord_storeDescriptor (s : State) (v : Nat) (hv : v ≤ 1024) :
    readWord (storeElems s .cw [BitVec.ofNat 32 v]) 0x1000 = BitVec.ofNat 32 v := by
  refine readWord_storeElems s .cw [BitVec.ofNat 32 v] 0 Nat.one_pos (show 4 * 1 ≤ 0x1000 by decide) fun j _ hd => ?_
  have hhigh : 2 ^ 16 ≤ 2 ^ (8 * j) := Nat.pow_le_pow_right (by decide) (Nat.mul_le_mul_left 8 hd)
  apply BitVec.eq_of_toNat_eq
  rw [List.getElem_cons_zero, byteOf, BitVec.extractLsb'_toNat, BitVec.toNat_ofNat,
    Nat.mod_eq_of_lt (show v < 2 ^ 32 by omega), Nat.shiftRight_eq_div_pow, Nat.div_eq_of_lt (by omega)]
  rfl

/-- Settles O36: the checks in their order; a repair is a store of one codeword. -/
theorem sldCheckVerifiesAndRepairs : Obligations.SldCheckVerifiesAndRepairs := by
  refine ⟨decode_encode .sldCheck, ?_⟩
  rintro s len n sld rfl rfl rfl
  refine ⟨fun hlen => ?_, fun h0 h4 => ?_, fun h4 hmax hsld => ?_, fun h4 hmax hzero hn => ?_,
    fun h4 hmax hzero hn => ⟨withOutcome
      (storeElems s .cw [BitVec.ofNat 32 (s.regs.cwLen.toNat - s.regs.nec.toNat)]) .ok 0 0, ?_, rfl, ?_, ?_⟩,
    fun h4 hmax hpos hsld => ?_⟩
  · rw [exec_sldCheck, if_pos hlen]
    rfl
  · rw [exec_sldCheck, if_neg (by omega), if_pos h4]
    rfl
  · rw [exec_sldCheck, if_neg (by omega), if_neg (not_lt.2 h4), if_pos hsld]
    rfl
  · rw [exec_sldCheck_checked s h4 hmax (by omega), if_pos hzero, if_neg (not_lt.2 hn)]
    rfl
  · rw [exec_sldCheck_checked s h4 hmax (by omega), if_pos hzero, if_pos hn]
    rfl
  · rw [readWord_withOutcome, readWord_storeDescriptor s _ (by omega)]
  · exact sameExcept_withOutcome (sameExcept_storeElems s .cw _)
  · rw [exec_sldCheck_checked s h4 hmax hsld, if_neg hpos.ne']
    rfl

/-! ## RS_DECODE: the checks and the clean exit -/

theorem exec_rsDecode_error (s : State) (e : CmdError)
    (h : decodeCheck s.regs.cwLen.toNat s.regs.nec.toNat s.regs.eraCnt.toNat (cwList s s.regs.cwLen.toNat) = some e) :
    exec .rsDecode s = finish (s, some e) := by
  change finish (rsDecodeBody s) = _
  simp only [rsDecodeBody, h]

/-- Settles O29: the checks in their order; none of them writes anything. -/
theorem rsDecodePreChecks : Obligations.RsDecodePreChecks := by
  rintro s len n e rfl rfl rfl
  refine ⟨fun hlen => ?_, fun i h0 h1 hi hbad hfirst => ?_, fun hblock he => ?_, fun hblock he hn => ?_,
    fun hblock he hn hcap => ?_⟩
  · rw [exec_rsDecode_error s _ (decodeCheck_of_blockCheck _ _ _ _ _ (blockCheck_of_length _ _ hlen))]
    rfl
  · have hcheck := blockCheck_of_codeword s _ i h0 h1 hi hbad hfirst
    rw [exec_rsDecode_error s _ (decodeCheck_of_blockCheck _ _ _ _ _ hcheck)]
    rfl
  · rw [exec_rsDecode_error s _ (by rw [decodeCheck_of_accepted s _ _ _ hblock, if_pos he])]
    rfl
  · rw [exec_rsDecode_error s _ (by rw [decodeCheck_of_accepted s _ _ _ hblock, if_neg (not_lt.2 he), if_pos hn])]
    rfl
  · rw [exec_rsDecode_error s _ (by
      rw [decodeCheck_of_accepted s _ _ _ hblock, if_neg (not_lt.2 he), if_neg (not_lt.2 hn), if_pos hcap])]
    rfl

/-- The state after a block without errors (41_reed_solomon R232). -/
def cleanState (s : State) : State :=
  writeDecodeResults (writeSyndromes s (receivedSyndromes s)) [1] [] [] 0 0

theorem exec_rsDecode_clean (s : State) (h : decodeAccepted s) (hclean : blockClean s) :
    exec .rsDecode s = .next (withOutcome (cleanState s) .ok 0 0) := by
  have hzero : allZero (syndromes (blockOf s s.regs.cwLen.toNat) s.regs.nec.toNat) = true :=
    (allZero_receivedSyndromes_iff s).2 hclean
  change finish (rsDecodeBody s) = _
  simp only [rsDecodeBody, decodeCheck_of_decodeAccepted s h, gfBlock_cwList, hzero, if_true]
  rfl

theorem cleanState_eq (s : State) (hclean : blockClean s) :
    cleanState s = { storeResults (writeSyndromes s (receivedSyndromes s)) [1] [] [] with
      regs := { s.regs with synNz := false, rsNerr := 0, rsDeg := 0 } } := by
  have hregs : (writeSyndromes s (receivedSyndromes s)).regs = { s.regs with synNz := false } := by
    rw [writeSyndromes_regs, (allZero_receivedSyndromes_iff s).2 hclean]
    rfl
  rw [cleanState, ← List.map_nil (f := elocWord), writeDecodeResults_eq, hregs]
  rfl

/-- Settles O30: the syndromes are 0, and so are the results but for SIGMA[0]. -/
theorem rsDecodeLeavesACleanBlock : Obligations.RsDecodeLeavesACleanBlock := by
  intro s hacc hclean
  have hread (a : Nat) : readWord (withOutcome (cleanState s) .ok 0 0) a =
      readWord (storeResults (writeSyndromes s (receivedSyndromes s)) [1] [] []) a := by
    rw [readWord_withOutcome, cleanState_eq s hclean, readWord_regs]
  refine ⟨withOutcome (cleanState s) .ok 0 0, exec_rsDecode_clean s hacc hclean, ?_, fun i hi => ?_, ?_,
    fun k h0 hk => ?_, fun k hk => ?_, fun j hj => ?_, ?_⟩
  · rw [cleanState_eq s hclean]
    rfl
  · have hzero : (receivedSyndromes s).getD i 0 = 0 := by
      rcases lt_or_ge i s.regs.nec.toNat with hn | hn
      · rw [receivedSyndromes_getD s i hn, hclean i hn]
      · exact receivedSyndromes_getD_of_le s i hn
    rw [hread, readWord_storeResults_syn _ _ _ _ i hi, readWord_writeSyndromes _ _ i hi, hzero]
    rfl
  · rw [hread]
    exact readWord_storeResults_sigma _ _ _ _ 0 (by decide)
  · rw [hread, readWord_storeResults_sigma _ _ _ _ k hk, List.getD_eq_default _ _ h0]
    rfl
  · rw [hread, readWord_storeResults_omega _ _ _ _ k hk]
    rfl
  · rw [hread]
    exact elocAt_storeResults _ _ _ _ j hj
  · rw [cleanState_eq s hclean]
    refine sameExcept_withOutcome (sameExcept_trans ?_ sameExcept_regs)
    exact sameExcept_trans (sameExcept_writeSyndromes_decodeBuffers s _) (sameExcept_storeResults _ _ _ _)

end Sys2Proof.Machine
end

section
/-! PROOFS. The model's field and polynomials as Mathlib's: an embedding of GF(256) into a field, and the polynomial of
a coefficient list, which turns the operations of 40_gf256 R187 to R191 into those of the polynomial ring. -/

namespace Sys2Proof.Machine

open Sys2Proof.Safety
open Polynomial

/-! ## The field -/

/-- A one-to-one map of the model's elements into a field that turns their sums and products into the field's. -/
structure GfEmbedding {F : Type} [Field F] (φ : Gf → F) : Prop where
  map_xor : ∀ a b, φ (a ^^^ b) = φ a + φ b
  map_gfMul : ∀ a b, φ (gfMul a b) = φ a * φ b
  injective : Function.Injective φ

/-- The model's elements as a type of their own, since `BitVec 8` has the arithmetic modulo 256. -/
structure GfElem where
  val : Gf

theorem GfElem.ext_val (a b : GfElem) (h : a.val = b.val) : a = b := congrArg GfElem.mk h

/-- The field laws of 40_gf256 R192 as a structure of Mathlib. -/
@[reducible] def gfField : Field GfElem where
  add a b := ⟨a.val ^^^ b.val⟩
  zero := ⟨0⟩
  neg a := a
  mul a b := ⟨gfMul a.val b.val⟩
  one := ⟨1⟩
  inv a := ⟨gfInvNz a.val⟩
  add_assoc a b c := GfElem.ext_val _ _ (BitVec.xor_assoc _ _ _)
  zero_add a := GfElem.ext_val _ _ (gfZero_xor _)
  add_zero a := GfElem.ext_val _ _ (xor_gfZero _)
  add_comm a b := GfElem.ext_val _ _ (BitVec.xor_comm _ _)
  neg_add_cancel a := GfElem.ext_val _ _ (gf_xor_self _)
  mul_assoc a b c := GfElem.ext_val _ _ (gfMul_assoc _ _ _).symm
  mul_comm a b := GfElem.ext_val _ _ (gfMul_comm _ _)
  one_mul a := GfElem.ext_val _ _ (one_gfMul _)
  mul_one a := GfElem.ext_val _ _ (gfMul_one _)
  left_distrib a b c := GfElem.ext_val _ _ (gfMul_xor _ _ _)
  right_distrib a b c := GfElem.ext_val _ _ (xor_gfMul _ _ _)
  zero_mul a := GfElem.ext_val _ _ (zero_gfMul a.val)
  mul_zero a := GfElem.ext_val _ _ (gfMul_zero a.val)
  exists_pair_ne := ⟨⟨0⟩, ⟨1⟩, fun h => absurd (congrArg GfElem.val h) (by decide)⟩
  mul_inv_cancel a ha := GfElem.ext_val _ _ (gfMul_gfInvNz _ fun h => ha (GfElem.ext_val _ _ h))
  inv_zero := rfl
  nsmul := @nsmulRec _ ⟨⟨0⟩⟩ ⟨fun a b => ⟨a.val ^^^ b.val⟩⟩
  zsmul := @zsmulRec _ ⟨⟨0⟩⟩ ⟨fun a b => ⟨a.val ^^^ b.val⟩⟩ ⟨fun a => a⟩
    (@nsmulRec _ ⟨⟨0⟩⟩ ⟨fun a b => ⟨a.val ^^^ b.val⟩⟩)
  nnqsmul := _
  nnqsmul_def _ _ := rfl
  qsmul := _
  qsmul_def _ _ := rfl

/-- The arithmetic of 40_gf256 is that of a field. -/
theorem exists_gfEmbedding : ∃ (F : Type) (_ : Field F) (φ : Gf → F), GfEmbedding φ := by
  let _ := gfField
  exact ⟨GfElem, gfField, GfElem.mk, fun _ _ => rfl, fun _ _ => rfl, fun _ _ h => congrArg GfElem.val h⟩

section Embedding

variable {F : Type} [Field F] {φ : Gf → F}

namespace GfEmbedding

theorem map_zero (h : GfEmbedding φ) : φ 0 = 0 := by
  have hsum := h.map_xor 0 0
  rwa [xor_gfZero, left_eq_add] at hsum

theorem map_eq_zero_iff (h : GfEmbedding φ) (a : Gf) : φ a = 0 ↔ a = 0 := by
  rw [← h.map_zero, h.injective.eq_iff]

theorem map_one (h : GfEmbedding φ) : φ 1 = 1 := by
  have hone : φ 1 ≠ 0 := (h.map_eq_zero_iff 1).not.2 (by decide)
  have hprod := h.map_gfMul 1 1
  rw [gfMul_one] at hprod
  exact mul_left_cancel₀ hone (by rw [← hprod, mul_one])

/-- The characteristic is 2: each element is its own negative. -/
theorem two_eq_zero (h : GfEmbedding φ) : (2 : F) = 0 := by
  rw [← one_add_one_eq_two, ← h.map_one, ← h.map_xor, gf_xor_self, h.map_zero]

theorem neg_eq (h : GfEmbedding φ) (a : F) : -a = a := by
  linear_combination -a * h.two_eq_zero

theorem map_gfInvNz (h : GfEmbedding φ) (a : Gf) : φ (gfInvNz a) = (φ a)⁻¹ := by
  by_cases ha : a = 0
  · rw [ha, h.map_zero, inv_zero]
    exact h.map_zero
  · exact eq_inv_of_mul_eq_one_right (by rw [← h.map_gfMul, gfMul_gfInvNz a ha, h.map_one])

theorem map_alphaElem (h : GfEmbedding φ) (i : Nat) : φ (alphaElem i) = φ (alphaElem 1) ^ i := by
  induction i with
  | zero => rw [pow_zero, alphaElem_zero, h.map_one]
  | succ i ih => rw [← gfMul_alphaElem, h.map_gfMul, ih, pow_succ]

end GfEmbedding

/-! ## The polynomial of a coefficient list -/

/-- A polynomial of the model in the polynomial ring. -/
noncomputable def polyOf (φ : Gf → F) (p : Poly) : F[X] :=
  ∑ k ∈ Finset.range p.length, monomial k (φ (polyCoef p k))

variable (h : GfEmbedding φ)
include h

theorem coeff_polyOf (p : Poly) (k : Nat) : (polyOf φ p).coeff k = φ (polyCoef p k) := by
  simp only [polyOf, finsetSum_coeff, coeff_monomial, Finset.sum_ite_eq', Finset.mem_range]
  split_ifs with hk
  · rfl
  · rw [polyCoef_of_length_le p k (not_lt.1 hk), h.map_zero]

/-- A polynomial of the ring is that of a list with the same coefficients. -/
theorem polyOf_eq (p : Poly) (P : F[X]) (hcoef : ∀ k, φ (polyCoef p k) = P.coeff k) : polyOf φ p = P :=
  Polynomial.ext fun k => (coeff_polyOf h p k).trans (hcoef k)

theorem polyOf_zero : polyOf φ [0] = 0 :=
  polyOf_eq h _ _ fun k => by rw [polyCoef_zero, h.map_zero, coeff_zero]

theorem polyOf_one : polyOf φ [1] = 1 := by
  refine polyOf_eq h _ _ fun k => ?_
  rw [polyCoef_cons, polyCoef_nil, coeff_one, List.length_nil]
  split_ifs
  · exact h.map_one
  · exact h.map_zero

theorem polyOf_polyAdd (a b : Poly) (ha : normalPoly a) (hb : normalPoly b) :
    polyOf φ (polyAdd a b) = polyOf φ a + polyOf φ b :=
  polyOf_eq h _ _ fun k => by
    rw [polyCoef_polyAdd a b ha hb, h.map_xor, coeff_add, coeff_polyOf h, coeff_polyOf h]

theorem map_coefMul (f g : Nat → Gf) (k : Nat) :
    φ (coefMul f g k) = ∑ i ∈ Finset.range (k + 1), φ (f i) * φ (g (k - i)) := by
  induction k generalizing f with
  | zero => rw [coefMul, h.map_gfMul, Finset.sum_range_one]
  | succ k ih =>
    rw [coefMul, h.map_xor, h.map_gfMul, ih, Finset.sum_range_succ' _ (k + 1), add_comm]
    simp only [Nat.add_sub_add_right, Nat.sub_zero]

theorem polyOf_polyMul (a b : Poly) (ha : normalPoly a) (hb : normalPoly b) :
    polyOf φ (polyMul a b) = polyOf φ a * polyOf φ b :=
  polyOf_eq h _ _ fun k => by
    rw [polyCoef_polyMul a b ha hb, map_coefMul h, coeff_mul, Finset.Nat.sum_antidiagonal_eq_sum_range_succ_mk]
    exact Finset.sum_congr rfl fun i _ => by rw [coeff_polyOf h, coeff_polyOf h]

theorem polyOf_polyScale (a : Poly) (c : Gf) : polyOf φ (polyScale a c) = polyOf φ a * C (φ c) := by
  refine polyOf_eq h _ _ fun k => ?_
  rw [coeff_mul_C, coeff_polyOf h, ← h.map_gfMul, polyScale]
  split_ifs with hc
  · rw [hc, gfMul_zero, polyCoef_zero]
  · rw [polyCoef_polyNorm, polyCoef_map_gfMul]

theorem polyOf_polyMono_one (n : Nat) : polyOf φ (polyMono n 1) = X ^ n := by
  refine polyOf_eq h _ _ fun k => ?_
  rw [polyCoef_polyMono, coeff_X_pow]
  split_ifs
  · exact h.map_one
  · exact h.map_zero

/-- Long division in the ring (40_gf256 R190). -/
theorem polyOf_polyDivMod (a b : Poly) (ha : normalPoly a) (hb : normalPoly b) (hb0 : b ≠ [0]) :
    polyOf φ (polyDivMod a b).1 * polyOf φ b + polyOf φ (polyDivMod a b).2 = polyOf φ a := by
  obtain ⟨hq, hr, hdiv, -⟩ := longDivisionLeavesASmallerRemainder a b ha hb hb0
  rw [← polyOf_polyMul h _ _ hq hb, ← polyOf_polyAdd h _ _ (normalPoly_polyMul _ _) hr, hdiv]

theorem polyOf_eq_zero_iff (p : Poly) (hp : normalPoly p) : polyOf φ p = 0 ↔ p = [0] := by
  refine ⟨fun hzero => polyCoef_injective p [0] hp normalPoly_zero fun k => ?_, fun hzero => ?_⟩
  · rw [polyCoef_zero, ← h.map_eq_zero_iff, ← coeff_polyOf h, hzero, coeff_zero]
  · rw [hzero, polyOf_zero h]

theorem natDegree_polyOf (p : Poly) (hp : normalPoly p) : (polyOf φ p).natDegree = polyDeg p := by
  by_cases hp0 : p = [0]
  · rw [hp0, polyOf_zero h, natDegree_zero]
    rfl
  · refine natDegree_eq_of_le_of_coeff_ne_zero ?_ ?_
    · refine natDegree_le_iff_coeff_eq_zero.2 fun k hk => ?_
      rw [coeff_polyOf h, polyCoef_of_polyDeg_lt p k hk, h.map_zero]
    · rw [coeff_polyOf h, Ne, h.map_eq_zero_iff]
      exact polyCoef_polyDeg_ne_zero p hp hp0

theorem polyOf_append_singleton (p : Poly) (c : Gf) : polyOf φ (p ++ [c]) = polyOf φ p * X + C (φ c) := by
  refine polyOf_eq h _ _ fun k => ?_
  rw [polyCoef, List.reverse_append, List.reverse_singleton, List.singleton_append]
  cases k with
  | zero => simp
  | succ k => rw [List.getD_cons_succ, coeff_add, coeff_mul_X, coeff_C_succ, add_zero, coeff_polyOf h, polyCoef]

/-- The value of a polynomial is its value in the ring. -/
theorem eval_polyOf (p : Poly) (x : Gf) : (polyOf φ p).eval (φ x) = φ (polyValue p x) := by
  induction p using List.reverseRecOn with
  | nil => rw [polyOf, List.length_nil, Finset.sum_range_zero, eval_zero]; exact h.map_zero.symm
  | append_singleton p c ih =>
    rw [polyOf_append_singleton h, eval_add, eval_mul, eval_X, eval_C, ih, ← h.map_gfMul, ← h.map_xor,
      polyValue, polyValue, List.foldl_append]
    rfl

end Embedding

end Sys2Proof.Machine
end

section
/-! PROOFS. The algebra of decoding over any field: the locator and the evaluator of a set of errors satisfy the key
equation (41_reed_solomon R233), and a solution of it with small degrees is a multiple of them. -/

namespace Sys2Proof.Machine

open Polynomial

section Algebra

variable {F : Type} [Field F]

/-- `r` and `t` solve the key equation for the syndrome polynomial `S` with a cofactor prime to `t`, and their degrees
are as small as the stopping rule of 41_reed_solomon R233 makes them. -/
def SolvesKeyEquation (n : Nat) (S r t : F[X]) : Prop :=
  ∃ u, r = u * X ^ n + t * S ∧ IsCoprime u t ∧ r.natDegree < n / 2 ∧ t.natDegree + n / 2 ≤ n

/-- Two solutions of the key equation with small degrees differ by a constant factor: a common factor of `t` would be
one of its cofactor `u` too. -/
theorem keyEquation_unique (n : Nat) (S r t σ ω w : F[X]) (h : SolvesKeyEquation n S r t) (hω : ω = w * X ^ n + σ * S)
    (hσω : IsCoprime σ ω) (hσ : σ ≠ 0) (hωdeg : ω.natDegree < n / 2) (hσdeg : σ.natDegree ≤ n / 2) :
    ∃ c, c ≠ 0 ∧ t = C c * σ ∧ r = C c * ω := by
  obtain ⟨u, hr, hut, hrdeg, htdeg⟩ := h
  have hX : (X : F[X]) ^ n ≠ 0 := pow_ne_zero n X_ne_zero
  have hcross : t * ω - σ * r = (t * w - σ * u) * X ^ n := by
    rw [hr, hω]
    ring
  have hzero : t * w - σ * u = 0 := by
    by_contra hne
    have hle : n ≤ ((t * w - σ * u) * X ^ n).natDegree := by
      rw [natDegree_mul hne hX, natDegree_X_pow]
      exact Nat.le_add_left _ _
    have hlt : (t * ω - σ * r).natDegree < n := by
      refine (natDegree_sub_le _ _).trans_lt (max_lt ?_ ?_)
      · exact natDegree_mul_le.trans_lt (by omega)
      · exact natDegree_mul_le.trans_lt (by omega)
    rw [hcross] at hlt
    exact absurd hlt (not_lt.2 hle)
  rw [hzero, zero_mul, sub_eq_zero] at hcross
  obtain ⟨l, rfl⟩ : σ ∣ t := hσω.dvd_of_dvd_mul_right ⟨r, hcross⟩
  have hrl : r = l * ω := mul_left_cancel₀ hσ (by rw [← hcross]; ring)
  have hul : u = l * w := mul_left_cancel₀ hσ (by linear_combination -hzero)
  have hunit : IsUnit l := hut.isUnit_of_dvd' ⟨w, hul⟩ ⟨σ, mul_comm σ l⟩
  obtain ⟨c, hc, rfl⟩ := Polynomial.isUnit_iff.1 hunit
  exact ⟨c, hc.ne_zero, mul_comm σ _, hrl⟩

/-! ## The errors of a block -/

variable {ι : Type} (L : Finset ι) (x e : ι → F)

/-- The locator of the locations `x i` (41_reed_solomon R235). -/
noncomputable def locator : F[X] := ∏ i ∈ L, (1 - C (x i) * X)

/-- The polynomial of the first `n` syndromes of the errors (41_reed_solomon R223). -/
noncomputable def errorSyndromes (n : Nat) : F[X] := ∑ k ∈ Finset.range n, monomial k (∑ i ∈ L, e i * x i ^ k)

theorem errorSyndromes_eq (n : Nat) :
    errorSyndromes L x e n = ∑ i ∈ L, C (e i) * ∑ k ∈ Finset.range n, (C (x i) * X) ^ k := by
  simp only [errorSyndromes, map_sum, Finset.mul_sum]
  rw [Finset.sum_comm]
  refine Finset.sum_congr rfl fun i _ => Finset.sum_congr rfl fun k _ => ?_
  rw [mul_pow, ← C_pow, ← mul_assoc, ← C_mul, C_mul_X_pow_eq_monomial]

theorem locator_eval (y : F) : (locator L x).eval y = ∏ i ∈ L, (1 - x i * y) := by
  simp [locator, eval_prod]

theorem locator_eval_eq_zero_iff (y : F) : (locator L x).eval y = 0 ↔ ∃ i ∈ L, x i * y = 1 := by
  rw [locator_eval, Finset.prod_eq_zero_iff]
  exact exists_congr fun i => and_congr_right fun _ => by rw [sub_eq_zero, eq_comm]

theorem locator_coeff_zero : (locator L x).coeff 0 = 1 := by
  rw [coeff_zero_eq_eval_zero, locator_eval]
  simp

theorem locator_ne_zero : locator L x ≠ 0 := fun hzero => by
  have hcoeff := locator_coeff_zero L x
  rw [hzero, coeff_zero] at hcoeff
  exact zero_ne_one hcoeff

theorem natDegree_factor (a : F) (ha : a ≠ 0) : (1 - C a * X : F[X]).natDegree = 1 := by
  rw [sub_eq_neg_add, ← neg_mul, ← C_neg, ← C_1, natDegree_linear (neg_ne_zero.2 ha)]

theorem natDegree_locator (hx : ∀ i ∈ L, x i ≠ 0) : (locator L x).natDegree = L.card := by
  rw [locator, natDegree_prod _ _ fun i hi hzero => ?_, Finset.sum_congr rfl fun i hi => natDegree_factor _ (hx i hi)]
  · exact (Finset.card_eq_sum_ones L).symm
  · have hdeg := natDegree_factor _ (hx i hi)
    rw [hzero, natDegree_zero] at hdeg
    exact zero_ne_one hdeg

variable [DecidableEq ι]

/-- The evaluator of the errors with locations `x i` and magnitudes `e i` (41_reed_solomon R235). -/
noncomputable def evaluator : F[X] := ∑ i ∈ L, C (e i) * locator (L.erase i) x

theorem locator_erase_mul (i : ι) (hi : i ∈ L) : locator (L.erase i) x * (1 - C (x i) * X) = locator L x :=
  Finset.prod_erase_mul L _ hi

/-- The key equation: each location's geometric series times its factor is 1 modulo `X^n`. -/
theorem evaluator_keyEquation (n : Nat) :
    ∃ w, evaluator L x e = w * X ^ n + locator L x * errorSyndromes L x e n := by
  refine ⟨∑ i ∈ L, C (e i) * locator (L.erase i) x * C (x i) ^ n, ?_⟩
  rw [errorSyndromes_eq, Finset.sum_mul, Finset.mul_sum, ← Finset.sum_add_distrib, evaluator]
  refine Finset.sum_congr rfl fun i hi => ?_
  have hgeom : (1 - C (x i) * X) * ∑ k ∈ Finset.range n, (C (x i) * X) ^ k = 1 - (C (x i) * X) ^ n :=
    mul_neg_geom_sum _ n
  rw [← locator_erase_mul L x i hi]
  linear_combination (-C (e i) * locator (L.erase i) x) * hgeom

theorem natDegree_evaluator_lt (hx : ∀ i ∈ L, x i ≠ 0) (hL : L.Nonempty) :
    (evaluator L x e).natDegree < L.card := by
  have hpos := hL.card_pos
  refine Nat.lt_of_le_sub_one hpos (natDegree_sum_le_of_forall_le L _ fun i hi => ?_)
  refine (natDegree_C_mul_le _ _).trans_eq ?_
  rw [natDegree_locator _ _ fun j hj => hx j (Finset.mem_of_mem_erase hj), Finset.card_erase_of_mem hi]

/-- At the inverse of a location only its own term of the evaluator is left: Forney's formula (41_reed_solomon R237). -/
theorem evaluator_eval_inv (i : ι) (hi : i ∈ L) (hx : x i ≠ 0) :
    (evaluator L x e).eval (x i)⁻¹ = e i * (locator (L.erase i) x).eval (x i)⁻¹ := by
  rw [evaluator, eval_finsetSum, Finset.sum_eq_single_of_mem i hi]
  · rw [eval_mul, eval_C]
  · intro j _ hji
    have hroot : (locator (L.erase j) x).eval (x i)⁻¹ = 0 :=
      (locator_eval_eq_zero_iff _ _ _).2 ⟨i, Finset.mem_erase.2 ⟨hji.symm, hi⟩, mul_inv_cancel₀ hx⟩
    rw [eval_mul, hroot, mul_zero]

/-- Forney's denominator is not 0: the locations are distinct (41_reed_solomon R237). -/
theorem locator_erase_eval_inv_ne_zero (i : ι) (hx : x i ≠ 0) (hinj : Function.Injective x) :
    (locator (L.erase i) x).eval (x i)⁻¹ ≠ 0 := by
  rw [Ne, locator_eval_eq_zero_iff]
  rintro ⟨j, hj, hone⟩
  exact Finset.ne_of_mem_erase hj (hinj ((mul_inv_eq_one₀ hx).1 hone))

theorem isCoprime_locator_evaluator (hx : ∀ i ∈ L, x i ≠ 0) (hinj : Function.Injective x) (he : ∀ i ∈ L, e i ≠ 0) :
    IsCoprime (locator L x) (evaluator L x e) := by
  refine IsCoprime.prod_left fun i hi => ?_
  have hirr : Irreducible (1 - C (x i) * X : F[X]) := by
    exact irreducible_of_degree_eq_one
      ((degree_eq_iff_natDegree_eq_of_pos Nat.one_pos).2 (natDegree_factor _ (hx i hi)))
  refine hirr.coprime_iff_not_dvd.2 fun hdvd => ?_
  have hroot : (evaluator L x e).eval (x i)⁻¹ = 0 := by
    refine eval_eq_zero_of_dvd_of_eval_eq_zero hdvd ?_
    rw [eval_sub, eval_one, eval_mul, eval_C, eval_X, mul_inv_cancel₀ (hx i hi), sub_self]
  rw [evaluator_eval_inv L x e i hi (hx i hi)] at hroot
  exact mul_ne_zero (he i hi) (locator_erase_eval_inv_ne_zero L x i (hx i hi) hinj) hroot

/-- At most half as many errors as there are syndromes: every solution of the key equation with small degrees is a
multiple of the locator and the evaluator (41_reed_solomon R241). -/
theorem SolvesKeyEquation.eq_locator (n : Nat) (r t : F[X]) (h : SolvesKeyEquation n (errorSyndromes L x e n) r t)
    (hx : ∀ i ∈ L, x i ≠ 0) (hinj : Function.Injective x) (he : ∀ i ∈ L, e i ≠ 0) (hL : L.Nonempty)
    (hcard : L.card ≤ n / 2) : ∃ c, c ≠ 0 ∧ t = C c * locator L x ∧ r = C c * evaluator L x e := by
  obtain ⟨w, hw⟩ := evaluator_keyEquation L x e n
  exact keyEquation_unique n _ r t _ _ w h hw (isCoprime_locator_evaluator L x e hx hinj he) (locator_ne_zero L x)
    ((natDegree_evaluator_lt L x e hx hL).trans_le hcard) ((natDegree_locator L x hx).trans_le hcard)

/-- At least one error, and fewer than there are syndromes: not every syndrome is 0. -/
theorem errorSyndromes_ne_zero (n : Nat) (hx : ∀ i ∈ L, x i ≠ 0) (hinj : Function.Injective x)
    (he : ∀ i ∈ L, e i ≠ 0) (hL : L.Nonempty) (hcard : L.card ≤ n) : errorSyndromes L x e n ≠ 0 := by
  intro hzero
  obtain ⟨w, hw⟩ := evaluator_keyEquation L x e n
  rw [hzero, mul_zero, add_zero] at hw
  obtain ⟨i, hi⟩ := hL
  have hroot := evaluator_eval_inv L x e i hi (hx i hi)
  have hval : (evaluator L x e).eval (x i)⁻¹ ≠ 0 := by
    rw [hroot]
    exact mul_ne_zero (he i hi) (locator_erase_eval_inv_ne_zero L x i (hx i hi) hinj)
  have hw0 : w ≠ 0 := by
    rintro rfl
    rw [hw, zero_mul, eval_zero] at hval
    exact hval rfl
  have hdeg := natDegree_evaluator_lt L x e hx ⟨i, hi⟩
  rw [hw, natDegree_mul hw0 (pow_ne_zero n X_ne_zero), natDegree_X_pow] at hdeg
  omega

end Algebra

end Sys2Proof.Machine
end

section
/-! PROOFS. The extended Euclidean algorithm: each round keeps two solutions of the key equation with a determinant 1,
so that the algorithm ends in a solution with small degrees (41_reed_solomon R233 to R235). -/

namespace Sys2Proof.Machine

open Sys2Proof.Safety
open Polynomial

/-! ## The rounds in the polynomial ring -/

section Rounds

variable {F : Type} [Field F]

/-- What each round of the extended Euclidean algorithm keeps (41_reed_solomon R233). -/
structure EuclidInv (n : Nat) (S rLast r tLast t : F[X]) : Prop where
  cofactors : ∃ uLast u, rLast = uLast * X ^ n + tLast * S ∧ r = u * X ^ n + t * S ∧ uLast * t + u * tLast = 1
  half_le : n / 2 ≤ rLast.natDegree
  degree_le : r.natDegree ≤ rLast.natDegree
  degree_tLast : tLast.natDegree + rLast.natDegree ≤ n
  degree_t : t.natDegree + rLast.natDegree ≤ n

/-- The start: `x^n` and the syndrome polynomial. -/
theorem EuclidInv.start (n : Nat) (S : F[X]) (hS : S.natDegree ≤ n) : EuclidInv n S (X ^ n) S 0 1 where
  cofactors := ⟨1, 0, by ring, by ring, by ring⟩
  half_le := by rw [natDegree_X_pow]; exact Nat.div_le_self n 2
  degree_le := by rwa [natDegree_X_pow]
  degree_tLast := by rw [natDegree_zero, natDegree_X_pow, zero_add]
  degree_t := by rw [natDegree_one, natDegree_X_pow, zero_add]

/-- A round: long division of `rLast` by `r`, and the same combination of the cofactors. -/
theorem EuclidInv.round {n : Nat} {S rLast r tLast t q r' : F[X]} (h : EuclidInv n S rLast r tLast t)
    (htwo : (2 : F[X]) = 0) (hr : r ≠ 0) (hdiv : q * r + r' = rLast) (hdeg : r' = 0 ∨ r'.natDegree < r.natDegree)
    (hhalf : n / 2 ≤ r.natDegree) : EuclidInv n S r r' t (q * t + tLast) := by
  obtain ⟨uLast, u, hLast, hcur, hdet⟩ := h.cofactors
  have hr' : r'.natDegree ≤ r.natDegree := by
    rcases hdeg with rfl | hlt
    · rw [natDegree_zero]
      exact Nat.zero_le _
    · exact hlt.le
  have hle := h.degree_le
  have htLast := h.degree_tLast
  have ht := h.degree_t
  have hq : (q * t).natDegree + r.natDegree ≤ n := by
    by_cases hq0 : q = 0
    · rw [hq0, zero_mul, natDegree_zero]
      omega
    · have hqr : (q * r).natDegree ≤ rLast.natDegree := by
        rw [eq_sub_of_add_eq hdiv]
        exact (natDegree_sub_le _ _).trans (max_le le_rfl (hr'.trans hle))
      rw [natDegree_mul hq0 hr] at hqr
      have hqt : (q * t).natDegree ≤ q.natDegree + t.natDegree := natDegree_mul_le
      omega
  refine ⟨⟨u, q * u + uLast, hcur, ?_, ?_⟩, hhalf, hr', by omega, ?_⟩
  · linear_combination hdiv + hLast + q * hcur - q * r * htwo
  · linear_combination hdet + q * u * t * htwo
  · have hsum := natDegree_add_le (q * t) tLast
    rcases max_cases (q * t).natDegree tLast.natDegree with ⟨hmax, -⟩ | ⟨hmax, -⟩ <;> omega

/-- Where the degree falls below `n / 2` the key equation is solved. -/
theorem EuclidInv.solves {n : Nat} {S rLast r tLast t : F[X]} (h : EuclidInv n S rLast r tLast t)
    (hdeg : r.natDegree < n / 2) : SolvesKeyEquation n S r t := by
  obtain ⟨uLast, u, -, hcur, hdet⟩ := h.cofactors
  have hhalf := h.half_le
  have ht := h.degree_t
  exact ⟨u, hcur, ⟨tLast, uLast, by linear_combination hdet⟩, hdeg, by omega⟩

end Rounds

/-! ## The algorithm -/

theorem euclidLoop_stop (n fuel : Nat) (rLast r tLast t : Poly) (hdeg : polyDeg r < n / 2) :
    euclidLoop n (fuel + 1) rLast r tLast t = .ok (r, t) := by
  rw [euclidLoop, if_neg (not_le.2 hdeg)]

theorem euclidLoop_round (n fuel : Nat) (rLast r tLast t : Poly) (hdeg : n / 2 ≤ polyDeg r) (hr : normalPoly r)
    (hr0 : r ≠ [0]) : euclidLoop n (fuel + 1) rLast r tLast t =
      euclidLoop n fuel r (polyDivMod rLast r).2 t (polyAdd (polyMul (polyDivMod rLast r).1 t) tLast) := by
  rw [euclidLoop, if_pos hdeg, (polyIsZero_eq_false_iff r hr).2 hr0]
  rfl

/-- A run that ends without an error ends at a degree below `n / 2`. -/
theorem euclidLoop_ok_degree (n fuel : Nat) (rLast r tLast t : Poly) (rt : Poly × Poly)
    (hok : euclidLoop n fuel rLast r tLast t = .ok rt) : polyDeg rt.1 < n / 2 := by
  induction fuel generalizing rLast r tLast t with
  | zero => cases hok
  | succ fuel ih =>
    rw [euclidLoop] at hok
    split_ifs at hok with hdeg hzero
    · exact ih _ _ _ _ hok
    · cases hok
      exact not_le.1 hdeg

theorem euclid_ok_degree (n : Nat) (sx : Poly) (rt : Poly × Poly) (hok : euclid n sx = .ok rt) :
    polyDeg rt.1 < n / 2 := by
  rw [euclid] at hok
  split_ifs at hok
  · exact euclidLoop_ok_degree _ _ _ _ _ _ _ hok
  · exact euclidLoop_ok_degree _ _ _ _ _ _ _ hok

theorem normalPoly_syndromePoly (syn : List Gf) : normalPoly (syndromePoly syn) := normalPoly_polyNorm _

theorem polyCoef_syndromePoly (syn : List Gf) (k : Nat) : polyCoef (syndromePoly syn) k = syn.getD k 0 := by
  rw [syndromePoly, polyCoef_polyNorm, polyCoef_reverse]

theorem polyDeg_syndromePoly_lt (syn : List Gf) (h : 0 < syn.length) : polyDeg (syndromePoly syn) < syn.length := by
  have hzero (k : Nat) (hk : syn.length ≤ k) : polyCoef (syndromePoly syn) k = 0 := by
    rw [polyCoef_syndromePoly, List.getD_eq_default _ _ hk]
  rcases polyDeg_lt_of_polyCoef _ _ (normalPoly_syndromePoly syn) hzero with h0 | hlt
  · rw [h0]
    exact h
  · exact hlt

section Embedding

variable {F : Type} [Field F] {φ : Gf → F} (h : GfEmbedding φ)
include h

theorem GfEmbedding.poly_two_eq_zero : (2 : F[X]) = 0 := by
  rw [← C_ofNat, h.two_eq_zero, C_0]

/-- With fuel above the degree of `r`, the loop ends in a solution of the key equation. -/
theorem euclidLoop_spec (n : Nat) (hn : 1 ≤ n / 2) (S : F[X]) (fuel : Nat) (rLast r tLast t : Poly)
    (hrLast : normalPoly rLast) (hr : normalPoly r) (htLast : normalPoly tLast) (ht : normalPoly t)
    (hinv : EuclidInv n S (polyOf φ rLast) (polyOf φ r) (polyOf φ tLast) (polyOf φ t)) (hfuel : polyDeg r < fuel) :
    ∃ r' t', euclidLoop n fuel rLast r tLast t = .ok (r', t') ∧ normalPoly r' ∧ normalPoly t' ∧
      SolvesKeyEquation n S (polyOf φ r') (polyOf φ t') := by
  induction fuel generalizing rLast r tLast t with
  | zero => exact absurd hfuel (Nat.not_lt_zero _)
  | succ fuel ih =>
    rcases lt_or_ge (polyDeg r) (n / 2) with hstop | hdeg
    · exact ⟨r, t, euclidLoop_stop n fuel _ _ _ _ hstop, hr, ht, hinv.solves (by rwa [natDegree_polyOf h r hr])⟩
    · have hr0 : r ≠ [0] := by
        rintro rfl
        exact absurd (hn.trans hdeg) (by decide)
      obtain ⟨hq, hr', -, hless⟩ := longDivisionLeavesASmallerRemainder rLast r hrLast hr hr0
      have ht' := normalPoly_polyAdd _ _ (normalPoly_polyMul (polyDivMod rLast r).1 t) htLast
      have hround := hinv.round h.poly_two_eq_zero ((polyOf_eq_zero_iff h r hr).not.2 hr0)
        (polyOf_polyDivMod h rLast r hrLast hr hr0)
        (hless.imp (polyOf_eq_zero_iff h _ hr').2 fun hlt => by
          rwa [natDegree_polyOf h _ hr', natDegree_polyOf h r hr])
        (by rwa [natDegree_polyOf h r hr])
      rw [← polyOf_polyMul h _ _ hq ht, ← polyOf_polyAdd h _ _ (normalPoly_polyMul _ _) htLast] at hround
      rw [euclidLoop_round n fuel _ _ _ _ hdeg hr hr0]
      refine ih _ _ _ _ hr hr' ht ht' hround ?_
      rcases hless with hzero | hlt
      · rw [hzero]
        exact (hn.trans hdeg).trans (Nat.le_of_lt_succ hfuel)
      · omega

/-- The extended Euclidean algorithm solves the key equation for at least two syndromes (41_reed_solomon R233). -/
theorem euclid_spec (n : Nat) (hn : 1 ≤ n / 2) (syn : List Gf) (hlen : syn.length = n) :
    ∃ r t, euclid n (syndromePoly syn) = .ok (r, t) ∧ normalPoly r ∧ normalPoly t ∧
      SolvesKeyEquation n (polyOf φ (syndromePoly syn)) (polyOf φ r) (polyOf φ t) := by
  have hS := normalPoly_syndromePoly syn
  have hdeg : polyDeg (syndromePoly syn) < n := hlen ▸ polyDeg_syndromePoly_lt syn (by omega)
  have hmono : polyDeg (polyMono n 1) = n := by
    rw [← natDegree_polyOf h _ (normalPoly_polyMono n 1), polyOf_polyMono_one h, natDegree_X_pow]
  have hstart := EuclidInv.start n (polyOf φ (syndromePoly syn)) (by rw [natDegree_polyOf h _ hS]; exact hdeg.le)
  rw [← polyOf_polyMono_one h, ← polyOf_zero h, ← polyOf_one h] at hstart
  have hone : normalPoly [1] := .inr ⟨List.cons_ne_nil _ _, by decide⟩
  rw [euclid, hmono, if_neg (not_lt.2 hdeg.le)]
  exact euclidLoop_spec h n hn _ (n + 3) _ _ _ _ (normalPoly_polyMono n 1) hS normalPoly_zero hone hstart (by omega)

end Embedding

end Sys2Proof.Machine
end

section
/-! PROOFS. The stages of the decoder after the Euclidean algorithm: normalisation, the Chien search, Forney's formula,
the positions and the corrections (41_reed_solomon R235 to R240), each stage by what it answers. -/

namespace Sys2Proof.Machine

open Sys2Proof.Safety
open Polynomial

/-! ## Normalisation -/

theorem normalPoly_polyScale (a : Poly) (c : Gf) : normalPoly (polyScale a c) := by
  rw [polyScale]
  split_ifs
  · exact normalPoly_zero
  · exact normalPoly_polyNorm _

theorem polyCoef_polyScale (a : Poly) (c : Gf) (k : Nat) : polyCoef (polyScale a c) k = gfMul (polyCoef a k) c := by
  rw [polyScale]
  split_ifs with hc
  · rw [hc, gfMul_zero, polyCoef_zero]
  · rw [polyCoef_polyNorm, polyCoef_map_gfMul]

theorem normalise_of_ne_zero (r t : Poly) (h : polyCoef t 0 ≠ 0) : normalise r t =
    .ok (polyScale t (gfInvNz (polyCoef t 0)), polyScale r (gfInvNz (polyCoef t 0))) :=
  if_neg h

theorem normalise_ok (r t sigma omega : Poly) (h : normalise r t = .ok (sigma, omega)) : polyCoef t 0 ≠ 0 ∧
    sigma = polyScale t (gfInvNz (polyCoef t 0)) ∧ omega = polyScale r (gfInvNz (polyCoef t 0)) := by
  by_cases hzero : polyCoef t 0 = 0
  · rw [normalise, if_pos hzero] at h
    cases h
  · rw [normalise_of_ne_zero r t hzero] at h
    cases h
    exact ⟨hzero, rfl, rfl⟩

/-- After normalisation sigma(0) = 1 (41_reed_solomon R235). -/
theorem normalise_ok_normal (r t sigma omega : Poly) (h : normalise r t = .ok (sigma, omega)) :
    normalPoly sigma ∧ normalPoly omega ∧ polyCoef sigma 0 = 1 := by
  obtain ⟨hzero, rfl, rfl⟩ := normalise_ok r t sigma omega h
  exact ⟨normalPoly_polyScale _ _, normalPoly_polyScale _ _, by rw [polyCoef_polyScale, gfMul_gfInvNz _ hzero]⟩

/-! ## The Chien search -/

theorem gfInvNz_gfInvNz (x : Gf) : gfInvNz (gfInvNz x) = x := by
  obtain ⟨F, _, φ, h⟩ := exists_gfEmbedding
  exact h.injective (by rw [h.map_gfInvNz, h.map_gfInvNz, inv_inv])

theorem gfInvNz_injective : Function.Injective gfInvNz := fun x y hxy => by
  rw [← gfInvNz_gfInvNz x, hxy, gfInvNz_gfInvNz]

theorem gfInvNz_ne_zero (x : Gf) (hx : x ≠ 0) : gfInvNz x ≠ 0 := fun hzero =>
  hx (gfInvNz_injective hzero)

/-- The inverses of all the roots of sigma, in the order of the scan (41_reed_solomon R236). -/
def chienRoots (sigma : Poly) : List Gf :=
  (((List.range 255).map (fun i => i + 1)).filter (fun i => decide (polyEval sigma (BitVec.ofNat 8 i) = 0))).map
    (fun i => gfInvNz (BitVec.ofNat 8 i))

theorem chienScan_eq_take (sigma : Poly) (is : List Nat) (n : Nat) : chienScan sigma is n =
    ((is.filter (fun i => decide (polyEval sigma (BitVec.ofNat 8 i) = 0))).map
      (fun i => gfInvNz (BitVec.ofNat 8 i))).take n := by
  fun_induction chienScan sigma is n with
  | case1 => simp
  | case2 => simp
  | case3 i is n x hroot ih =>
    rw [List.filter_cons_of_pos (by simpa using hroot), List.map_cons, List.take_succ_cons, ih]
  | case4 i is n x hroot ih => rw [List.filter_cons_of_neg (by simpa using hroot), ih]

theorem mem_chienRoots (sigma : Poly) (hsigma : sigma ≠ []) (x : Gf) :
    x ∈ chienRoots sigma ↔ x ≠ 0 ∧ polyValue sigma (gfInvNz x) = 0 := by
  have hscan : x ∈ chienRoots sigma ↔
      ∃ y : Gf, y ≠ 0 ∧ polyEval sigma y = 0 ∧ gfInvNz y = x := by
    simp only [chienRoots, List.mem_map, List.mem_filter, List.mem_range, decide_eq_true_eq]
    constructor
    · rintro ⟨i, ⟨⟨j, hj, rfl⟩, hroot⟩, rfl⟩
      refine ⟨_, fun hzero => ?_, hroot, rfl⟩
      have hval := congrArg BitVec.toNat hzero
      rw [BitVec.toNat_ofNat] at hval
      change _ = 0 at hval
      omega
    · rintro ⟨y, hy, hroot, rfl⟩
      have hpos : 0 < y.toNat := Nat.pos_of_ne_zero fun hzero => hy (BitVec.eq_of_toNat_eq hzero)
      have hlt : y.toNat < 256 := y.isLt
      exact ⟨y.toNat, ⟨⟨y.toNat - 1, by omega, by omega⟩, by rwa [BitVec.ofNat_toNat, BitVec.setWidth_eq]⟩,
        by rw [BitVec.ofNat_toNat, BitVec.setWidth_eq]⟩
  rw [hscan]
  constructor
  · rintro ⟨y, hy, hroot, rfl⟩
    rw [gfInvNz_gfInvNz, ← polyEval_eq_polyValue sigma y hsigma hy]
    exact ⟨gfInvNz_ne_zero y hy, hroot⟩
  · rintro ⟨hx, hroot⟩
    have hinv := gfInvNz_ne_zero x hx
    exact ⟨gfInvNz x, hinv, by rwa [polyEval_eq_polyValue sigma _ hsigma hinv], gfInvNz_gfInvNz x⟩

theorem nodup_chienRoots (sigma : Poly) : (chienRoots sigma).Nodup := by
  rw [chienRoots]
  refine List.Nodup.map_on ?_ ((List.nodup_range.map (Nat.succ_injective)).filter _)
  intro i hi j hj hij
  have hlt (k : Nat) (hk : k ∈ ((List.range 255).map (fun i => i + 1)).filter
      (fun i => decide (polyEval sigma (BitVec.ofNat 8 i) = 0))) : k < 2 ^ 8 := by
    obtain ⟨m, hm, rfl⟩ := List.mem_map.1 (List.mem_filter.1 hk).1
    exact Nat.succ_lt_succ (List.mem_range.1 hm)
  have hval := congrArg BitVec.toNat (gfInvNz_injective hij)
  rwa [BitVec.toNat_ofNat, BitVec.toNat_ofNat, Nat.mod_eq_of_lt (hlt i hi), Nat.mod_eq_of_lt (hlt j hj)] at hval

theorem chien_of_ne_one (sigma : Poly) (hdeg : polyDeg sigma ≠ 1) : chien sigma =
    if ((chienRoots sigma).take (polyDeg sigma)).length = polyDeg sigma then
      .ok ((chienRoots sigma).take (polyDeg sigma))
    else .error (checksumError 0x14 0) := by
  rw [chien]
  dsimp only
  rw [if_neg hdeg, chienScan_eq_take]
  rfl

/-- The shortcut for one location: 1 + s*x has the root 1/s (41_reed_solomon R236). -/
theorem polyValue_inverse_of_degree_one (sigma : Poly) (hnormal : normalPoly sigma) (hone : polyCoef sigma 0 = 1)
    (hdeg : polyDeg sigma = 1) :
    polyCoef sigma 1 ≠ 0 ∧ polyValue sigma (gfInvNz (polyCoef sigma 1)) = 0 := by
  have hlead : polyCoef sigma 1 ≠ 0 := hdeg ▸ polyCoef_polyDeg_ne_zero sigma hnormal (by rintro rfl; cases hdeg)
  refine ⟨hlead, ?_⟩
  match sigma, hdeg with
  | [s, z], _ =>
    obtain rfl : z = 1 := hone
    change gfMul (gfMul 0 _ ^^^ s) (gfInvNz s) ^^^ 1 = 0
    rw [zero_gfMul, gfZero_xor, gfMul_gfInvNz s hlead, gf_xor_self]

/-- The locations that the Chien search answers are distinct, and their inverses are roots of sigma (41_reed_solomon
R236). -/
theorem chien_ok_roots (sigma : Poly) (hnormal : normalPoly sigma) (hone : polyCoef sigma 0 = 1) (xs : List Gf)
    (h : chien sigma = .ok xs) : xs.Nodup ∧ ∀ x ∈ xs, x ≠ 0 ∧ polyValue sigma (gfInvNz x) = 0 := by
  by_cases hdeg : polyDeg sigma = 1
  · have hxs : xs = [polyCoef sigma 1] := by
      rw [chien] at h
      dsimp only at h
      rw [if_pos hdeg] at h
      cases h
      rfl
    rw [hxs]
    refine ⟨List.nodup_singleton _, fun x hx => ?_⟩
    rw [List.mem_singleton.1 hx]
    exact polyValue_inverse_of_degree_one sigma hnormal hone hdeg
  · rw [chien_of_ne_one sigma hdeg] at h
    split_ifs at h
    cases h
    exact ⟨(nodup_chienRoots sigma).sublist (List.take_sublist _ _), fun x hx =>
      (mem_chienRoots sigma (normalPoly_ne_nil sigma hnormal) x).1 (List.mem_of_mem_take hx)⟩

theorem chien_error (sigma : Poly) (e : CmdError) (h : chien sigma = .error e) : e = checksumError 0x14 0 := by
  rw [chien] at h
  dsimp only at h
  split_ifs at h
  cases h
  rfl

/-- Where sigma has as many roots as its degree, the Chien search answers their inverses in some order. -/
theorem chien_of_roots (sigma : Poly) (hnormal : normalPoly sigma) (hone : polyCoef sigma 0 = 1) (xs : List Gf)
    (hxs : xs.Nodup) (hlen : xs.length = polyDeg sigma)
    (hroots : ∀ x, x ∈ xs ↔ x ≠ 0 ∧ polyValue sigma (gfInvNz x) = 0) : ∃ ys, chien sigma = .ok ys ∧ ys.Perm xs := by
  have hmem := mem_chienRoots sigma (normalPoly_ne_nil sigma hnormal)
  cases hchien : chien sigma with
  | ok ys =>
    obtain ⟨hys, hysroots⟩ := chien_ok_roots sigma hnormal hone ys hchien
    have hsub : ys.Subperm xs := hys.subperm fun y hy => (hroots y).2 (hysroots y hy)
    exact ⟨ys, rfl, hsub.perm_of_length_le (by rw [hlen, (chien_ok sigma ys hchien).1])⟩
  | error e =>
    exfalso
    have hall : polyDeg sigma ≤ (chienRoots sigma).length :=
      hlen ▸ (hxs.subperm fun x hx => (hmem x).2 ((hroots x).1 hx)).length_le
    by_cases hdeg : polyDeg sigma = 1
    · rw [chien] at hchien
      dsimp only at hchien
      rw [if_pos hdeg] at hchien
      cases hchien
    · rw [chien_of_ne_one sigma hdeg, if_pos (by rw [List.length_take, min_eq_left hall])] at hchien
      cases hchien

/-! ## Forney's formula -/

/-- A fallible map succeeds where its function succeeds on every entry. -/
theorem mapE_of_forall_ok {α β : Type} (f : α → Except CmdError β) (g : α → β) (as : List α)
    (h : ∀ a ∈ as, f a = .ok (g a)) : mapE f as = .ok (as.map g) := by
  induction as with
  | nil => rfl
  | cons a as ih =>
    rw [mapE, h a List.mem_cons_self, ih fun b hb => h b (List.mem_cons_of_mem a hb)]
    rfl

/-- The locations of other indices than `i`, as Forney's denominator runs over them. -/
def otherLocations (xs : List Gf) (i : Nat) : List Gf :=
  ((List.range xs.length).filter (fun j => decide (j ≠ i))).map (fun j => xs.getD j 0)

theorem otherLocations_toFinset (xs : List Gf) (hxs : xs.Nodup) (i : Nat) (hi : i < xs.length) :
    (otherLocations xs i).toFinset = xs.toFinset.erase xs[i] := by
  ext x
  simp only [otherLocations, Finset.mem_erase, List.mem_toFinset, List.mem_map, List.mem_filter, List.mem_range,
    decide_eq_true_eq]
  constructor
  · rintro ⟨j, ⟨hj, hji⟩, rfl⟩
    rw [List.getD_eq_getElem _ _ hj]
    exact ⟨fun heq => hji (hxs.getElem_inj_iff.1 heq), List.getElem_mem hj⟩
  · rintro ⟨hne, hx⟩
    obtain ⟨j, hj, rfl⟩ := List.getElem_of_mem hx
    exact ⟨j, ⟨hj, fun hji => hne (by simp only [hji])⟩, List.getD_eq_getElem _ _ hj⟩

theorem nodup_otherLocations (xs : List Gf) (hxs : xs.Nodup) (i : Nat) : (otherLocations xs i).Nodup := by
  refine List.Nodup.map_on (fun j hj k hk hjk => ?_) (List.nodup_range.filter _)
  have hjlt := List.mem_range.1 (List.mem_filter.1 hj).1
  have hklt := List.mem_range.1 (List.mem_filter.1 hk).1
  rw [List.getD_eq_getElem _ _ hjlt, List.getD_eq_getElem _ _ hklt] at hjk
  exact hxs.getElem_inj_iff.1 hjk

section Embedding

variable {F : Type} [Field F] {φ : Gf → F} (h : GfEmbedding φ)
include h

theorem map_foldl_gfMul (f : Nat → Gf) (is : List Nat) (d : Gf) :
    φ (is.foldl (fun den j => gfMul den (f j)) d) = φ d * (is.map (fun j => φ (f j))).prod := by
  induction is generalizing d with
  | nil => rw [List.foldl_nil, List.map_nil, List.prod_nil, mul_one]
  | cons i is ih => rw [List.foldl_cons, ih, h.map_gfMul, List.map_cons, List.prod_cons, mul_assoc]

/-- Forney's denominator is the locator of the other locations at the inverse of this one (41_reed_solomon R237). -/
theorem map_forneyDen (xs : List Gf) (hxs : xs.Nodup) (i : Nat) (hi : i < xs.length) (y : Gf) :
    φ (forneyDen xs i y) = (locator (xs.toFinset.erase xs[i]) φ).eval (φ y) := by
  have hfactor (x : Gf) : φ (gfAdd 1 (gfMul x y)) = 1 - φ x * φ y := by
    rw [gfAdd, h.map_xor, h.map_one, h.map_gfMul, sub_eq_add_neg, h.neg_eq]
  rw [forneyDen, map_foldl_gfMul h, h.map_one, one_mul, locator_eval, ← otherLocations_toFinset xs hxs i hi,
    List.prod_toFinset _ (nodup_otherLocations xs hxs i), otherLocations, List.map_map]
  exact congrArg List.prod (List.map_congr_left fun j _ => hfactor _)

/-- The magnitude at a location, in the field (41_reed_solomon R237). -/
theorem forneyAt_spec (omega : Poly) (homega : omega ≠ []) (xs : List Gf) (hxs : xs.Nodup) (i : Nat)
    (hi : i < xs.length) (hx : xs[i] ≠ 0) : ∃ y, forneyAt omega xs i = .ok y ∧
      φ y = (polyOf φ omega).eval (φ xs[i])⁻¹ / (locator (xs.toFinset.erase xs[i]) φ).eval (φ xs[i])⁻¹ := by
  have hget : xs.getD i 0 = xs[i] := List.getD_eq_getElem _ _ hi
  have hden := map_forneyDen h xs hxs i hi (gfInvNz xs[i])
  have hφx : φ xs[i] ≠ 0 := (h.map_eq_zero_iff _).not.2 hx
  have hden0 : forneyDen xs i (gfInvNz xs[i]) ≠ 0 := by
    rw [Ne, ← h.map_eq_zero_iff, hden, h.map_gfInvNz]
    exact locator_erase_eval_inv_ne_zero _ φ _ hφx h.injective
  refine ⟨gfMul (polyEval omega (gfInvNz xs[i])) (gfInvNz (forneyDen xs i (gfInvNz xs[i]))), ?_, ?_⟩
  · rw [forneyAt]
    dsimp only
    rw [hget, if_neg hden0]
    rfl
  · rw [h.map_gfMul, polyEval_eq_polyValue omega _ homega (gfInvNz_ne_zero _ hx), ← eval_polyOf h,
      h.map_gfInvNz (forneyDen _ _ _), hden, h.map_gfInvNz, div_eq_mul_inv]

end Embedding

/-- Forney's formula never fails: the detail 0x19 is not reached (41_reed_solomon R237). -/
theorem forney_ok (omega : Poly) (homega : omega ≠ []) (xs : List Gf) (hxs : xs.Nodup) (hx : ∀ x ∈ xs, x ≠ 0) :
    ∃ ys, forney omega xs = .ok ys := by
  obtain ⟨F, _, φ, h⟩ := exists_gfEmbedding
  cases hys : forney omega xs with
  | ok ys => exact ⟨ys, rfl⟩
  | error e =>
    obtain ⟨i, hi, herr⟩ := mapE_error _ _ e hys
    have hlt := List.mem_range.1 hi
    obtain ⟨y, hy, -⟩ := forneyAt_spec h omega homega xs hxs i hlt (hx _ (List.getElem_mem hlt))
    rw [hy] at herr
    cases herr

/-! ## Positions -/

theorem positionOf_alphaElem (len l : Nat) (hl : l < 255) : positionOf len (alphaElem l) =
    if l + 1 ≤ len then .ok (len - 1 - l) else .error (checksumError 0x15 0) := by
  rw [positionOf, gfLog_alphaElem l hl]
  rfl

/-- A position names the location it comes from (41_reed_solomon R238). -/
theorem positionOf_ok (len : Nat) (x : Gf) (hx : x ≠ 0) (p : Nat) (h : positionOf len x = .ok p) :
    p < len ∧ len - 1 - p < 255 ∧ x = alphaElem (len - 1 - p) := by
  obtain ⟨l, hl, rfl⟩ := exists_alphaElem x hx
  rw [positionOf_alphaElem len l hl] at h
  split_ifs at h with hlen
  cases h
  have hback : len - 1 - (len - 1 - l) = l := by omega
  rw [hback]
  exact ⟨by omega, hl, rfl⟩

theorem positionOf_error (len : Nat) (x : Gf) (e : CmdError) (h : positionOf len x = .error e) :
    e = checksumError 0x15 0 := by
  rw [positionOf] at h
  split_ifs at h
  cases h
  rfl

/-! ## Corrections -/

theorem correct_cons (block : List Gf) (c : Nat × Gf) (rest : List (Nat × Gf)) :
    correct block (c :: rest) = correct (block.modify c.1 (fun v => gfAdd v c.2)) rest := rfl

theorem getD_modify_of_ne (block : List Gf) (f : Gf → Gf) (p i : Nat) (hi : p ≠ i) :
    (block.modify p f).getD i 0 = block.getD i 0 := by
  simp [List.getD_eq_getElem?_getD, hi]

theorem getD_modify_self (block : List Gf) (f : Gf → Gf) (p : Nat) (hp : p < block.length) :
    (block.modify p f).getD p 0 = f (block.getD p 0) := by
  simp [List.getD_eq_getElem?_getD, hp]

/-- A position that no correction names keeps its codeword (41_reed_solomon R239). -/
theorem correct_getD_of_notMem (block : List Gf) (pairs : List (Nat × Gf)) (i : Nat) (hi : i ∉ pairs.map Prod.fst) :
    (correct block pairs).getD i 0 = block.getD i 0 := by
  induction pairs generalizing block with
  | nil => rfl
  | cons c rest ih =>
    rw [List.map_cons, List.mem_cons, not_or] at hi
    rw [correct_cons, ih _ hi.2, getD_modify_of_ne _ _ _ _ (Ne.symm hi.1)]

/-- Each correction is XORed into its codeword (41_reed_solomon R239). -/
theorem correct_getD_of_mem (block : List Gf) (pairs : List (Nat × Gf)) (hnodup : (pairs.map Prod.fst).Nodup)
    (c : Nat × Gf) (hc : c ∈ pairs) (hlen : c.1 < block.length) :
    (correct block pairs).getD c.1 0 = block.getD c.1 0 ^^^ c.2 := by
  induction pairs generalizing block with
  | nil => cases hc
  | cons d rest ih =>
    rw [List.map_cons, List.nodup_cons] at hnodup
    obtain ⟨hd, hrest⟩ := hnodup
    rw [correct_cons]
    rcases List.mem_cons.1 hc with rfl | hc
    · rw [correct_getD_of_notMem _ _ _ hd, getD_modify_self _ _ _ hlen, gfAdd]
    · have hne : d.1 ≠ c.1 := fun heq => hd (heq ▸ List.mem_map_of_mem hc)
      rw [ih _ hrest hc (by rwa [List.length_modify]), getD_modify_of_ne _ _ _ _ hne]

/-! ## The order of the corrections -/

theorem insertByPosition_eq (c : Nat × Gf) (ds : List (Nat × Gf)) :
    insertByPosition c ds = ds.orderedInsert (fun a b => a.1 ≤ b.1) c := by
  induction ds with
  | nil => rfl
  | cons d ds ih => rw [insertByPosition, List.orderedInsert_cons, ih]

/-- The sort of 41_reed_solomon R240 is an insertion sort. -/
theorem sortByPosition_eq (cs : List (Nat × Gf)) :
    sortByPosition cs = cs.insertionSort (fun a b => a.1 ≤ b.1) := by
  induction cs with
  | nil => rfl
  | cons c cs ih => rw [sortByPosition, List.insertionSort_cons, ih, insertByPosition_eq]

theorem sortByPosition_perm (cs : List (Nat × Gf)) : (sortByPosition cs).Perm cs := by
  rw [sortByPosition_eq]
  exact List.perm_insertionSort _ cs

end Sys2Proof.Machine
end

section
/-! PROOFS. RS_DECODE after its checks, for every block: what a decoding that succeeds leaves (O31) and that it solves
the key equation (O32), and what a decoding that fails leaves (O33). -/

namespace Sys2Proof.Machine

open Sys2Proof.Safety
open Polynomial

/-! ## The corrections in order -/

theorem sortByPosition_pairwise (cs : List (Nat × Gf)) (hnodup : (cs.map Prod.fst).Nodup) :
    (sortByPosition cs).Pairwise (fun a b => a.1 < b.1) := by
  have hsorted : (sortByPosition cs).Pairwise (fun a b => a.1 ≤ b.1) := by
    rw [sortByPosition_eq]
    have htotal : Std.Total (fun a b : Nat × Gf => a.1 ≤ b.1) := ⟨fun a b => le_total a.1 b.1⟩
    have htrans : IsTrans (Nat × Gf) (fun a b => a.1 ≤ b.1) := ⟨fun a b c => le_trans⟩
    exact List.pairwise_insertionSort _ cs
  have hne : (sortByPosition cs).Pairwise (fun a b => a.1 ≠ b.1) :=
    List.pairwise_map.1 ((((sortByPosition_perm cs).map Prod.fst).nodup_iff).2 hnodup)
  exact (hsorted.and hne).imp fun h => lt_of_le_of_ne h.1 h.2

/-- The corrections in the order of their positions are one list only. -/
theorem sortByPosition_of_perm (cs errs : List (Nat × Gf)) (hperm : cs.Perm errs)
    (herrs : errs.Pairwise (fun a b => a.1 < b.1)) : sortByPosition cs = errs := by
  have hnodup : (cs.map Prod.fst).Nodup :=
    ((hperm.map Prod.fst).nodup_iff).2 (List.pairwise_map.2 (herrs.imp fun h => h.ne))
  exact ((sortByPosition_perm cs).trans hperm).eq_of_pairwise
    (fun a b _ _ hab hba => absurd hab (not_lt.2 hba.le)) (sortByPosition_pairwise cs hnodup) herrs

/-! ## A decoding that succeeds -/

/-- The positions answered name the locations of the Chien search. -/
theorem positions_ok (len : Nat) (xs : List Gf) (hx : ∀ x ∈ xs, x ≠ 0) (ps : List Nat) (h : positions len xs = .ok ps) :
    xs = ps.map (fun p => alphaElem (len - 1 - p)) ∧ ∀ p ∈ ps, p < len ∧ len - 1 - p < 255 := by
  obtain ⟨hlen, hget⟩ := mapE_ok _ _ _ h
  have hpos (i : Nat) (h1 : i < xs.length) (h2 : i < ps.length) :=
    positionOf_ok len xs[i] (hx _ (List.getElem_mem h1)) ps[i] (hget i h1 h2)
  constructor
  · refine List.ext_getElem (by rw [List.length_map, hlen]) fun i h1 h2 => ?_
    rw [List.getElem_map]
    exact (hpos i h1 (by rwa [hlen])).2.2
  · intro p hp
    obtain ⟨i, hi, rfl⟩ := List.getElem_of_mem hp
    obtain ⟨hlt, hlog, -⟩ := hpos i (by rwa [← hlen]) hi
    exact ⟨hlt, hlog⟩

/-- What a decoding that succeeds answers of its locator and its corrections (41_reed_solomon R235 to R239). -/
theorem decodeBlock_ok_spec (block : List Gf) (n : Nat) (syn : List Gf) (c : Correction)
    (h : decodeBlock block n syn = .ok c) :
    normalPoly c.sigma ∧ polyCoef c.sigma 0 = 1 ∧ (c.pairs.map Prod.fst).Nodup ∧
      ∀ p ∈ c.pairs, p.1 < block.length ∧ block.length - 1 - p.1 < 255 ∧
        polyValue c.sigma (gfInvNz (alphaElem (block.length - 1 - p.1))) = 0 := by
  obtain ⟨r, t, xs, ys, ps, -, hnorm, hchien, hys, hps, hpairs, -, -⟩ := decodeBlock_ok block n syn c h
  obtain ⟨hsigma, -, hone⟩ := normalise_ok_normal _ _ _ _ hnorm
  obtain ⟨hnodup, hroots⟩ := chien_ok_roots _ hsigma hone xs hchien
  obtain ⟨hxs, hlt⟩ := positions_ok _ xs (fun x hx => (hroots x hx).1) ps hps
  obtain ⟨hylen, -⟩ := mapE_ok _ _ _ hys
  obtain ⟨hplen, -⟩ := mapE_ok _ _ _ hps
  have hfst : c.pairs.map Prod.fst = ps := by
    rw [hpairs, List.map_fst_zip (by rw [hylen, hplen, List.length_range])]
  refine ⟨hsigma, hone, ?_, fun p hp => ?_⟩
  · rw [hfst]
    exact (hxs ▸ hnodup).of_map _
  · have hmem : p.1 ∈ ps := hfst ▸ List.mem_map_of_mem hp
    obtain ⟨hlen, hlog⟩ := hlt _ hmem
    exact ⟨hlen, hlog, (hroots _ (hxs ▸ List.mem_map_of_mem hmem)).2⟩

/-- A decoding that succeeds solves the key equation (41_reed_solomon R233, R235). -/
theorem decodeBlock_ok_keyEquation (block : List Gf) (n : Nat) (syn : List Gf) (hlen : syn.length = n) (c : Correction)
    (h : decodeBlock block n syn = .ok c) :
    (∀ k, k < n → polyCoef c.omega k = coefMul (polyCoef c.sigma) (fun i => syn.getD i 0) k) ∧
      ∀ k, n / 2 ≤ k → polyCoef c.omega k = 0 := by
  obtain ⟨r, t, -, -, -, heuclid, hnorm, -⟩ := decodeBlock_ok block n syn c h
  have hdeg := euclid_ok_degree n _ _ heuclid
  obtain ⟨F, _, φ, hφ⟩ := exists_gfEmbedding
  obtain ⟨r', t', heuclid', -, -, u, hr, -, -, -⟩ := euclid_spec hφ n (by omega) syn hlen
  rw [heuclid] at heuclid'
  cases heuclid'
  obtain ⟨-, hsigma, homega⟩ := normalise_ok _ _ _ _ hnorm
  constructor
  · intro k hk
    have hsyn : polyCoef (syndromePoly syn) = fun i => syn.getD i 0 := funext (polyCoef_syndromePoly syn)
    have hprod : polyOf φ c.omega =
        u * C (φ (gfInvNz (polyCoef t 0))) * X ^ n + polyOf φ c.sigma * polyOf φ (syndromePoly syn) := by
      rw [homega, hsigma, polyOf_polyScale hφ, polyOf_polyScale hφ, hr]
      ring
    apply hφ.injective
    rw [← coeff_polyOf hφ, hprod, coeff_add, coeff_mul_X_pow', if_neg (not_le.2 hk), zero_add,
      ← polyOf_polyMul hφ _ _ (hsigma ▸ normalPoly_polyScale _ _) (normalPoly_syndromePoly syn), coeff_polyOf hφ,
      polyCoef_polyMul _ _ (hsigma ▸ normalPoly_polyScale _ _) (normalPoly_syndromePoly syn), hsyn]
  · intro k hk
    rw [homega, polyCoef_polyScale, polyCoef_of_polyDeg_lt r k (hdeg.trans_le hk), zero_gfMul]

/-- The sum of products as the claims write it. -/
theorem coefMul_eq_foldl (f g : Nat → Gf) (k : Nat) :
    coefMul f g k = (List.range (k + 1)).foldl (fun acc j => acc ^^^ gfMul (g (k - j)) (f j)) 0 := by
  obtain ⟨F, _, φ, h⟩ := exists_gfEmbedding
  have hsum (m : Nat) : φ ((List.range m).foldl (fun acc j => acc ^^^ gfMul (g (k - j)) (f j)) 0) =
      ∑ j ∈ Finset.range m, φ (f j) * φ (g (k - j)) := by
    induction m with
    | zero => exact h.map_zero
    | succ m ih => rw [List.range_succ, List.foldl_concat, h.map_xor, ih, h.map_gfMul, Finset.sum_range_succ, mul_comm]
  exact h.injective (by rw [map_coefMul h, hsum])

/-! ## A decoding that fails -/

theorem euclidLoop_error (n fuel : Nat) (rLast r tLast t : Poly) (e : CmdError)
    (h : euclidLoop n fuel rLast r tLast t = .error e) : e = checksumError 0x12 0 := by
  induction fuel generalizing rLast r tLast t with
  | zero => cases h; rfl
  | succ fuel ih =>
    rw [euclidLoop] at h
    split_ifs at h
    · cases h; rfl
    · exact ih _ _ _ _ h

theorem euclid_error (n : Nat) (sx : Poly) (e : CmdError) (h : euclid n sx = .error e) : e = checksumError 0x12 0 := by
  rw [euclid] at h
  split_ifs at h
  · exact euclidLoop_error _ _ _ _ _ _ _ h
  · exact euclidLoop_error _ _ _ _ _ _ _ h

theorem normalise_error (r t : Poly) (e : CmdError) (h : normalise r t = .error e) : e = checksumError 0x13 0 := by
  rw [normalise] at h
  split_ifs at h
  cases h
  rfl

/-- Every failure of the decoding steps has one of the details of 41_reed_solomon R240. -/
theorem decodeBlock_error (block : List Gf) (n : Nat) (syn : List Gf) (e : CmdError)
    (h : decodeBlock block n syn = .error e) :
    ∃ d ∈ [(0x12 : Byte), 0x13, 0x14, 0x15, 0x1B], e = checksumError d 0 := by
  unfold decodeBlock at h
  split at h
  · cases h
    exact ⟨_, by decide, euclid_error _ _ _ ‹_›⟩
  split at h
  · cases h
    exact ⟨_, by decide, normalise_error _ _ _ ‹_›⟩
  rename_i sigma omega hnorm
  obtain ⟨hsigma, homega, hone⟩ := normalise_ok_normal _ _ _ _ hnorm
  split at h
  · cases h
    exact ⟨_, by decide, chien_error _ _ ‹_›⟩
  rename_i xs hchien
  obtain ⟨hnodup, hroots⟩ := chien_ok_roots sigma hsigma hone xs hchien
  obtain ⟨ys, hys⟩ := forney_ok omega (normalPoly_ne_nil _ homega) xs hnodup fun x hx => (hroots x hx).1
  rw [hys] at h
  dsimp only at h
  split at h
  · cases h
    obtain ⟨x, -, hx⟩ := mapE_error _ _ _ ‹_›
    exact ⟨_, by decide, positionOf_error _ _ _ hx⟩
  split_ifs at h
  cases h
  exact ⟨_, by decide, rfl⟩

/-! ## The states that RS_DECODE leaves -/

/-- The state once the syndromes and a corrected block are stored. -/
def storedBlock (s : State) (c : Correction) : State :=
  storeElems (writeSyndromes s (receivedSyndromes s)) .cw (c.block.map (fun v => v.setWidth 32))

/-- The state after a correction (41_reed_solomon R240). -/
def correctedState (s : State) (c : Correction) : State :=
  { storeResults (storedBlock s c) (lowCoefs c.sigma) (lowCoefs c.omega) (sortByPosition c.pairs) with
    regs := { s.regs with
      synNz := true, rsNerr := BitVec.ofNat 9 c.pairs.length, rsDeg := BitVec.ofNat 9 (polyDeg c.sigma) } }

/-- The state after a failure of the decoding steps (41_reed_solomon R240). -/
def failedState (s : State) : State :=
  { forgetWindow (forgetWindow (forgetWindow (writeSyndromes s (receivedSyndromes s)) .sigma) .omega) .eloc with
    regs := { s.regs with synNz := true, rsNerr := 0, rsDeg := 0 } }

/-- The decoding of a state's block. -/
def decodeState (s : State) : Except CmdError Correction :=
  decodeBlock (blockOf s s.regs.cwLen.toNat) s.regs.nec.toNat (receivedSyndromes s)

section Dirty

variable (s : State) (hacc : decodeAccepted s) (hdirty : ¬ blockClean s)
include hacc hdirty

/-- RS_DECODE of a block with errors whose decoding fails (41_reed_solomon R240). -/
theorem exec_rsDecode_of_failure (d : Byte) (h : decodeState s = .error (checksumError d 0)) :
    exec .rsDecode s = .next (withOutcome (failedState s) .checksum d 0) := by
  have hzero : allZero (syndromes (blockOf s s.regs.cwLen.toNat) s.regs.nec.toNat) = false :=
    Bool.eq_false_iff.2 ((allZero_receivedSyndromes_iff s).not.2 hdirty)
  have hbody : rsDecodeBody s = (failedState s, some (checksumError d 0)) := by
    rw [decodeState, receivedSyndromes] at h
    simp only [rsDecodeBody, decodeCheck_of_decodeAccepted s hacc, gfBlock_cwList, hzero, h, failedState,
      Bool.false_eq_true, if_false, forgetWindow_regs, receivedSyndromes, writeSyndromes_regs, Bool.not_false]
  change finish (rsDecodeBody s) = _
  rw [hbody, finish_checksum]

/-- RS_DECODE of a block with errors whose decoding succeeds (41_reed_solomon R240). -/
theorem exec_rsDecode_of_correction (c : Correction) (h : decodeState s = .ok c) :
    exec .rsDecode s = .next (withOutcome (correctedState s c) .ok 0 0) := by
  have hzero : allZero (syndromes (blockOf s s.regs.cwLen.toNat) s.regs.nec.toNat) = false :=
    Bool.eq_false_iff.2 ((allZero_receivedSyndromes_iff s).not.2 hdirty)
  have hbody : rsDecodeBody s = (correctedState s c, none) := by
    rw [decodeState, receivedSyndromes] at h
    simp only [rsDecodeBody, decodeCheck_of_decodeAccepted s hacc, gfBlock_cwList, hzero, h, correctedState,
      storedBlock, Bool.false_eq_true, if_false, writeDecodeResults_eq, storeElems_regs, receivedSyndromes,
      writeSyndromes_regs, Bool.not_false]
  change finish (rsDecodeBody s) = _
  rw [hbody, finish_ok]

end Dirty

/-- An accepted block without an error outcome is clean or was corrected. -/
theorem exec_rsDecode_ok (s t : State) (hacc : decodeAccepted s) (hdirty : ¬ blockClean s)
    (h : exec .rsDecode s = .next t) (herr : t.regs.err = false) :
    ∃ c, decodeState s = .ok c ∧ t = withOutcome (correctedState s c) .ok 0 0 := by
  cases hdecode : decodeState s with
  | ok c =>
    rw [exec_rsDecode_of_correction s hacc hdirty c hdecode] at h
    cases h
    exact ⟨c, rfl, rfl⟩
  | error e =>
    obtain ⟨d, -, rfl⟩ := decodeBlock_error _ _ _ _ hdecode
    rw [exec_rsDecode_of_failure s hacc hdirty d hdecode] at h
    cases h
    cases herr

/-- An accepted block with an error outcome is one whose decoding failed. -/
theorem exec_rsDecode_err (s t : State) (hacc : decodeAccepted s) (h : exec .rsDecode s = .next t)
    (herr : t.regs.err = true) :
    ∃ d ∈ [(0x12 : Byte), 0x13, 0x14, 0x15, 0x1B], t = withOutcome (failedState s) .checksum d 0 := by
  by_cases hclean : blockClean s
  · rw [exec_rsDecode_clean s hacc hclean] at h
    cases h
    cases herr
  cases hdecode : decodeState s with
  | ok c =>
    rw [exec_rsDecode_of_correction s hacc hclean c hdecode] at h
    cases h
    cases herr
  | error e =>
    obtain ⟨d, hd, rfl⟩ := decodeBlock_error _ _ _ _ hdecode
    rw [exec_rsDecode_of_failure s hacc hclean d hdecode] at h
    cases h
    exact ⟨d, hd, rfl⟩

/-! ## Reading the state after a failure -/

theorem readByte_forgetWindow_outside (s : State) (w : Window) (a : Nat) (h : a < w.base ∨ w.base + w.size ≤ a) :
    readByte (forgetWindow s w) a = readByte s a :=
  readByte_forget_outside s _ _ a h

/-- Every byte of a window that was made UNKNOWN is fresh. -/
theorem freshRange_forgetWindow (s t : State) (w : Window) (hdraws : s.draws ≤ t.draws) :
    freshRange s (forgetWindow t w) w.base (w.base + w.size) := fun a hlo hhi hstored =>
  ⟨t.draws + 1, Nat.lt_succ_of_le hdraws, readByte_forget_inside t _ _ a hlo hhi hstored⟩

/-- A byte that stays as it was stays fresh. -/
theorem freshRange_congr {s t u : State} {lo hi : Nat} (h : freshRange s t lo hi)
    (hsame : ∀ a, lo ≤ a → a < hi → readByte u a = readByte t a) : freshRange s u lo hi := fun a hlo hhi hstored => by
  obtain ⟨n, hn, hread⟩ := h a hlo hhi hstored
  exact ⟨n, hn, (hsame a hlo hhi).trans hread⟩

theorem freshRange_union {s t : State} {lo mid hi : Nat} (h : freshRange s t lo mid) (k : freshRange s t mid hi) :
    freshRange s t lo hi := fun a hlo hhi hstored => by
  rcases lt_or_ge a mid with ha | ha
  · exact h a hlo ha hstored
  · exact k a ha hhi hstored

theorem readByte_failedState (s : State) (a : Nat) : readByte (failedState s) a =
    readByte (forgetWindow (forgetWindow (forgetWindow (writeSyndromes s (receivedSyndromes s)) .sigma) .omega)
      .eloc) a :=
  readByte_regs _ _ a

theorem freshRange_failedState_eloc (s : State) : freshRange s (failedState s) 0x3800 0x3C00 :=
  freshRange_congr (freshRange_forgetWindow s _ .eloc (Nat.le_add_right s.draws 2))
    fun a _ _ => readByte_failedState s a

theorem freshRange_failedState_polys (s : State) : freshRange s (failedState s) 0x4000 0x5000 := by
  have hsigma := freshRange_forgetWindow s (writeSyndromes s (receivedSyndromes s)) .sigma le_rfl
  have homega := freshRange_forgetWindow s (forgetWindow (writeSyndromes s (receivedSyndromes s)) .sigma) .omega
    (Nat.le_succ s.draws)
  refine freshRange_union (mid := 0x4800) (freshRange_congr hsigma fun a hlo hhi => ?_)
    (freshRange_congr homega fun a hlo hhi => ?_)
  · rw [readByte_failedState, readByte_forgetWindow_outside, readByte_forgetWindow_outside]
    · exact .inl hhi
    · exact .inr (show 0x3C00 ≤ a from le_trans (by decide) hlo)
  · rw [readByte_failedState, readByte_forgetWindow_outside]
    exact .inr (show 0x3C00 ≤ a from le_trans (by decide) hlo)

theorem sameExcept_failedState (s : State) : sameExcept s (failedState s) decodeBuffers := by
  have hforget (t : State) (w : Window) (hw : (w.base, w.base + w.size) ∈ decodeBuffers) :
      sameExcept t (forgetWindow t w) decodeBuffers :=
    sameExcept_mono (sameExcept_forgetWindow t w) (List.cons_subset.2 ⟨hw, List.nil_subset _⟩)
  have hsyn := sameExcept_writeSyndromes_decodeBuffers s (receivedSyndromes s)
  have hsigma := sameExcept_trans hsyn (hforget _ .sigma (by decide))
  have homega := sameExcept_trans hsigma (hforget _ .omega (by decide))
  exact sameExcept_trans (sameExcept_trans homega (hforget _ .eloc (by decide)))
    sameExcept_regs

/-- SYN keeps the syndromes through a failure. -/
theorem readWord_failedState_syn (s : State) (i : Nat) (hi : i < 512) :
    readWord (failedState s) (0x3000 + 4 * i) = ((receivedSyndromes s).getD i 0).setWidth 32 := by
  rw [← readWord_writeSyndromes s _ i hi]
  refine readWord_congr _ _ _ fun j hj => ?_
  rw [readByte_failedState, readByte_forgetWindow_outside, readByte_forgetWindow_outside,
    readByte_forgetWindow_outside]
  · exact .inl (show 0x3000 + 4 * i + j < 0x4000 by omega)
  · exact .inl (show 0x3000 + 4 * i + j < 0x4800 by omega)
  · exact .inl (show 0x3000 + 4 * i + j < 0x3800 by omega)

/-- Settles O33: the decoding of the block failed with one of the details, and only the result buffers changed. -/
theorem rsDecodeFailureKeepsTheBlock : Obligations.RsDecodeFailureKeepsTheBlock := by
  rintro s t len n rfl rfl hacc hexec herr
  have hnec : s.regs.nec.toNat ≤ 512 := hacc.2.2.1
  obtain ⟨d, hd, rfl⟩ := exec_rsDecode_err s t hacc hexec herr
  refine ⟨hd, rfl, fun i hi => ?_, fun i hi hi' => ?_, ?_, ?_,
    sameExcept_withOutcome (sameExcept_failedState s)⟩
  · rw [readWord_withOutcome, readWord_failedState_syn s i (hi.trans_le hnec), receivedSyndromes_getD s i hi]
  · rw [readWord_withOutcome, readWord_failedState_syn s i hi', receivedSyndromes_getD_of_le s i hi]
    rfl
  · exact freshRange_congr (freshRange_failedState_eloc s) fun a _ _ => readByte_withOutcome _ _ _ _ a
  · exact freshRange_congr (freshRange_failedState_polys s) fun a _ _ => readByte_withOutcome _ _ _ _ a

/-! ## Reading the state after a correction -/

section Corrected

variable (s : State) (c : Correction)

theorem readWord_correctedState (a : Nat) : readWord (withOutcome (correctedState s c) .ok 0 0) a =
    readWord (storeResults (storedBlock s c) (lowCoefs c.sigma) (lowCoefs c.omega) (sortByPosition c.pairs)) a :=
  (readWord_withOutcome _ _ _ _ a).trans (readWord_regs _ _ a)

theorem synAt_correctedState (i : Nat) (hi : i < 512) (hlen : c.block.length ≤ 1024) :
    synAt (withOutcome (correctedState s c) .ok 0 0) i = (receivedSyndromes s).getD i 0 := by
  refine readByte_of_readWord _ (0x3000 + 4 * i) _ ?_
  rw [readWord_correctedState, readWord_storeResults_syn _ _ _ _ i hi, storedBlock, readWord_storeElems_outside,
    readWord_writeSyndromes _ _ i hi]
  rw [List.length_map]
  exact .inr (show 0x1000 + 4 * c.block.length ≤ 0x3000 + 4 * i by omega)

theorem sigmaAt_correctedState (k : Nat) (hk : k < 512) :
    sigmaAt (withOutcome (correctedState s c) .ok 0 0) k = polyCoef c.sigma k :=
  readByte_of_readWord _ (0x4000 + 4 * k) _
    ((readWord_correctedState s c _).trans (readWord_storeResults_sigma _ _ _ _ k hk))

theorem omegaAt_correctedState (k : Nat) (hk : k < 512) :
    omegaAt (withOutcome (correctedState s c) .ok 0 0) k = polyCoef c.omega k :=
  readByte_of_readWord _ (0x4800 + 4 * k) _
    ((readWord_correctedState s c _).trans (readWord_storeResults_omega _ _ _ _ k hk))

theorem elocAt_correctedState (j : Nat) (hj : j < 256) :
    elocAt (withOutcome (correctedState s c) .ok 0 0) j = ((sortByPosition c.pairs).map elocWord).getD j 0 :=
  (readWord_correctedState s c _).trans (elocAt_storeResults _ _ _ _ j hj)

theorem decodeBuffers_lo (r : Nat × Nat) (hr : r ∈ decodeBuffers) : 0x3000 ≤ r.1 := by
  revert r
  decide

/-- The results are stored after the block and leave it as it is. -/
theorem sameExcept_storedBlock :
    sameExcept (storedBlock s c) (withOutcome (correctedState s c) .ok 0 0) decodeBuffers :=
  sameExcept_withOutcome (sameExcept_trans
    (sameExcept_storeResults (storedBlock s c) (lowCoefs c.sigma) (lowCoefs c.omega) (sortByPosition c.pairs))
    sameExcept_regs)

theorem sameExcept_correctedState : sameExcept s (withOutcome (correctedState s c) .ok 0 0)
    ((0x1000, 0x1000 + 4 * c.block.length) :: decodeBuffers) := by
  have hsyn := sameExcept_writeSyndromes_decodeBuffers s (receivedSyndromes s)
  have hcw := sameExcept_storeElems (writeSyndromes s (receivedSyndromes s)) .cw
    (c.block.map (fun v => v.setWidth 32))
  rw [List.length_map] at hcw
  have hblock := sameExcept_trans (ranges := (0x1000, 0x1000 + 4 * c.block.length) :: decodeBuffers)
    (sameExcept_mono hsyn (List.subset_cons_self _ _))
    (sameExcept_mono hcw (List.cons_subset_cons _ (List.nil_subset _)))
  exact sameExcept_trans hblock
    (sameExcept_mono (sameExcept_storedBlock s c) (List.subset_cons_self _ _))

theorem cwAt_correctedState (i : Nat) (hi : i < c.block.length) (hlen : c.block.length ≤ 1024) :
    cwAt (withOutcome (correctedState s c) .ok 0 0) i = (c.block.getD i 0).toNat := by
  have hkeep : cwAt (withOutcome (correctedState s c) .ok 0 0) i = cwAt (storedBlock s c) i :=
    cwAt_of_sameExcept _ _ _ i (sameExcept_storedBlock s c) fun r hr => by
      have hlow := decodeBuffers_lo r hr
      omega
  rw [hkeep, storedBlock, cwAt_storeElems _ _ i hi hlen, List.getD_eq_getElem _ _ hi]

theorem cwAt_correctedState_outside (i : Nat) (hi : c.block.length ≤ i) (hi' : i < 1024) :
    cwAt (withOutcome (correctedState s c) .ok 0 0) i = cwAt s i :=
  cwAt_of_sameExcept _ _ _ i (sameExcept_correctedState s c) fun r hr => by
    rcases List.mem_cons.1 hr with rfl | hr
    · exact .inr (show 0x1000 + 4 * c.block.length ≤ 0x1000 + 4 * i by omega)
    · have hlow := decodeBuffers_lo r hr
      omega

end Corrected

/-- The block of a state, codeword by codeword. -/
theorem blockOf_length (s : State) (len : Nat) : (blockOf s len).length = len := by
  simp [blockOf]

theorem blockOf_getD (s : State) (len i : Nat) (hi : i < len) :
    (blockOf s len).getD i 0 = BitVec.ofNat 8 (cwAt s i) := by
  simp [blockOf, hi]

theorem blockOf_getD_toNat (s : State) (len i : Nat) (hacc : blockAccepted s len) (hi : i < len) :
    ((blockOf s len).getD i 0).toNat = cwAt s i := by
  have hcw := hacc.2.2 i hi
  rw [blockOf_getD s len i hi, BitVec.toNat_ofNat, Nat.mod_eq_of_lt (by omega)]

/-- A list of field elements is the block of a state that holds them. -/
theorem blockOf_eq (s : State) (block : List Gf) (h : ∀ i, i < block.length → cwAt s i = (block.getD i 0).toNat) :
    blockOf s block.length = block := by
  refine List.ext_getElem (blockOf_length s _) fun i h1 h2 => ?_
  rw [← List.getD_eq_getElem _ 0 h1, blockOf_getD s _ i h2, h i h2, BitVec.ofNat_toNat, BitVec.setWidth_eq,
    List.getD_eq_getElem _ _ h2]

/-- The coefficients from the degree down are the polynomial. -/
theorem map_polyCoef_eq (p : Poly) (hp : p ≠ []) :
    (List.range (polyDeg p + 1)).map (fun k => polyCoef p (polyDeg p - k)) = p := by
  have hpos := List.length_pos_iff.2 hp
  have hdeg : polyDeg p = p.length - 1 := rfl
  refine List.ext_getElem (by rw [List.length_map, List.length_range]; omega) fun i h1 h2 => ?_
  rw [List.getElem_map, List.getElem_range, polyCoef, List.getD_eq_getElem _ _ (by rw [List.length_reverse]; omega),
    List.getElem_reverse]
  congr 1
  omega

/-- What a decoding of a state's block that succeeds answers, with the lengths in terms of the state. -/
theorem decodeState_ok (s : State) (c : Correction) (h : decodeState s = .ok c) :
    c.block = correct (blockOf s s.regs.cwLen.toNat) c.pairs ∧ c.block.length = s.regs.cwLen.toNat ∧
      allZero (syndromes c.block s.regs.nec.toNat) = true ∧ c.pairs.length = polyDeg c.sigma ∧
      c.pairs.length ≤ 255 := by
  obtain ⟨-, -, -, -, -, -, -, -, -, -, -, hblock, hzero⟩ := decodeBlock_ok _ _ _ c h
  obtain ⟨hdeg, hle⟩ := decodeBlock_ok_counts _ _ _ c h
  exact ⟨hblock, by rw [hblock, correct_length, blockOf_length], hzero, hdeg, hle⟩

/-- Settles O32: SIGMA and OMEGA hold the coefficients of the locator and the evaluator. -/
theorem rsDecodeSolvesTheKeyEquation : Obligations.RsDecodeSolvesTheKeyEquation := by
  rintro s t len n rfl rfl hacc ⟨i, hi, hne⟩ hexec herr
  have hnec : s.regs.nec.toNat ≤ 512 := hacc.2.2.1
  obtain ⟨c, hdecode, rfl⟩ := exec_rsDecode_ok s t hacc (fun hclean => hne (hclean i hi)) hexec herr
  obtain ⟨hkey, hhigh⟩ := decodeBlock_ok_keyEquation _ _ (receivedSyndromes s) (syndromes_length _ _) c hdecode
  refine ⟨fun k hk => ?_, fun k hk hk' => ?_⟩
  · rw [omegaAt_correctedState s c k (hk.trans_le hnec), hkey k hk, coefMul_eq_foldl]
    refine List.foldl_ext _ _ _ fun acc j hj => ?_
    have hjk : j < k + 1 := List.mem_range.1 hj
    rw [sigmaAt_correctedState s c j (by omega), receivedSyndromes_getD s (k - j) (by omega)]
  · rw [omegaAt_correctedState s c k hk', hhigh k hk]

theorem elocWord_position (c : Nat × Gf) (hc : c.1 < 2 ^ 16) : (elocWord c).toNat % 2 ^ 16 = c.1 := by
  rw [elocWord_toNat]
  omega

theorem elocWord_magnitude (c : Nat × Gf) : (elocWord c).toNat / 2 ^ 16 = c.2.toNat := by
  rw [elocWord_toNat]
  omega

/-- ELOC holds the corrections by rising position (41_reed_solomon R240). -/
theorem elocAt_correctedState_lt (s : State) (c : Correction) (hle : c.pairs.length ≤ 255) (j : Nat)
    (hj : j < c.pairs.length) : ∃ p ∈ c.pairs, (sortByPosition c.pairs)[j]? = some p ∧
      elocAt (withOutcome (correctedState s c) .ok 0 0) j = elocWord p := by
  have hlt : j < (sortByPosition c.pairs).length := by rwa [(sortByPosition_perm c.pairs).length_eq]
  refine ⟨(sortByPosition c.pairs)[j], (sortByPosition_perm c.pairs).mem_iff.1 (List.getElem_mem hlt),
    List.getElem?_eq_getElem hlt, ?_⟩
  rw [elocAt_correctedState s c j (by omega), List.getD_eq_getElem _ _ (by rwa [List.length_map]), List.getElem_map]

theorem elocAt_correctedState_ge (s : State) (c : Correction) (j : Nat) (hj : c.pairs.length ≤ j) (hj' : j < 256) :
    elocAt (withOutcome (correctedState s c) .ok 0 0) j = 0 := by
  rw [elocAt_correctedState s c j hj',
    List.getD_eq_default _ _ (by rwa [List.length_map, (sortByPosition_perm c.pairs).length_eq])]

section DecodedState

variable (s : State) (c : Correction) (hacc : blockAccepted s s.regs.cwLen.toNat) (hdecode : decodeState s = .ok c)
include hacc hdecode

/-- The corrected block is what CW holds, and it passes the checks (41_reed_solomon R239). -/
theorem correctedState_clean :
    blockAccepted (withOutcome (correctedState s c) .ok 0 0) s.regs.cwLen.toNat ∧
      blockClean (withOutcome (correctedState s c) .ok 0 0) := by
  obtain ⟨-, hlen, hzero, -, -⟩ := decodeState_ok s c hdecode
  obtain ⟨hpos, hmax, -⟩ := hacc
  have hread (i : Nat) (hi : i < c.block.length) := cwAt_correctedState s c i hi (by omega)
  constructor
  · refine ⟨hpos, hmax, fun i hi => ?_⟩
    rw [hread i (by omega)]
    exact Nat.le_of_lt_succ (BitVec.isLt _)
  · intro i hi
    change polyValue (blockOf _ s.regs.cwLen.toNat) _ = 0
    rw [← hlen, blockOf_eq _ _ hread]
    exact (allZero_syndromes_iff _ _).1 hzero i hi

/-- A correction changes its codeword and names a root of sigma (41_reed_solomon R239). -/
theorem correctedState_at (p : Nat × Gf) (hp : p ∈ c.pairs) : p.1 < s.regs.cwLen.toNat ∧
    cwAt (withOutcome (correctedState s c) .ok 0 0) p.1 = cwAt s p.1 ^^^ p.2.toNat ∧
    polyValue c.sigma (alphaElem (255 - (s.regs.cwLen.toNat - 1 - p.1))) = 0 := by
  obtain ⟨hblock, hlen, -, -, -⟩ := decodeState_ok s c hdecode
  obtain ⟨-, -, hnodup, hpairs⟩ := decodeBlock_ok_spec _ _ _ c hdecode
  obtain ⟨hlt, hlog, hroot⟩ := hpairs p hp
  have hmax : s.regs.cwLen.toNat ≤ 1024 := hacc.2.1
  rw [blockOf_length] at hlt hlog hroot
  refine ⟨hlt, ?_, ?_⟩
  · rw [cwAt_correctedState s c p.1 (by omega) (by omega), hblock,
      correct_getD_of_mem _ _ hnodup p hp (by rwa [blockOf_length]), BitVec.toNat_xor,
      blockOf_getD_toNat s _ _ hacc hlt]
  · rwa [gfInvNz, gfInv_alphaElem _ hlog, Option.getD_some] at hroot

/-- Codewords that no correction names stay (41_reed_solomon R239). -/
theorem correctedState_keeps (i : Nat) (hi : i < 1024) (hnot : i ∉ c.pairs.map Prod.fst) :
    cwAt (withOutcome (correctedState s c) .ok 0 0) i = cwAt s i := by
  obtain ⟨hblock, hlen, -, -, -⟩ := decodeState_ok s c hdecode
  have hmax : s.regs.cwLen.toNat ≤ 1024 := hacc.2.1
  rcases lt_or_ge i s.regs.cwLen.toNat with hlt | hge
  · rw [cwAt_correctedState s c i (by omega) (by omega), hblock, correct_getD_of_notMem _ _ _ hnot,
      blockOf_getD_toNat s _ _ hacc hlt]
  · exact cwAt_correctedState_outside s c i (by omega) hi

end DecodedState

/-- Settles O31: the corrections are at the locations that sigma names, and the re-check found every syndrome 0. -/
theorem rsDecodeCorrectsToACodeBlock : Obligations.RsDecodeCorrectsToACodeBlock := by
  rintro s t len n d rfl rfl hacc ⟨i, hi, hne⟩ hexec herr rfl
  obtain ⟨hblock, -, hnec, -⟩ := id hacc
  have hmax : s.regs.cwLen.toNat ≤ 1024 := hblock.2.1
  obtain ⟨c, hdecode, rfl⟩ := exec_rsDecode_ok s t hacc (fun hclean => hne (hclean i hi)) hexec herr
  obtain ⟨-, hlen, -, hdeg, hle⟩ := decodeState_ok s c hdecode
  obtain ⟨hsigma, hone, hnodup, -⟩ := decodeBlock_ok_spec _ _ _ c hdecode
  obtain ⟨haccepted, hclean⟩ := correctedState_clean s c hblock hdecode
  have hcount : (withOutcome (correctedState s c) .ok 0 0).regs.rsNerr.toNat = c.pairs.length :=
    (BitVec.toNat_ofNat _ _).trans (Nat.mod_eq_of_lt (by omega))
  have hread (j : Nat) (hj : j < c.pairs.length) : ∃ p ∈ c.pairs, (sortByPosition c.pairs)[j]? = some p ∧
      elocAt (withOutcome (correctedState s c) .ok 0 0) j = elocWord p ∧
      (elocWord p).toNat % 2 ^ 16 = p.1 := by
    obtain ⟨p, hp, hget, heloc⟩ := elocAt_correctedState_lt s c hle j hj
    have hlt := (correctedState_at s c hblock hdecode p hp).1
    exact ⟨p, hp, hget, heloc, elocWord_position p (by omega)⟩
  rw [hcount]
  refine ⟨?_, haccepted, hclean, hle, fun j hj => ?_, fun j hj => ?_,
    fun j hj hj' => elocAt_correctedState_ge s c j hj hj', fun i hi hnot => ?_, fun i hi => ?_,
    fun i hi hi' => ?_, ?_, fun k hk hk' => ?_, hlen ▸ sameExcept_correctedState s c⟩
  · simp only [correctedState, ← hdeg]
    rfl
  · obtain ⟨p, hp, -, heloc, hpos⟩ := hread j hj
    obtain ⟨hlt, hcw, hroot⟩ := correctedState_at s c hblock hdecode p hp
    have hcoefs : (List.range (c.pairs.length + 1)).map
        (fun k => sigmaAt (withOutcome (correctedState s c) .ok 0 0) (c.pairs.length - k)) = c.sigma := by
      rw [hdeg]
      refine (List.map_congr_left fun k hk => ?_).trans (map_polyCoef_eq c.sigma (normalPoly_ne_nil _ hsigma))
      exact sigmaAt_correctedState s c _ (by omega)
    rw [heloc, hpos, elocWord_magnitude, hcoefs]
    exact ⟨hlt, hcw, hroot⟩
  · obtain ⟨p, hp, hget, heloc, hpos⟩ := hread j (by omega)
    obtain ⟨q, hq, hget', heloc', hpos'⟩ := hread (j + 1) hj
    rw [heloc, hpos, heloc', hpos']
    obtain ⟨h1, rfl⟩ := List.getElem?_eq_some_iff.1 hget
    obtain ⟨h2, rfl⟩ := List.getElem?_eq_some_iff.1 hget'
    exact List.pairwise_iff_getElem.1 (sortByPosition_pairwise c.pairs hnodup) j (j + 1) h1 h2 (Nat.lt_succ_self j)
  · refine correctedState_keeps s c hblock hdecode i hi fun hmem => ?_
    obtain ⟨p, hp, rfl⟩ := List.mem_map.1 hmem
    obtain ⟨j, hj, hget⟩ := List.getElem_of_mem ((sortByPosition_perm c.pairs).mem_iff.2 hp)
    have hj' : j < c.pairs.length := by rwa [← (sortByPosition_perm c.pairs).length_eq]
    obtain ⟨q, -, hget', heloc, hpos⟩ := hread j hj'
    rw [List.getElem?_eq_getElem hj, hget, Option.some.injEq] at hget'
    exact hnot j hj' (by rw [heloc, hpos, hget'])
  · rw [synAt_correctedState s c i (by omega) (by omega), receivedSyndromes_getD s i hi]
  · rw [synAt_correctedState s c i hi' (by omega), receivedSyndromes_getD_of_le s i hi]
  · rw [sigmaAt_correctedState s c 0 (by decide), hone]
  · rw [sigmaAt_correctedState s c k hk', polyCoef_of_polyDeg_lt c.sigma k (by omega)]

end Sys2Proof.Machine
end

section
/-! PROOFS. What RS_DECODE restores (O34, O35): a block with at most half as many errors as EC codewords has the
syndromes of its errors, and every stage of the decoder then answers what belongs to the errors. -/

namespace Sys2Proof.Machine

open Sys2Proof.Safety
open Polynomial

/-! ## A block with errors -/

theorem lookup_of_mem (errs : List (Nat × Gf)) (hnodup : (errs.map Prod.fst).Nodup) (e : Nat × Gf) (he : e ∈ errs) :
    errs.lookup e.1 = some e.2 := by
  induction errs with
  | nil => cases he
  | cons d ds ih =>
    rw [List.map_cons, List.nodup_cons] at hnodup
    obtain ⟨hd, hds⟩ := hnodup
    rcases List.mem_cons.1 he with rfl | he
    · exact List.lookup_cons_self
    · have hne : (e.1 == d.1) = false := beq_false_of_ne fun heq => hd (heq ▸ List.mem_map_of_mem he)
      rw [List.lookup_cons, hne]
      exact ih hds he

theorem lookup_of_notMem (errs : List (Nat × Gf)) (i : Nat) (hi : i ∉ errs.map Prod.fst) : errs.lookup i = none := by
  refine List.lookup_eq_none_iff.2 fun e he => bne_iff_ne.2 fun heq => hi ?_
  rw [heq]
  exact List.mem_map_of_mem he

/-- `received` is a block of at most 255 codewords with `n` zero syndromes, after errors in at most `n / 2` codewords:
the blocks that 41_reed_solomon R241 says are restored. -/
structure Corrupted (n : Nat) (block received : List Gf) (errs : List (Nat × Gf)) : Prop where
  short : block.length ≤ 255
  length_eq : received.length = block.length
  some_error : 1 ≤ errs.length
  few_errors : errs.length ≤ n / 2
  rising : errs.Pairwise (fun a b => a.1 < b.1)
  inside : ∀ e ∈ errs, e.1 < block.length ∧ e.2 ≠ 0
  clean : ∀ i, i < n → polyValue block (alphaElem (i % 255)) = 0
  codewords : ∀ i, i < block.length → received.getD i 0 = block.getD i 0 ^^^ (errs.lookup i).getD 0

/-- The location of a position in a block of length `len` (41_reed_solomon R238). -/
def locationOf (len p : Nat) : Gf := alphaElem (len - 1 - p)

/-- The position that a location names. -/
def placeOf (len : Nat) (x : Gf) : Nat := len - 1 - (gfLog x).getD 0

/-- The magnitude of the error at a location, 0 where there is none. -/
def magnitudeOf (len : Nat) (errs : List (Nat × Gf)) (x : Gf) : Gf := (errs.lookup (placeOf len x)).getD 0

/-- The locations of errors. -/
def locations (len : Nat) (errs : List (Nat × Gf)) : List Gf := errs.map (fun e => locationOf len e.1)

theorem placeOf_locationOf (len p : Nat) (hlen : len ≤ 255) (hp : p < len) : placeOf len (locationOf len p) = p := by
  rw [placeOf, locationOf, gfLog_alphaElem _ (by omega), Option.getD_some]
  omega

theorem positionOf_locationOf (len p : Nat) (hlen : len ≤ 255) (hp : p < len) :
    positionOf len (locationOf len p) = .ok p := by
  rw [locationOf, positionOf_alphaElem _ _ (by omega), if_pos (by omega)]
  congr 1
  omega

theorem location_ne_zero (len : Nat) (errs : List (Nat × Gf)) (x : Gf) (hx : x ∈ locations len errs) : x ≠ 0 := by
  obtain ⟨e, -, rfl⟩ := List.mem_map.1 hx
  exact alphaElem_ne_zero _

namespace Corrupted

variable {n : Nat} {block received : List Gf} {errs : List (Nat × Gf)} (h : Corrupted n block received errs)
include h

theorem nodup_positions : (errs.map Prod.fst).Nodup := List.pairwise_map.2 (h.rising.imp fun hlt => hlt.ne)

theorem placeOf_locationOf {e : Nat × Gf} (he : e ∈ errs) : placeOf block.length (locationOf block.length e.1) = e.1 :=
  Machine.placeOf_locationOf _ _ h.short (h.inside e he).1

theorem magnitudeOf_locationOf {e : Nat × Gf} (he : e ∈ errs) :
    magnitudeOf block.length errs (locationOf block.length e.1) = e.2 := by
  rw [magnitudeOf, h.placeOf_locationOf he, lookup_of_mem errs h.nodup_positions e he, Option.getD_some]

/-- Each location names its error. -/
theorem locations_map : (locations block.length errs).map
    (fun x => (placeOf block.length x, magnitudeOf block.length errs x)) = errs := by
  rw [locations, List.map_map]
  refine (List.map_congr_left fun e he => ?_).trans (List.map_id errs)
  rw [Function.comp_apply, h.placeOf_locationOf he, h.magnitudeOf_locationOf he, id]

theorem nodup_locations : (locations block.length errs).Nodup := by
  have hplaces : (locations block.length errs).map (placeOf block.length) = errs.map Prod.fst := by
    conv_rhs => rw [← h.locations_map]
    rw [List.map_map]
    rfl
  exact List.Nodup.of_map (placeOf block.length) (hplaces ▸ h.nodup_positions)

theorem magnitude_ne_zero : ∀ x ∈ locations block.length errs, magnitudeOf block.length errs x ≠ 0 := fun x hx => by
  obtain ⟨e, he, rfl⟩ := List.mem_map.1 hx
  rw [h.magnitudeOf_locationOf he]
  exact (h.inside e he).2

end Corrupted

/-! ## The syndromes of the errors -/

section Embedding

variable {F : Type} [Field F] {φ : Gf → F} (hφ : GfEmbedding φ)
include hφ

/-- The value of a block, codeword by codeword: the first is the most significant (41_reed_solomon R221). -/
theorem map_polyValue (block : List Gf) (x : Gf) :
    φ (polyValue block x) = ∑ i ∈ Finset.range block.length, φ (block.getD i 0) * φ x ^ (block.length - 1 - i) := by
  rw [← eval_polyOf hφ, polyOf, eval_finsetSum, ← Finset.sum_range_reflect]
  refine Finset.sum_congr rfl fun i hi => ?_
  have hlt := Finset.mem_range.1 hi
  rw [eval_monomial, polyCoef, List.getD_eq_getElem _ _ (by rw [List.length_reverse]; omega), List.getElem_reverse,
    List.getD_eq_getElem _ _ hlt]
  congr 3
  omega

variable {n : Nat} {block received : List Gf} {errs : List (Nat × Gf)} (h : Corrupted n block received errs)
include h

/-- The syndromes of the received block are the power sums of its errors. -/
theorem map_syndrome (k : Nat) (hk : k < n) : φ ((syndromes received n).getD k 0) =
    ∑ x ∈ (locations block.length errs).toFinset, φ (magnitudeOf block.length errs x) * φ x ^ k := by
  have hpower (i : Nat) : φ (alphaElem (k % 255)) ^ (block.length - 1 - i) = φ (locationOf block.length i) ^ k := by
    rw [alphaElem_mod, locationOf, hφ.map_alphaElem, hφ.map_alphaElem (_ - i), ← pow_mul, ← pow_mul, mul_comm]
  have hclean := congrArg φ (h.clean k hk)
  rw [map_polyValue hφ, hφ.map_zero] at hclean
  have hsplit : φ ((syndromes received n).getD k 0) =
      ∑ i ∈ Finset.range block.length, φ ((errs.lookup i).getD 0) * φ (locationOf block.length i) ^ k := by
    rw [syndromes_getD _ _ _ hk, map_polyValue hφ, h.length_eq, ← zero_add (∑ i ∈ _, _ * φ (locationOf _ i) ^ k),
      ← hclean, ← Finset.sum_add_distrib]
    refine Finset.sum_congr rfl fun i hi => ?_
    rw [h.codewords i (Finset.mem_range.1 hi), hφ.map_xor, add_mul, hpower]
  have hterm : ((errs.map (fun e => φ e.2 * φ (locationOf block.length e.1) ^ k))) =
      (locations block.length errs).map (fun x => φ (magnitudeOf block.length errs x) * φ x ^ k) := by
    rw [locations, List.map_map]
    exact List.map_congr_left fun e he => by rw [Function.comp_apply, h.magnitudeOf_locationOf he]
  have hpos : (errs.map (fun e => φ e.2 * φ (locationOf block.length e.1) ^ k)) =
      (errs.map Prod.fst).map (fun i => φ ((errs.lookup i).getD 0) * φ (locationOf block.length i) ^ k) := by
    rw [List.map_map]
    exact List.map_congr_left fun e he => by
      rw [Function.comp_apply, lookup_of_mem errs h.nodup_positions e he, Option.getD_some]
  rw [hsplit, List.sum_toFinset _ h.nodup_locations, ← hterm, hpos, ← List.sum_toFinset _ h.nodup_positions]
  refine (Finset.sum_subset (fun i hi => ?_) fun i _ hi => ?_).symm
  · obtain ⟨e, he, rfl⟩ := List.mem_map.1 (List.mem_toFinset.1 hi)
    exact Finset.mem_range.2 (h.inside e he).1
  · rw [lookup_of_notMem errs i fun hmem => hi (List.mem_toFinset.2 hmem), Option.getD_none, hφ.map_zero, zero_mul]

theorem polyOf_syndromePoly : polyOf φ (syndromePoly (syndromes received n)) =
    errorSyndromes (locations block.length errs).toFinset φ (fun x => φ (magnitudeOf block.length errs x)) n := by
  refine polyOf_eq hφ _ _ fun k => ?_
  simp only [polyCoef_syndromePoly, errorSyndromes, finsetSum_coeff, coeff_monomial, Finset.sum_ite_eq',
    Finset.mem_range]
  split_ifs with hk
  · exact map_syndrome hφ h k hk
  · rw [syndromes_getD_of_le _ _ _ (not_lt.1 hk), hφ.map_zero]

/-- The algebra's hypotheses: the locations and the magnitudes are not 0, and there are few of them. -/
theorem errors_algebraic :
    (∀ x ∈ (locations block.length errs).toFinset, φ x ≠ 0) ∧
      (∀ x ∈ (locations block.length errs).toFinset, φ (magnitudeOf block.length errs x) ≠ 0) ∧
      (locations block.length errs).toFinset.Nonempty ∧ (locations block.length errs).toFinset.card = errs.length := by
  have hcard : (locations block.length errs).toFinset.card = errs.length := by
    rw [List.toFinset_card_of_nodup h.nodup_locations, locations, List.length_map]
  refine ⟨fun x hx => (hφ.map_eq_zero_iff x).not.2 (location_ne_zero _ _ x (List.mem_toFinset.1 hx)),
    fun x hx => (hφ.map_eq_zero_iff _).not.2 (h.magnitude_ne_zero x (List.mem_toFinset.1 hx)), ?_, hcard⟩
  rw [← Finset.card_pos, hcard]
  exact h.some_error

/-- The Euclidean algorithm and the normalisation answer the locator and the evaluator of the errors (41_reed_solomon
R233, R235). -/
theorem normalise_of_corrupted : ∃ r t sigma omega, euclid n (syndromePoly (syndromes received n)) = .ok (r, t) ∧
    normalise r t = .ok (sigma, omega) ∧ polyOf φ sigma = locator (locations block.length errs).toFinset φ ∧
    polyOf φ omega =
      evaluator (locations block.length errs).toFinset φ (fun x => φ (magnitudeOf block.length errs x)) := by
  obtain ⟨hx, he, hne, hcard⟩ := errors_algebraic hφ h
  have hfew := h.few_errors
  have hsome := h.some_error
  obtain ⟨r, t, heuclid, -, -, hsolves⟩ := euclid_spec hφ n (by omega) (syndromes received n) (syndromes_length _ _)
  rw [polyOf_syndromePoly hφ h] at hsolves
  obtain ⟨c, hc, ht, hr⟩ := hsolves.eq_locator _ φ _ n _ _ hx hφ.injective he hne (hcard ▸ hfew)
  have hconst : φ (polyCoef t 0) = c := by
    rw [← coeff_polyOf hφ, ht, coeff_C_mul, locator_coeff_zero, mul_one]
  have hconst0 : polyCoef t 0 ≠ 0 := by
    rwa [Ne, ← hφ.map_eq_zero_iff, hconst]
  have hscale (P : F[X]) : C c * P * C c⁻¹ = P := by
    rw [mul_right_comm, ← C_mul, mul_inv_cancel₀ hc, C_1, one_mul]
  refine ⟨r, t, _, _, heuclid, normalise_of_ne_zero r t hconst0, ?_, ?_⟩
  · rw [polyOf_polyScale hφ, hφ.map_gfInvNz, hconst, ht, hscale]
  · rw [polyOf_polyScale hφ, hφ.map_gfInvNz, hconst, hr, hscale]

/-- The Chien search finds the locations of the errors (41_reed_solomon R236). -/
theorem chien_of_corrupted (sigma : Poly) (hnormal : normalPoly sigma) (hone : polyCoef sigma 0 = 1)
    (hsigma : polyOf φ sigma = locator (locations block.length errs).toFinset φ) :
    ∃ xs, chien sigma = .ok xs ∧ xs.Perm (locations block.length errs) := by
  obtain ⟨hx, -, -, hcard⟩ := errors_algebraic hφ h
  refine chien_of_roots sigma hnormal hone _ h.nodup_locations ?_ fun x => ?_
  · rw [← natDegree_polyOf hφ sigma hnormal, hsigma, natDegree_locator _ _ hx, hcard, locations, List.length_map]
  · have hroot : polyValue sigma (gfInvNz x) = 0 ↔
        ∃ y ∈ (locations block.length errs).toFinset, φ y * (φ x)⁻¹ = 1 := by
      rw [← hφ.map_eq_zero_iff, ← eval_polyOf hφ, hsigma, hφ.map_gfInvNz, locator_eval_eq_zero_iff]
    rw [hroot]
    constructor
    · intro hmem
      have hx0 := location_ne_zero _ _ x hmem
      exact ⟨hx0, x, List.mem_toFinset.2 hmem, mul_inv_cancel₀ ((hφ.map_eq_zero_iff x).not.2 hx0)⟩
    · rintro ⟨hx0, y, hy, hyx⟩
      obtain rfl := hφ.injective ((mul_inv_eq_one₀ ((hφ.map_eq_zero_iff x).not.2 hx0)).1 hyx)
      exact List.mem_toFinset.1 hy

/-- Forney's formula answers the magnitudes of the errors (41_reed_solomon R237). -/
theorem forney_of_corrupted (omega : Poly) (homega : omega ≠ []) (hval : polyOf φ omega =
      evaluator (locations block.length errs).toFinset φ (fun x => φ (magnitudeOf block.length errs x)))
    (xs : List Gf) (hxs : xs.Perm (locations block.length errs)) :
    forney omega xs = .ok (xs.map (magnitudeOf block.length errs)) := by
  obtain ⟨hx, -, -, -⟩ := errors_algebraic hφ h
  have hset : xs.toFinset = (locations block.length errs).toFinset := List.toFinset_eq_of_perm _ _ hxs
  have hmap : (List.range xs.length).map (fun i => magnitudeOf block.length errs (xs.getD i 0)) =
      xs.map (magnitudeOf block.length errs) := by
    refine List.ext_getElem (by simp) fun i h1 h2 => ?_
    rw [List.getElem_map, List.getElem_map, List.getElem_range, List.getD_eq_getElem _ _ (by simpa using h2)]
  rw [forney, ← hmap]
  refine mapE_of_forall_ok _ _ _ fun i hi => ?_
  have hlt := List.mem_range.1 hi
  have hmem : xs[i] ∈ (locations block.length errs).toFinset :=
    List.mem_toFinset.2 (hxs.mem_iff.1 (List.getElem_mem hlt))
  have hx0 := hx _ hmem
  obtain ⟨y, hy, hφy⟩ := forneyAt_spec hφ omega homega xs (hxs.nodup_iff.2 h.nodup_locations) i hlt
    ((hφ.map_eq_zero_iff _).not.1 hx0)
  rw [hset, hval, evaluator_eval_inv _ φ _ xs[i] hmem hx0,
    mul_div_cancel_right₀ _ (locator_erase_eval_inv_ne_zero _ φ _ hx0 hφ.injective)] at hφy
  rw [hy, List.getD_eq_getElem _ _ hlt, hφ.injective hφy]

end Embedding

/-! ## The decoding of a block with errors -/

namespace Corrupted

variable {n : Nat} {block received : List Gf} {errs : List (Nat × Gf)} (h : Corrupted n block received errs)
include h

theorem positions_eq (xs : List Gf) (hxs : xs.Perm (locations block.length errs)) :
    positions block.length xs = .ok (xs.map (placeOf block.length)) := by
  refine mapE_of_forall_ok _ _ _ fun x hx => ?_
  obtain ⟨e, he, rfl⟩ := List.mem_map.1 (hxs.mem_iff.1 hx)
  rw [positionOf_locationOf _ _ h.short (h.inside e he).1, h.placeOf_locationOf he]

/-- The corrections, in any order, restore the block. -/
theorem correct_eq (pairs : List (Nat × Gf)) (hpairs : pairs.Perm errs) : correct received pairs = block := by
  have hfst : (pairs.map Prod.fst).Perm (errs.map Prod.fst) := hpairs.map Prod.fst
  have hnodup : (pairs.map Prod.fst).Nodup := hfst.nodup_iff.2 h.nodup_positions
  refine List.ext_getElem (by rw [correct_length, h.length_eq]) fun i h1 h2 => ?_
  rw [← List.getD_eq_getElem _ 0 h1, ← List.getD_eq_getElem _ 0 h2]
  by_cases hi : i ∈ pairs.map Prod.fst
  · obtain ⟨e, he, rfl⟩ := List.mem_map.1 hi
    have hlookup := lookup_of_mem errs h.nodup_positions e (hpairs.mem_iff.1 he)
    rw [correct_getD_of_mem _ _ hnodup e he (by rwa [h.length_eq]), h.codewords _ h2, hlookup, Option.getD_some,
      BitVec.xor_assoc, gf_xor_self, xor_gfZero]
  · rw [correct_getD_of_notMem _ _ _ hi, h.codewords _ h2,
      lookup_of_notMem errs i fun hmem => hi (hfst.mem_iff.2 hmem), Option.getD_none, xor_gfZero]

/-- The decoder restores the block and answers the errors (41_reed_solomon R241). -/
theorem decodeBlock_eq : ∃ c, decodeBlock received n (syndromes received n) = .ok c ∧ c.pairs.Perm errs ∧
    c.block = block := by
  obtain ⟨F, _, φ, hφ⟩ := exists_gfEmbedding
  obtain ⟨r, t, sigma, omega, heuclid, hnorm, hsigma, homega⟩ := normalise_of_corrupted hφ h
  obtain ⟨hnormal, hnormal', hone⟩ := normalise_ok_normal _ _ _ _ hnorm
  obtain ⟨xs, hchien, hxs⟩ := chien_of_corrupted hφ h sigma hnormal hone hsigma
  have hforney := forney_of_corrupted hφ h omega (normalPoly_ne_nil _ hnormal') homega xs hxs
  have hpositions := h.positions_eq xs hxs
  have hpairs : ((xs.map (placeOf block.length)).zip (xs.map (magnitudeOf block.length errs))).Perm errs := by
    have hmap := hxs.map (fun x => (placeOf block.length x, magnitudeOf block.length errs x))
    rwa [h.locations_map, ← List.zip_map'] at hmap
  have hblock := h.correct_eq _ hpairs
  refine ⟨⟨sigma, omega, _, _⟩, ?_, hpairs, hblock⟩
  simp only [decodeBlock, heuclid, hnorm, hchien, hforney, h.length_eq, hpositions, hblock]
  rw [if_pos ((allZero_syndromes_iff block n).2 h.clean)]
  rfl

/-- The received block has a syndrome that is not 0. -/
theorem not_allZero : allZero (syndromes received n) ≠ true := by
  obtain ⟨F, _, φ, hφ⟩ := exists_gfEmbedding
  obtain ⟨hx, he, hne, hcard⟩ := errors_algebraic hφ h
  have hfew := h.few_errors
  intro hzero
  refine errorSyndromes_ne_zero _ φ _ n hx hφ.injective he hne (by omega) ?_
  rw [← polyOf_syndromePoly hφ h]
  refine polyOf_eq hφ _ _ fun k => ?_
  rw [polyCoef_syndromePoly, coeff_zero, hφ.map_eq_zero_iff]
  rcases lt_or_ge k n with hk | hk
  · exact (allZero_iff _).1 hzero k (by rwa [syndromes_length])
  · exact syndromes_getD_of_le _ _ _ hk

end Corrupted

/-- The block of a state that the claims call corrupted. -/
theorem corrupted_blockOf (s : State) (errs : List (Nat × Gf)) (block : List Gf)
    (hlen : block.length = s.regs.cwLen.toNat) (hshort : s.regs.cwLen.toNat ≤ 255) (hsome : 1 ≤ errs.length)
    (hfew : errs.length ≤ s.regs.nec.toNat / 2) (hrising : errs.Pairwise (fun a b => a.1 < b.1))
    (hinside : ∀ e ∈ errs, e.1 < s.regs.cwLen.toNat ∧ e.2 ≠ 0)
    (hclean : ∀ i, i < s.regs.nec.toNat → polyValue block (alphaElem (i % 255)) = 0)
    (hcw : ∀ i, i < s.regs.cwLen.toNat → cwAt s i = (block.getD i 0 ^^^ (errs.lookup i).getD 0).toNat) :
    Corrupted s.regs.nec.toNat block (blockOf s s.regs.cwLen.toNat) errs where
  short := hlen.trans_le hshort
  length_eq := (blockOf_length s _).trans hlen.symm
  some_error := hsome
  few_errors := hfew
  rising := hrising
  inside e he := hlen ▸ hinside e he
  clean := hclean
  codewords i hi := by
    rw [blockOf_getD s _ i (hlen ▸ hi), hcw i (hlen ▸ hi), BitVec.ofNat_toNat, BitVec.setWidth_eq]

/-- Settles O35: the decoding answers the errors in some order, and ELOC lists them by position. -/
theorem rsDecodeRestoresUpToHalfNec : Obligations.RsDecodeRestoresUpToHalfNec := by
  rintro s len errs block rfl hshort hacc hlen hsome hfew hrising hinside hclean hcw
  have h := corrupted_blockOf s errs block hlen hshort hsome hfew hrising hinside hclean hcw
  obtain ⟨c, hdecode, hpairs, hblock⟩ := h.decodeBlock_eq
  have hdirty : ¬ blockClean s := (allZero_receivedSyndromes_iff s).not.1 h.not_allZero
  obtain ⟨-, hblen, -, hdeg, hle⟩ := decodeState_ok s c hdecode
  have hcount : c.pairs.length = errs.length := hpairs.length_eq
  have hsorted := sortByPosition_of_perm c.pairs errs hpairs hrising
  refine ⟨_, exec_rsDecode_of_correction s hacc hdirty c hdecode, ?_, fun i hi => ?_, fun j hj => ?_,
    fun j hj hj' => elocAt_correctedState_ge s c j (hcount.trans_le hj) hj', ?_⟩
  · simp only [correctedState, ← hdeg, hcount]
    rfl
  · rw [cwAt_correctedState s c i (by omega) (by omega), hblock]
  · rw [elocAt_correctedState s c j (by omega), hsorted, List.getD_eq_getElem _ _ (by rwa [List.length_map]),
      List.getElem_map]
    rfl
  · rw [← hlen, ← hblock]
    exact sameExcept_correctedState s c

/-- Settles O34: one error is a list of one. -/
theorem rsDecodeRestoresOneError : Obligations.RsDecodeRestoresOneError := by
  intro s len p e block hlen hshort hnec hacc hblock hp he hclean hcw
  have hlookup (i : Nat) : (([(p, e)] : List (Nat × Gf)).lookup i).getD 0 = if i = p then e else 0 := by
    rw [List.lookup_cons]
    split_ifs with hi
    · rw [hi, beq_self_eq_true]; rfl
    · rw [beq_false_of_ne hi]; rfl
  obtain ⟨t, hexec, ht, hrestored, heloc, hhigh, hframe⟩ := rsDecodeRestoresUpToHalfNec s len [(p, e)] block hlen hshort
    hacc hblock le_rfl (show 1 ≤ _ by omega) (List.pairwise_singleton _ _)
    (fun d hd => by rw [List.mem_singleton.1 hd]; exact ⟨hp, he⟩) hclean
    (fun i hi => by rw [hlookup]; exact hcw i hi)
  exact ⟨t, hexec, ht, hrestored, heloc 0 Nat.one_pos, fun j hj hj' => hhigh j hj hj', hframe⟩

end Sys2Proof.Machine
end

section
/-! PROOFS. The black point (O37): each of the estimate's three searches keeps the first entry of its list with the
largest score, and the lists run through the buckets upwards for the peaks and downwards for the valley. -/

namespace Sys2Proof.Machine

/-! ## The first largest score of a list -/

section
variable {β : Type} [LinearOrder β] (score : Nat → β)

/-- One round of a search: a larger score replaces what was found (42_binarizer R273). -/
def keepLarger (p : Nat × β) (x : Nat) : Nat × β := if score x > p.2 then (x, score x) else p

/-- `p` is the first entry of `l` with the largest score, and that score; `before` is the order of `l`. -/
structure FirstLargest (before : Nat → Nat → Prop) (l : List Nat) (p : Nat × β) : Prop where
  mem : p.1 ∈ l
  score_eq : p.2 = score p.1
  le : ∀ x ∈ l, score x ≤ p.2
  lt : ∀ x ∈ l, before x p.1 → score x < p.2

/-- A search ends with what it started from, where no score is larger, and else with the first largest score. -/
theorem foldl_keepLarger (before : Nat → Nat → Prop) (hasymm : ∀ x y, before x y → ¬ before y x) (l : List Nat)
    (hl : l.Pairwise before) (p : Nat × β) :
    (l.foldl (keepLarger score) p = p ∧ ∀ x ∈ l, score x ≤ p.2) ∨
    (p.2 < (l.foldl (keepLarger score) p).2 ∧ FirstLargest score before l (l.foldl (keepLarger score) p)) := by
  induction l generalizing p with
  | nil => exact .inl ⟨rfl, nofun⟩
  | cons a l ih =>
    obtain ⟨hfirst, hl⟩ := List.pairwise_cons.1 hl
    rw [List.foldl_cons]
    by_cases ha : score a > p.2
    · rw [show keepLarger score p a = (a, score a) from if_pos ha]
      right
      rcases ih hl (a, score a) with ⟨hend, hle⟩ | ⟨hgt, h⟩
      · rw [hend]
        refine ⟨ha, List.mem_cons_self, rfl, List.forall_mem_cons.2 ⟨le_rfl, hle⟩, List.forall_mem_cons.2 ⟨?_, ?_⟩⟩
        · exact fun haa => absurd haa (hasymm a a haa)
        · exact fun x hx hxa => absurd (hfirst x hx) (hasymm x a hxa)
      · exact ⟨ha.trans hgt, List.mem_cons_of_mem a h.mem, h.score_eq, List.forall_mem_cons.2 ⟨hgt.le, h.le⟩,
          List.forall_mem_cons.2 ⟨fun _ => hgt, h.lt⟩⟩
    · rw [show keepLarger score p a = p from if_neg ha]
      have hap : score a ≤ p.2 := not_lt.1 ha
      rcases ih hl p with ⟨hend, hle⟩ | ⟨hgt, h⟩
      · exact .inl ⟨hend, List.forall_mem_cons.2 ⟨hap, hle⟩⟩
      · exact .inr ⟨hgt, List.mem_cons_of_mem a h.mem, h.score_eq,
          List.forall_mem_cons.2 ⟨hap.trans hgt.le, h.le⟩, List.forall_mem_cons.2 ⟨fun _ => hap.trans_lt hgt, h.lt⟩⟩

/-- A search upwards from the least score finds the lowest index of the largest one. -/
theorem foldl_keepLarger_range (z : β) (n f : Nat) (hf : f < n) (hz : ∀ x, z ≤ score x)
    (hle : ∀ x, x < n → score x ≤ score f) (hlt : ∀ x, x < f → score x < score f) :
    (List.range n).foldl (keepLarger score) (0, z) = (f, score f) := by
  rcases foldl_keepLarger score (· < ·) (fun _ _ => lt_asymm) (List.range n) List.pairwise_lt_range (0, z) with
    ⟨hend, hzero⟩ | ⟨-, h⟩
  · have hscore : score f = z := (hzero f (List.mem_range.2 hf)).antisymm (hz f)
    have hfirst : f = 0 := Nat.eq_zero_of_not_pos fun hpos => (hlt 0 hpos).not_ge (hscore ▸ hz 0)
    rw [hend, hscore, hfirst]
  · have hsame : ((List.range n).foldl (keepLarger score) (0, z)).1 = f := by
      have hmem := List.mem_range.1 h.mem
      have heq := h.score_eq
      rcases lt_trichotomy ((List.range n).foldl (keepLarger score) (0, z)).1 f with hlow | hsame | hhigh
      · exact absurd (heq ▸ h.le f (List.mem_range.2 hf)) (hlt _ hlow).not_ge
      · exact hsame
      · exact absurd (hle _ hmem) (heq ▸ h.lt f (List.mem_range.2 hf) hhigh).not_ge
    exact Prod.ext hsame (h.score_eq.trans (congrArg score hsame))

end

/-! ## The peaks and the valley -/

theorem tallestPeak_eq (hist : List Nat) (f : Nat) (hf : f < 32) (hle : ∀ x, x < 32 → hist.getD x 0 ≤ hist.getD f 0)
    (hlt : ∀ x, x < f → hist.getD x 0 < hist.getD f 0) : tallestPeak hist = (f, hist.getD f 0) :=
  foldl_keepLarger_range (fun x => hist.getD x 0) 0 32 f hf (fun _ => Nat.zero_le _) hle hlt

/-- The score of step (2): the count times the squared distance from the tallest peak (42_binarizer R273). -/
def distanceScore (hist : List Nat) (f x : Nat) : Int := (hist.getD x 0 : Int) * ((x : Int) - f) ^ 2

theorem secondPeak_eq_foldl (hist : List Nat) (f : Nat) :
    secondPeak hist f = (List.range 32).foldl (keepLarger (distanceScore hist f)) (0, 0) := by
  have hscore (x : Nat) : (hist.getD x 0 : Int) * ((x : Int) - f) * ((x : Int) - f) = distanceScore hist f x := by
    rw [distanceScore, sq, mul_assoc]
  simp only [secondPeak, hscore]
  rfl

theorem secondPeak_eq (hist : List Nat) (f g : Nat) (hg : g < 32)
    (hle : ∀ x, x < 32 → distanceScore hist f x ≤ distanceScore hist f g)
    (hlt : ∀ x, x < g → distanceScore hist f x < distanceScore hist f g) : (secondPeak hist f).1 = g := by
  have hz (x : Nat) : 0 ≤ distanceScore hist f x := mul_nonneg (Int.natCast_nonneg _) (sq_nonneg _)
  rw [secondPeak_eq_foldl, foldl_keepLarger_range _ 0 32 g hg hz hle hlt]

/-- The score of step (5) of bucket x between the peaks `lo` and `hi` (42_binarizer R273). -/
def valleyScore (hist : List Nat) (lo hi top x : Nat) : Nat := (x - lo) ^ 2 * (hi - x) * (top - hist.getD x 0)

theorem valley_eq_foldl (hist : List Nat) (lo hi top : Nat) : valley hist lo hi top =
    ((betweenPeaks lo hi).foldl (keepLarger fun x => (valleyScore hist lo hi top x : Int)) (hi - 1, -1)).1 := by
  simp only [valley, valleyScore, sq]
  rfl

theorem mem_betweenPeaks (lo hi x : Nat) : x ∈ betweenPeaks lo hi ↔ lo < x ∧ x < hi := by
  simp only [betweenPeaks, List.mem_map, List.mem_range]
  constructor
  · rintro ⟨k, hk, rfl⟩
    omega
  · intro hx
    exact ⟨hi - 1 - x, by omega, by omega⟩

theorem betweenPeaks_pairwise (lo hi : Nat) : (betweenPeaks lo hi).Pairwise (· > ·) := by
  rw [betweenPeaks, List.pairwise_map]
  refine List.pairwise_lt_range.imp_of_mem fun {j k} _ hk hjk => ?_
  have := List.mem_range.1 hk
  omega

/-- The valley is the highest index of the largest score strictly between the peaks (42_binarizer R273). -/
theorem valley_largest (hist : List Nat) (lo hi top : Nat) (hsep : lo + 2 ≤ hi) :
    lo < valley hist lo hi top ∧ valley hist lo hi top < hi ∧
    (∀ x, lo < x → x < hi → valleyScore hist lo hi top x ≤ valleyScore hist lo hi top (valley hist lo hi top)) ∧
    (∀ x, valley hist lo hi top < x → x < hi →
      valleyScore hist lo hi top x < valleyScore hist lo hi top (valley hist lo hi top)) := by
  have hsearch := foldl_keepLarger (fun x => (valleyScore hist lo hi top x : Int)) (· > ·) (fun _ _ => lt_asymm)
    (betweenPeaks lo hi) (betweenPeaks_pairwise lo hi) (hi - 1, -1)
  have hlast : hi - 1 ∈ betweenPeaks lo hi := (mem_betweenPeaks lo hi _).2 (by omega)
  rcases hsearch with ⟨-, hnone⟩ | ⟨-, h⟩
  · exact absurd (hnone _ hlast) (by omega)
  · obtain ⟨hmem, hscore, hle, hlt⟩ := h
    rw [hscore, ← valley_eq_foldl] at hle hlt
    rw [← valley_eq_foldl, mem_betweenPeaks] at hmem
    refine ⟨hmem.1, hmem.2, fun x hlo hhi => ?_, fun x hx hhi => ?_⟩
    · exact Int.ofNat_le.1 (hle x ((mem_betweenPeaks lo hi x).2 ⟨hlo, hhi⟩))
    · exact Int.ofNat_lt.1 (hlt x ((mem_betweenPeaks lo hi x).2 ⟨hmem.1.trans hx, hhi⟩) hx)

/-! ## The estimate -/

theorem lowContrast_iff (sep : Nat) : lowContrast sep = true ↔ sep < 2 := by
  simp [lowContrast, Config.histSepInclusive, Config.histMinSep, Config.histBuckets]

/-- The estimate from its two peaks `f` and `g` (42_binarizer R273, R274). -/
theorem estimate_of_peaks (hist : List Nat) (f g : Nat) (hf : tallestPeak hist = (f, hist.getD f 0))
    (hg : (secondPeak hist f).1 = g) : estimate hist =
      if max f g < min f g + 2 then .error (notFoundError 0x41 0)
      else .ok (8 * valley hist (min f g) (max f g) (hist.getD f 0)) := by
  simp only [estimate, hf, hg, lowContrast_iff, Config.lumShift, Nat.shiftLeft_eq, Nat.mul_comm 8,
    Nat.sub_lt_iff_lt_add' (min_le_max : min f g ≤ max f g)]

/-- Settles O37: the first largest scores of the peaks are `f` and `g`, and the valley is `b`. -/
theorem estimateFindsPeaksAndValley : Obligations.EstimateFindsPeaksAndValley := by
  intro hist f g lo hi hf hg hfle hflt hgle hglt hlo hhi
  have hest := estimate_of_peaks hist f g (tallestPeak_eq hist f hf hfle hflt) (secondPeak_eq hist f g hg hgle hglt)
  rw [← hlo, ← hhi] at hest
  refine ⟨fun hclose => hest.trans (if_pos hclose), fun hsep => ?_⟩
  obtain ⟨hblo, hbhi, hble, hblt⟩ := valley_largest hist lo hi (hist.getD f 0) hsep
  exact ⟨_, hblo, hbhi, hest.trans (if_neg (not_lt.2 hsep)), hble, hblt⟩

end Sys2Proof.Machine
end

section
/-! PROOFS. BIN_ROW (O38) and BIN_GLOBAL (O39): the histograms count the pixels of the sampled rows, a bit matrix that
was stored reads back bit by bit, and the commands store a histogram and, where the estimate succeeds, a bit matrix. -/

namespace Sys2Proof.Machine

open Sys2Proof.Safety

/-! ## Histograms -/

theorem lumXY_eq_pixel (s : State) (w x y : Nat) : lumXY s w x y = pixel s w x y := rfl

theorem bucketOf_eq (v : Nat) : bucketOf v = v / 8 := Nat.shiftRight_eq_div_pow v 3

/-- The samples of a row that fall in a bucket (42_binarizer R272). -/
theorem countP_bucketOf_row (s : State) (w y b : Nat) :
    ((List.range w).map (fun x => lumXY s w x y)).countP (fun v => bucketOf v == b) = rowCount s w y b := by
  rw [List.countP_map, List.countP_eq_length_filter, rowCount]
  congr 2
  funext x
  rw [Function.comp_apply, bucketOf_eq, lumXY_eq_pixel, beq_eq_decide]

theorem rowHistogram_eq (s : State) (w y : Nat) : rowHistogram s w y = (List.range 32).map (rowCount s w y) :=
  List.map_congr_left fun b _ => countP_bucketOf_row s w y b

theorem globalHistogram_eq (s : State) (w h : Nat) :
    globalHistogram s w h = (List.range 32).map (fourRowCount s w h) :=
  List.map_congr_left fun b _ => by
    have hrow (y : Nat) : ((sampledColumns w).map fun x => lumXY s w x y).countP (fun v => bucketOf v == b) =
        rowCount s w y b := countP_bucketOf_row s w y b
    simp only [sampledRows, List.flatMap_cons, List.flatMap_nil, List.countP_append, List.countP_nil, hrow,
      fourRowCount, Nat.add_zero, Nat.add_assoc]

/-- A histogram that was stored reads back. -/
theorem readWord_writeHist (s : State) (count : Nat → Nat) (b : Nat) (hb : b < 32) :
    readWord (writeHist s ((List.range 32).map count)) (0x900 + 4 * b) = BitVec.ofNat 32 (count b) := by
  refine (readWord_storeElems_full s .hist (((List.range 32).map count).map fun c => BitVec.ofNat 32 c) b
    (by simpa using hb) (by simp) rfl).trans ?_
  simp

theorem sameExcept_writeHist (s : State) (count : Nat → Nat) :
    sameExcept s (writeHist s ((List.range 32).map count)) [(0x900, 0x980)] :=
  sameExcept_storeElems s .hist (((List.range 32).map count).map fun c => BitVec.ofNat 32 c)

/-! ## Bit matrices read back -/

/-- Bit x of row y of a bit matrix that was stored, padding bits clear (30_encoding R150). -/
theorem bitAt_storeMatrix (s : State) (win : Window) (w h : Nat) (bit : Nat → Nat → Bool) (x y : Nat)
    (hd : win.definedBytes = 4) (hfit : 4 * (h * rowSize w) ≤ win.size) (hx : x < 32 * rowSize w) (hy : y < h) :
    bitAt (storeElems s win (matrixWords w h bit)) win.base w x y = (decide (x < w) && bit x y) := by
  have hword : x / 32 < rowSize w := Nat.div_lt_of_lt_mul hx
  obtain ⟨hlen, hget⟩ := List.getElem?_eq_some_iff.1 (matrixWords_getElem? w h bit y (x / 32) hy hword)
  have hread : readWord (storeElems s win (matrixWords w h bit)) (win.base + 4 * (y * rowSize w + x / 32)) =
      rowWord w (fun x => bit x y) (x / 32) := by
    rw [readWord_storeElems_full s win _ _ hlen (by rwa [matrixWords_length]) hd, hget]
  calc bitAt (storeElems s win (matrixWords w h bit)) win.base w x y
      = (rowWord w (fun x => bit x y) (x / 32)).getLsbD (x % 32) := congrArg (fun v => v.getLsbD (x % 32)) hread
    _ = (decide (x < w) && bit x y) := by
      rw [rowWord_getLsbD _ _ _ _ (Nat.mod_lt x (by decide)), Nat.div_add_mod]

/-- A row is a bit matrix of one row. -/
theorem rowWords_eq_matrixWords (w : Nat) (bit : Nat → Bool) : rowWords w bit = matrixWords w 1 (fun x _ => bit x) := by
  simp [matrixWords]

theorem bitAt_storeRow (s : State) (w : Nat) (bit : Nat → Bool) (x : Nat) (hw : w ≤ 2048) (hx : x < 32 * rowSize w) :
    bitAt (storeElems s .row (rowWords w bit)) 0x800 w x 0 = (decide (x < w) && bit x) := by
  have hfit : 4 * (1 * rowSize w) ≤ 0x100 := by
    have := rowSize_le w 64 hw
    omega
  rw [rowWords_eq_matrixWords]
  exact bitAt_storeMatrix s .row w 1 (fun x _ => bit x) x 0 rfl hfit hx Nat.one_pos

theorem bitAt_storeBm (s : State) (w h : Nat) (bit : Nat → Nat → Bool) (x y : Nat) (hacc : imageAccepted w h)
    (hx : x < 32 * rowSize w) (hy : y < h) :
    bitAt (storeElems s .bm (matrixWords w h bit)) 0x100000 w x y = (decide (x < w) && bit x y) := by
  obtain ⟨-, hw, -, hh⟩ := hacc
  have hfit : 4 * (h * rowSize w) ≤ 0x80000 := Nat.mul_le_mul_left 4 (Nat.mul_le_mul hh (rowSize_le w 64 hw))
  exact bitAt_storeMatrix s .bm w h bit x y rfl hfit hx hy

theorem sameExcept_storeRow (s : State) (w : Nat) (bit : Nat → Bool) :
    sameExcept s (storeElems s .row (rowWords w bit)) [(0x800, 0x800 + 4 * ((w + 31) / 32))] := by
  have hstore := sameExcept_storeElems s .row (rowWords w bit)
  rwa [rowWords_length] at hstore

theorem sameExcept_storeBm (s : State) (w h : Nat) (bit : Nat → Nat → Bool) :
    sameExcept s (storeElems s .bm (matrixWords w h bit)) [(0x100000, 0x100000 + 4 * (h * ((w + 31) / 32)))] := by
  have hstore := sameExcept_storeElems s .bm (matrixWords w h bit)
  rwa [matrixWords_length] at hstore

/-- Bits depend on the memory and the marks only. -/
theorem bitAt_eq_of_mem_marks (s t : State) (base w x y : Nat) (hm : t.mem = s.mem) (hk : t.marks = s.marks) :
    bitAt t base w x y = bitAt s base w x y := by
  rw [bitAt, bitAt, readWord_eq_of_mem_marks s t _ hm hk]

/-- A store below or above HIST leaves the histogram. -/
theorem readWord_hist_storeElems (s : State) (win : Window) (es : List Word) (b : Nat) (hb : b < 32)
    (h : 0x980 ≤ win.base ∨ win.base + 4 * es.length ≤ 0x900) :
    readWord (storeElems s win es) (0x900 + 4 * b) = readWord s (0x900 + 4 * b) :=
  readWord_storeElems_outside s win es _ (by omega)

/-! ## The checks -/

theorem imageSizeBad_eq_true (w h : Nat) : imageSizeBad w h = true ↔ ¬ imageAccepted w h := by
  rw [← imageSizeBad_eq_false, Bool.not_eq_false]

/-- The one error of the estimate (42_binarizer R273). -/
theorem estimate_error (hist : List Nat) (e : CmdError) (h : estimate hist = .error e) : e = notFoundError 0x41 0 := by
  unfold estimate at h
  dsimp only at h
  split_ifs at h
  exact (Except.error.inj h).symm

/-! ## BIN_ROW -/

theorem exec_binRow_size (s : State) (h : ¬ imageAccepted s.regs.imgW.toNat s.regs.imgH.toNat) :
    exec .binRow s = .next (withOutcome s .argument 0x40 0) := by
  have hbody : binRowBody s = (s, some (argumentError 0x40 0)) := if_pos ((imageSizeBad_eq_true _ _).2 h)
  exact (congrArg finish hbody).trans (finish_argument s 0x40)

theorem exec_binRow_row (s : State) (hacc : imageAccepted s.regs.imgW.toNat s.regs.imgH.toNat)
    (hy : s.regs.imgH.toNat ≤ s.regs.rowY.toNat) : exec .binRow s = .next (withOutcome s .argument 0x42 0) := by
  have hbody : binRowBody s = (s, some (argumentError 0x42 0)) := by
    simp [binRowBody, (imageSizeBad_eq_false _ _).2 hacc, hy]
  exact (congrArg finish hbody).trans (finish_argument s 0x42)

section
variable (s : State) (w y bp : Nat)

/-- The buffers after BIN_ROW has thresholded row y. -/
def rowStored : State :=
  storeElems (writeHist s ((List.range 32).map (rowCount s w y))) .row (rowWords w (rowBit s w y bp))

theorem sharpen_eq (x : Nat) :
    sharpen s w x y = (4 * (pixel s w x y : Int) - pixel s w (x - 1) y - pixel s w (x + 1) y) / 2 :=
  (Int.shiftRight_natCast_right _ 1).trans (Int.shiftRight_eq_div_pow _ 1)

theorem readWord_rowStored_hist (b : Nat) (hw : w ≤ 2048) (hb : b < 32) :
    readWord (rowStored s w y bp) (0x900 + 4 * b) = BitVec.ofNat 32 (rowCount s w y b) := by
  have hend : Window.row.base + 4 * (rowWords w (rowBit s w y bp)).length ≤ 0x900 := by
    have hlen := rowSize_le w 64 hw
    rw [rowWords_length, Window.base]
    omega
  rw [rowStored, readWord_hist_storeElems _ _ _ b hb (.inr hend), readWord_writeHist s _ b hb]

/-- A bit of the row: never at an end, else the sharpened pixel against the black point (42_binarizer R285). -/
theorem bitAt_rowStored (x : Nat) (hw : w ≤ 2048) (hx : x < 32 * rowSize w) : bitAt (rowStored s w y bp) 0x800 w x 0 =
    (decide (0 < x) && decide (x + 1 < w) &&
      decide ((4 * (pixel s w x y : Int) - pixel s w (x - 1) y - pixel s w (x + 1) y) / 2 < bp)) := by
  rw [rowStored, bitAt_storeRow _ w _ x hw hx, rowBit, sharpen_eq]
  by_cases hin : x + 1 < w
  · have hxw : x < w := (Nat.lt_succ_self x).trans hin
    simp [hxw, Nat.succ_le_iff]
  · have hout : ¬ x + 2 ≤ w := hin
    simp [hin, hout]

theorem sameExcept_rowStored :
    sameExcept s (rowStored s w y bp) [(0x900, 0x980), (0x800, 0x800 + 4 * ((w + 31) / 32))] :=
  sameExcept_trans (sameExcept_mono (sameExcept_writeHist s _) (by simp))
    (sameExcept_mono (sameExcept_storeRow _ w _) (by simp))

end

/-- BIN_ROW where the checks pass and the estimate succeeds (42_binarizer R285). -/
theorem exec_binRow_ok (s : State) (bp : Nat) (hacc : imageAccepted s.regs.imgW.toNat s.regs.imgH.toNat)
    (hy : s.regs.rowY.toNat < s.regs.imgH.toNat)
    (hest : estimate ((List.range 32).map (rowCount s s.regs.imgW.toNat s.regs.rowY.toNat)) = .ok bp) :
    exec .binRow s =
      .next (withOutcome (setBlackPt (rowStored s s.regs.imgW.toNat s.regs.rowY.toNat bp) bp) .ok 0 0) := by
  have hbody : binRowBody s = (setBlackPt (rowStored s s.regs.imgW.toNat s.regs.rowY.toNat bp) bp, none) := by
    simp [binRowBody, rowStored, (imageSizeBad_eq_false _ _).2 hacc, hy.not_ge, rowHistogram_eq, hest]
  exact (congrArg finish hbody).trans (finish_ok _)

/-- BIN_ROW where the checks pass and the estimate fails (42_binarizer R285). -/
theorem exec_binRow_error (s : State) (e : CmdError) (hacc : imageAccepted s.regs.imgW.toNat s.regs.imgH.toNat)
    (hy : s.regs.rowY.toNat < s.regs.imgH.toNat)
    (hest : estimate ((List.range 32).map (rowCount s s.regs.imgW.toNat s.regs.rowY.toNat)) = .error e) :
    exec .binRow s = .next (withOutcome
      (writeHist s ((List.range 32).map (rowCount s s.regs.imgW.toNat s.regs.rowY.toNat))) .notFound 0x41 0) := by
  have hbody : binRowBody s = (writeHist s ((List.range 32).map (rowCount s s.regs.imgW.toNat s.regs.rowY.toNat)),
      some (notFoundError 0x41 0)) := by
    simp [binRowBody, (imageSizeBad_eq_false _ _).2 hacc, hy.not_ge, rowHistogram_eq, hest, estimate_error _ e hest]
  exact (congrArg finish hbody).trans (finish_notFound _ 0x41 0)

/-- Settles O38: the checks in order, then the two outcomes of the estimate. -/
theorem binRowSharpensAndThresholds : Obligations.BinRowSharpensAndThresholds := by
  refine ⟨by decide, ?_⟩
  rintro s _ _ _ rfl rfl rfl
  refine ⟨exec_binRow_size s, exec_binRow_row s, fun hacc hy => ?_⟩
  cases hest : estimate ((List.range 32).map (rowCount s s.regs.imgW.toNat s.regs.rowY.toNat)) with
  | error e =>
    refine ⟨_, exec_binRow_error s e hacc hy hest, fun b hb => ?_, nofun, fun _ _ => ⟨rfl, ?_⟩⟩
    · rw [readWord_withOutcome, readWord_writeHist s _ b hb]
    · exact sameExcept_withOutcome (sameExcept_writeHist s _)
  | ok bp =>
    obtain ⟨-, hw, -, -⟩ := id hacc
    refine ⟨_, exec_binRow_ok s bp hacc hy hest, fun b hb => ?_, fun _ hbp => ?_, nofun⟩
    · rw [readWord_withOutcome]
      exact (readWord_regs _ _ _).trans (readWord_rowStored_hist s _ _ bp b hw hb)
    · obtain rfl := Except.ok.inj hbp
      refine ⟨rfl, fun x hx => ?_, ?_⟩
      · exact (bitAt_eq_of_mem_marks (rowStored s _ _ bp) _ _ _ _ _ rfl rfl).trans (bitAt_rowStored s _ _ bp x hw hx)
      · exact sameExcept_withOutcome (sameExcept_trans (sameExcept_rowStored s _ _ bp) sameExcept_regs)

/-! ## BIN_GLOBAL -/

theorem exec_binGlobal_size (s : State) (h : ¬ imageAccepted s.regs.imgW.toNat s.regs.imgH.toNat) :
    exec .binGlobal s = .next (withOutcome s .argument 0x40 0) := by
  have hbody : binGlobalBody s = (s, some (argumentError 0x40 0)) := if_pos ((imageSizeBad_eq_true _ _).2 h)
  exact (congrArg finish hbody).trans (finish_argument s 0x40)

section
variable (s : State) (w h bp : Nat)

/-- The buffers after BIN_GLOBAL has thresholded the image. -/
def globalStored : State :=
  storeElems (writeHist s ((List.range 32).map (fourRowCount s w h))) .bm
    (matrixWords w h (fun x y => decide (lumXY s w x y < bp)))

theorem readWord_globalStored_hist (b : Nat) (hb : b < 32) :
    readWord (globalStored s w h bp) (0x900 + 4 * b) = BitVec.ofNat 32 (fourRowCount s w h b) := by
  rw [globalStored, readWord_hist_storeElems _ _ _ b hb (.inl (by decide)), readWord_writeHist s _ b hb]

theorem sameExcept_globalStored : sameExcept s (globalStored s w h bp)
    [(0x900, 0x980), (0x100000, 0x100000 + 4 * (h * ((w + 31) / 32)))] :=
  sameExcept_trans (sameExcept_mono (sameExcept_writeHist s _) (by simp))
    (sameExcept_mono (sameExcept_storeBm _ w h _) (by simp))

end

/-- BIN_GLOBAL where the check passes and the estimate succeeds (42_binarizer R290). -/
theorem exec_binGlobal_ok (s : State) (bp : Nat) (hacc : imageAccepted s.regs.imgW.toNat s.regs.imgH.toNat)
    (hest : estimate ((List.range 32).map (fourRowCount s s.regs.imgW.toNat s.regs.imgH.toNat)) = .ok bp) :
    exec .binGlobal s = .next (withOutcome
      (setBinUsed (setBlackPt (globalStored s s.regs.imgW.toNat s.regs.imgH.toNat bp) bp) false) .ok 0 0) := by
  have hbody : binGlobalBody s =
      (setBinUsed (setBlackPt (globalStored s s.regs.imgW.toNat s.regs.imgH.toNat bp) bp) false, none) := by
    simp [binGlobalBody, globalStored, (imageSizeBad_eq_false _ _).2 hacc, globalHistogram_eq, hest]
  exact (congrArg finish hbody).trans (finish_ok _)

/-- BIN_GLOBAL where the check passes and the estimate fails (42_binarizer R290). -/
theorem exec_binGlobal_error (s : State) (e : CmdError) (hacc : imageAccepted s.regs.imgW.toNat s.regs.imgH.toNat)
    (hest : estimate ((List.range 32).map (fourRowCount s s.regs.imgW.toNat s.regs.imgH.toNat)) = .error e) :
    exec .binGlobal s = .next (withOutcome
      (writeHist s ((List.range 32).map (fourRowCount s s.regs.imgW.toNat s.regs.imgH.toNat))) .notFound 0x41 0) := by
  have hbody : binGlobalBody s =
      (writeHist s ((List.range 32).map (fourRowCount s s.regs.imgW.toNat s.regs.imgH.toNat)),
        some (notFoundError 0x41 0)) := by
    simp [binGlobalBody, (imageSizeBad_eq_false _ _).2 hacc, globalHistogram_eq, hest, estimate_error _ e hest]
  exact (congrArg finish hbody).trans (finish_notFound _ 0x41 0)

/-- Settles O39: the check, then the two outcomes of the estimate. -/
theorem binGlobalThresholdsTheImage : Obligations.BinGlobalThresholdsTheImage := by
  refine ⟨by decide, ?_⟩
  rintro s _ _ rfl rfl
  refine ⟨exec_binGlobal_size s, fun hacc => ?_⟩
  cases hest : estimate ((List.range 32).map (fourRowCount s s.regs.imgW.toNat s.regs.imgH.toNat)) with
  | error e =>
    refine ⟨_, exec_binGlobal_error s e hacc hest, fun b hb => ?_, nofun, fun _ _ => ⟨rfl, ?_⟩⟩
    · rw [readWord_withOutcome, readWord_writeHist s _ b hb]
    · exact sameExcept_withOutcome (sameExcept_writeHist s _)
  | ok bp =>
    refine ⟨_, exec_binGlobal_ok s bp hacc hest, fun b hb => ?_, fun _ hbp => ?_, nofun⟩
    · rw [readWord_withOutcome]
      exact (readWord_regs _ _ _).trans (readWord_globalStored_hist s _ _ bp b hb)
    · obtain rfl := Except.ok.inj hbp
      refine ⟨rfl, fun x y hx hy => ?_, ?_⟩
      · exact (bitAt_eq_of_mem_marks (globalStored s _ _ bp) _ _ _ _ _ rfl rfl).trans
          (bitAt_storeBm _ _ _ _ x y hacc hx hy)
      · exact sameExcept_withOutcome (sameExcept_trans (sameExcept_globalStored s _ _ bp) sameExcept_regs)

end Sys2Proof.Machine
end

section
/-! PROOFS. BIN_HYBRID (O40): the averages and the thresholds of the blocks, the blocks that cover a pixel, and the bit
matrix they give. -/

namespace Sys2Proof.Machine

open Sys2Proof.Safety

/-! ## Lists of samples -/

/-- A minimum over samples that do not exceed its start is the least sample. -/
theorem foldl_min_least (l : List Nat) (top : Nat) (hne : l ≠ []) (htop : ∀ v ∈ l, v ≤ top) :
    l.foldl min top ∈ l ∧ ∀ v ∈ l, l.foldl min top ≤ v := by
  obtain ⟨m, hm⟩ := Option.ne_none_iff_exists'.1 (mt List.min?_eq_none_iff.1 hne)
  obtain ⟨hmem, hle⟩ := List.min?_eq_some_iff.1 hm
  rw [List.foldl_min, hm, Option.getD_some, min_eq_right (htop m hmem)]
  exact ⟨hmem, hle⟩

/-- A maximum from 0 is the largest sample. -/
theorem foldl_max_largest (l : List Nat) (hne : l ≠ []) : l.foldl max 0 ∈ l ∧ ∀ v ∈ l, v ≤ l.foldl max 0 := by
  obtain ⟨m, hm⟩ := Option.ne_none_iff_exists'.1 (mt List.max?_eq_none_iff.1 hne)
  obtain ⟨hmem, hle⟩ := List.max?_eq_some_iff.1 hm
  rw [List.foldl_max, hm, Option.getD_some, max_eq_right (Nat.zero_le m)]
  exact ⟨hmem, hle⟩

/-- A sum over the entries of a table, row after row. -/
theorem sum_flatMap_range (n m : Nat) (f : Nat → Nat → Nat) :
    ((List.range n).flatMap fun j => (List.range m).map (f j)).sum =
      ∑ j ∈ Finset.range n, ∑ i ∈ Finset.range m, f j i := by
  rw [List.flatMap_def, List.sum_flatten, List.map_map]
  rfl

/-! ## The average of a block -/

theorem blockOff_eq (i d : Nat) : blockOff i d = blockStart i d := rfl

section
variable (s : State) (w h bx yb : Nat)

theorem pixel_le (x y : Nat) : pixel s w x y ≤ 255 := Nat.le_of_lt_succ (readByte s _).isLt

theorem mem_blockSamples (v : Nat) : v ∈ blockSamples s w h bx yb ↔
    ∃ i j, i < 8 ∧ j < 8 ∧ pixel s w (blockStart bx w + i) (blockStart yb h + j) = v := by
  simp only [blockSamples, Config.hybBlock, List.mem_flatMap, List.mem_map, List.mem_range, blockOff_eq, lumXY_eq_pixel]
  constructor
  · rintro ⟨j, hj, i, hi, hv⟩
    exact ⟨i, j, hi, hj, hv⟩
  · rintro ⟨i, j, hi, hj, hv⟩
    exact ⟨j, hj, i, hi, hv⟩

/-- The model's average of block (bx, yb). -/
def averageAt : Nat := blockAverage (blockSamples s w h bx yb)

/-- The model's average of a block is the one of 42_binarizer R295. -/
theorem isBlockAverage_averageAt : isBlockAverage s w h bx yb (averageAt s w h bx yb) := by
  have hcorner := (mem_blockSamples s w h bx yb _).2 ⟨0, 0, by decide, by decide, rfl⟩
  have htop (v : Nat) (hv : v ∈ blockSamples s w h bx yb) : v ≤ 255 := by
    obtain ⟨i, j, -, -, rfl⟩ := (mem_blockSamples s w h bx yb v).1 hv
    exact pixel_le s w _ _
  obtain ⟨hmin, hmin_le⟩ := foldl_min_least _ 255 (List.ne_nil_of_mem hcorner) htop
  obtain ⟨hmax, hle_max⟩ := foldl_max_largest _ (List.ne_nil_of_mem hcorner)
  refine ⟨_, _, fun i j hi hj => ?_, (mem_blockSamples s w h bx yb _).1 hmin,
    (mem_blockSamples s w h bx yb _).1 hmax, ?_⟩
  · have hmem := (mem_blockSamples s w h bx yb _).2 ⟨i, j, hi, hj, rfl⟩
    exact ⟨hmin_le _ hmem, hle_max _ hmem⟩
  · have hsum : (blockSamples s w h bx yb).sum = ∑ j ∈ Finset.range 8, ∑ i ∈ Finset.range 8,
        pixel s w (blockStart bx w + i) (blockStart yb h + j) := sum_flatMap_range 8 8 _
    simp only [averageAt, blockAverage, hsum, Nat.shiftRight_eq_div_pow]
    rfl

/-! ## The threshold of a block -/

theorem blockAverages_getD (hx : bx < blockCount w) (hy : yb < blockCount h) :
    ((blockAverages s w h).getD yb []).getD bx 0 = averageAt s w h bx yb := by
  simp [blockAverages, averageAt, hx, hy]

/-- The 25 averages of a threshold lie inside a grid of at least 5 x 5 blocks. -/
theorem blockThreshold_eq (hw : 5 ≤ blockCount w) (hh : 5 ≤ blockCount h) :
    blockThreshold (blockAverages s w h) (blockCount w) (blockCount h) bx yb =
      thresholdFrom (averageAt s w h) (blockCount w) (blockCount h) bx yb := by
  have hsum := sum_flatMap_range 5 5 fun dy dx => ((blockAverages s w h).getD
    (min (max yb 2) (blockCount h - 1 - 2) + dy - 2) []).getD (min (max bx 2) (blockCount w - 1 - 2) + dx - 2) 0
  refine (congrArg (· / 25) hsum).trans (congrArg (· / 25) ?_)
  refine Finset.sum_congr rfl fun dy hdy => Finset.sum_congr rfl fun dx hdx => ?_
  have hdy5 := Finset.mem_range.1 hdy
  have hdx5 := Finset.mem_range.1 hdx
  exact blockAverages_getD s w h _ _ (by omega) (by omega)

theorem blockThresholds_getD (avg : List (List Nat)) (nx ny : Nat) (hx : bx < nx) (hy : yb < ny) :
    ((blockThresholds avg nx ny).getD yb []).getD bx 0 = blockThreshold avg nx ny bx yb := by
  simp [blockThresholds, hx, hy]

/-! ## The bits -/

theorem mem_blocksCovering (d v i : Nat) :
    i ∈ blocksCovering d v ↔ i < blockCount d ∧ blockStart i d ≤ v ∧ v < blockStart i d + 8 := by
  simp only [blocksCovering, List.mem_filter, List.mem_range, Bool.and_eq_true, decide_eq_true_eq]
  rfl

/-- The thresholds of the whole image. -/
def imageThresholds : List (List Nat) := blockThresholds (blockAverages s w h) (blockCount w) (blockCount h)

/-- A pixel is dark where some block that covers it has a threshold above it (42_binarizer R296). -/
theorem hybridBit_iff (x y : Nat) (hw : 5 ≤ blockCount w) (hh : 5 ≤ blockCount h) :
    hybridBit s w h (imageThresholds s w h) x y = true ↔
      ∃ bx yb, bx < blockCount w ∧ yb < blockCount h ∧ blockStart bx w ≤ x ∧ x < blockStart bx w + 8 ∧
        blockStart yb h ≤ y ∧ y < blockStart yb h + 8 ∧
        pixel s w x y < thresholdFrom (averageAt s w h) (blockCount w) (blockCount h) bx yb := by
  have hthreshold (bx yb : Nat) (hx : bx < blockCount w) (hy : yb < blockCount h) :
      ((imageThresholds s w h).getD yb []).getD bx 0 =
        thresholdFrom (averageAt s w h) (blockCount w) (blockCount h) bx yb := by
    rw [imageThresholds, blockThresholds_getD bx yb _ _ _ hx hy, blockThreshold_eq s w h bx yb hw hh]
  simp only [hybridBit, List.any_eq_true, mem_blocksCovering, decide_eq_true_eq]
  constructor
  · rintro ⟨yb, ⟨hyb, hylo, hyhi⟩, bx, ⟨hbx, hxlo, hxhi⟩, hdark⟩
    exact ⟨bx, yb, hbx, hyb, hxlo, hxhi, hylo, hyhi, hthreshold bx yb hbx hyb ▸ hdark⟩
  · rintro ⟨bx, yb, hbx, hyb, hxlo, hxhi, hylo, hyhi, hdark⟩
    exact ⟨yb, ⟨hyb, hylo, hyhi⟩, bx, ⟨hbx, hxlo, hxhi⟩, (hthreshold bx yb hbx hyb).symm ▸ hdark⟩

/-- The buffers after BIN_HYBRID has thresholded the image by blocks. -/
def hybridStored : State := storeElems s .bm (matrixWords w h (hybridBit s w h (imageThresholds s w h)))

end

/-! ## BIN_HYBRID -/

theorem exec_binHybrid_size (s : State) (h : ¬ imageAccepted s.regs.imgW.toNat s.regs.imgH.toNat) :
    exec .binHybrid s = .next (withOutcome s .argument 0x40 0) := by
  have hbody : binHybridBody s = (s, some (argumentError 0x40 0)) := if_pos ((imageSizeBad_eq_true _ _).2 h)
  exact (congrArg finish hbody).trans (finish_argument s 0x40)

theorem exec_binHybrid_small (s : State) (hacc : imageAccepted s.regs.imgW.toNat s.regs.imgH.toNat)
    (hsmall : s.regs.imgW.toNat < 40 ∨ s.regs.imgH.toNat < 40) : exec .binHybrid s = exec .binGlobal s :=
  congrArg finish (binHybridBody_fallsBack s ((hybridFallsBack_iff s).2 ⟨hacc, hsmall⟩))

theorem exec_binHybrid_blocks (s : State) (hacc : imageAccepted s.regs.imgW.toNat s.regs.imgH.toNat)
    (hw : 40 ≤ s.regs.imgW.toNat) (hh : 40 ≤ s.regs.imgH.toNat) : exec .binHybrid s =
      .next (withOutcome (setBinUsed (hybridStored s s.regs.imgW.toNat s.regs.imgH.toNat) true) .ok 0 0) := by
  have hbody : binHybridBody s = (setBinUsed (hybridStored s s.regs.imgW.toNat s.regs.imgH.toNat) true, none) := by
    simp [binHybridBody, hybridStored, imageThresholds, (imageSizeBad_eq_false _ _).2 hacc, Config.hybMinDim, hw.not_gt,
      hh.not_gt]
  exact (congrArg finish hbody).trans (finish_ok _)

/-- 40 pixels are at least 5 blocks. -/
theorem five_le_blockCount (d : Nat) (hd : 40 ≤ d) : 5 ≤ blockCount d := by
  rw [blockCount, Config.hybBlock]
  omega

/-- Settles O40: the check, the fall-back, and the bits that the averages of the blocks give. -/
theorem binHybridThresholdsByBlocks : Obligations.BinHybridThresholdsByBlocks := by
  refine ⟨by decide, ?_⟩
  rintro s _ _ rfl rfl
  refine ⟨exec_binHybrid_size s, exec_binHybrid_small s, fun hacc hw hh => ?_⟩
  refine ⟨_, averageAt s s.regs.imgW.toNat s.regs.imgH.toNat, exec_binHybrid_blocks s hacc hw hh, rfl,
    fun bx yb _ _ => isBlockAverage_averageAt s _ _ bx yb, fun x y hx hy => ?_, ?_⟩
  · have hbit := (bitAt_eq_of_mem_marks (hybridStored s _ _)
      (withOutcome (setBinUsed (hybridStored s _ _) true) .ok 0 0) _ _ _ _ rfl rfl).trans
      (bitAt_storeBm s _ _ (hybridBit s _ _ (imageThresholds s _ _)) x y hacc hx hy)
    rw [hbit, Bool.and_eq_true, decide_eq_true_eq,
      hybridBit_iff s _ _ x y (five_le_blockCount _ hw) (five_le_blockCount _ hh)]
    rfl
  · exact sameExcept_withOutcome (sameExcept_trans (sameExcept_storeBm s _ _ _) sameExcept_regs)

end Sys2Proof.Machine
end

section
/-! PROOFS. The binary32 patterns as rational numbers: every finite one is a significand below 2^24 times a power of
two, so that above 2^(t+23) they all lie on the grid of the multiples of 2^t (30_encoding R147). -/

namespace Sys2Proof.Machine

open Sys2Proof.Safety

/-! ## Signs -/

/-- The factor of a sign bit. -/
def signFactor (neg : Bool) : ℚ := if neg then -1 else 1

@[simp] theorem signFactor_true : signFactor true = -1 := rfl

@[simp] theorem signFactor_false : signFactor false = 1 := rfl

theorem signFactor_bne (a b : Bool) : signFactor (a != b) = signFactor a * signFactor b := by
  cases a <;> cases b <;> simp

theorem signFactor_not (a : Bool) : signFactor (!a) = -signFactor a := by
  cases a <;> simp

@[simp] theorem abs_signFactor (a : Bool) : |signFactor a| = 1 := by
  cases a <;> simp

@[simp] theorem signFactor_mul_self (a : Bool) : signFactor a * signFactor a = 1 := by
  cases a <;> simp

theorem signFactor_inv (a : Bool) : (signFactor a)⁻¹ = signFactor a := by
  cases a <;> norm_num

theorem signFactor_ne_zero (a : Bool) : signFactor a ≠ 0 := by
  cases a <;> simp

/-! ## Patterns with a given sign -/

theorem withSign_toNat (neg : Bool) (low : Nat) (h : low < 2 ^ 31) :
    (withSign neg low).toNat = if neg then 2 ^ 31 + low else low := by
  rw [withSign, BitVec.toNat_ofNat]
  apply Nat.mod_eq_of_lt
  split <;> omega

theorem withSign_getLsbD_31 (neg : Bool) (low : Nat) (h : low < 2 ^ 31) : (withSign neg low).getLsbD 31 = neg := by
  rw [withSign, BitVec.getLsbD_ofNat]
  cases neg with
  | false => simp [Nat.testBit_lt_two_pow h]
  | true => rw [if_pos rfl, Nat.testBit_two_pow_add_eq, Nat.testBit_lt_two_pow h]; rfl

theorem withSign_getLsbD_0 (neg : Bool) (low : Nat) : (withSign neg low).getLsbD 0 = decide (low % 2 = 1) := by
  rw [withSign, BitVec.getLsbD_ofNat, Nat.testBit_zero]
  cases neg with
  | false => simp
  | true =>
    rw [if_pos rfl, Nat.add_mod]
    simp

theorem exponentOf_withSign (neg : Bool) (low : Nat) (h : low < 2 ^ 31) :
    exponentOf (withSign neg low) = low / 2 ^ 23 := by
  rw [exponentOf, withSign_toNat neg low h]
  split <;> omega

theorem fractionOf_withSign (neg : Bool) (low : Nat) (h : low < 2 ^ 31) :
    fractionOf (withSign neg low) = low % 2 ^ 23 := by
  rw [fractionOf, withSign_toNat neg low h]
  split <;> omega

/-- The pattern of a subnormal or of a zero. -/
theorem unpack32_withSign_subnormal (neg : Bool) (m : Nat) (h : m < 2 ^ 23) :
    unpack32 (withSign neg m) = .finite neg m (-149) := by
  have hlow : m < 2 ^ 31 := by omega
  rw [unpack32, exponentOf_withSign neg m hlow, fractionOf_withSign neg m hlow, signOf, withSign_getLsbD_31 neg m hlow,
    Nat.div_eq_of_lt h, Nat.mod_eq_of_lt h]
  rfl

/-- The pattern of a normal number with biased exponent `E + 1`. -/
theorem unpack32_withSign_normal (neg : Bool) (E m : Nat) (hE : E < 254) (hm : 2 ^ 23 ≤ m) (hm' : m < 2 ^ 24) :
    unpack32 (withSign neg (E * 2 ^ 23 + m)) = .finite neg m ((E : Int) - 149) := by
  have hlow : E * 2 ^ 23 + m < 2 ^ 31 := by omega
  have hexp : (E * 2 ^ 23 + m) / 2 ^ 23 = E + 1 := by omega
  have hfrac : 2 ^ 23 + (E * 2 ^ 23 + m) % 2 ^ 23 = m := by omega
  have hbias : ((E + 1 : Nat) : Int) - 150 = (E : Int) - 149 := by omega
  rw [unpack32, exponentOf_withSign neg _ hlow, fractionOf_withSign neg _ hlow, signOf, withSign_getLsbD_31 neg _ hlow,
    hexp, if_neg (by omega), if_neg (by omega), hfrac, hbias]

/-! ## What a pattern holds -/

theorem isNaN_iff (v : Word) : isNaN v ↔ unpack32 v = .nan := by
  unfold isNaN unpack32 exponentOf fractionOf
  split_ifs <;> simp_all

/-- A finite significand and its exponent lie in the ranges of the format (30_encoding R147). -/
theorem unpack32_finite (v : Word) (neg : Bool) (m : Nat) (e : Int) (h : unpack32 v = .finite neg m e) :
    neg = signOf v ∧ m < 2 ^ 24 ∧ -149 ≤ e ∧ e ≤ 104 ∧ (e = -149 ∨ 2 ^ 23 ≤ m) := by
  have hfrac : fractionOf v < 2 ^ 23 := Nat.mod_lt _ (by decide)
  have hexp : exponentOf v < 256 := Nat.mod_lt _ (by decide)
  unfold unpack32 at h
  split_ifs at h <;> (injection h with hneg hm he; refine ⟨hneg.symm, ?_, ?_, ?_, ?_⟩ <;> omega)

theorem finiteValue_eq_some (v : Word) (x : ℚ) : finiteValue v = some x ↔
    ∃ m e, unpack32 v = .finite (signOf v) m e ∧ x = signFactor (signOf v) * m * 2 ^ e := by
  unfold finiteValue
  cases h : unpack32 v with
  | nan => simp
  | inf neg => simp
  | finite neg m e =>
    obtain ⟨rfl, -⟩ := unpack32_finite v neg m e h
    constructor
    · rintro ⟨⟩
      exact ⟨m, e, rfl, rfl⟩
    · rintro ⟨_, _, ⟨⟩, rfl⟩
      rfl

theorem finiteValue_of_unpack32 (v : Word) (neg : Bool) (m : Nat) (e : Int) (h : unpack32 v = .finite neg m e) :
    finiteValue v = some (signFactor neg * m * 2 ^ e) := by
  rw [finiteValue, h]
  rfl

theorem finiteValue_eq_none (v : Word) : finiteValue v = none ↔ unpack32 v = .nan ∨ ∃ neg, unpack32 v = .inf neg := by
  unfold finiteValue
  cases unpack32 v <;> simp

theorem signed_eq_zero_iff (neg : Bool) (m : Nat) (e : Int) : signFactor neg * m * 2 ^ e = 0 ↔ m = 0 := by
  simp [signFactor_ne_zero, zpow_ne_zero]

theorem abs_signed (neg : Bool) (m : Nat) (e : Int) : |signFactor neg * m * (2 : ℚ) ^ e| = m * 2 ^ e := by
  rw [mul_assoc, abs_mul, abs_signFactor, one_mul, abs_of_nonneg (by positivity)]

/-- From 2^(t+23) on every finite value is a multiple of 2^t, and for the least t every one is. -/
theorem finiteValue_on_grid (v : Word) (y : ℚ) (t : Int) (ht : -149 ≤ t) (h : finiteValue v = some y) :
    (∃ j : ℤ, y = j * 2 ^ t) ∨ (-149 < t ∧ |y| < 2 ^ 23 * 2 ^ t) := by
  obtain ⟨m, e, hv, rfl⟩ := (finiteValue_eq_some v y).1 h
  obtain ⟨-, hm, he, -⟩ := unpack32_finite v _ m e hv
  rcases le_or_gt t e with hte | het
  · left
    obtain ⟨n, hn⟩ := Int.eq_ofNat_of_zero_le (sub_nonneg.2 hte)
    have hpow : (2 : ℚ) ^ e = 2 ^ n * 2 ^ t := by
      rw [← zpow_natCast, ← zpow_add₀ two_ne_zero, ← hn, sub_add_cancel]
    refine ⟨(if signOf v then -1 else 1) * m * 2 ^ n, ?_⟩
    rw [hpow, signFactor]
    push_cast
    ring
  · right
    refine ⟨by omega, ?_⟩
    have hm' : (m : ℚ) < 2 ^ 24 := by exact_mod_cast hm
    have hpow : (2 : ℚ) ^ (e + 1) ≤ 2 ^ t := zpow_le_zpow_right₀ one_le_two het
    calc |signFactor (signOf v) * m * (2 : ℚ) ^ e| = m * 2 ^ e := abs_signed _ m e
      _ < 2 ^ 24 * 2 ^ e := mul_lt_mul_of_pos_right hm' (by positivity)
      _ = 2 ^ 23 * 2 ^ (e + 1) := by rw [zpow_add₀ two_ne_zero]; ring
      _ ≤ 2 ^ 23 * 2 ^ t := mul_le_mul_of_nonneg_left hpow (by positivity)

end Sys2Proof.Machine
end

section
/-! PROOFS. Each operation rounds once (O41). A rounding picks a unit 2^(T-149) and a number k of units; which k it
picks depends only on where the exact result lies among the half units, so that a quotient, of whose remainder the
operation keeps one bit only, rounds as the exact one does. -/

namespace Sys2Proof.Machine

open Sys2Proof.Safety

/-! ## To the nearest unit, ties to even -/

/-- `z` half units of 2^(T-150) round to `k` units, ties to even, where `k` has 24 bits or T is the least unit. -/
structure RoundsTo (T k : Nat) (z : ℚ) : Prop where
  nonneg : 0 ≤ z
  normal : T = 0 ∨ 2 ^ 24 ≤ z
  bounded : z < 2 ^ 25
  ge : 2 * (k : ℚ) - 1 ≤ z
  le : z ≤ 2 * k + 1
  even : k % 2 = 1 → 2 * (k : ℚ) - 1 < z ∧ z < 2 * k + 1

namespace RoundsTo

variable {T k : Nat} {z : ℚ}

/-- A rounding depends only on where the exact result lies among the half units. -/
theorem congr (h : RoundsTo T k z) {z' : ℚ} (hge : ∀ i : ℤ, (i : ℚ) ≤ z ↔ i ≤ z') (hle : ∀ i : ℤ, z ≤ i ↔ z' ≤ i) :
    RoundsTo T k z' := by
  have hlow := hge (2 * k - 1)
  have hhigh := hle (2 * k + 1)
  have hlow' := hle (2 * k - 1)
  have hhigh' := hge (2 * k + 1)
  push_cast at hlow hhigh hlow' hhigh'
  refine ⟨?_, h.normal.imp_right fun hz => ?_, ?_, hlow.1 h.ge, hhigh.1 h.le, fun hodd => ?_⟩
  · exact_mod_cast (hge 0).1 (by exact_mod_cast h.nonneg)
  · have hbound := hge (2 ^ 24)
    push_cast at hbound
    exact hbound.1 hz
  · have hbound := not_congr (hge (2 ^ 25))
    push_cast at hbound
    exact not_le.1 (hbound.1 (not_le.2 h.bounded))
  · obtain ⟨hlt, hgt⟩ := h.even hodd
    exact ⟨not_le.1 (mt hlow'.2 (not_le.2 hlt)), not_le.1 (mt hhigh'.2 (not_le.2 hgt))⟩

theorem count_le (h : RoundsTo T k z) : k ≤ 2 ^ 24 := by
  have hlt : (k : ℚ) < 2 ^ 24 + 1 := by linarith [h.ge, h.bounded]
  exact Nat.lt_succ_iff.1 (by exact_mod_cast hlt)

theorem le_count (h : RoundsTo T k z) (hT : T ≠ 0) : 2 ^ 23 ≤ k := by
  have hlt : (2 ^ 23 : ℚ) < k + 1 := by linarith [h.normal.resolve_left hT, h.le]
  exact Nat.lt_succ_iff.1 (by exact_mod_cast hlt)

/-- No whole number of units is nearer, and of two equally near ones `k` is even. -/
theorem nearest_unit (h : RoundsTo T k z) (j : ℤ) :
    |2 * (k : ℚ) - z| ≤ |2 * (j : ℚ) - z| ∧ (|2 * (j : ℚ) - z| = |2 * (k : ℚ) - z| → (j : ℚ) = k ∨ k % 2 = 0) := by
  have hnear : |2 * (k : ℚ) - z| ≤ 1 := abs_le.2 ⟨by linarith [h.le], by linarith [h.ge]⟩
  rcases eq_or_ne j (k : ℤ) with rfl | hne
  · exact ⟨le_rfl, fun _ => .inl rfl⟩
  · have hfar : (1 : ℚ) ≤ |(j : ℚ) - k| := by exact_mod_cast Int.one_le_abs (sub_ne_zero.2 hne)
    have htri : 2 * |(j : ℚ) - k| ≤ |2 * (j : ℚ) - z| + |2 * (k : ℚ) - z| := by
      have heq : 2 * ((j : ℚ) - k) = (2 * j - z) - (2 * k - z) := by ring
      calc 2 * |(j : ℚ) - k| = |2 * ((j : ℚ) - k)| := by rw [abs_mul, abs_two]
        _ ≤ |2 * (j : ℚ) - z| + |2 * (k : ℚ) - z| := heq ▸ abs_sub _ _
    refine ⟨by linarith, fun htie => .inr ?_⟩
    by_contra hodd
    obtain ⟨hlt, hgt⟩ := h.even (by omega)
    have hstrict : |2 * (k : ℚ) - z| < 1 := abs_lt.2 ⟨by linarith, by linarith⟩
    linarith

/-- No value on the grid of units, and none below 24 bits where `k` has them, is nearer. -/
theorem nearest (h : RoundsTo T k z) (w : ℚ) (hw : (∃ j : ℤ, w = 2 * j) ∨ (T ≠ 0 ∧ |w| < 2 ^ 24)) :
    |2 * (k : ℚ) - z| ≤ |w - z| ∧ (|w - z| = |2 * (k : ℚ) - z| → w = 2 * k ∨ k % 2 = 0) := by
  rcases hw with ⟨j, rfl⟩ | ⟨hT, hsmall⟩
  · obtain ⟨hle, htie⟩ := h.nearest_unit j
    exact ⟨hle, fun heq => (htie heq).imp_left fun hj => by rw [hj]⟩
  · have hz : (2 : ℚ) ^ 24 ≤ z := h.normal.resolve_left hT
    have hunit := (h.nearest_unit (2 ^ 23)).1
    have hbelow : |2 * (((2 ^ 23 : ℤ)) : ℚ) - z| = z - 2 ^ 24 := by
      push_cast
      rw [abs_sub_comm, abs_of_nonneg (by linarith)]
      ring
    have hfar : |w - z| = z - w := by
      rw [abs_sub_comm, abs_of_nonneg (by linarith [(abs_lt.1 hsmall).2])]
    have hw := (abs_lt.1 hsmall).2
    rw [hbelow] at hunit
    rw [hfar]
    exact ⟨by linarith, fun heq => absurd heq (by linarith)⟩

end RoundsTo

/-! ## The pattern of a rounded result -/

/-- The pattern of `k` units of 2^(T-149), an infinity where that is too large (43_perspective R320). -/
def pack32 (neg : Bool) (T k : Nat) : Word :=
  if T * 2 ^ 23 + k ≥ 0x7F800000 then inf32 neg else withSign neg (T * 2 ^ 23 + k)

theorem inf32_getLsbD_31 (neg : Bool) : (inf32 neg).getLsbD 31 = neg := by
  cases neg <;> decide

theorem pack32_getLsbD_31 (neg : Bool) (T k : Nat) : (pack32 neg T k).getLsbD 31 = neg := by
  unfold pack32
  split
  · exact inf32_getLsbD_31 neg
  · exact withSign_getLsbD_31 neg _ (by omega)

theorem finiteValue_withSign (neg : Bool) (T k : Nat) (hk : k ≤ 2 ^ 24) (hnormal : T = 0 ∨ 2 ^ 23 ≤ k)
    (hlow : T * 2 ^ 23 + k < 0x7F800000) :
    finiteValue (withSign neg (T * 2 ^ 23 + k)) = some (signFactor neg * k * 2 ^ ((T : Int) - 149)) := by
  rcases lt_or_ge k (2 ^ 23) with hsub | hge
  · obtain rfl : T = 0 := hnormal.resolve_right (by omega)
    rw [Nat.zero_mul, Nat.zero_add]
    exact finiteValue_of_unpack32 _ _ _ _ (unpack32_withSign_subnormal neg k hsub)
  · rcases hk.lt_or_eq with hlt | rfl
    · exact finiteValue_of_unpack32 _ _ _ _ (unpack32_withSign_normal neg T k (by omega) hge hlt)
    · have hcarry : T * 2 ^ 23 + 2 ^ 24 = (T + 1) * 2 ^ 23 + 2 ^ 23 := by ring
      have hexp : (((T + 1 : Nat) : Int)) - 149 = ((T : Int) - 149) + 1 := by omega
      rw [hcarry, finiteValue_of_unpack32 _ _ _ _
        (unpack32_withSign_normal neg (T + 1) (2 ^ 23) (by omega) le_rfl (by decide)), hexp, zpow_add₀ two_ne_zero]
      congr 1
      push_cast
      ring

section
variable {T k : Nat} {z : ℚ}

/-- A result is too large exactly from the midpoint of the largest finite value and 2^128 on (43_perspective R320). -/
theorem RoundsTo.overflow_iff (h : RoundsTo T k z) :
    T * 2 ^ 23 + k ≥ 0x7F800000 ↔ (2 : ℚ) ^ 128 - 2 ^ 103 ≤ z * 2 ^ ((T : Int) - 150) := by
  have hk := h.count_le
  rcases lt_trichotomy T 253 with hT | rfl | hT
  · refine iff_of_false (by omega) (not_le.2 ?_)
    have hpow : (2 : ℚ) ^ ((T : Int) - 150) ≤ 2 ^ (102 : ℤ) := zpow_le_zpow_right₀ one_le_two (by omega)
    calc z * 2 ^ ((T : Int) - 150) ≤ 2 ^ 25 * 2 ^ (102 : ℤ) :=
          mul_le_mul h.bounded.le hpow (by positivity) (by positivity)
      _ < 2 ^ 128 - 2 ^ 103 := by norm_num
  · have hscale : (2 : ℚ) ^ 128 - 2 ^ 103 = (2 ^ 25 - 1) * 2 ^ (((253 : Nat) : Int) - 150) := by norm_num
    rw [hscale, mul_le_mul_iff_left₀ (by positivity)]
    constructor
    · intro hlow
      have hlow' : (2 : ℚ) ^ 24 ≤ k := by exact_mod_cast (by omega : 2 ^ 24 ≤ k)
      linarith [h.ge]
    · intro hz
      by_contra hlow
      have hsmall : (k : ℚ) ≤ 2 ^ 24 - 1 := by
        have : k + 1 ≤ 2 ^ 24 := by omega
        have : (k : ℚ) + 1 ≤ 2 ^ 24 := by exact_mod_cast this
        linarith
      have hlast : (k : ℚ) + 1 = 2 ^ 24 := by linarith [h.le]
      have hodd : k + 1 = 2 ^ 24 := by exact_mod_cast hlast
      linarith [(h.even (by omega)).2]
  · have hcount := h.le_count (by omega)
    refine iff_of_true (by omega) ?_
    have hpow : (2 : ℚ) ^ (104 : ℤ) ≤ 2 ^ ((T : Int) - 150) := zpow_le_zpow_right₀ one_le_two (by omega)
    calc (2 : ℚ) ^ 128 - 2 ^ 103 ≤ 2 ^ 24 * 2 ^ (104 : ℤ) := by norm_num
      _ ≤ z * 2 ^ ((T : Int) - 150) :=
          mul_le_mul (h.normal.resolve_left (by omega)) hpow (by positivity) h.nonneg

theorem unit_eq_two_halves (T : Nat) : (2 : ℚ) ^ ((T : Int) - 149) = 2 * 2 ^ ((T : Int) - 150) := by
  rw [← zpow_one_add₀ two_ne_zero]
  congr 1
  ring

/-- A finite value in half units: an even number, or too small to have 24 bits. -/
theorem finiteValue_halfUnits (v : Word) (y : ℚ) (T : Nat) (hy : finiteValue v = some y) (neg : Bool) :
    (∃ j : ℤ, signFactor neg * y / 2 ^ ((T : Int) - 150) = 2 * j) ∨
      (T ≠ 0 ∧ |signFactor neg * y / 2 ^ ((T : Int) - 150)| < 2 ^ 24) := by
  have hu : (0 : ℚ) < 2 ^ ((T : Int) - 150) := by positivity
  have hgrid := finiteValue_on_grid v y ((T : Int) - 149) (by omega) hy
  rw [unit_eq_two_halves] at hgrid
  rcases hgrid with ⟨j, rfl⟩ | ⟨hT, hsmall⟩
  · refine .inl ⟨(if neg then -1 else 1) * j, ?_⟩
    rw [signFactor]
    field_simp
    push_cast
    rfl
  · refine .inr ⟨by omega, ?_⟩
    rw [abs_div, abs_mul, abs_signFactor, one_mul, abs_of_pos hu, div_lt_iff₀ hu]
    linarith

theorem abs_signed_sub (neg : Bool) (u w z : ℚ) (hu : 0 < u) :
    |signFactor neg * (w * u) - signFactor neg * (z * u)| = |w - z| * u := by
  rw [← mul_sub, ← sub_mul, abs_mul, abs_mul, abs_signFactor, one_mul, abs_of_pos hu]

/-- No finite value is nearer to the exact result, and of two equally near ones `k` is even. -/
theorem RoundsTo.nearest_finite (h : RoundsTo T k z) (neg : Bool) (v : Word) (y : ℚ) (hy : finiteValue v = some y) :
    let x := signFactor neg * k * 2 ^ ((T : Int) - 149)
    let q := signFactor neg * (z * 2 ^ ((T : Int) - 150))
    |x - q| ≤ |y - q| ∧ (|y - q| = |x - q| → y = x ∨ k % 2 = 0) := by
  have hu : (0 : ℚ) < 2 ^ ((T : Int) - 150) := by positivity
  obtain ⟨w, hw⟩ : ∃ w, w = signFactor neg * y / 2 ^ ((T : Int) - 150) := ⟨_, rfl⟩
  have hyw : y = signFactor neg * (w * 2 ^ ((T : Int) - 150)) := by
    rw [hw, div_mul_cancel₀ _ hu.ne', ← mul_assoc, signFactor_mul_self, one_mul]
  have hx : signFactor neg * k * 2 ^ ((T : Int) - 149) = signFactor neg * (2 * k * 2 ^ ((T : Int) - 150)) := by
    rw [unit_eq_two_halves]
    ring
  obtain ⟨hnear, htie⟩ := h.nearest w (hw ▸ finiteValue_halfUnits v y T hy neg)
  dsimp only
  rw [hx, hyw, abs_signed_sub neg _ _ _ hu, abs_signed_sub neg _ _ _ hu, mul_le_mul_iff_left₀ hu, mul_left_inj' hu.ne']
  exact ⟨hnear, fun heq => (htie heq).imp_left fun hwk => by rw [hwk]⟩

/-- The pattern of a rounding is the exact value rounded once (43_perspective R320). -/
theorem RoundsTo.roundedOnce_pack32 (h : RoundsTo T k z) (neg : Bool) :
    roundedOnce (signFactor neg * (z * 2 ^ ((T : Int) - 150))) (pack32 neg T k) := by
  have hmag : |signFactor neg * (z * 2 ^ ((T : Int) - 150))| = z * 2 ^ ((T : Int) - 150) := by
    rw [abs_mul, abs_signFactor, one_mul, abs_of_nonneg (mul_nonneg h.nonneg (by positivity))]
  unfold roundedOnce
  rw [hmag]
  constructor
  · intro hfin
    have hlow : ¬ T * 2 ^ 23 + k ≥ 0x7F800000 := mt h.overflow_iff.1 (not_le.2 hfin)
    rw [pack32, if_neg hlow]
    refine ⟨_, finiteValue_withSign neg T k h.count_le (or_iff_not_imp_left.2 h.le_count) (not_le.1 hlow),
      fun v y hy => ?_⟩
    obtain ⟨hnear, htie⟩ := h.nearest_finite neg v y hy
    refine ⟨hnear, fun heq => (htie heq).imp_right fun heven => ?_⟩
    rw [withSign_getLsbD_0, decide_eq_false_iff_not]
    omega
  · intro hinf
    have hpos : 0 < z * 2 ^ ((T : Int) - 150) := lt_of_lt_of_le (by norm_num) hinf
    rw [pack32, if_pos (h.overflow_iff.2 hinf)]
    cases neg with
    | false => rw [signFactor_false, one_mul, if_neg hpos.not_gt]; rfl
    | true => rw [signFactor_true, neg_one_mul, if_pos (neg_neg_of_pos hpos)]; rfl

end

/-! ## The rounding of an exact dyadic result -/

/-- The exponent of the unit in the last place that `round32` picks. -/
def unitExp (m : Nat) (e : Int) : Int := max (e + (Nat.log2 m : Int) - 23) (-149)

/-- The number of units that `round32` picks. -/
def unitCount (m : Nat) (e : Int) : Nat :=
  if unitExp m e ≤ e then m * 2 ^ (e - unitExp m e).toNat else roundShift m (unitExp m e - e).toNat

theorem round32_eq_pack32 (neg : Bool) (m : Nat) (e : Int) (hm : m ≠ 0) :
    round32 neg m e = pack32 neg (unitExp m e + 149).toNat (unitCount m e) := if_neg hm

theorem round32_zero (neg : Bool) (e : Int) : round32 neg 0 e = withSign neg 0 := if_pos rfl

theorem round32_getLsbD_31 (neg : Bool) (m : Nat) (e : Int) : (round32 neg m e).getLsbD 31 = neg := by
  rcases eq_or_ne m 0 with rfl | hm
  · rw [round32_zero]
    exact withSign_getLsbD_31 neg 0 (by decide)
  · rw [round32_eq_pack32 neg m e hm, pack32_getLsbD_31]

/-- A shift that rounds: the nearest number of 2^n, ties to even. -/
theorem roundShift_nearest (m n : Nat) :
    2 * roundShift m n * 2 ^ n ≤ 2 * m + 2 ^ n ∧ 2 * m ≤ (2 * roundShift m n + 1) * 2 ^ n ∧
      (roundShift m n % 2 = 1 →
        2 * roundShift m n * 2 ^ n < 2 * m + 2 ^ n ∧ 2 * m < (2 * roundShift m n + 1) * 2 ^ n) := by
  have hdiv := Nat.div_add_mod m (2 ^ n)
  have hmod := Nat.mod_lt m (Nat.two_pow_pos n)
  have hup :
      (roundShift m n = m / 2 ^ n + 1 ∧
        (2 ^ n < 2 * (m % 2 ^ n) ∨ 2 ^ n = 2 * (m % 2 ^ n) ∧ m / 2 ^ n % 2 = 1)) ∨
      (roundShift m n = m / 2 ^ n ∧
        (2 * (m % 2 ^ n) < 2 ^ n ∨ 2 ^ n = 2 * (m % 2 ^ n) ∧ m / 2 ^ n % 2 = 0)) := by
    unfold roundShift
    dsimp only
    split_ifs <;> omega
  generalize m / 2 ^ n = q at *
  generalize 2 ^ n = p at *
  rcases hup with ⟨hk, hr⟩ | ⟨hk, hr⟩
  · have hlow : 2 * (q + 1) * p = 2 * (p * q) + 2 * p := by ring
    have hhigh : (2 * (q + 1) + 1) * p = 2 * (p * q) + 3 * p := by ring
    rw [hk, hlow, hhigh]
    omega
  · have hlow : 2 * q * p = 2 * (p * q) := by ring
    have hhigh : (2 * q + 1) * p = 2 * (p * q) + p := by ring
    rw [hk, hlow, hhigh]
    omega

theorem unitExp_ge (m : Nat) (e : Int) : -149 ≤ unitExp m e := le_max_right _ _

theorem unitExp_gt (m : Nat) (e : Int) : e + Nat.log2 m ≤ unitExp m e + 23 := by
  have := le_max_left (e + (Nat.log2 m : Int) - 23) (-149)
  rw [unitExp]
  omega

theorem unitExp_eq (m : Nat) (e : Int) (h : -149 < unitExp m e) : unitExp m e + 23 = e + Nat.log2 m := by
  rw [unitExp] at h ⊢
  omega

/-- A non-zero significand lies between the powers of two of its leading bit. -/
theorem significand_bounds (m : Nat) (hm : m ≠ 0) :
    (2 : ℚ) ^ (Nat.log2 m : Int) ≤ m ∧ (m : ℚ) < 2 ^ ((Nat.log2 m : Int) + 1) := by
  have hle := Nat.log2_self_le hm
  have hlt := (Nat.log2_lt hm).1 (Nat.lt_succ_self (Nat.log2 m))
  exact ⟨by exact_mod_cast hle, by exact_mod_cast hlt⟩

/-- The number of units that `round32` picks is the nearest one, ties to even. -/
theorem unitCount_nearest (m : Nat) (e : Int) :
    2 * (unitCount m e : ℚ) - 1 ≤ m * 2 ^ (e - unitExp m e + 1) ∧
    (m * 2 ^ (e - unitExp m e + 1) : ℚ) ≤ 2 * unitCount m e + 1 ∧
    (unitCount m e % 2 = 1 → 2 * (unitCount m e : ℚ) - 1 < m * 2 ^ (e - unitExp m e + 1) ∧
      (m * 2 ^ (e - unitExp m e + 1) : ℚ) < 2 * unitCount m e + 1) := by
  unfold unitCount
  split
  next hexact =>
    obtain ⟨n, hn⟩ := Int.eq_ofNat_of_zero_le (sub_nonneg.2 hexact)
    have hz : (m * 2 ^ (e - unitExp m e + 1) : ℚ) = 2 * ((m * 2 ^ n : Nat) : ℚ) := by
      rw [zpow_add₀ two_ne_zero, hn, zpow_natCast]
      push_cast
      ring
    rw [hz, hn, Int.toNat_natCast]
    exact ⟨by linarith, by linarith, fun _ => ⟨by linarith, by linarith⟩⟩
  next hinexact =>
    obtain ⟨n, hn⟩ := Int.eq_ofNat_of_zero_le (sub_nonneg.2 (not_le.1 hinexact).le)
    have hpos : (0 : ℚ) < 2 ^ n := by positivity
    have hz : (m * 2 ^ (e - unitExp m e + 1) : ℚ) = 2 * m / 2 ^ n := by
      rw [zpow_add₀ two_ne_zero, ← neg_sub, hn, zpow_neg, zpow_natCast]
      ring
    obtain ⟨hlow, hhigh, hodd⟩ := roundShift_nearest m n
    rw [hz, hn, Int.toNat_natCast, sub_le_iff_le_add, sub_lt_iff_lt_add, div_add_one hpos.ne', le_div_iff₀ hpos,
      lt_div_iff₀ hpos, div_le_iff₀ hpos, div_lt_iff₀ hpos]
    exact ⟨by exact_mod_cast hlow, by exact_mod_cast hhigh, by exact_mod_cast hodd⟩

/-- `round32` picks the nearest unit (43_perspective R320). -/
theorem roundsTo_round32 (m : Nat) (e : Int) (hm : m ≠ 0) :
    RoundsTo (unitExp m e + 149).toNat (unitCount m e) (m * 2 ^ (e - unitExp m e + 1)) := by
  obtain ⟨hlead, hbits⟩ := significand_bounds m hm
  obtain ⟨hge, hle, heven⟩ := unitCount_nearest m e
  have hgt := unitExp_gt m e
  refine ⟨by positivity, or_iff_not_imp_left.2 fun hT => ?_, ?_, hge, hle, heven⟩
  · have hnormal := unitExp_eq m e (by omega)
    calc (2 : ℚ) ^ 24 = 2 ^ (Nat.log2 m : Int) * 2 ^ (e - unitExp m e + 1) := by
          rw [← zpow_add₀ two_ne_zero, ← zpow_natCast]
          congr 1
          omega
      _ ≤ m * 2 ^ (e - unitExp m e + 1) := mul_le_mul_of_nonneg_right hlead (by positivity)
  · calc (m : ℚ) * 2 ^ (e - unitExp m e + 1) < 2 ^ ((Nat.log2 m : Int) + 1) * 2 ^ (e - unitExp m e + 1) :=
          mul_lt_mul_of_pos_right hbits (by positivity)
      _ = 2 ^ ((Nat.log2 m : Int) + 1 + (e - unitExp m e + 1)) := (zpow_add₀ two_ne_zero _ _).symm
      _ ≤ 2 ^ (25 : Int) := zpow_le_zpow_right₀ one_le_two (by omega)
      _ = 2 ^ 25 := by norm_num

/-- The exact result in half units of the unit that `round32` picks. -/
theorem halfUnits_mul (x : ℚ) (m : Nat) (e : Int) :
    x * 2 ^ (e - unitExp m e + 1) * 2 ^ (((unitExp m e + 149).toNat : Int) - 150) = x * 2 ^ e := by
  have hmin := unitExp_ge m e
  rw [mul_assoc, ← zpow_add₀ two_ne_zero]
  congr 2
  omega

theorem roundedOnce_zero (neg : Bool) : roundedOnce 0 (withSign neg 0) := by
  have hzero : finiteValue (withSign neg 0) = some 0 := by
    rw [finiteValue_of_unpack32 _ _ _ _ (unpack32_withSign_subnormal neg 0 (by decide))]
    simp
  refine ⟨fun _ => ⟨0, hzero, fun z y _ => ?_⟩, fun h => absurd h (by norm_num)⟩
  simp +contextual

/-- `round32` rounds its exact argument once (43_perspective R320). -/
theorem round32_roundedOnce (neg : Bool) (m : Nat) (e : Int) :
    roundedOnce (signFactor neg * m * 2 ^ e) (round32 neg m e) := by
  rcases eq_or_ne m 0 with rfl | hm
  · rw [round32_zero, Nat.cast_zero, mul_zero, zero_mul]
    exact roundedOnce_zero neg
  · have h := (roundsTo_round32 m e hm).roundedOnce_pack32 neg
    rwa [halfUnits_mul, ← mul_assoc, ← round32_eq_pack32 neg m e hm] at h

/-! ## The four operations -/

theorem intCast_scaled (neg : Bool) (m : Nat) (e common : Int) (h : common ≤ e) :
    (scaled neg m e common : ℚ) * 2 ^ common = signFactor neg * m * 2 ^ e := by
  obtain ⟨n, hn⟩ := Int.eq_ofNat_of_zero_le (sub_nonneg.2 h)
  obtain rfl : e = n + common := by omega
  rw [zpow_add₀ two_ne_zero, zpow_natCast, scaled, hn, Int.toNat_natCast]
  cases neg with
  | false => simp [mul_assoc]
  | true => simp [mul_assoc]

/-- What `addFinite` gives for the exact sum of its operands: the sum rounded once, with its sign, and + for an exact 0
unless both addends are negative (43_perspective R320). -/
theorem addFinite_spec (na nb : Bool) (ma mb : Nat) (ea eb : Int) (q : ℚ)
    (hq : q = signFactor na * ma * 2 ^ ea + signFactor nb * mb * 2 ^ eb) :
    roundedOnce q (addFinite na ma ea nb mb eb) ∧
    (q ≠ 0 → (addFinite na ma ea nb mb eb).getLsbD 31 = decide (q < 0)) ∧
    (q = 0 → addFinite na ma ea nb mb eb = withSign (na && nb) 0) := by
  obtain ⟨sum, hsum⟩ : ∃ sum, sum = scaled na ma ea (min ea eb) + scaled nb mb eb (min ea eb) := ⟨_, rfl⟩
  have hpow : (0 : ℚ) < 2 ^ min ea eb := by positivity
  have hexact : q = sum * 2 ^ min ea eb := by
    rw [hq, hsum, Int.cast_add, add_mul, intCast_scaled _ _ _ _ (min_le_left ea eb),
      intCast_scaled _ _ _ _ (min_le_right ea eb)]
  have hzero : q = 0 ↔ sum = 0 := by rw [hexact, mul_eq_zero_iff_right hpow.ne', Int.cast_eq_zero]
  have hneg : q < 0 ↔ sum < 0 := by
    rw [hexact, ← Int.cast_lt_zero (R := ℚ)]
    exact ⟨fun h => neg_of_mul_neg_left h hpow.le, fun h => mul_neg_of_neg_of_pos h hpow⟩
  have hmag : signFactor (decide (sum < 0)) * (sum.natAbs : ℚ) = sum := by
    rw [Nat.cast_natAbs, Int.cast_abs]
    rcases lt_or_ge sum 0 with hlt | hge
    · rw [decide_eq_true hlt, signFactor_true, abs_of_neg (Int.cast_lt_zero.2 hlt)]
      ring
    · rw [decide_eq_false hge.not_gt, signFactor_false, abs_of_nonneg (Int.cast_nonneg hge), one_mul]
  have hadd : addFinite na ma ea nb mb eb =
      if sum = 0 then withSign (na && nb) 0 else round32 (decide (sum < 0)) sum.natAbs (min ea eb) := by
    rw [hsum]
    rfl
  rw [hadd]
  split
  next h0 =>
    have hq0 := hzero.2 h0
    exact ⟨hq0 ▸ roundedOnce_zero _, fun hne => absurd hq0 hne, fun _ => rfl⟩
  next h0 =>
    refine ⟨?_, fun _ => ?_, fun hq0 => absurd (hzero.1 hq0) h0⟩
    · have h := round32_roundedOnce (decide (sum < 0)) sum.natAbs (min ea eb)
      rwa [hmag, ← hexact] at h
    · rw [round32_getLsbD_31, decide_eq_decide.2 hneg]

/-- A quotient of natural numbers with one more low bit, set where a remainder is left. -/
def stickyQuotient (n d : Nat) : Nat := 2 * (n / d) + (if n % d = 0 then 0 else 1)

theorem divFinite_eq_round32 (neg : Bool) (ma mb : Nat) (e : Int) :
    divFinite neg ma mb e = round32 neg (stickyQuotient (ma * 2 ^ 64) mb) (e - 65) := rfl

/-- Among the even numbers the quotient with its low bit lies where the exact quotient does. -/
theorem stickyQuotient_same_side (n d : Nat) (hd : 0 < d) (i : ℤ) :
    (((2 * i : ℤ) : ℚ) ≤ stickyQuotient n d ↔ ((2 * i : ℤ) : ℚ) ≤ 2 * n / d) ∧
    ((stickyQuotient n d : ℚ) ≤ ((2 * i : ℤ) : ℚ) ↔ (2 * n / d : ℚ) ≤ ((2 * i : ℤ) : ℚ)) := by
  have hd' : (0 : Int) < d := Int.natCast_pos.2 hd
  have hdQ : (0 : ℚ) < d := Nat.cast_pos.2 hd
  have hsticky : (stickyQuotient n d : Int) = 2 * ((n : Int) / d) + (if (n : Int) % d = 0 then 0 else 1) := by
    simp only [stickyQuotient, ← Int.natCast_mod, Int.natCast_eq_zero]
    push_cast
    rfl
  have hbelow : i ≤ (n : Int) / d ↔ i * d ≤ n := Int.le_ediv_iff_mul_le hd'
  have habove : (n : Int) / d + (if (n : Int) % d = 0 then 0 else 1) ≤ i ↔ (n : Int) ≤ i * d := by
    have hn := Int.mul_ediv_add_emod n d
    have hr := Int.emod_lt_of_pos (n : Int) hd'
    have hr0 := Int.emod_nonneg (n : Int) hd'.ne'
    split
    next h0 =>
      have hexact : (n : Int) / d * d = n := by rw [mul_comm, ← add_zero (_ * _), ← h0, hn]
      rw [add_zero, ← mul_le_mul_iff_left₀ hd', hexact]
    next h0 =>
      refine ⟨fun h => by nlinarith, fun h => ?_⟩
      by_contra hcon
      have : i ≤ (n : Int) / d := by omega
      have : 0 < (n : Int) % d := by omega
      nlinarith
  rw [le_div_iff₀ hdQ, div_le_iff₀ hdQ]
  constructor
  · calc ((2 * i : ℤ) : ℚ) ≤ stickyQuotient n d ↔ 2 * i ≤ (stickyQuotient n d : Int) := by exact_mod_cast Iff.rfl
      _ ↔ i * d ≤ n := by rw [← hbelow, hsticky]; split <;> omega
      _ ↔ 2 * i * d ≤ 2 * n := by rw [mul_assoc, mul_le_mul_iff_right₀ two_pos]
      _ ↔ ((2 * i : ℤ) : ℚ) * d ≤ 2 * n := by exact_mod_cast Iff.rfl
  · calc (stickyQuotient n d : ℚ) ≤ ((2 * i : ℤ) : ℚ) ↔ (stickyQuotient n d : Int) ≤ 2 * i := by exact_mod_cast Iff.rfl
      _ ↔ (n : Int) ≤ i * d := by rw [← habove, hsticky]; split <;> omega
      _ ↔ 2 * (n : Int) ≤ 2 * i * d := by rw [mul_assoc, mul_le_mul_iff_right₀ two_pos]
      _ ↔ (2 * n : ℚ) ≤ ((2 * i : ℤ) : ℚ) * d := by exact_mod_cast Iff.rfl

/-- What lies among the even numbers where a significand of at least 26 bits does rounds as that significand. -/
theorem roundsTo_of_same_side (m : Nat) (e : Int) (hm : 2 ^ 25 ≤ m) (x : ℚ)
    (hge : ∀ i : ℤ, ((2 * i : ℤ) : ℚ) ≤ m ↔ ((2 * i : ℤ) : ℚ) ≤ x)
    (hle : ∀ i : ℤ, (m : ℚ) ≤ ((2 * i : ℤ) : ℚ) ↔ x ≤ ((2 * i : ℤ) : ℚ)) :
    RoundsTo (unitExp m e + 149).toNat (unitCount m e) (x * 2 ^ (e - unitExp m e + 1)) := by
  have hlog : 25 ≤ Nat.log2 m := (Nat.le_log2 (by omega)).2 hm
  have hexp := unitExp_gt m e
  obtain ⟨n, hn⟩ : ∃ n : Nat, e - unitExp m e + 1 = -((n + 1 : Nat) : Int) :=
    ⟨(unitExp m e - e - 2).toNat, by omega⟩
  have hpos : (0 : ℚ) < 2 ^ (n + 1) := by positivity
  have heven (i : ℤ) : (i : ℚ) * 2 ^ (n + 1) = ((2 * (i * 2 ^ n) : ℤ) : ℚ) := by
    push_cast
    ring
  have hround := roundsTo_round32 m e (by omega)
  rw [hn, zpow_neg, zpow_natCast, ← div_eq_mul_inv] at hround ⊢
  refine hround.congr (fun i => ?_) (fun i => ?_)
  · rw [le_div_iff₀ hpos, le_div_iff₀ hpos, heven, hge]
  · rw [div_le_iff₀ hpos, div_le_iff₀ hpos, heven, hle]

/-- A quotient rounds as the exact quotient does (43_perspective R320). -/
theorem divFinite_roundedOnce (neg : Bool) (ma mb : Nat) (e : Int) (hma : ma ≠ 0) (hmb : mb ≠ 0) (hmb' : mb < 2 ^ 24) :
    roundedOnce (signFactor neg * (ma / mb) * 2 ^ e) (divFinite neg ma mb e) := by
  have hpos := Nat.pos_of_ne_zero hmb
  have hquot : 2 ^ 40 ≤ ma * 2 ^ 64 / mb := by
    rw [Nat.le_div_iff_mul_le hpos]
    omega
  have hlarge : 2 ^ 25 ≤ stickyQuotient (ma * 2 ^ 64) mb := by
    rw [stickyQuotient]
    omega
  have hside (i : ℤ) := stickyQuotient_same_side (ma * 2 ^ 64) mb hpos i
  have hround := roundsTo_of_same_side _ (e - 65) hlarge _ (fun i => (hside i).1) (fun i => (hside i).2)
  have hvalue : (2 * ((ma * 2 ^ 64 : Nat) : ℚ) / mb) * 2 ^ (e - 65) = ma / mb * 2 ^ e := by
    rw [zpow_sub₀ two_ne_zero]
    push_cast
    field_simp
    norm_num
  have h := hround.roundedOnce_pack32 neg
  rwa [halfUnits_mul, hvalue, ← mul_assoc, ← round32_eq_pack32 neg _ (e - 65) (by omega), ← divFinite_eq_round32] at h

theorem divFinite_getLsbD_31 (neg : Bool) (ma mb : Nat) (e : Int) : (divFinite neg ma mb e).getLsbD 31 = neg :=
  round32_getLsbD_31 neg _ _

theorem divFinite_zero (neg : Bool) (mb : Nat) (e : Int) : divFinite neg 0 mb e = withSign neg 0 := by
  simp [divFinite, round32_zero]

/-! ## Negation -/

theorem fneg_getLsbD_31 (b : Word) : (fneg b).getLsbD 31 = !b.getLsbD 31 := by
  simp [fneg]

/-- Negation inverts the sign bit and keeps the magnitude. -/
theorem unpack32_fneg (b : Word) : unpack32 (fneg b) = match unpack32 b with
    | .nan => .nan
    | .inf neg => .inf (!neg)
    | .finite neg m e => .finite (!neg) m e := by
  have hnat : (fneg b).toNat % 2 ^ 31 = b.toNat % 2 ^ 31 := by
    rw [← BitVec.toNat_setWidth 31, ← BitVec.toNat_setWidth 31, fneg]
    congr 1
    ext i hi
    simp
  have hexp : exponentOf (fneg b) = exponentOf b := by
    unfold exponentOf
    omega
  have hfrac : fractionOf (fneg b) = fractionOf b := by
    unfold fractionOf
    omega
  rw [unpack32, unpack32, hexp, hfrac, signOf, fneg_getLsbD_31, signOf]
  split_ifs <;> rfl

theorem finiteValue_fneg (b : Word) (y : ℚ) (h : finiteValue b = some y) : finiteValue (fneg b) = some (-y) := by
  obtain ⟨m, e, hb, rfl⟩ := (finiteValue_eq_some b y).1 h
  rw [finiteValue_of_unpack32 (fneg b) (!signOf b) m e (by rw [unpack32_fneg, hb]), signFactor_not]
  congr 1
  ring

/-! ## The four operations -/

theorem withSign_zero (neg : Bool) : withSign neg 0 = if neg then 0x80000000 else 0 := by
  cases neg <;> rfl

section
variable (a b : Word) (x y : ℚ) (ha : finiteValue a = some x) (hb : finiteValue b = some y)
include ha hb

/-- A sum of finite values: rounded once, with its sign, and + for an exact 0 unless both addends are negative
(43_perspective R320). -/
theorem fadd_finite : roundedOnce (x + y) (fadd a b) ∧ (x + y ≠ 0 → (fadd a b).getLsbD 31 = decide (x + y < 0)) ∧
    (x + y = 0 → fadd a b = if a.getLsbD 31 && b.getLsbD 31 then 0x80000000 else 0) := by
  obtain ⟨ma, ea, hua, rfl⟩ := (finiteValue_eq_some a x).1 ha
  obtain ⟨mb, eb, hub, rfl⟩ := (finiteValue_eq_some b y).1 hb
  have hadd : fadd a b = addFinite (signOf a) ma ea (signOf b) mb eb := by rw [fadd, hua, hub]
  rw [hadd, ← withSign_zero]
  exact addFinite_spec _ _ ma mb ea eb _ rfl

/-- A difference is the sum with the negated operand (43_perspective R320). -/
theorem fsub_finite : roundedOnce (x - y) (fsub a b) ∧ (x - y ≠ 0 → (fsub a b).getLsbD 31 = decide (x - y < 0)) ∧
    (x - y = 0 → fsub a b = if a.getLsbD 31 && !b.getLsbD 31 then 0x80000000 else 0) := by
  have h := fadd_finite a (fneg b) x (-y) ha (finiteValue_fneg b y hb)
  rwa [← sub_eq_add_neg, fneg_getLsbD_31] at h

/-- A product of finite values: rounded once, with the exclusive or of the signs (43_perspective R320). -/
theorem fmul_finite : roundedOnce (x * y) (fmul a b) ∧ (fmul a b).getLsbD 31 = (a.getLsbD 31 != b.getLsbD 31) := by
  obtain ⟨ma, ea, hua, rfl⟩ := (finiteValue_eq_some a x).1 ha
  obtain ⟨mb, eb, hub, rfl⟩ := (finiteValue_eq_some b y).1 hb
  have hmul : fmul a b = round32 (signOf a != signOf b) (ma * mb) (ea + eb) := by rw [fmul, hua, hub]
  have hexact : signFactor (signOf a) * ma * 2 ^ ea * (signFactor (signOf b) * mb * 2 ^ eb) =
      signFactor (signOf a != signOf b) * ((ma * mb : Nat) : ℚ) * 2 ^ (ea + eb) := by
    rw [signFactor_bne, zpow_add₀ two_ne_zero]
    push_cast
    ring
  rw [hmul, hexact]
  exact ⟨round32_roundedOnce _ _ _, round32_getLsbD_31 _ _ _⟩

/-- A quotient by a non-zero value: rounded once, with the exclusive or of the signs (43_perspective R320). -/
theorem fdiv_finite (hy : y ≠ 0) :
    roundedOnce (x / y) (fdiv a b) ∧ (fdiv a b).getLsbD 31 = (a.getLsbD 31 != b.getLsbD 31) := by
  obtain ⟨ma, ea, hua, rfl⟩ := (finiteValue_eq_some a x).1 ha
  obtain ⟨mb, eb, hub, rfl⟩ := (finiteValue_eq_some b y).1 hb
  have hmb : mb ≠ 0 := mt (signed_eq_zero_iff _ mb eb).2 hy
  obtain ⟨-, hmb', -⟩ := unpack32_finite b _ mb eb hub
  have hdiv : fdiv a b = divFinite (signOf a != signOf b) ma mb (ea - eb) := by rw [fdiv, hua, hub]; exact if_neg hmb
  have hexact : signFactor (signOf a) * ma * 2 ^ ea / (signFactor (signOf b) * mb * 2 ^ eb) =
      signFactor (signOf a != signOf b) * (ma / mb) * 2 ^ (ea - eb) := by
    rw [signFactor_bne, zpow_sub₀ two_ne_zero, div_eq_mul_inv, mul_inv, mul_inv, signFactor_inv]
    ring
  rw [hdiv, hexact]
  refine ⟨?_, divFinite_getLsbD_31 _ _ _ _⟩
  rcases eq_or_ne ma 0 with rfl | hma
  · rw [divFinite_zero, Nat.cast_zero, zero_div, mul_zero, zero_mul]
    exact roundedOnce_zero _
  · exact divFinite_roundedOnce _ ma mb _ hma hmb hmb'

end

/-- Settles O41: each operation is the rounding of its exact result. -/
theorem floatOperationsRoundOnce : Obligations.FloatOperationsRoundOnce := by
  intro a b x y ha hb
  obtain ⟨hadd, haddSign, haddZero⟩ := fadd_finite a b x y ha hb
  obtain ⟨hsub, hsubSign, hsubZero⟩ := fsub_finite a b x y ha hb
  obtain ⟨hmul, hmulSign⟩ := fmul_finite a b x y ha hb
  have hdiv := fdiv_finite a b x y ha hb
  exact ⟨hadd, hsub, hmul, fun hy => (hdiv hy).1, haddSign, haddZero, hsubSign, hsubZero, hmulSign,
    fun hy => (hdiv hy).2⟩

end Sys2Proof.Machine
end

section
/-! PROOFS. NaNs, infinities and zeros (O42): the one NaN that the operations give, and each operation on the patterns
that hold no non-zero finite value (43_perspective R320). -/

namespace Sys2Proof.Machine

open Sys2Proof.Safety

/-! ## The one NaN -/

/-- `v` is a NaN only if it is the canonical one. -/
def CanonicalNaN (v : Word) : Prop := isNaN v → v = nan32

theorem canonicalNaN_nan32 : CanonicalNaN nan32 := fun _ => rfl

@[simp] theorem unpack32_inf32 (neg : Bool) : unpack32 (inf32 neg) = .inf neg := by
  cases neg <;> decide

theorem canonicalNaN_inf32 (neg : Bool) : CanonicalNaN (inf32 neg) := fun h => by
  rw [isNaN_iff, unpack32_inf32] at h
  cases h

theorem canonicalNaN_withSign (neg : Bool) (low : Nat) (h : low < 0x7F800000) : CanonicalNaN (withSign neg low) :=
  fun hnan => by
    have hexp : low / 2 ^ 23 = 255 := (exponentOf_withSign neg low (by omega)).symm.trans hnan.1
    omega

theorem canonicalNaN_round32 (neg : Bool) (m : Nat) (e : Int) : CanonicalNaN (round32 neg m e) := by
  rcases eq_or_ne m 0 with rfl | hm
  · rw [round32_zero]
    exact canonicalNaN_withSign neg 0 (by decide)
  · rw [round32_eq_pack32 neg m e hm, pack32]
    split
    next => exact canonicalNaN_inf32 neg
    next hlow => exact canonicalNaN_withSign neg _ (not_le.1 hlow)

theorem canonicalNaN_fadd (a b : Word) : CanonicalNaN (fadd a b) := by
  unfold fadd
  split
  · exact canonicalNaN_nan32
  · exact canonicalNaN_nan32
  · split
    · exact canonicalNaN_inf32 _
    · exact canonicalNaN_nan32
  · exact canonicalNaN_inf32 _
  · exact canonicalNaN_inf32 _
  · rw [addFinite]
    split
    · exact canonicalNaN_withSign _ 0 (by decide)
    · exact canonicalNaN_round32 _ _ _

theorem canonicalNaN_fsub (a b : Word) : CanonicalNaN (fsub a b) := canonicalNaN_fadd a (fneg b)

theorem canonicalNaN_fmul (a b : Word) : CanonicalNaN (fmul a b) := by
  unfold fmul
  split
  · exact canonicalNaN_nan32
  · exact canonicalNaN_nan32
  · exact canonicalNaN_inf32 _
  · split
    · exact canonicalNaN_nan32
    · exact canonicalNaN_inf32 _
  · split
    · exact canonicalNaN_nan32
    · exact canonicalNaN_inf32 _
  · exact canonicalNaN_round32 _ _ _

theorem canonicalNaN_fdiv (a b : Word) : CanonicalNaN (fdiv a b) := by
  unfold fdiv
  split
  · exact canonicalNaN_nan32
  · exact canonicalNaN_nan32
  · exact canonicalNaN_nan32
  · exact canonicalNaN_inf32 _
  · exact canonicalNaN_withSign _ 0 (by decide)
  · split
    · split
      · exact canonicalNaN_nan32
      · exact canonicalNaN_inf32 _
    · exact canonicalNaN_round32 _ _ _

section
variable (a b : Word)

theorem fadd_of_isNaN (h : isNaN a ∨ isNaN b) : fadd a b = nan32 := by
  rw [isNaN_iff, isNaN_iff] at h
  rcases h with h | h
  · simp [fadd, h]
  · cases ha : unpack32 a <;> simp [fadd, ha, h]

theorem fmul_of_isNaN (h : isNaN a ∨ isNaN b) : fmul a b = nan32 := by
  rw [isNaN_iff, isNaN_iff] at h
  rcases h with h | h
  · simp [fmul, h]
  · cases ha : unpack32 a <;> simp [fmul, ha, h]

theorem fdiv_of_isNaN (h : isNaN a ∨ isNaN b) : fdiv a b = nan32 := by
  rw [isNaN_iff, isNaN_iff] at h
  rcases h with h | h
  · simp [fdiv, h]
  · cases ha : unpack32 a <;> simp [fdiv, ha, h]

end

theorem isNaN_fneg (b : Word) (h : isNaN b) : isNaN (fneg b) := by
  rw [isNaN_iff] at h ⊢
  rw [unpack32_fneg, h]

/-! ## Infinities and zeros -/

theorem isInf_iff (v : Word) : isInf v ↔ ∃ neg, v = inf32 neg := by
  rw [Bool.exists_bool]
  rfl

theorem fneg_inf32 (neg : Bool) : fneg (inf32 neg) = inf32 (!neg) := by
  cases neg <;> decide

theorem inf32_injective : Function.Injective inf32 := fun a b h => by
  rw [← inf32_getLsbD_31 a, h, inf32_getLsbD_31]

theorem infOfSigns_eq (a b : Word) : infOfSigns a b = inf32 (a.getLsbD 31 != b.getLsbD 31) := by
  rw [infOfSigns]
  cases a.getLsbD 31 <;> cases b.getLsbD 31 <;> rfl

theorem finiteValue_eq_zero (v : Word) : finiteValue v = some 0 ↔ ∃ e, unpack32 v = .finite (signOf v) 0 e := by
  rw [finiteValue_eq_some]
  constructor
  · rintro ⟨m, e, hv, hzero⟩
    obtain rfl := (signed_eq_zero_iff _ m e).1 hzero.symm
    exact ⟨e, hv⟩
  · rintro ⟨e, hv⟩
    exact ⟨0, e, hv, by simp⟩

theorem finiteValue_ne_zero (v : Word) (x : ℚ) (h : finiteValue v = some x) (hx : x ≠ 0) :
    ∃ m e, unpack32 v = .finite (signOf v) m e ∧ m ≠ 0 := by
  obtain ⟨m, e, hv, rfl⟩ := (finiteValue_eq_some v x).1 h
  exact ⟨m, e, hv, mt (signed_eq_zero_iff _ m e).2 hx⟩

/-! ## Operations without an infinity -/

theorem fdiv_zero_zero (a b : Word) (ha : finiteValue a = some 0) (hb : finiteValue b = some 0) : fdiv a b = nan32 := by
  obtain ⟨ea, ha⟩ := (finiteValue_eq_zero a).1 ha
  obtain ⟨eb, hb⟩ := (finiteValue_eq_zero b).1 hb
  simp [fdiv, ha, hb]

theorem fdiv_by_zero (a b : Word) (x : ℚ) (ha : finiteValue a = some x) (hx : x ≠ 0) (hb : finiteValue b = some 0) :
    fdiv a b = infOfSigns a b := by
  obtain ⟨m, ea, ha, hm⟩ := finiteValue_ne_zero a x ha hx
  obtain ⟨eb, hb⟩ := (finiteValue_eq_zero b).1 hb
  rw [infOfSigns_eq]
  simp [fdiv, ha, hb, hm, signOf]

/-! ## Operations on an infinity -/

section
variable (na : Bool) (b : Word)

theorem fmul_inf_zero (hb : finiteValue b = some 0) : fmul (inf32 na) b = nan32 ∧ fmul b (inf32 na) = nan32 := by
  obtain ⟨e, hb⟩ := (finiteValue_eq_zero b).1 hb
  simp [fmul, hb]

theorem fmul_inf_ne_zero (x : ℚ) (hb : finiteValue b = some x) (hx : x ≠ 0) :
    fmul (inf32 na) b = infOfSigns (inf32 na) b ∧ fmul b (inf32 na) = infOfSigns (inf32 na) b := by
  obtain ⟨m, e, hb, hm⟩ := finiteValue_ne_zero b x hb hx
  rw [infOfSigns_eq, inf32_getLsbD_31]
  simp [fmul, hb, hm, signOf, bne_comm]

theorem fadd_inf_finite (x : ℚ) (hb : finiteValue b = some x) :
    fadd (inf32 na) b = inf32 na ∧ fadd b (inf32 na) = inf32 na := by
  obtain ⟨m, e, hb, -⟩ := (finiteValue_eq_some b x).1 hb
  simp [fadd, hb]

theorem fsub_inf_finite (x : ℚ) (hb : finiteValue b = some x) :
    fsub (inf32 na) b = inf32 na ∧ fsub b (inf32 na) = fneg (inf32 na) := by
  rw [fsub, fsub, fneg_inf32]
  exact ⟨(fadd_inf_finite na (fneg b) (-x) (finiteValue_fneg b x hb)).1, (fadd_inf_finite (!na) b x hb).2⟩

theorem fdiv_inf_finite (x : ℚ) (hb : finiteValue b = some x) : fdiv (inf32 na) b = infOfSigns (inf32 na) b ∧
    fdiv b (inf32 na) = if (inf32 na).getLsbD 31 = b.getLsbD 31 then 0 else 0x80000000 := by
  obtain ⟨m, e, hb, -⟩ := (finiteValue_eq_some b x).1 hb
  rw [infOfSigns_eq, inf32_getLsbD_31]
  refine ⟨by simp [fdiv, hb, signOf], ?_⟩
  have hdiv : fdiv b (inf32 na) = withSign (b.getLsbD 31 != na) 0 := by simp [fdiv, hb, signOf]
  rw [hdiv, withSign_zero]
  cases na <;> cases b.getLsbD 31 <;> rfl

theorem inf_inf (na nb : Bool) : fdiv (inf32 na) (inf32 nb) = nan32 ∧
    fmul (inf32 na) (inf32 nb) = infOfSigns (inf32 na) (inf32 nb) ∧
    fadd (inf32 na) (inf32 nb) = (if na = nb then inf32 na else nan32) ∧
    fsub (inf32 na) (inf32 nb) = if na = nb then nan32 else inf32 na := by
  rw [infOfSigns_eq, inf32_getLsbD_31, inf32_getLsbD_31, fsub, fneg_inf32]
  refine ⟨by simp [fdiv], by simp [fmul], by simp [fadd], ?_⟩
  cases na <;> cases nb <;> simp [fadd]

end

/-- Settles O42: each result by the kinds of its operands. -/
theorem nanResultsAreCanonical : Obligations.NanResultsAreCanonical := by
  refine ⟨fun a b => ⟨canonicalNaN_fadd a b, canonicalNaN_fsub a b, canonicalNaN_fmul a b, canonicalNaN_fdiv a b⟩,
    fun a b h => ⟨fadd_of_isNaN a b h, fadd_of_isNaN a _ (h.imp_right (isNaN_fneg b)), fmul_of_isNaN a b h,
      fdiv_of_isNaN a b h⟩, fdiv_zero_zero,
    fun a ha => ⟨(fmul_inf_zero false a ha).2, (fmul_inf_zero true a ha).2⟩, ?_, ?_, ?_, fdiv_by_zero⟩
  · intro a b ha hb
    obtain ⟨na, rfl⟩ := (isInf_iff a).1 ha
    exact fmul_inf_zero na b hb
  · intro a b ha hb
    obtain ⟨na, rfl⟩ := (isInf_iff a).1 ha
    obtain ⟨nb, rfl⟩ := (isInf_iff b).1 hb
    obtain ⟨hdiv, hmul, hadd, hsub⟩ := inf_inf na nb
    rw [inf32_injective.eq_iff, Ne, inf32_injective.eq_iff, hadd, hsub]
    refine ⟨hdiv, hmul, fun heq => ?_, fun hne => ?_⟩
    · rw [if_pos heq, if_pos heq]
      exact ⟨rfl, rfl⟩
    · rw [if_neg hne, if_neg hne]
      exact ⟨rfl, rfl⟩
  · intro a b x ha hb
    obtain ⟨na, rfl⟩ := (isInf_iff a).1 ha
    obtain ⟨hadd, hadd'⟩ := fadd_inf_finite na b x hb
    obtain ⟨hsub, hsub'⟩ := fsub_inf_finite na b x hb
    obtain ⟨hdiv, hdiv'⟩ := fdiv_inf_finite na b x hb
    exact ⟨hadd, hadd', hsub, hsub', fmul_inf_ne_zero na b x hb, hdiv, hdiv'⟩

end Sys2Proof.Machine
end

section
/-! PROOFS. PT_SOLVE (O43) and PT_MAP (O44): the transform and the mapped point, operation by operation. -/

namespace Sys2Proof.Machine

open Sys2Proof.Safety

/-- The comparison with 0 holds of +0 and -0 and of nothing else (43_perspective R322). -/
theorem isZero32_iff (v : Word) : isZero32 v = true ↔ finiteValue v = some 0 := by
  rw [finiteValue_eq_zero, isZero32]
  cases h : unpack32 v with
  | nan => simp
  | inf neg => simp
  | finite neg m e =>
    obtain ⟨rfl, -⟩ := unpack32_finite v neg m e h
    simp

/-- Settles O43: the four formulas, and each coefficient is a last sum, so that its NaN is the canonical one. -/
theorem ptSolveWritesTheTransform : Obligations.PtSolveWritesTheTransform := by
  refine ⟨by decide, fun s => rfl, fun q => ⟨fun h => ?_, fun h => ?_⟩, fun m => rfl, fun m n => rfl, fun m n => ?_⟩
  · exact if_pos (by rwa [Bool.and_eq_true, isZero32_iff, isZero32_iff])
  · exact if_neg (by rwa [Bool.and_eq_true, isZero32_iff, isZero32_iff])
  · simp only [List.forall_mem_cons, List.not_mem_nil, false_imp_iff, implies_true, and_true]
    exact ⟨canonicalNaN_fadd _ _, canonicalNaN_fadd _ _, canonicalNaN_fadd _ _, canonicalNaN_fadd _ _,
      canonicalNaN_fadd _ _, canonicalNaN_fadd _ _, canonicalNaN_fadd _ _, canonicalNaN_fadd _ _,
      canonicalNaN_fadd _ _⟩

/-- Settles O44: the two coordinates are last quotients, so that their NaNs are the canonical one. -/
theorem ptMapWritesTheMappedPoint : Obligations.PtMapWritesTheMappedPoint :=
  ⟨by decide, fun _ => ⟨rfl, canonicalNaN_fdiv _ _, canonicalNaN_fdiv _ _⟩⟩

end Sys2Proof.Machine
end

section
/-! PROOFS. Pixel indices (O45): the conversion is the truncation of the value, and where `round32` is exact. -/

namespace Sys2Proof.Machine

open Sys2Proof.Safety

/-- The truncated magnitude is the whole part. -/
theorem truncMag_eq_floor (m : Nat) (e : Int) : truncMag m e = ⌊(m : ℚ) * 2 ^ e⌋₊ := by
  unfold truncMag
  split
  next hnonneg =>
    obtain ⟨n, rfl⟩ := Int.eq_ofNat_of_zero_le hnonneg
    have hnat : (m : ℚ) * 2 ^ (n : Int) = ((m * 2 ^ n : Nat) : ℚ) := by
      push_cast
      rw [zpow_natCast]
    rw [hnat, Nat.floor_natCast, Int.toNat_natCast]
  next hneg =>
    obtain ⟨n, hn⟩ := Int.eq_ofNat_of_zero_le (neg_nonneg.2 (not_le.1 hneg).le)
    have hquot : (m : ℚ) * 2 ^ e = (m : ℚ) / ((2 ^ n : Nat) : ℚ) := by
      rw [← neg_neg e, hn, zpow_neg, zpow_natCast, div_eq_mul_inv]
      push_cast
      rfl
    rw [hquot, Nat.floor_div_eq_div, hn, Int.toNat_natCast]

theorem truncated_signed (neg : Bool) (r : ℚ) (hr : 0 ≤ r) :
    truncated (signFactor neg * r) = if neg then -(⌊r⌋₊ : Int) else (⌊r⌋₊ : Int) := by
  rw [Int.natCast_floor_eq_floor hr, truncated]
  cases neg with
  | false => rw [signFactor_false, one_mul, if_neg hr.not_gt]; rfl
  | true =>
    rw [signFactor_true, neg_one_mul, neg_neg]
    rcases hr.eq_or_lt with rfl | hpos
    · simp
    · rw [if_pos (neg_neg_of_pos hpos)]
      rfl

/-- The conversion truncates a magnitude below 2^31 and fails from there on (43_perspective R328). -/
theorem toInt32_finite (v : Word) (x : ℚ) (h : finiteValue v = some x) :
    toInt32 v = if |x| < 2 ^ 31 then some (truncated x) else none := by
  obtain ⟨m, e, hv, rfl⟩ := (finiteValue_eq_some v x).1 h
  have hnonneg : 0 ≤ (m : ℚ) * 2 ^ e := by positivity
  have hsmall : truncMag m e < 2 ^ 31 ↔ |signFactor (signOf v) * m * (2 : ℚ) ^ e| < 2 ^ 31 := by
    rw [abs_signed, truncMag_eq_floor, Nat.floor_lt hnonneg]
    norm_num
  have hint : toInt32 v = if truncMag m e < 2 ^ 31 then
      some (if signOf v then -(truncMag m e : Int) else (truncMag m e : Int)) else none := by
    rw [toInt32, hv]
  rw [hint, mul_assoc, truncated_signed _ _ hnonneg, ← truncMag_eq_floor, ← mul_assoc]
  exact if_congr hsmall rfl rfl

theorem toInt32_not_finite (v : Word) (h : finiteValue v = none) : toInt32 v = none := by
  rcases (finiteValue_eq_none v).1 h with hv | ⟨neg, hv⟩ <;> rw [toInt32, hv]

theorem toPixel_ok (y : Nat) (p : Point) (i j : Int) (hx : toInt32 p.x = some i) (hy : toInt32 p.y = some j) :
    toPixel y p = .ok (i, j) := by
  rw [toPixel, hx, hy]

/-- A point that does not convert raises NOT_FOUND 0x53 (43_perspective R328). -/
theorem toPixel_error (y : Nat) (p : Point) (h : ¬ convertible p) : toPixel y p = .error (notFoundError 0x53 y) := by
  unfold toPixel
  split
  next i j hx hy => exact absurd ⟨i, j, hx, hy⟩ h
  next => rfl

/-- Settles O45: the conversion by the value, and the pixel by the two conversions. -/
theorem toIntTruncatesTowardZero : Obligations.ToIntTruncatesTowardZero := by
  refine ⟨fun v x hv hx => ?_, fun v x hv hx => ?_, toInt32_not_finite, fun y p h => toPixel_error y p ?_, toPixel_ok⟩
  · rw [toInt32_finite v x hv, if_pos hx]
  · rw [toInt32_finite v x hv, if_neg hx.not_gt]
  · rintro ⟨i, j, hi, hj⟩
    rcases h with h | h
    · exact nomatch h.symm.trans hi
    · exact nomatch h.symm.trans hj

/-! ## Exact conversions to binary32 -/

/-- A significand of at most 24 bits is not rounded. -/
theorem finiteValue_round32_exact (neg : Bool) (m : Nat) (e : Int) (hm : m < 2 ^ 24) (hmin : -149 ≤ e)
    (hmax : e ≤ 103) :
    finiteValue (round32 neg m e) = some (signFactor neg * m * 2 ^ e) := by
  rcases eq_or_ne m 0 with rfl | hm0
  · rw [round32_zero, finiteValue_of_unpack32 _ _ _ _ (unpack32_withSign_subnormal neg 0 (by decide))]
    simp
  · have hlog : Nat.log2 m < 24 := (Nat.log2_lt hm0).2 hm
    have hexp : unitExp m e ≤ e := max_le (by omega) hmin
    have hround := roundsTo_round32 m e hm0
    have hfits : (unitExp m e + 149).toNat * 2 ^ 23 + unitCount m e < 0x7F800000 := by
      have hk := hround.count_le
      omega
    have hcount : (unitCount m e : ℚ) * 2 ^ (((unitExp m e + 149).toNat : Int) - 149) = m * 2 ^ e := by
      have hunit := unitExp_ge m e
      obtain ⟨n, hn⟩ := Int.eq_ofNat_of_zero_le (sub_nonneg.2 hexp)
      rw [unitCount, if_pos hexp, hn, Int.toNat_natCast]
      push_cast
      rw [mul_assoc, ← zpow_natCast, ← zpow_add₀ two_ne_zero]
      congr 2
      omega
    rw [round32_eq_pack32 neg m e hm0, pack32, if_neg (not_le.2 hfits), finiteValue_withSign neg _ _ hround.count_le
      (or_iff_not_imp_left.2 hround.le_count) hfits, mul_assoc, hcount, mul_assoc]

theorem finiteValue_natTo32 (n : Nat) (h : n < 2 ^ 24) : finiteValue (natTo32 n) = some (n : ℚ) := by
  rw [natTo32, finiteValue_round32_exact false n 0 h (by decide) (by decide)]
  simp

theorem finiteValue_halfPast32 (n : Nat) (h : n < 2 ^ 23) : finiteValue (halfPast32 n) = some ((n : ℚ) + 1 / 2) := by
  rw [halfPast32, finiteValue_round32_exact false (2 * n + 1) (-1) (by omega) (by decide) (by decide), signFactor_false]
  congr 1
  push_cast
  rw [zpow_neg_one]
  ring

theorem toInt32_natTo32 (n : Nat) (h : n < 2 ^ 24) : toInt32 (natTo32 n) = some (n : Int) := by
  have hsmall : |(n : ℚ)| < 2 ^ 31 := by
    rw [Nat.abs_cast]
    exact_mod_cast h.trans (by decide : 2 ^ 24 < 2 ^ 31)
  have htrunc : truncated (n : ℚ) = n := by
    rw [truncated, if_neg (Nat.cast_nonneg n).not_gt, Int.floor_natCast]
  rw [toInt32_finite _ _ (finiteValue_natTo32 n h), if_pos hsmall, htrunc]

end Sys2Proof.Machine
end

section
/-! PROOFS. The nudge of a row (O46): what the check of a point does, one loop over the points it moves, and what the
two loops together do to each coordinate. -/

namespace Sys2Proof.Machine

open Sys2Proof.Safety

section
variable (w h y : Nat)

/-! ## The check of a point -/

theorem nudgeCoord_eq (d : Nat) (i : Int) (v : Word) (hv : toInt32 v = some i) :
    nudgeCoord d i v = (edgeCoord d v, decide (i = -1 ∨ i = d)) := by
  simp only [nudgeCoord, edgeCoord, hv, Option.some.injEq]
  split_ifs with hlow hhigh
  · simp [hlow, zero32]
  · simp [hhigh]
  · simp [hlow, hhigh]

theorem edgeCoord_eq_self (d : Nat) (i : Int) (v : Word) (hv : toInt32 v = some i) (h : ¬ (i = -1 ∨ i = d)) :
    edgeCoord d v = v := by
  obtain ⟨hlow, hhigh⟩ := not_or.1 h
  simp only [edgeCoord, hv, Option.some.injEq, if_neg hlow, if_neg hhigh]

theorem convertible_of_onMargin (p : Point) (hp : onMargin w h p) : convertible p := by
  obtain ⟨i, j, hx, hy, -⟩ := hp
  exact ⟨i, j, hx, hy⟩

/-- A point on the margin is put onto the edge, and moves where it is one pixel outside (43_perspective R329). -/
theorem checkPoint_onMargin (p : Point) (hp : onMargin w h p) :
    ∃ moved, checkPoint w h y p = .ok (ontoEdge w h p, moved) ∧ (moved = true ↔ oneOutside w h p) := by
  obtain ⟨i, j, hx, hy, hi, hiw, hj, hjh⟩ := hp
  have hin : ¬ (i < -1 ∨ i > (w : Int) ∨ j < -1 ∨ j > (h : Int)) := by omega
  refine ⟨decide (i = -1 ∨ i = w) || decide (j = -1 ∨ j = h), ?_, ?_⟩
  · rw [checkPoint, toPixel_ok y p i j hx hy]
    simp only [if_neg hin, nudgeCoord_eq w i p.x hx, nudgeCoord_eq h j p.y hy, ontoEdge]
  · rw [oneOutside, hx, hy, Bool.or_eq_true, decide_eq_true_eq, decide_eq_true_eq, Option.some_inj, Option.some_inj,
      Option.some_inj, Option.some_inj, or_assoc]

theorem checkPoint_moved (p : Point) (hp : onMargin w h p) (hout : oneOutside w h p) :
    checkPoint w h y p = .ok (ontoEdge w h p, true) := by
  obtain ⟨moved, hcheck, hmoved⟩ := checkPoint_onMargin w h y p hp
  rw [hcheck, hmoved.2 hout]

theorem ontoEdge_eq_self (p : Point) (hp : convertible p) (hout : ¬ oneOutside w h p) : ontoEdge w h p = p := by
  obtain ⟨i, j, hx, hy⟩ := hp
  rw [oneOutside, hx, hy, Option.some_inj, Option.some_inj, Option.some_inj, Option.some_inj] at hout
  rw [ontoEdge, edgeCoord_eq_self w i p.x hx (by omega), edgeCoord_eq_self h j p.y hy (by omega)]

theorem checkPoint_kept (p : Point) (hp : onMargin w h p) (hout : ¬ oneOutside w h p) :
    checkPoint w h y p = .ok (p, false) := by
  obtain ⟨moved, hcheck, hmoved⟩ := checkPoint_onMargin w h y p hp
  rw [hcheck, ontoEdge_eq_self w h p (convertible_of_onMargin w h p hp) hout,
    Bool.eq_false_iff.2 (mt hmoved.1 hout)]

theorem checkPoint_not_convertible (p : Point) (hp : ¬ convertible p) :
    checkPoint w h y p = .error (notFoundError 0x53 y) := by
  rw [checkPoint, toPixel_error y p hp]

theorem checkPoint_beyond (p : Point) (hp : convertible p) (hout : ¬ onMargin w h p) :
    checkPoint w h y p = .error (notFoundError 0x51 y) := by
  obtain ⟨i, j, hx, hy⟩ := hp
  have hbeyond : i < -1 ∨ i > (w : Int) ∨ j < -1 ∨ j > (h : Int) := by
    by_contra hin
    exact hout ⟨i, j, hx, hy, by omega⟩
  rw [checkPoint, toPixel_ok y p i j hx hy]
  exact if_pos hbeyond

/-- What the check of a point can give (43_perspective R329). -/
theorem checkPoint_cases (p : Point) :
    (onMargin w h p ∧ oneOutside w h p ∧ checkPoint w h y p = .ok (ontoEdge w h p, true)) ∨
    (onMargin w h p ∧ ¬ oneOutside w h p ∧ checkPoint w h y p = .ok (p, false)) ∨
    (¬ convertible p ∧ checkPoint w h y p = .error (notFoundError 0x53 y)) ∨
    (convertible p ∧ ¬ onMargin w h p ∧ checkPoint w h y p = .error (notFoundError 0x51 y)) := by
  by_cases hm : onMargin w h p
  · by_cases hout : oneOutside w h p
    · exact .inl ⟨hm, hout, checkPoint_moved w h y p hm hout⟩
    · exact .inr (.inl ⟨hm, hout, checkPoint_kept w h y p hm hout⟩)
  · by_cases hc : convertible p
    · exact .inr (.inr (.inr ⟨hc, hm, checkPoint_beyond w h y p hc hm⟩))
    · exact .inr (.inr (.inl ⟨hc, checkPoint_not_convertible w h y p hc⟩))

/-! ## One loop -/

section
variable (p : Point) (ps : List Point)

theorem nudgeFrom_error (e : CmdError) (hp : checkPoint w h y p = .error e) : nudgeFrom w h y (p :: ps) = .error e := by
  rw [nudgeFrom, hp]

theorem nudgeFrom_kept (hm : onMargin w h p) (hout : ¬ oneOutside w h p) :
    nudgeFrom w h y (p :: ps) = .ok (p :: ps) := by
  rw [nudgeFrom, checkPoint_kept w h y p hm hout]
  rfl

theorem nudgeFrom_moved (hm : onMargin w h p) (hout : oneOutside w h p) :
    nudgeFrom w h y (p :: ps) = (nudgeFrom w h y ps).map (ontoEdge w h p :: ·) := by
  rw [nudgeFrom, checkPoint_moved w h y p hm hout]
  cases nudgeFrom w h y ps <;> rfl

end

/-- The loop puts the points that it moves onto the edge and goes on with the others (43_perspective R329). -/
theorem nudgeFrom_append (pre rest : List Point) (hpre : ∀ p ∈ pre, onMargin w h p ∧ oneOutside w h p) :
    nudgeFrom w h y (pre ++ rest) = (nudgeFrom w h y rest).map (pre.map (ontoEdge w h) ++ ·) := by
  induction pre with
  | nil =>
    rw [List.nil_append]
    cases nudgeFrom w h y rest <;> rfl
  | cons p pre ih =>
    obtain ⟨⟨hm, hout⟩, hpre⟩ := List.forall_mem_cons.1 hpre
    rw [List.cons_append, nudgeFrom_moved w h y p _ hm hout, ih hpre]
    cases nudgeFrom w h y rest <;> rfl

/-- What a loop that succeeds does to each point. -/
theorem nudgeFrom_ok (ps qs : List Point) (hok : nudgeFrom w h y ps = .ok qs) :
    List.Forall₂ (fun p q => q = p ∨ q = ontoEdge w h p) ps qs := by
  induction ps generalizing qs with
  | nil =>
    cases hok
    exact .nil
  | cons p ps ih =>
    rcases checkPoint_cases w h y p with ⟨hm, hout, -⟩ | ⟨hm, hout, -⟩ | ⟨-, herr⟩ | ⟨-, -, herr⟩
    · rw [nudgeFrom_moved w h y p ps hm hout] at hok
      cases hrest : nudgeFrom w h y ps with
      | error e => rw [hrest] at hok; cases hok
      | ok rs =>
        rw [hrest] at hok
        cases hok
        exact .cons (.inr rfl) (ih rs hrest)
    · rw [nudgeFrom_kept w h y p ps hm hout] at hok
      cases hok
      exact List.forall₂_same.2 fun _ _ => .inl rfl
    · rw [nudgeFrom_error w h y p ps _ herr] at hok
      cases hok
    · rw [nudgeFrom_error w h y p ps _ herr] at hok
      cases hok

/-! ## The two loops -/

theorem nudge_error_first (ps : List Point) (e : CmdError) (hfirst : nudgeFrom w h y ps = .error e) :
    nudge w h y ps = .error e := by
  rw [nudge, hfirst]

theorem nudge_second (ps qs : List Point) (hfirst : nudgeFrom w h y ps = .ok qs) :
    nudge w h y ps = (nudgeFrom w h y qs.reverse).map List.reverse := by
  simp only [nudge, hfirst]
  cases nudgeFrom w h y qs.reverse <;> rfl

theorem nudge_ok (ps rs : List Point) (hok : nudge w h y ps = .ok rs) :
    ∃ qs, nudgeFrom w h y ps = .ok qs ∧ nudgeFrom w h y qs.reverse = .ok rs.reverse := by
  cases hfirst : nudgeFrom w h y ps with
  | error e =>
    rw [nudge_error_first w h y ps e hfirst] at hok
    cases hok
  | ok qs =>
    refine ⟨qs, rfl, ?_⟩
    rw [nudge_second w h y ps qs hfirst] at hok
    cases hsecond : nudgeFrom w h y qs.reverse with
    | error e => rw [hsecond] at hok; cases hok
    | ok us =>
      rw [hsecond] at hok
      cases hok
      rw [List.reverse_reverse]

end

/-! ## The coordinates -/

/-- What the nudge does to a coordinate: nothing, or it puts one that is one pixel outside onto the edge. -/
def CoordMoves (d : Nat) (v v' : Word) : Prop :=
  v' = v ∨ toInt32 v = some (-1) ∧ v' = 0 ∨ toInt32 v = some (d : Int) ∧ toInt32 v' = some ((d : Int) - 1)

theorem coordMoves_edgeCoord (d : Nat) (hd : 0 < d) (hd' : d ≤ 2048) (v : Word) : CoordMoves d v (edgeCoord d v) := by
  unfold edgeCoord
  split_ifs with hlow hhigh
  · exact .inr (.inl ⟨hlow, rfl⟩)
  · refine .inr (.inr ⟨hhigh, ?_⟩)
    rw [toInt32_natTo32 (d - 1) (by omega), Nat.cast_pred hd]
  · exact .inl rfl

theorem toInt32_zero : toInt32 0 = some 0 := by decide

/-- A coordinate on the edge does not move again. -/
theorem CoordMoves.trans {d : Nat} (hd : 0 < d) {u v w : Word} (huv : CoordMoves d u v) (hvw : CoordMoves d v w) :
    CoordMoves d u w := by
  have hkept (i : Int) (hi : toInt32 v = some i) (hlow : i ≠ -1) (hhigh : i ≠ d) : w = v := by
    rcases hvw with heq | ⟨hv, -⟩ | ⟨hv, -⟩
    · exact heq
    · exact absurd (Option.some.inj (hi.symm.trans hv)) hlow
    · exact absurd (Option.some.inj (hi.symm.trans hv)) hhigh
  rcases huv with rfl | ⟨hu, rfl⟩ | ⟨hu, hv⟩
  · exact hvw
  · exact .inr (.inl ⟨hu, hkept 0 toInt32_zero (by decide) (by omega)⟩)
  · exact .inr (.inr ⟨hu, hkept _ hv (by omega) (by omega) ▸ hv⟩)

/-- What the nudge does to a point: each coordinate by itself. -/
def PointMoves (w h : Nat) (p q : Point) : Prop := CoordMoves w p.x q.x ∧ CoordMoves h p.y q.y

section
variable (w h y : Nat) (hw : 0 < w) (hw' : w ≤ 2048) (hh : 0 < h) (hh' : h ≤ 2048)
include hw hw' hh hh'

theorem pointMoves_of_nudgeFrom (ps qs : List Point) (hok : nudgeFrom w h y ps = .ok qs) :
    List.Forall₂ (PointMoves w h) ps qs := by
  refine (nudgeFrom_ok w h y ps qs hok).imp fun p q hpq => ?_
  rcases hpq with rfl | rfl
  · exact ⟨.inl rfl, .inl rfl⟩
  · exact ⟨coordMoves_edgeCoord w hw hw' p.x, coordMoves_edgeCoord h hh hh' p.y⟩

theorem pointMoves_of_nudge (ps rs : List Point) (hok : nudge w h y ps = .ok rs) :
    List.Forall₂ (PointMoves w h) ps rs := by
  obtain ⟨qs, hfirst, hsecond⟩ := nudge_ok w h y ps rs hok
  have hsecond' := List.rel_reverse (pointMoves_of_nudgeFrom w h y hw hw' hh hh' _ _ hsecond)
  rw [List.reverse_reverse, List.reverse_reverse] at hsecond'
  obtain ⟨hlen, hpq⟩ := List.forall₂_iff_get.1 (pointMoves_of_nudgeFrom w h y hw hw' hh hh' _ _ hfirst)
  obtain ⟨hlen', hqr⟩ := List.forall₂_iff_get.1 hsecond'
  refine List.forall₂_iff_get.2 ⟨hlen.trans hlen', fun k hp hr => ?_⟩
  obtain ⟨hx, hy⟩ := hpq k hp (hlen ▸ hp)
  obtain ⟨hx', hy'⟩ := hqr k (hlen ▸ hp) hr
  exact ⟨hx.trans hw hx', hy.trans hh hy'⟩

end

/-- Settles O46: one loop by its first point that does not move, and each coordinate through both loops. -/
theorem nudgeMovesEndPointsOntoTheEdge : Obligations.NudgeMovesEndPointsOntoTheEdge := by
  refine ⟨fun n hn => ⟨finiteValue_natTo32 n (by omega), toInt32_natTo32 n (by omega)⟩,
    fun w h y pre hpre => ⟨?_, fun q post => ⟨fun hm hout => ?_, fun hc => ?_, fun hc hm => ?_⟩⟩,
    fun w h y ps qs e => ⟨nudge_error_first w h y ps e, fun hfirst hsecond => ?_, fun rs hfirst hsecond => ?_⟩,
    fun w h y ps qs hw hw' hh hh' hok => ?_⟩
  · simpa [nudgeFrom, Except.map] using nudgeFrom_append w h y pre [] hpre
  · rw [nudgeFrom_append w h y pre _ hpre, nudgeFrom_kept w h y q post hm hout]
    rfl
  · rw [nudgeFrom_append w h y pre _ hpre, nudgeFrom_error w h y q post _ (checkPoint_not_convertible w h y q hc)]
    rfl
  · rw [nudgeFrom_append w h y pre _ hpre, nudgeFrom_error w h y q post _ (checkPoint_beyond w h y q hc hm)]
    rfl
  · rw [nudge_second w h y ps qs hfirst, hsecond]
    rfl
  · rw [nudge_second w h y ps qs hfirst, hsecond]
    rfl
  · obtain ⟨hlen, hmoves⟩ := List.forall₂_iff_get.1 (pointMoves_of_nudge w h y hw hw' hh hh' ps qs hok)
    exact ⟨hlen.symm, hmoves⟩

end Sys2Proof.Machine
end

section
/-! PROOFS. PT_SAMPLE (O47, O48): the bit of a point, a row by its nudged points, the grid by its first row that fails,
and what the command stores or forgets. -/

namespace Sys2Proof.Machine

open Sys2Proof.Safety

/-! ## Fallible maps -/

theorem mapE_of_forall₂ {α β : Type} (f : α → Except CmdError β) (as : List α) (bs : List β)
    (h : List.Forall₂ (fun a b => f a = .ok b) as bs) : mapE f as = .ok bs := by
  induction h with
  | nil => rfl
  | cons hab _ ih => rw [mapE, hab, ih]

/-- A fallible map hands on the error of the first entry that fails. -/
theorem mapE_first_error {α β : Type} (f : α → Except CmdError β) (pre : List α) (a : α) (post : List α) (e : CmdError)
    (hpre : ∀ b ∈ pre, ∃ c, f b = .ok c) (ha : f a = .error e) : mapE f (pre ++ a :: post) = .error e := by
  induction pre with
  | nil => rw [List.nil_append, mapE, ha]
  | cons b pre ih =>
    obtain ⟨⟨c, hc⟩, hpre⟩ := List.forall_mem_cons.1 hpre
    rw [List.cons_append, mapE, hc, ih hpre]

/-- The same over the numbers below `n`, in rising order. -/
theorem mapE_range_first_error {β : Type} (f : Nat → Except CmdError β) (n y : Nat) (e : CmdError) (hy : y < n)
    (hlow : ∀ y', y' < y → ∃ c, f y' = .ok c) (he : f y = .error e) : mapE f (List.range n) = .error e := by
  obtain ⟨pre, post, hsplit⟩ := List.append_of_mem (List.mem_range.2 hy)
  have hsorted := List.pairwise_lt_range (n := n)
  rw [hsplit] at hsorted ⊢
  obtain ⟨-, -, hlt⟩ := List.pairwise_append.1 hsorted
  exact mapE_first_error f pre y post e (fun y' hy' => hlow y' (hlt y' hy' y List.mem_cons_self)) he

/-! ## One sample -/

/-- The point truncates to a pixel of a w x h image. -/
def PointInside (w h : Nat) (p : Point) : Prop := ∃ i j, inPixel w h p i j

/-- The errors that a grid row can raise (43_perspective R345). -/
def RowError (y : Nat) (e : CmdError) : Prop := ∃ d ∈ [(0x51 : Byte), 0x52, 0x53], e = notFoundError d y

section
variable (s : State) (w h y : Nat) (p : Point)

theorem sampleBit_inside (i j : Nat) (hp : inPixel w h p i j) : sampleBit s w h y p = .ok (bitAt s 0x100000 w i j) := by
  obtain ⟨hx, hy, hi, hj⟩ := hp
  rw [sampleBit, toPixel_ok y p i j hx hy]
  exact if_pos (by omega)

theorem sampleBit_not_convertible (hp : ¬ convertible p) : sampleBit s w h y p = .error (notFoundError 0x53 y) := by
  rw [sampleBit, toPixel_error y p hp]

theorem sampleBit_outside (hp : convertible p) (hout : ¬ PointInside w h p) :
    sampleBit s w h y p = .error (notFoundError 0x52 y) := by
  obtain ⟨i, j, hx, hy⟩ := hp
  rw [sampleBit, toPixel_ok y p i j hx hy]
  refine if_neg fun hin => hout ⟨i.toNat, j.toNat, ?_, ?_, by omega, by omega⟩
  · rw [hx, Int.toNat_of_nonneg hin.1]
  · rw [hy, Int.toNat_of_nonneg hin.2.2.1]

theorem sampleBit_error (e : CmdError) (he : sampleBit s w h y p = .error e) : RowError y e := by
  by_cases hc : convertible p
  · by_cases hin : PointInside w h p
    · obtain ⟨i, j, hp⟩ := hin
      rw [sampleBit_inside s w h y p i j hp] at he
      cases he
    · rw [sampleBit_outside s w h y p hc hin] at he
      exact ⟨0x52, by decide, (Except.error.inj he).symm⟩
  · rw [sampleBit_not_convertible s w h y p hc] at he
    exact ⟨0x53, by decide, (Except.error.inj he).symm⟩

end

/-! ## The nudge of a row that is sampled -/

section
variable (w h y : Nat)

theorem nudgeFrom_error_cases (ps : List Point) (e : CmdError) (he : nudgeFrom w h y ps = .error e) : RowError y e := by
  induction ps with
  | nil => cases he
  | cons p ps ih =>
    rcases checkPoint_cases w h y p with ⟨hm, hout, -⟩ | ⟨hm, hout, -⟩ | ⟨-, herr⟩ | ⟨-, -, herr⟩
    · rw [nudgeFrom_moved w h y p ps hm hout] at he
      cases hrest : nudgeFrom w h y ps with
      | error e' =>
        rw [hrest] at he
        cases he
        exact ih hrest
      | ok qs => rw [hrest] at he; cases he
    · rw [nudgeFrom_kept w h y p ps hm hout] at he
      cases he
    · rw [nudgeFrom_error w h y p ps _ herr] at he
      exact ⟨0x53, by decide, (Except.error.inj he).symm⟩
    · rw [nudgeFrom_error w h y p ps _ herr] at he
      exact ⟨0x51, by decide, (Except.error.inj he).symm⟩

theorem nudge_error_cases (ps : List Point) (e : CmdError) (he : nudge w h y ps = .error e) : RowError y e := by
  cases hfirst : nudgeFrom w h y ps with
  | error e' =>
    rw [nudge_error_first w h y ps e' hfirst] at he
    cases he
    exact nudgeFrom_error_cases w h y ps e hfirst
  | ok qs =>
    rw [nudge_second w h y ps qs hfirst] at he
    cases hsecond : nudgeFrom w h y qs.reverse with
    | error e' =>
      rw [hsecond] at he
      cases he
      exact nudgeFrom_error_cases w h y _ e hsecond
    | ok rs => rw [hsecond] at he; cases he

theorem nudge_length (ps rs : List Point) (hok : nudge w h y ps = .ok rs) : rs.length = ps.length := by
  obtain ⟨qs, hfirst, hsecond⟩ := nudge_ok w h y ps rs hok
  have hlen := (nudgeFrom_ok w h y ps qs hfirst).length_eq
  have hlen' := (nudgeFrom_ok w h y _ _ hsecond).length_eq
  rw [List.length_reverse, List.length_reverse] at hlen'
  exact (hlen.trans hlen').symm

theorem nudgeFrom_inside (ps : List Point) (hps : ∀ p ∈ ps, PointInside w h p) : nudgeFrom w h y ps = .ok ps := by
  cases ps with
  | nil => rfl
  | cons p ps =>
    obtain ⟨⟨i, j, hx, hy, hi, hj⟩, -⟩ := List.forall_mem_cons.1 hps
    refine nudgeFrom_kept w h y p ps ⟨i, j, hx, hy, by omega, by omega, by omega, by omega⟩ ?_
    rw [oneOutside, hx, hy, Option.some_inj, Option.some_inj, Option.some_inj, Option.some_inj]
    omega

/-- Points inside the image are no business of the nudge. -/
theorem nudge_inside (ps : List Point) (hps : ∀ p ∈ ps, PointInside w h p) : nudge w h y ps = .ok ps := by
  rw [nudge_second w h y ps ps (nudgeFrom_inside w h y ps hps),
    nudgeFrom_inside w h y ps.reverse fun p hp => hps p (List.mem_reverse.1 hp)]
  exact congrArg Except.ok (List.reverse_reverse ps)

end

/-! ## A row -/

section
variable (s : State) (w h d y : Nat)

theorem samplePoints_length : (samplePoints s d y).length = d := by simp [samplePoints]

theorem sampleRow_nudge_error (e : CmdError) (he : nudge w h y (samplePoints s d y) = .error e) :
    sampleRow s w h d y = .error e := by
  rw [sampleRow, show rowPoints s.regs.t d y = samplePoints s d y from rfl, he]

theorem sampleRow_eq_mapE (qs : List Point) (hok : nudge w h y (samplePoints s d y) = .ok qs) :
    sampleRow s w h d y = mapE (sampleBit s w h y) qs := by
  rw [sampleRow, show rowPoints s.regs.t d y = samplePoints s d y from rfl, hok]

theorem sampleRow_inside (hrow : rowInside s w h d y) : ∃ bits, sampleRow s w h d y = .ok bits := by
  obtain ⟨qs, hok, hin⟩ := hrow
  cases hbits : mapE (sampleBit s w h y) qs with
  | ok bits => exact ⟨bits, (sampleRow_eq_mapE s w h d y qs hok).trans hbits⟩
  | error e =>
    obtain ⟨q, hq, he⟩ := mapE_error _ _ _ hbits
    obtain ⟨i, j, hp⟩ := hin q hq
    rw [sampleBit_inside s w h y q i j hp] at he
    cases he

/-- The row's points are the pixels (px x, py x) after the nudge: so are its bits. -/
theorem sampleRow_ok (px py : Nat → Nat) (qs : List Point) (hok : nudge w h y (samplePoints s d y) = .ok qs)
    (hin : ∀ x, x < d → ∃ q, qs[x]? = some q ∧ inPixel w h q (px x) (py x)) :
    sampleRow s w h d y = .ok ((List.range d).map fun x => bitAt s 0x100000 w (px x) (py x)) := by
  have hlen : qs.length = d := (nudge_length w h y _ qs hok).trans (samplePoints_length s d y)
  rw [sampleRow_eq_mapE s w h d y qs hok]
  refine mapE_of_forall₂ _ _ _ (List.forall₂_iff_get.2 ⟨by simp [hlen], fun x hx hx' => ?_⟩)
  obtain ⟨q, hq, hp⟩ := hin x (hlen ▸ hx)
  obtain rfl : qs[x] = q := Option.some.inj ((List.getElem?_eq_getElem hx).symm.trans hq)
  simpa using sampleBit_inside s w h y _ _ _ hp

/-- The first point outside gives the row's error. -/
theorem sampleRow_first_outside (pre : List Point) (q : Point) (post : List Point) (e : CmdError)
    (hok : nudge w h y (samplePoints s d y) = .ok (pre ++ q :: post)) (hpre : ∀ p ∈ pre, PointInside w h p)
    (he : sampleBit s w h y q = .error e) : sampleRow s w h d y = .error e := by
  rw [sampleRow_eq_mapE s w h d y _ hok]
  refine mapE_first_error _ pre q post e (fun p hp => ?_) he
  obtain ⟨i, j, hin⟩ := hpre p hp
  exact ⟨_, sampleBit_inside s w h y p i j hin⟩

theorem sampleRow_error (e : CmdError) (he : sampleRow s w h d y = .error e) : RowError y e := by
  cases hnudge : nudge w h y (samplePoints s d y) with
  | error e' =>
    rw [sampleRow_nudge_error s w h d y e' hnudge] at he
    cases he
    exact nudge_error_cases w h y _ e hnudge
  | ok qs =>
    rw [sampleRow_eq_mapE s w h d y qs hnudge] at he
    obtain ⟨q, -, hq⟩ := mapE_error _ _ _ he
    exact sampleBit_error s w h y q e hq

/-! ## The grid -/

/-- The rows of bits of a grid whose cell (x, y) samples the pixel (px x y, py x y). -/
def sampledRowsOf (px py : Nat → Nat → Nat) : List (List Bool) :=
  (List.range d).map fun y => (List.range d).map fun x => bitAt s 0x100000 w (px x y) (py x y)

theorem sampledRowsOf_getD (px py : Nat → Nat → Nat) (x : Nat) (hx : x < d) (hy : y < d) :
    ((sampledRowsOf s w d px py).getD y []).getD x false = bitAt s 0x100000 w (px x y) (py x y) := by
  simp [sampledRowsOf, hx, hy]

theorem sampleGrid_ok (px py : Nat → Nat → Nat)
    (hin : ∀ y, y < d → ∃ qs, nudge w h y (samplePoints s d y) = .ok qs ∧
      ∀ x, x < d → ∃ q, qs[x]? = some q ∧ inPixel w h q (px x y) (py x y)) :
    sampleGrid s w h d = .ok (sampledRowsOf s w d px py) :=
  mapE_of_forall_ok _ _ _ fun y hy => by
    obtain ⟨qs, hok, hq⟩ := hin y (List.mem_range.1 hy)
    exact sampleRow_ok s w h d y (fun x => px x y) (fun x => py x y) qs hok hq

theorem sampleGrid_error (e : CmdError) (he : sampleGrid s w h d = .error e) : ∃ y, y < d ∧ RowError y e := by
  obtain ⟨y, hy, hrow⟩ := mapE_error _ _ _ he
  exact ⟨y, List.mem_range.1 hy, sampleRow_error s w h d y e hrow⟩

theorem sampleGrid_first_error (e : CmdError) (hy : y < d) (hlow : ∀ y', y' < y → rowInside s w h d y')
    (he : sampleRow s w h d y = .error e) : sampleGrid s w h d = .error e :=
  mapE_range_first_error _ d y e hy (fun y' hy' => sampleRow_inside s w h d y' (hlow y' hy')) he

/-- The buffers after PT_SAMPLE has stored its grid. -/
def gridStored (rows : List (List Bool)) : State :=
  storeElems s .grid (matrixWords d d fun x y => (rows.getD y []).getD x false)

/-- The buffers after PT_SAMPLE has failed: the grid's words are UNKNOWN (log 16). -/
def gridForgotten : State := forget s 0x80000 (0x80000 + 4 * (d * rowSize d))

/-- The grid that was stored reads back as the sampled bits, and nothing else changed. -/
theorem gridSampled_gridStored (px py : Nat → Nat → Nat) (hd : d ≤ 1024) :
    gridSampled s (withOutcome (gridStored s d (sampledRowsOf s w d px py)) .ok 0 0) w d px py := by
  refine ⟨rfl, fun x y hx hy => ?_, sameExcept_withOutcome ?_⟩
  · have hfit : 4 * (d * rowSize d) ≤ 0x20000 := Nat.mul_le_mul_left 4 (Nat.mul_le_mul hd (rowSize_le d 32 hd))
    have hbit := bitAt_storeMatrix s .grid d d (fun x y => ((sampledRowsOf s w d px py).getD y []).getD x false) x y rfl
      hfit hx hy
    refine (bitAt_eq_of_mem_marks (gridStored s d _) _ _ _ _ _ rfl rfl).trans (hbit.trans ?_)
    by_cases hxd : x < d
    · rw [sampledRowsOf_getD s w d y px py x hxd hy]
    · rw [decide_eq_false hxd, Bool.false_and, Bool.false_and]
  · have hstore := sameExcept_storeElems s .grid
      (matrixWords d d fun x y => ((sampledRowsOf s w d px py).getD y []).getD x false)
    rwa [matrixWords_length] at hstore

theorem freshRange_gridForgotten : freshRange s (gridForgotten s d) 0x80000 (0x80000 + 4 * (d * rowSize d)) :=
  fun a hlo hhi hstored => ⟨s.draws + 1, Nat.lt_succ_self _, readByte_forget_inside s _ _ a hlo hhi hstored⟩

theorem sameExcept_gridForgotten : sameExcept s (gridForgotten s d) [(0x80000, 0x80000 + 4 * (d * rowSize d))] :=
  fun a ha => readByte_forget_outside s _ _ a (ha _ List.mem_cons_self)

end

/-! ## PT_SAMPLE -/

theorem exec_ptSample_size (s : State) (h : ¬ imageAccepted s.regs.imgW.toNat s.regs.imgH.toNat) :
    exec .ptSample s = .next (withOutcome s .argument 0x54 0) := by
  have hbody : ptSampleBody s = (s, some (argumentError 0x54 0)) := if_pos ((imageSizeBad_eq_true _ _).2 h)
  exact (congrArg finish hbody).trans (finish_argument s 0x54)

theorem exec_ptSample_dim (s : State) (hacc : imageAccepted s.regs.imgW.toNat s.regs.imgH.toNat)
    (hd : s.regs.gridDim.toNat = 0 ∨ 1024 < s.regs.gridDim.toNat) :
    exec .ptSample s = .next (withOutcome s .argument 0x50 0) := by
  have hbody : ptSampleBody s = (s, some (argumentError 0x50 0)) := by
    rw [ptSampleBody, (imageSizeBad_eq_false _ _).2 hacc]
    exact if_pos hd
  exact (congrArg finish hbody).trans (finish_argument s 0x50)

section
variable (s : State) (hacc : imageAccepted s.regs.imgW.toNat s.regs.imgH.toNat) (hpos : 0 < s.regs.gridDim.toNat)
  (hle : s.regs.gridDim.toNat ≤ 1024)
include hacc hpos hle

/-- PT_SAMPLE where the checks pass is its grid (43_perspective R345). -/
theorem ptSampleBody_of_checks : ptSampleBody s =
    match sampleGrid s s.regs.imgW.toNat s.regs.imgH.toNat s.regs.gridDim.toNat with
    | .error e => (gridForgotten s s.regs.gridDim.toNat, some e)
    | .ok rows => (gridStored s s.regs.gridDim.toNat rows, none) := by
  rw [ptSampleBody, (imageSizeBad_eq_false _ _).2 hacc]
  exact if_neg (not_or.2 ⟨hpos.ne', hle.not_gt⟩)

theorem exec_ptSample_ok (rows : List (List Bool))
    (hgrid : sampleGrid s s.regs.imgW.toNat s.regs.imgH.toNat s.regs.gridDim.toNat = .ok rows) :
    exec .ptSample s = .next (withOutcome (gridStored s s.regs.gridDim.toNat rows) .ok 0 0) := by
  have hbody : ptSampleBody s = (gridStored s s.regs.gridDim.toNat rows, none) := by
    rw [ptSampleBody_of_checks s hacc hpos hle, hgrid]
  exact (congrArg finish hbody).trans (finish_ok _)

theorem exec_ptSample_error (det : Byte) (y : Nat)
    (hgrid : sampleGrid s s.regs.imgW.toNat s.regs.imgH.toNat s.regs.gridDim.toNat = .error (notFoundError det y)) :
    exec .ptSample s = .next (withOutcome (gridForgotten s s.regs.gridDim.toNat) .notFound det y) := by
  have hbody : ptSampleBody s = (gridForgotten s s.regs.gridDim.toNat, some (notFoundError det y)) := by
    rw [ptSampleBody_of_checks s hacc hpos hle, hgrid]
  exact (congrArg finish hbody).trans (finish_notFound _ det y)

end

/-- Settles O47: the rows by their nudged points; mapped centres that lie in the image stay where they are. -/
theorem ptSampleReadsTheCellCentres : Obligations.PtSampleReadsTheCellCentres := by
  refine ⟨by decide, fun n hn => finiteValue_halfPast32 n (by omega), ?_⟩
  rintro s _ _ _ px py rfl rfl rfl hacc hpos hle
  have hsampled (hin : ∀ y, y < s.regs.gridDim.toNat →
      ∃ qs, nudge s.regs.imgW.toNat s.regs.imgH.toNat y (samplePoints s s.regs.gridDim.toNat y) = .ok qs ∧
        ∀ x, x < s.regs.gridDim.toNat → ∃ q, qs[x]? = some q ∧
          inPixel s.regs.imgW.toNat s.regs.imgH.toNat q (px x y) (py x y)) :
      ∃ t, exec .ptSample s = .next t ∧ gridSampled s t s.regs.imgW.toNat s.regs.gridDim.toNat px py :=
    ⟨_, exec_ptSample_ok s hacc hpos hle _ (sampleGrid_ok s _ _ _ px py hin), gridSampled_gridStored s _ _ px py hle⟩
  refine ⟨fun hcentres => hsampled fun y hy => ⟨_, nudge_inside _ _ y _ fun p hp => ?_, fun x hx => ?_⟩, hsampled⟩
  · obtain ⟨x, hx, rfl⟩ := List.mem_map.1 hp
    exact ⟨_, _, hcentres x y (List.mem_range.1 hx) hy⟩
  · exact ⟨_, by simp [samplePoints, hx], hcentres x y hx hy⟩

/-- The row index that a failure of PT_SAMPLE reports. -/
theorem index_gridForgotten (s : State) (d y : Nat) (det : Byte) (hy : y < 2 ^ 16) :
    (withOutcome (gridForgotten s d) .notFound det y).regs.index.toNat = y := by
  rw [withOutcome_regs, BitVec.toNat_ofNat, Nat.mod_eq_of_lt hy]

/-- Settles O48: the checks, then every error of the grid as the error of its first row that fails. -/
theorem ptSampleFailures : Obligations.PtSampleFailures := by
  rintro s _ _ _ rfl rfl rfl
  refine ⟨exec_ptSample_size s, exec_ptSample_dim s, fun t hacc hpos hle hexec herr => ?_, fun y hacc hle hy hlow => ?_⟩
  · cases hgrid : sampleGrid s s.regs.imgW.toNat s.regs.imgH.toNat s.regs.gridDim.toNat with
    | ok rows =>
      obtain rfl := Host.Outcome.next.inj ((exec_ptSample_ok s hacc hpos hle rows hgrid).symm.trans hexec)
      cases herr
    | error e =>
      obtain ⟨y, hy, det, hdet, rfl⟩ := sampleGrid_error s _ _ _ e hgrid
      obtain rfl := Host.Outcome.next.inj ((exec_ptSample_error s hacc hpos hle det y hgrid).symm.trans hexec)
      have hindex := index_gridForgotten s s.regs.gridDim.toNat y det (by omega)
      refine ⟨hdet, hindex.symm ▸ hy, ?_, ?_, ?_⟩
      · rw [hindex]
        rfl
      · exact freshRange_congr (freshRange_gridForgotten s _) fun a _ _ => readByte_withOutcome _ _ _ _ a
      · exact sameExcept_withOutcome (sameExcept_gridForgotten s _)
  · have hfails (det : Byte)
        (hrow : sampleRow s s.regs.imgW.toNat s.regs.imgH.toNat s.regs.gridDim.toNat y = .error (notFoundError det y)) :
        ∃ t, exec .ptSample s = .next t ∧ t.regs.err = true ∧ t.regs.detail = det ∧ t.regs.index.toNat = y :=
      ⟨_, exec_ptSample_error s hacc (by omega) hle det y (sampleGrid_first_error s _ _ _ y _ hy hlow hrow), rfl, rfl,
        index_gridForgotten s _ y det (by omega)⟩
    refine ⟨fun e he => ?_, fun pre q post hok hpre hout => ?_⟩
    · obtain ⟨det, -, rfl⟩ := nudge_error_cases _ _ y _ e he
      exact hfails det (sampleRow_nudge_error s _ _ _ y _ he)
    · by_cases hc : convertible q
      · obtain ⟨t, hexec, herr, hdet, hindex⟩ := hfails 0x52
          (sampleRow_first_outside s _ _ _ y pre q post _ hok hpre (sampleBit_outside s _ _ y q hc hout))
        exact ⟨t, hexec, herr, hindex, fun _ => hdet, fun hnot => absurd hc hnot⟩
      · obtain ⟨t, hexec, herr, hdet, hindex⟩ := hfails 0x53
          (sampleRow_first_outside s _ _ _ y pre q post _ hok hpre (sampleBit_not_convertible s _ _ y q hc))
        exact ⟨t, hexec, herr, hindex, fun h => absurd h hc, fun _ => hdet⟩

end Sys2Proof.Machine
end

section
/-! PROOFS. The results of the parser commands (O52) and the up-front checks of DBS_DECODE (O51): what a command leaves
that writes its output or fails, the checks clause by clause, and the details that the parser's machine can raise. -/

namespace Sys2Proof.Machine

open Sys2Proof.Safety

/-! ## What a parser command leaves -/

theorem sameExcept_endCommand (s : State) (e : Option CmdError) (ranges : List (Nat × Nat)) :
    sameExcept s (endCommand s e) ranges :=
  fun a _ => readByte_endCommand s e a

/-- The failure of a parser command with FORMAT. -/
theorem finish_failOut (s : State) (d : Byte) (i : Nat) :
    ∃ t, finish (outError s (formatError d i)) = .next t ∧ parserFailed s t d i := by
  refine ⟨_, rfl, rfl, ?_, ?_⟩
  · exact freshRange_congr (freshRange_forgetWindow s s .out le_rfl) fun a _ _ => readByte_endCommand _ _ a
  · exact sameExcept_trans (sameExcept_trans (sameExcept_forgetWindow s .out) sameExcept_regs)
      (sameExcept_endCommand _ _ _)

/-- The success of a parser command. -/
theorem finish_writeOut (s : State) (out : List Byte) (hfit : out.length ≤ 4096) :
    ∃ t, finish (writeOut s out, none) = .next t ∧ parserWrote s t out := by
  refine ⟨_, rfl, rfl, hfit, fun k hk => ?_,
    sameExcept_trans (sameExcept_trans (fun a ha => ?_) sameExcept_regs) (sameExcept_endCommand _ _ _)⟩
  · rw [readByte_endCommand, writeOut, readByte_regs]
    exact readByte_storeBytes_inside s _ out k hk (storedByte_out k (hk.trans_le hfit))
  · exact readByte_storeBytes_outside s _ out a (ha _ List.mem_cons_self)

theorem eq_formatError {e : CmdError} (h : e.code = .format) : e = formatError e.detail e.index.toNat := by
  cases e
  simpa [formatError] using h

theorem finish_outError_format (s : State) (e : CmdError) (h : e.code = .format) :
    ∃ t, finish (outError s e) = .next t ∧ parserFailed s t e.detail e.index.toNat := by
  rw [eq_formatError h]
  obtain ⟨t, ht, hfailed⟩ := finish_failOut s e.detail e.index.toNat
  exact ⟨t, ht, by simpa [formatError] using hfailed⟩

/-- The outcome fields after a FORMAT failure. -/
theorem outcome_of_parserFailed {s t : State} {d : Byte} {i : Nat} (h : parserFailed s t d i) :
    t.regs.detail = d ∧ t.regs.index = BitVec.ofNat 16 i := by
  obtain ⟨ht, -, -⟩ := h
  exact ⟨by rw [ht]; rfl, by rw [ht]; rfl⟩

theorem detail_of_parserWrote {s t : State} {out : List Byte} (h : parserWrote s t out) : t.regs.detail = 0 := by
  obtain ⟨ht, -, -⟩ := h
  rw [ht]
  rfl

/-- The outcomes of a parser command (44_bitstream R390). -/
def ParserOutcome (s t : State) : Prop :=
  (∃ out, parserWrote s t out) ∨ parserFailed s t t.regs.detail t.regs.index.toNat ∨
    t = withOutcome s .argument t.regs.detail 0

theorem parserOutcome_format (s t : State) (e : CmdError) (hc : e.code = .format)
    (ht : finish (outError s e) = .next t) : ParserOutcome s t := by
  obtain ⟨u, hu, hfailed⟩ := finish_outError_format s e hc
  obtain rfl := Host.Outcome.next.inj (hu.symm.trans ht)
  obtain ⟨hdetail, hindex⟩ := outcome_of_parserFailed hfailed
  rw [BitVec.ofNat_toNat, BitVec.setWidth_eq] at hindex
  exact .inr (.inl (by rwa [hdetail, hindex]))

theorem parserOutcome_argument (s t : State) (d : Byte) (ht : finish (outError s (argumentError d 0)) = .next t) :
    ParserOutcome s t := by
  obtain rfl := Host.Outcome.next.inj ht
  exact .inr (.inr rfl)

theorem parserOutcome_wrote (s t : State) (out : List Byte) (hfit : out.length ≤ 4096)
    (ht : finish (writeOut s out, none) = .next t) : ParserOutcome s t := by
  obtain ⟨u, hu, hwrote⟩ := finish_writeOut s out hfit
  obtain rfl := Host.Outcome.next.inj (hu.symm.trans ht)
  exact .inl ⟨out, hwrote⟩

/-! ## DBS_DECODE in three steps -/

/-- The data codewords that the descriptor counts, CW[1] to CW[SLD-1] (44_bitstream R370). -/
def dataCodewords (s : State) : List Nat := (List.range (cwAt s 0 - 1)).map (fun k => cwAt s (k + 1))

theorem dataCodewords_length (s : State) : (dataCodewords s).length = cwAt s 0 - 1 := by simp [dataCodewords]

@[simp] theorem dataCodewords_getElem (s : State) (k : Nat) (h : k < (dataCodewords s).length) :
    (dataCodewords s)[k] = cwAt s (k + 1) := by simp [dataCodewords]

theorem tail_cwList (s : State) : (cwList s (cwAt s 0)).tail = dataCodewords s := by
  rw [cwList, dataCodewords]
  cases cwAt s 0 with
  | zero => rfl
  | succ n => simp [List.range_succ_eq_map]

/-- The up-front checks of a state (44_bitstream R371). -/
def stateCheck (s : State) : Option CmdError := streamCheck s.regs.cwLen.toNat (cwAt s 0) (dataCodewords s)

theorem dbsDecodeBody_of_check_error (s : State) (e : CmdError) (h : stateCheck s = some e) :
    dbsDecodeBody s = outError s e := by
  rw [stateCheck, ← tail_cwList] at h
  simp only [dbsDecodeBody, h]

theorem dbsDecodeBody_of_error (s : State) (e : CmdError) (h : stateCheck s = none)
    (hm : mainLoop Parser.start 1 (dataCodewords s) = .error e) : dbsDecodeBody s = outError s e := by
  rw [stateCheck] at h
  rw [← tail_cwList] at h hm
  simp only [dbsDecodeBody, h, hm]

theorem dbsDecodeBody_of_ok (s : State) (p : Parser) (h : stateCheck s = none)
    (hm : mainLoop Parser.start 1 (dataCodewords s) = .ok p) : dbsDecodeBody s = (writeOut s p.out, none) := by
  rw [stateCheck] at h
  rw [← tail_cwList] at h hm
  simp only [dbsDecodeBody, h, hm]

theorem exec_dbsDecode_check_error (s : State) (d : Byte) (i : Nat) (h : stateCheck s = some (formatError d i)) :
    ∃ t, exec .dbsDecode s = .next t ∧ parserFailed s t d i := by
  obtain ⟨t, ht, hfailed⟩ := finish_failOut s d i
  exact ⟨t, (congrArg finish (dbsDecodeBody_of_check_error s _ h)).trans ht, hfailed⟩

theorem exec_dbsDecode_error (s : State) (e : CmdError) (h : stateCheck s = none)
    (hm : mainLoop Parser.start 1 (dataCodewords s) = .error e) :
    ∃ t, exec .dbsDecode s = .next t ∧ parserFailed s t e.detail e.index.toNat := by
  obtain ⟨t, ht, hfailed⟩ := finish_outError_format s e (mainLoop_raisesFormat _ _ _ e hm)
  exact ⟨t, (congrArg finish (dbsDecodeBody_of_error s e h hm)).trans ht, hfailed⟩

theorem exec_dbsDecode_formatError (s : State) (d : Byte) (i : Nat) (h : stateCheck s = none)
    (hm : mainLoop Parser.start 1 (dataCodewords s) = .error (formatError d i)) :
    ∃ t, exec .dbsDecode s = .next t ∧ parserFailed s t d i := by
  obtain ⟨t, ht, hfailed⟩ := finish_failOut s d i
  exact ⟨t, (congrArg finish (dbsDecodeBody_of_error s _ h hm)).trans ht, hfailed⟩

theorem exec_dbsDecode_ok (s : State) (p : Parser) (h : stateCheck s = none)
    (hm : mainLoop Parser.start 1 (dataCodewords s) = .ok p) :
    ∃ t, exec .dbsDecode s = .next t ∧ parserWrote s t p.out := by
  obtain ⟨t, ht, hwrote⟩ := finish_writeOut s p.out (mainLoop_outFits (start_outFits []) hm)
  exact ⟨t, (congrArg finish (dbsDecodeBody_of_ok s p h hm)).trans ht, hwrote⟩

/-! ## The up-front checks -/

theorem badLast_iff (c : Nat) : badLast c = true ↔ c ∈ [901, 902, 913, 924] := by
  simp [badLast, Config.byteLatch, Config.numericLatch, Config.byteShift, Config.byteLatchSix, or_assoc]

/-- The last data codeword is CW[SLD-1]. -/
theorem getLastD_dataCodewords (s : State) (h : 2 ≤ cwAt s 0) :
    (dataCodewords s).getLastD 0 = cwAt s (cwAt s 0 - 1) := by
  have hlen := dataCodewords_length s
  rw [List.getLastD_eq_getLast?, List.getLast?_eq_getElem?, List.getElem?_eq_getElem (by omega), Option.getD_some,
    dataCodewords_getElem]
  congr 1
  omega

/-- The search for a data codeword above 928, from index 1 on. -/
def highCodeword (s : State) : Option Nat := firstIndex (fun v => decide (v > Config.cwValueMax)) (dataCodewords s) 1

theorem highCodeword_eq_none (s : State) (h : ∀ j, 0 < j → j < cwAt s 0 → cwAt s j ≤ 928) : highCodeword s = none := by
  refine (firstIndex_none _ _ _).2 fun v hv => ?_
  obtain ⟨k, hk, rfl⟩ := List.mem_map.1 hv
  have hle := h (k + 1) k.succ_pos (by have := List.mem_range.1 hk; omega)
  exact decide_eq_false (not_lt.2 hle)

theorem highCodeword_eq_some (s : State) (k : Nat) (hpos : 0 < k) (hk : k < cwAt s 0) (hhigh : 928 < cwAt s k)
    (hlow : ∀ j, 0 < j → j < k → cwAt s j ≤ 928) : highCodeword s = some k := by
  have hlen := dataCodewords_length s
  refine (firstIndex_some _ _ _ _).2 ⟨k - 1, by omega, by omega, ?_, fun m hm => ?_⟩
  · rw [dataCodewords_getElem, Nat.sub_add_cancel hpos]
    exact decide_eq_true hhigh
  · rw [dataCodewords_getElem]
    exact decide_eq_false (not_lt.2 (hlow (m + 1) m.succ_pos (by omega)))

theorem stateCheck_len (s : State) (h : s.regs.cwLen.toNat = 0 ∨ 1024 < s.regs.cwLen.toNat) :
    stateCheck s = some (argumentError 0x67 0) := if_pos h

section
variable (s : State) (hpos : 0 < s.regs.cwLen.toNat) (hmax : s.regs.cwLen.toNat ≤ 1024)
include hpos hmax

theorem stateCheck_sld (h : cwAt s 0 = 0 ∨ s.regs.cwLen.toNat < cwAt s 0) :
    stateCheck s = some (formatError 0x66 0) :=
  (if_neg (not_or.2 ⟨hpos.ne', hmax.not_gt⟩)).trans (if_pos h)

variable (hsld : 1 ≤ cwAt s 0) (hle : cwAt s 0 ≤ s.regs.cwLen.toNat)
include hsld hle

theorem stateCheck_value (k : Nat) (h : highCodeword s = some k) : stateCheck s = some (formatError 0x60 k) := by
  rw [highCodeword] at h
  refine (if_neg (not_or.2 ⟨hpos.ne', hmax.not_gt⟩)).trans ((if_neg (by omega)).trans ?_)
  simp only [h]

theorem stateCheck_last (h : highCodeword s = none) : stateCheck s =
    if 2 ≤ cwAt s 0 ∧ cwAt s (cwAt s 0 - 1) ∈ [901, 902, 913, 924] then some (formatError 0x61 (cwAt s 0 - 1))
    else none := by
  rw [highCodeword] at h
  refine (if_neg (not_or.2 ⟨hpos.ne', hmax.not_gt⟩)).trans ((if_neg (by omega)).trans ?_)
  simp only [h]
  refine if_congr (and_congr_right fun h2 => ?_) rfl rfl
  rw [badLast_iff, getLastD_dataCodewords s h2]

end

/-- The stream passes the up-front checks (44_bitstream R371). -/
structure StreamAccepted (s : State) : Prop where
  len_max : s.regs.cwLen.toNat ≤ 1024
  sld_pos : 1 ≤ cwAt s 0
  sld_le : cwAt s 0 ≤ s.regs.cwLen.toNat
  values : ∀ j, 0 < j → j < cwAt s 0 → cwAt s j ≤ 928
  last : cwAt s 0 = 1 ∨ cwAt s (cwAt s 0 - 1) ∉ [901, 902, 913, 924]

theorem StreamAccepted.stateCheck_eq {s : State} (h : StreamAccepted s) : stateCheck s = none := by
  rw [stateCheck_last s (h.sld_pos.trans h.sld_le) h.len_max h.sld_pos h.sld_le (highCodeword_eq_none s h.values)]
  refine if_neg fun hbad => ?_
  rcases h.last with hone | hlast
  · exact absurd hbad.1 (by omega)
  · exact hlast hbad.2

/-- The up-front checks raise ARGUMENT 0x67 or a FORMAT error. -/
theorem stateCheck_cases (s : State) (e : CmdError) (h : stateCheck s = some e) :
    e = argumentError 0x67 0 ∨ e.code = .format := by
  unfold stateCheck streamCheck at h
  split at h
  · cases h; exact .inl rfl
  split at h
  · cases h; exact .inr rfl
  split at h
  · cases h; exact .inr rfl
  · split_ifs at h
    cases h
    exact .inr rfl

/-! ## The details that the machine raises -/

/-- The details of the parser's machine: 0x61 and the ones of the up-front checks are none of them. -/
def machineDetails : List Byte := [0x62, 0x63, 0x64, 0x65]

/-- If the result is an error, its detail is one of the machine's. -/
def RaisesMachine {α : Type} (x : Except CmdError α) : Prop := ∀ e, x = .error e → e.detail ∈ machineDetails

namespace RaisesMachine

variable {α β : Type}

theorem ok (a : α) : RaisesMachine (.ok a) := nofun

theorem error {e : CmdError} (h : e.detail ∈ machineDetails) : RaisesMachine (.error e : Except CmdError α) := by
  rintro _ ⟨⟩
  exact h

theorem format {d : Byte} {i : Nat} (h : d ∈ machineDetails) :
    RaisesMachine (.error (formatError d i) : Except CmdError α) :=
  error h

/-- An error handed on by a caller. -/
theorem handOn {x : Except CmdError α} {e : CmdError} (h : RaisesMachine x) (hx : x = .error e) :
    RaisesMachine (.error e : Except CmdError β) :=
  error (h e hx)

end RaisesMachine

theorem emit_raisesMachine (p : Parser) (b : Byte) (i : Nat) : RaisesMachine (emit p b i) := by
  unfold emit
  split_ifs
  · exact .ok _
  · exact .format (by decide)

theorem emitAll_raisesMachine (p : Parser) (i : Nat) (bs : List Byte) : RaisesMachine (emitAll p i bs) := by
  induction bs generalizing p with
  | nil => exact .ok _
  | cons b bs ih =>
    unfold emitAll
    split
    · exact (emit_raisesMachine p b i).handOn ‹_›
    · exact ih _

theorem emitGroup_raisesMachine (p : Parser) (gs : List (Nat × Nat)) : RaisesMachine (emitGroup p gs) := by
  induction gs generalizing p with
  | nil => exact .ok _
  | cons g gs ih =>
    unfold emitGroup
    split
    · exact (emit_raisesMachine p _ _).handOn ‹_›
    · exact ih _

theorem flushBytes_raisesMachine (p : Parser) : RaisesMachine (flushBytes p) := by
  unfold flushBytes
  split
  · exact .format (by decide)
  · exact emitGroup_raisesMachine _ _

theorem flushNumeric_raisesMachine (p : Parser) : RaisesMachine (flushNumeric p) := by
  unfold flushNumeric
  split
  · exact .ok _
  · split
    · exact emitAll_raisesMachine _ _ _
    · exact .format (by decide)

theorem textValue_raisesMachine (p : Parser) (h ci : Nat) : RaisesMachine (textValue p h ci) := by
  unfold textValue
  split
  · dsimp only
    split
    · exact emit_raisesMachine _ _ _
    · exact .ok _
  · dsimp only
    split_ifs
    · exact emit_raisesMachine _ _ _
    · exact emit_raisesMachine _ _ _
    · exact .ok _
  · split
    · exact emit_raisesMachine _ _ _
    · exact .ok _
    · exact .ok _

theorem textCodeword_raisesMachine (p : Parser) (c ci : Nat) : RaisesMachine (textCodeword p c ci) := by
  unfold textCodeword textPair
  split_ifs
  · split
    · exact (textValue_raisesMachine p _ _).handOn ‹_›
    · exact textValue_raisesMachine _ _ _
  · exact .ok _
  · exact .ok _

theorem convertGroup_raisesMachine (p : Parser) (i : Nat) : RaisesMachine (convertGroup p i) := by
  unfold convertGroup
  dsimp only
  split_ifs
  · exact .format (by decide)
  · exact emitAll_raisesMachine _ _ _

theorem byteCodeword_raisesMachine (p : Parser) (c ci : Nat) : RaisesMachine (byteCodeword p c ci) := by
  unfold byteCodeword
  dsimp only
  split_ifs
  · exact convertGroup_raisesMachine _ _
  · exact .ok _
  · split
    · exact (flushBytes_raisesMachine p).handOn ‹_›
    · exact .ok _
  · exact .ok _

theorem numericCodeword_raisesMachine (p : Parser) (c ci : Nat) : RaisesMachine (numericCodeword p c ci) := by
  unfold numericCodeword
  dsimp only
  split_ifs
  · exact flushNumeric_raisesMachine _
  · exact .ok _
  · split
    · exact (flushNumeric_raisesMachine p).handOn ‹_›
    · exact .ok _
  · exact .ok _

theorem codeword_raisesMachine (p : Parser) (c ci : Nat) : RaisesMachine (codeword p c ci) := by
  unfold codeword
  split
  · exact textCodeword_raisesMachine p c ci
  · exact byteCodeword_raisesMachine p c ci
  · exact numericCodeword_raisesMachine p c ci

theorem shiftedByte_raisesMachine (p : Parser) (b bi : Nat) : RaisesMachine (shiftedByte p b bi) := by
  unfold shiftedByte
  split_ifs
  · exact .format (by decide)
  · exact emit_raisesMachine _ _ _

theorem endOfStream_raisesMachine (p : Parser) : RaisesMachine (endOfStream p) := by
  unfold endOfStream
  split
  · exact .ok _
  · exact flushBytes_raisesMachine p
  · exact flushNumeric_raisesMachine p

/-- A stream that does not end in 913 never lacks the operand of the mode shift (44_bitstream R380, log 15). -/
theorem mainLoop_raisesMachine (p : Parser) (k : Nat) (cs : List Nat) (hlast : 913 ∉ cs.getLast?) :
    RaisesMachine (mainLoop p k cs) := by
  fun_induction mainLoop p k cs with
  | case1 p k => exact endOfStream_raisesMachine p
  | case2 p k c hshift => exact absurd (congrArg some hshift.2) hlast
  | case3 p k c hshift e he => exact (codeword_raisesMachine p c k).handOn he
  | case4 p k c hshift q hq => exact endOfStream_raisesMachine q
  | case5 p k c b rest hshift e he => exact (shiftedByte_raisesMachine p b _).handOn he
  | case6 p k c b rest hshift q hq ih =>
    refine ih fun hmem => hlast ?_
    cases rest with
    | nil => cases hmem
    | cons r rest => rwa [List.getLast?_cons_cons, List.getLast?_cons_cons]
  | case7 p k c b rest hshift e he => exact (codeword_raisesMachine p c k).handOn he
  | case8 p k c b rest hshift q hq ih => exact ih (by rwa [List.getLast?_cons_cons] at hlast)

theorem StreamAccepted.getLast?_ne {s : State} (h : StreamAccepted s) : 913 ∉ (dataCodewords s).getLast? := by
  intro hmem
  have hlen := dataCodewords_length s
  rw [List.getLast?_eq_getElem?] at hmem
  obtain ⟨hlt, hget⟩ := List.getElem?_eq_some_iff.1 hmem
  rw [dataCodewords_getElem, show (dataCodewords s).length - 1 + 1 = cwAt s 0 - 1 by omega] at hget
  rcases h.last with hone | hlast
  · omega
  · exact hlast (by simp [hget])

theorem StreamAccepted.detail_notMem {s t : State} (h : StreamAccepted s) (ht : exec .dbsDecode s = .next t) :
    t.regs.detail ∉ [(0x60 : Byte), 0x61, 0x66, 0x67] := by
  cases hm : mainLoop Parser.start 1 (dataCodewords s) with
  | ok p =>
    obtain ⟨u, hu, hwrote⟩ := exec_dbsDecode_ok s p h.stateCheck_eq hm
    obtain rfl := Host.Outcome.next.inj (hu.symm.trans ht)
    rw [detail_of_parserWrote hwrote]
    decide
  | error e =>
    obtain ⟨u, hu, hfailed⟩ := exec_dbsDecode_error s e h.stateCheck_eq hm
    obtain rfl := Host.Outcome.next.inj (hu.symm.trans ht)
    have hdetail := mainLoop_raisesMachine _ _ _ h.getLast?_ne e hm
    rw [(outcome_of_parserFailed hfailed).1]
    revert hdetail
    generalize e.detail = d
    revert d
    decide

/-- Settles O51: the checks in their order; the machine raises none of their details. -/
theorem dbsDecodeUpFrontChecks : Obligations.DbsDecodeUpFrontChecks := by
  rintro s _ _ rfl rfl
  refine ⟨fun hlen => ?_, fun hpos hmax hsld => ?_, fun k hpos hmax hle hk hlt hhigh hlow => ?_,
    fun hpos hmax hsld hle hvalues hlast => ?_, fun t hpos hmax hsld hle hvalues hlast ht => ?_⟩
  · have hbody := dbsDecodeBody_of_check_error s _ (stateCheck_len s hlen)
    exact (congrArg finish hbody).trans (finish_argument s 0x67)
  · exact exec_dbsDecode_check_error s _ _ (stateCheck_sld s hpos hmax hsld)
  · exact exec_dbsDecode_check_error s _ _
      (stateCheck_value s hpos hmax (by omega) hle k (highCodeword_eq_some s k hk hlt hhigh hlow))
  · refine exec_dbsDecode_check_error s _ _ ?_
    rw [stateCheck_last s hpos hmax (by omega) hle (highCodeword_eq_none s hvalues), if_pos ⟨hsld, hlast⟩]
  · exact StreamAccepted.detail_notMem ⟨hmax, hsld, hle, hvalues, hlast⟩ ht

/-! ## The outcomes of both commands -/

theorem dbsDecode_parserOutcome (s t : State) (ht : exec .dbsDecode s = .next t) : ParserOutcome s t := by
  replace ht : finish (dbsDecodeBody s) = .next t := ht
  cases hcheck : stateCheck s with
  | some e =>
    rw [dbsDecodeBody_of_check_error s e hcheck] at ht
    rcases stateCheck_cases s e hcheck with rfl | hformat
    · exact parserOutcome_argument s t 0x67 ht
    · exact parserOutcome_format s t e hformat ht
  | none =>
    cases hm : mainLoop Parser.start 1 (dataCodewords s) with
    | error e =>
      rw [dbsDecodeBody_of_error s e hcheck hm] at ht
      exact parserOutcome_format s t e (mainLoop_raisesFormat _ _ _ e hm) ht
    | ok p =>
      rw [dbsDecodeBody_of_ok s p hcheck hm] at ht
      exact parserOutcome_wrote s t p.out (mainLoop_outFits (start_outFits []) hm) ht

theorem numB900_parserOutcome (s t : State) (ht : exec .numB900 s = .next t) : ParserOutcome s t := by
  replace ht : finish (numB900Body s) = .next t := ht
  unfold numB900Body at ht
  dsimp only at ht
  split at ht
  · exact parserOutcome_argument s t 0x68 ht
  split at ht
  · exact parserOutcome_format s t _ rfl ht
  split at ht
  · exact parserOutcome_format s t _ (flushNumeric_raisesFormat _ _ ‹_›) ht
  · exact parserOutcome_wrote s t _ (flushNumeric_outFits (start_outFits _) ‹_›) ht

/-- Settles O52: the outcomes of each command's body, branch by branch. -/
theorem parserResultsOrNothing : Obligations.ParserResultsOrNothing := by
  rintro i s t (rfl | rfl) ht
  · exact dbsDecode_parserOutcome s t ht
  · exact numB900_parserOutcome s t ht

end Sys2Proof.Machine
end

section
/-! PROOFS. What one codeword does (O49, O50): the text tables, the output, the latches, the half-codewords and the main
loop one codeword at a time. -/

namespace Sys2Proof.Machine

open Sys2Proof.Safety

/-- Settles O49: the entries are the lists of `Config`. -/
theorem textTablesAreAsListed : Obligations.TextTablesAreAsListed := by
  refine ⟨?_, ?_, ?_, ?_⟩ <;> rfl

/-! ## The output -/

theorem emit_of_lt {p : Parser} (b : Byte) (k : Nat) (h : p.out.length < 4096) :
    emit p b k = .ok { p with out := p.out ++ [b] } := if_pos h

theorem emit_of_full {p : Parser} (b : Byte) (k : Nat) (h : 4096 ≤ p.out.length) :
    emit p b k = .error (formatError 0x65 k) := if_neg (not_lt.2 h)

/-! ## Latches -/

@[simp] theorem latch_text (p : Parser) :
    latch p 900 = { p with mode := .text, sub := .alpha, shift := .none, group := [] } := rfl

@[simp] theorem latch_byte (p : Parser) : latch p 901 = { p with mode := .byte, group := [] } := rfl

@[simp] theorem latch_byteSix (p : Parser) : latch p 924 = { p with mode := .byte, group := [] } := rfl

@[simp] theorem latch_numeric (p : Parser) : latch p 902 = { p with mode := .numeric, group := [] } := rfl

theorem isLatch_iff (c : Nat) : isLatch c = true ↔ c ∈ [900, 901, 902, 924] := by
  simp [isLatch, Config.textLatch, Config.byteLatch, Config.numericLatch, Config.byteLatchSix, or_assoc]

theorem ge_of_latch {c : Nat} (h : c ∈ [900, 901, 902, 924]) : ¬ c < 900 := by
  simp only [List.mem_cons, List.not_mem_nil, or_false] at h
  omega

section
variable {p q : Parser} {e : CmdError} {c : Nat} (k : Nat)

theorem codeword_of_text (h : p.mode = .text) : codeword p c k = textCodeword p c k := by
  simp only [codeword, h]

theorem codeword_of_byte (h : p.mode = .byte) : codeword p c k = byteCodeword p c k := by
  simp only [codeword, h]

theorem codeword_of_numeric (h : p.mode = .numeric) : codeword p c k = numericCodeword p c k := by
  simp only [codeword, h]

theorem codeword_latch_text (hc : c ∈ [900, 901, 902, 924]) (h : p.mode = .text) :
    codeword p c k = .ok (latch p c) := by
  rw [codeword_of_text k h, textCodeword, if_neg (ge_of_latch hc), if_pos ((isLatch_iff c).2 hc)]

theorem codeword_latch_byte (hc : c ∈ [900, 901, 902, 924]) (h : p.mode = .byte) :
    codeword p c k = (flushBytes p).map (latch · c) := by
  rw [codeword_of_byte k h, byteCodeword, if_neg (ge_of_latch hc), if_pos ((isLatch_iff c).2 hc)]
  cases flushBytes p <;> rfl

theorem codeword_latch_numeric (hc : c ∈ [900, 901, 902, 924]) (h : p.mode = .numeric) :
    codeword p c k = (flushNumeric p).map (latch · c) := by
  rw [codeword_of_numeric k h, numericCodeword, if_neg (ge_of_latch hc), if_pos ((isLatch_iff c).2 hc)]
  cases flushNumeric p <;> rfl

/-- Codewords that are neither data nor a latch change nothing (44_bitstream R389). -/
theorem codeword_ignored (hdata : ¬ c < 900) (hlatch : c ∉ [900, 901, 902, 924]) : codeword p c k = .ok p := by
  have hnot : ¬ isLatch c = true := fun h => hlatch ((isLatch_iff c).1 h)
  cases hm : p.mode with
  | text => rw [codeword_of_text k hm, textCodeword, if_neg hdata, if_neg hnot]
  | byte => rw [codeword_of_byte k hm, byteCodeword, if_neg hdata, if_neg hnot]
  | numeric => rw [codeword_of_numeric k hm, numericCodeword, if_neg hdata, if_neg hnot]

/-- A data codeword in TEXT mode is its two half-codewords (44_bitstream R377). -/
theorem codeword_data_text (hc : c < 900) (h : p.mode = .text) : codeword p c k = textPair p c k := by
  rw [codeword_of_text k h, textCodeword, if_pos hc]

theorem textPair_ok (h : textValue p (c / 30) k = .ok q) : textPair p c k = textValue q (c % 30) k := by
  simp only [textPair, h]

theorem textPair_error (h : textValue p (c / 30) k = .error e) : textPair p c k = .error e := by
  simp only [textPair, h]

end

/-! ## Half-codewords -/

/-- Every entry of PUNCT but the last is a character (44_bitstream R378). -/
theorem textEntry_punct_char (h : Nat) (hh : h < 29) : ∃ b, textEntry .punct h = .char b := by
  have hall : ∀ h : Fin 29, ∃ b, textEntry .punct h = .char b := by
    intro h
    fin_cases h <;> exact ⟨_, rfl⟩
  exact hall ⟨h, hh⟩

section
variable {p : Parser} {h : Nat} {b : Byte} (k : Nat)

theorem textValue_ps_char (hs : p.shift = .ps) (hb : textEntry .punct h = .char b) :
    textValue p h k = emit { p with shift := .none } b k := by
  simp only [textValue, hs, hb]

theorem textValue_ps_latch (hs : p.shift = .ps) (hb : ∀ b, textEntry .punct h ≠ .char b) :
    textValue p h k = .ok { p with shift := .none, sub := .alpha } := by
  rcases he : textEntry .punct h with b | sub | sh
  · exact absurd he (hb b)
  · simp only [textValue, hs, he]
  · simp only [textValue, hs, he]

theorem textValue_as_char (hs : p.shift = .as) (hh : h ≤ 26) :
    textValue p h k = emit { p with shift := .none } (alphaChar h) k := by
  simp only [textValue, hs, alphaChar]
  rcases hh.lt_or_eq with hlt | rfl
  · rw [if_pos hlt, if_neg hlt.ne]
  · rfl

theorem textValue_as_nothing (hs : p.shift = .as) (hh : ¬ h ≤ 26) :
    textValue p h k = .ok { p with shift := .none } := by
  simp only [textValue, hs]
  rw [if_neg (by omega), if_neg (by omega)]

theorem textValue_char (hs : p.shift = .none) (hb : textEntry p.sub h = .char b) : textValue p h k = emit p b k := by
  simp only [textValue, hs, hb]

theorem textValue_to {sub : SubMode} (hs : p.shift = .none) (hb : textEntry p.sub h = .to sub) :
    textValue p h k = .ok { p with sub := sub } := by
  simp only [textValue, hs, hb]

theorem textValue_shift {sh : Shift} (hs : p.shift = .none) (hb : textEntry p.sub h = .shift sh) :
    textValue p h k = .ok { p with shift := sh } := by
  simp only [textValue, hs, hb]

end

/-! ## The main loop -/

section
variable {p q : Parser} {e : CmdError} {c : Nat} (k : Nat)

theorem mainLoop_nil (p : Parser) : mainLoop p k [] = endOfStream p := by rw [mainLoop]

theorem mainLoop_nil_text (h : p.mode = .text) : mainLoop p k [] = .ok p := by
  rw [mainLoop_nil]
  simp only [endOfStream, h]

theorem mainLoop_nil_byte (h : p.mode = .byte) : mainLoop p k [] = flushBytes p := by
  rw [mainLoop_nil]
  simp only [endOfStream, h]

theorem mainLoop_nil_numeric (h : p.mode = .numeric) : mainLoop p k [] = flushNumeric p := by
  rw [mainLoop_nil]
  simp only [endOfStream, h]

/-- The mode shift takes the codeword after it (44_bitstream R380). -/
theorem mainLoop_shift_ok {b : Nat} (rest : List Nat) (hp : p.mode = .text) (h : shiftedByte p b (k + 1) = .ok q) :
    mainLoop p k (913 :: b :: rest) = mainLoop q (k + 2) rest := by
  rw [mainLoop, if_pos ⟨hp, rfl⟩, h]

theorem mainLoop_shift_error {b : Nat} (rest : List Nat) (hp : p.mode = .text)
    (h : shiftedByte p b (k + 1) = .error e) : mainLoop p k (913 :: b :: rest) = .error e := by
  rw [mainLoop, if_pos ⟨hp, rfl⟩, h]

theorem mainLoop_cons_ok (rest : List Nat) (hshift : ¬ (p.mode = .text ∧ c = Config.byteShift))
    (h : codeword p c k = .ok q) : mainLoop p k (c :: rest) = mainLoop q (k + 1) rest := by
  cases rest with
  | nil => rw [mainLoop_nil, mainLoop, if_neg hshift, h]
  | cons b rest => rw [mainLoop, if_neg hshift, h]

theorem mainLoop_cons_error (rest : List Nat) (hshift : ¬ (p.mode = .text ∧ c = Config.byteShift))
    (h : codeword p c k = .error e) : mainLoop p k (c :: rest) = .error e := by
  cases rest with
  | nil => rw [mainLoop, if_neg hshift, h]
  | cons b rest => rw [mainLoop, if_neg hshift, h]

end

/-- Settles O50: one clause for each rule, from the equations above. -/
theorem codewordsActByTheMode : Obligations.CodewordsActByTheMode := by
  refine ⟨fun p b k => ⟨emit_of_lt b k, emit_of_full b k⟩,
    fun p => ⟨latch_text p, latch_byte p, latch_byteSix p, latch_numeric p⟩,
    fun p q e c k hc => ⟨codeword_latch_text k hc, fun hm hq => ?_, fun hm he => ?_, fun hm hq => ?_, fun hm he => ?_⟩,
    fun p h k hh => ⟨fun hs hlt => ?_, fun hs h29 => ?_, textValue_as_char k, fun hs hge => ?_,
      fun hs => ⟨fun b => textValue_char k hs, fun sub => textValue_to k hs, fun sh => textValue_shift k hs⟩⟩,
    fun p q e c k hm hc => ?_,
    fun p b k rest hm => ⟨fun hb hout => ?_, fun hb hout => ?_, fun hb => ?_⟩,
    fun p q e c k rest hshift => ⟨mainLoop_cons_ok k rest hshift, mainLoop_cons_error k rest hshift⟩,
    fun p k => ⟨mainLoop_nil_text k, mainLoop_nil_byte k, mainLoop_nil_numeric k⟩, fun p c k hc => ?_, fun p k _ => ?_⟩
  · rw [codeword_latch_byte k hc hm, hq, Except.map]
  · rw [codeword_latch_byte k hc hm, he, Except.map]
  · rw [codeword_latch_numeric k hc hm, hq, Except.map]
  · rw [codeword_latch_numeric k hc hm, he, Except.map]
  · obtain ⟨b, hb⟩ := textEntry_punct_char h hlt
    exact ⟨b, hb, textValue_ps_char k hs hb⟩
  · subst h29
    exact textValue_ps_latch k hs nofun
  · exact textValue_as_nothing k hs (by omega)
  · rw [codeword_data_text k hc hm]
    exact ⟨textPair_ok k, textPair_error k⟩
  · exact mainLoop_shift_ok k rest hm ((if_neg (not_le.2 hb)).trans (emit_of_lt _ _ hout))
  · exact mainLoop_shift_error k rest hm ((if_neg (not_le.2 hb)).trans (emit_of_full _ _ hout))
  · exact mainLoop_shift_error k rest hm (if_pos hb)
  · refine codeword_ignored k (by omega) ?_
    simp only [List.mem_cons, List.not_mem_nil, or_false]
    omega
  · exact codeword_ignored k (by decide) (by decide)

end Sys2Proof.Machine
end

section
/-! PROOFS. DBS_DECODE as the parser's machine, and of text (O53): one half-codeword moves a character from the text
still to come to the output. -/

namespace Sys2Proof.Machine

open Sys2Proof.Safety

/-! ## Half-codewords as text -/

/-- The characters from 0 to 26 of ALPHA (44_bitstream R378). -/
theorem textEntry_alpha_char (h : Nat) (hh : h ≤ 26) : textEntry .alpha h = .char (alphaChar h) := by
  have hall : ∀ h : Fin 27, textEntry .alpha h = .char (alphaChar h) := by decide
  exact hall ⟨h, Nat.lt_succ_of_le hh⟩

section
variable (sub : SubMode) (h : Nat) (hs : List Nat)

theorem textRun_ps_char (b : Byte) (he : textEntry .punct h = .char b) :
    textRun sub .ps (h :: hs) = b :: textRun sub .none hs := by
  simp only [textRun, he]

theorem textRun_ps_latch (he : ∀ b, textEntry .punct h ≠ .char b) :
    textRun sub .ps (h :: hs) = textRun .alpha .none hs := by
  rcases hentry : textEntry .punct h with b | sub' | sh
  · exact absurd hentry (he b)
  · simp only [textRun, hentry]
  · simp only [textRun, hentry]

theorem textRun_as_char (hh : h ≤ 26) : textRun sub .as (h :: hs) = alphaChar h :: textRun sub .none hs := by
  rw [textRun, if_pos hh]

theorem textRun_as_nothing (hh : ¬ h ≤ 26) : textRun sub .as (h :: hs) = textRun sub .none hs := by
  rw [textRun, if_neg hh]

theorem textRun_char (b : Byte) (he : textEntry sub h = .char b) :
    textRun sub .none (h :: hs) = b :: textRun sub .none hs := by
  simp only [textRun, he]

theorem textRun_to (sub' : SubMode) (he : textEntry sub h = .to sub') :
    textRun sub .none (h :: hs) = textRun sub' .none hs := by
  simp only [textRun, he]

theorem textRun_shift (sh : Shift) (he : textEntry sub h = .shift sh) :
    textRun sub .none (h :: hs) = textRun sub sh hs := by
  simp only [textRun, he]

end

/-- Upper-case text is its characters. -/
theorem textRun_upper (hs : List Nat) (h : ∀ v ∈ hs, v ≤ 26) : textRun .alpha .none hs = hs.map alphaChar := by
  induction hs with
  | nil => rfl
  | cons v hs ih =>
    obtain ⟨hv, hs'⟩ := List.forall_mem_cons.1 h
    rw [textRun_char _ _ _ _ (textEntry_alpha_char v hv), ih hs', List.map_cons]

/-- `q` follows `p` by half-codewords `hs` in TEXT mode: the output with the text still to come stays the same. -/
structure TextFollows (hs : List Nat) (p q : Parser) : Prop where
  mode : q.mode = .text
  length_le : q.out.length ≤ p.out.length + hs.length
  text_eq : ∀ rest, q.out ++ textRun q.sub q.shift rest = p.out ++ textRun p.sub p.shift (hs ++ rest)

theorem TextFollows.trans {hs hs' : List Nat} {p q r : Parser} (h : TextFollows hs p q) (h' : TextFollows hs' q r) :
    TextFollows (hs ++ hs') p r where
  mode := h'.mode
  length_le := by
    have := h.length_le
    have := h'.length_le
    rw [List.length_append]
    omega
  text_eq rest := by rw [h'.text_eq, h.text_eq, List.append_assoc]

/-- A half-codeword that gives a character, or none. -/
theorem textFollows_emitted {p q : Parser} {h : Nat} {b : Byte} (hm : q.mode = .text) (hout : q.out = p.out ++ [b])
    (ht : ∀ rest, textRun p.sub p.shift (h :: rest) = b :: textRun q.sub q.shift rest) : TextFollows [h] p q :=
  ⟨hm, by simp [hout], fun rest => by simp [hout, ht]⟩

theorem textFollows_silent {p q : Parser} {h : Nat} (hm : q.mode = .text) (hout : q.out = p.out)
    (ht : ∀ rest, textRun p.sub p.shift (h :: rest) = textRun q.sub q.shift rest) : TextFollows [h] p q :=
  ⟨hm, by simp [hout], fun rest => by simp [hout, ht]⟩

/-- One half-codeword where the output has room: by the pending shift, then by the entry (44_bitstream R379). -/
theorem textValue_follows (p : Parser) (h k : Nat) (hm : p.mode = .text) (hroom : p.out.length < 4096) :
    ∃ q, textValue p h k = .ok q ∧ TextFollows [h] p q := by
  cases hshift : p.shift with
  | ps =>
    by_cases hchar : ∃ b, textEntry .punct h = .char b
    · obtain ⟨b, hb⟩ := hchar
      exact ⟨_, (textValue_ps_char k hshift hb).trans (emit_of_lt _ _ hroom),
        textFollows_emitted hm rfl fun rest => hshift ▸ textRun_ps_char p.sub h rest b hb⟩
    · rw [not_exists] at hchar
      exact ⟨_, textValue_ps_latch k hshift hchar,
        textFollows_silent hm rfl fun rest => hshift ▸ textRun_ps_latch p.sub h rest hchar⟩
  | as =>
    by_cases hh : h ≤ 26
    · exact ⟨_, (textValue_as_char k hshift hh).trans (emit_of_lt _ _ hroom),
        textFollows_emitted hm rfl fun rest => hshift ▸ textRun_as_char p.sub h rest hh⟩
    · exact ⟨_, textValue_as_nothing k hshift hh,
        textFollows_silent hm rfl fun rest => hshift ▸ textRun_as_nothing p.sub h rest hh⟩
  | none =>
    rcases he : textEntry p.sub h with b | sub | sh
    · exact ⟨_, (textValue_char k hshift he).trans (emit_of_lt _ _ hroom),
        textFollows_emitted hm rfl fun rest => hshift ▸ textRun_char p.sub h rest b he⟩
    · exact ⟨_, textValue_to k hshift he,
        textFollows_silent hm rfl fun rest => hshift ▸ textRun_to p.sub h rest sub he⟩
    · exact ⟨_, textValue_shift k hshift he,
        textFollows_silent hm rfl fun rest => hshift ▸ textRun_shift p.sub h rest sh he⟩

/-- One data codeword `30*h1 + h2` (44_bitstream R377). -/
theorem codeword_follows (p : Parser) (h1 h2 k : Nat) (hm : p.mode = .text) (hh1 : h1 < 30) (hh2 : h2 < 30)
    (hroom : p.out.length + 2 ≤ 4096) : ∃ q, codeword p (30 * h1 + h2) k = .ok q ∧ TextFollows [h1, h2] p q := by
  obtain ⟨q, hq, hpq⟩ := textValue_follows p h1 k hm (by omega)
  have hlen : q.out.length ≤ p.out.length + 1 := hpq.length_le
  obtain ⟨r, hr, hqr⟩ := textValue_follows q h2 k hpq.mode (by omega)
  have hdiv : (30 * h1 + h2) / 30 = h1 := by omega
  have hmod : (30 * h1 + h2) % 30 = h2 := by omega
  refine ⟨r, ?_, hpq.trans hqr⟩
  rw [codeword_data_text k (by omega) hm, textPair_ok k (by rwa [hdiv]), hmod, hr]

/-- Text where the output has room for two characters of each codeword. -/
theorem mainLoop_text (p : Parser) (k : Nat) (hs : List (Nat × Nat)) (hm : p.mode = .text)
    (hh : ∀ h ∈ hs, h.1 < 30 ∧ h.2 < 30) (hroom : p.out.length + 2 * hs.length ≤ 4096) :
    ∃ q, mainLoop p k (hs.map fun h => 30 * h.1 + h.2) = .ok q ∧
      q.out = p.out ++ textRun p.sub p.shift (hs.flatMap fun h => [h.1, h.2]) := by
  induction hs generalizing p k with
  | nil => exact ⟨p, mainLoop_nil_text k hm, by cases p.shift <;> simp [textRun]⟩
  | cons h hs ih =>
    obtain ⟨⟨hh1, hh2⟩, hh⟩ := List.forall_mem_cons.1 hh
    rw [List.length_cons] at hroom
    obtain ⟨q, hq, hpq⟩ := codeword_follows p h.1 h.2 k hm hh1 hh2 (by omega)
    have hlen : q.out.length ≤ p.out.length + 2 := hpq.length_le
    obtain ⟨r, hr, hout⟩ := ih q (k + 1) hpq.mode hh (by omega)
    refine ⟨r, ?_, ?_⟩
    · rw [List.map_cons, mainLoop_cons_ok k _ (fun hc => ?_) hq, hr]
      have : 30 * h.1 + h.2 = 913 := hc.2
      omega
    · rw [hout, hpq.text_eq, List.flatMap_cons]

/-! ## Streams of text -/

/-- A stream of codewords up to 928 that ends in a data codeword passes the up-front checks. -/
theorem StreamAccepted.of_values {s : State} (hlen : s.regs.cwLen.toNat ≤ 1024) (hsld : 1 ≤ cwAt s 0)
    (hle : cwAt s 0 ≤ s.regs.cwLen.toNat) (hvalues : ∀ v ∈ dataCodewords s, v ≤ 928)
    (hlast : ∀ v ∈ (dataCodewords s).getLast?, v < 900) : StreamAccepted s where
  len_max := hlen
  sld_pos := hsld
  sld_le := hle
  values j hpos hj := hvalues _ (List.mem_map.2 ⟨j - 1, List.mem_range.2 (by omega), by congr 1; omega⟩)
  last := by
    refine or_iff_not_imp_left.2 fun hne hbad => ?_
    have hlt := hlast (cwAt s (cwAt s 0 - 1)) (by
      rw [← getLastD_dataCodewords s (by omega), List.getLastD_eq_getLast?]
      have hnil : dataCodewords s ≠ [] := List.ne_nil_of_length_pos (by rw [dataCodewords_length]; omega)
      rw [List.getLast?_eq_some_getLast hnil]
      rfl)
    simp only [List.mem_cons, List.not_mem_nil, or_false] at hbad
    omega

/-- The text stream that O53 speaks of. -/
theorem dataCodewords_eq_of_halves (s : State) (hs : List (Nat × Nat)) (hlen : hs.length + 1 = cwAt s 0)
    (hcw : ∀ k (hk : k < hs.length), cwAt s (k + 1) = 30 * hs[k].1 + hs[k].2) :
    dataCodewords s = hs.map fun h => 30 * h.1 + h.2 := by
  refine List.ext_getElem (by rw [dataCodewords_length, List.length_map]; omega) fun k hk hk' => ?_
  rw [dataCodewords_getElem, List.getElem_map]
  exact hcw k (by rwa [List.length_map] at hk')

theorem exec_dbsDecode_text (s : State) (hs : List (Nat × Nat)) (hmax : s.regs.cwLen.toNat ≤ 1024) (hsld : 1 ≤ cwAt s 0)
    (hle : cwAt s 0 ≤ s.regs.cwLen.toNat) (hlen : hs.length + 1 = cwAt s 0)
    (hcw : ∀ k (hk : k < hs.length), cwAt s (k + 1) = 30 * hs[k].1 + hs[k].2)
    (hh : ∀ h ∈ hs, h.1 < 30 ∧ h.2 < 30) :
    ∃ t, exec .dbsDecode s = .next t ∧ parserWrote s t (textRun .alpha .none (hs.flatMap fun h => [h.1, h.2])) := by
  have hdata := dataCodewords_eq_of_halves s hs hlen hcw
  have hlt : ∀ v ∈ dataCodewords s, v < 900 := fun v hv => by
    rw [hdata] at hv
    obtain ⟨h, hmem, rfl⟩ := List.mem_map.1 hv
    obtain ⟨h1, h2⟩ := hh h hmem
    omega
  have haccepted := StreamAccepted.of_values hmax hsld hle (fun v hv => (hlt v hv).le.trans (by decide))
    (fun v hv => hlt v (List.mem_of_getLast? hv))
  obtain ⟨q, hq, hout⟩ := mainLoop_text Parser.start 1 hs rfl hh (show 0 + 2 * hs.length ≤ 4096 by omega)
  rw [← hdata] at hq
  rw [show textRun .alpha .none (hs.flatMap fun h => [h.1, h.2]) = q.out from hout.symm]
  exact exec_dbsDecode_ok s q haccepted.stateCheck_eq hq

/-- Settles O53: an accepted stream is the machine's run; text by its half-codewords. -/
theorem dbsDecodeEmitsText : Obligations.DbsDecodeEmitsText := by
  refine ⟨by decide, rfl, ?_, ?_⟩
  · rintro s _ _ _ rfl hmax rfl hsld hle hvalues hlast rfl
    have haccepted : StreamAccepted s := ⟨hmax, hsld, hle, hvalues, hlast⟩
    exact ⟨fun p => exec_dbsDecode_ok s p haccepted.stateCheck_eq,
      fun e => exec_dbsDecode_error s e haccepted.stateCheck_eq⟩
  · rintro s _ _ hs rfl hmax rfl hsld hle hlen hcw
    have htext := exec_dbsDecode_text s hs hmax hsld hle hlen hcw
    refine ⟨fun hupper => ?_, htext⟩
    have hrun : textRun .alpha .none (hs.flatMap fun h => [h.1, h.2]) =
        hs.flatMap fun h => [alphaChar h.1, alphaChar h.2] := by
      rw [textRun_upper _ fun v hv => ?_, List.map_flatMap]
      · rfl
      · obtain ⟨h, hmem, hv⟩ := List.mem_flatMap.1 hv
        obtain ⟨h1, h2⟩ := hupper h hmem
        simp only [List.mem_cons, List.not_mem_nil, or_false] at hv
        rcases hv with rfl | rfl
        · exact h1
        · exact h2
    rw [← hrun]
    exact htext fun h hmem => by
      obtain ⟨h1, h2⟩ := hupper h hmem
      omega

end Sys2Proof.Machine
end

section
/-! PROOFS. DBS_DECODE of byte groups (O54): how data codewords gather in BYTE and NUMERIC mode, the stream after a
latch, the conversion of five codewords and the bytes of those that remain. -/

namespace Sys2Proof.Machine

open Sys2Proof.Safety

/-! ## Gathering a group -/

/-- In BYTE and NUMERIC mode, `n` codewords are fewer than a group that is converted (44_bitstream R382, R385). -/
def Gathers (m : Mode) (n : Nat) : Prop := m = .byte ∧ n < 5 ∨ m = .numeric ∧ n < 15

theorem Gathers.mono {m : Mode} {n n' : Nat} (h : Gathers m n) (hle : n' ≤ n) : Gathers m n' :=
  h.imp (And.imp_right hle.trans_lt) (And.imp_right hle.trans_lt)

theorem Gathers.ne_text {m : Mode} {n : Nat} (h : Gathers m n) : m ≠ .text := by
  rcases h with ⟨rfl, -⟩ | ⟨rfl, -⟩ <;> decide

section
variable {p : Parser} {c : Nat} (k : Nat) (hc : c < 900)
include hc

theorem codeword_gathered (h : Gathers p.mode (p.group.length + 1)) :
    codeword p c k = .ok { p with group := p.group ++ [(c, k)] } := by
  rcases h with ⟨hm, hlt⟩ | ⟨hm, hlt⟩
  · rw [codeword_of_byte k hm, byteCodeword, if_pos hc]
    exact if_neg (by rw [List.length_append]; exact hlt.ne)
  · rw [codeword_of_numeric k hm, numericCodeword, if_pos hc]
    exact if_neg (by rw [List.length_append]; exact hlt.ne)

theorem codeword_fifth (hm : p.mode = .byte) (hlen : p.group.length = 4) :
    codeword p c k = convertGroup { p with group := p.group ++ [(c, k)] } k := by
  rw [codeword_of_byte k hm, byteCodeword, if_pos hc]
  exact if_pos (by simp [hlen, Config.byteGroup])

theorem codeword_fifteenth (hm : p.mode = .numeric) (hlen : p.group.length = 14) :
    codeword p c k = flushNumeric { p with group := p.group ++ [(c, k)] } := by
  rw [codeword_of_numeric k hm, numericCodeword, if_pos hc]
  exact if_pos (by simp [hlen, Config.numGroupMax])

end

/-- Data codewords too few for a conversion gather, each with its index. -/
theorem mainLoop_gather (p : Parser) (k : Nat) (cs rest : List Nat) (hdata : ∀ c ∈ cs, c < 900)
    (h : Gathers p.mode (p.group.length + cs.length)) : mainLoop p k (cs ++ rest) =
      mainLoop { p with group := p.group ++ cs.zipIdx k } (k + cs.length) rest := by
  induction cs generalizing p k with
  | nil => simp
  | cons c cs ih =>
    obtain ⟨hc, hdata⟩ := List.forall_mem_cons.1 hdata
    rw [List.length_cons] at h
    rw [List.cons_append, mainLoop_cons_ok k _ (fun ht => h.ne_text ht.1)
      (codeword_gathered k hc (h.mono (by omega))), ih _ _ hdata]
    · simp [List.zipIdx_cons, Nat.add_comm 1, Nat.add_assoc]
    · rw [List.length_append, List.length_singleton]
      exact h.mono (by omega)

/-- The parser in a mode with the codewords `cs` gathered, the first of them at index `k`, after the output `out`. -/
def holding (m : Mode) (out : List Byte) (cs : List Nat) (k : Nat) : Parser :=
  { Parser.start with mode := m, group := cs.zipIdx k, out := out }

section
variable (m : Mode) (out : List Byte) (k : Nat) (cs : List Nat) (c : Nat) (rest : List Nat) {i : Nat}

theorem holding_append : { holding m out cs k with group := (holding m out cs k).group ++ [(c, k + cs.length)] } =
    holding m out (cs ++ [c]) k := by
  simp [holding, List.zipIdx_append]

/-- With nothing gathered the index does not matter. -/
theorem holding_nil : holding m out [] i = holding m out [] k := rfl

theorem mainLoop_holding (hdata : ∀ c ∈ cs, c < 900) (h : Gathers m cs.length) :
    mainLoop (holding m out [] i) k (cs ++ rest) = mainLoop (holding m out cs k) (k + cs.length) rest :=
  mainLoop_gather _ k cs rest hdata (by simpa [holding] using h)

variable (hdata : ∀ v ∈ cs ++ [c], v < 900) (h : Gathers m cs.length)
include hdata h

/-- The codewords `cs` gather, and `c` completes the group and converts it. -/
theorem mainLoop_complete_ok {q : Parser} (hq : codeword (holding m out cs k) c (k + cs.length) = .ok q) :
    mainLoop (holding m out [] i) k (cs ++ [c] ++ rest) = mainLoop q (k + (cs ++ [c]).length) rest := by
  rw [List.append_assoc, mainLoop_holding m out k cs _ (List.forall_mem_append.1 hdata).1 h]
  rw [List.length_append, List.length_singleton, ← Nat.add_assoc]
  exact mainLoop_cons_ok _ _ (fun ht => h.ne_text ht.1) hq

theorem mainLoop_complete_error {e : CmdError} (he : codeword (holding m out cs k) c (k + cs.length) = .error e) :
    mainLoop (holding m out [] i) k (cs ++ [c] ++ rest) = .error e := by
  rw [List.append_assoc, mainLoop_holding m out k cs _ (List.forall_mem_append.1 hdata).1 h]
  exact mainLoop_cons_error _ _ (fun ht => h.ne_text ht.1) he

end

theorem base900_zipIdx (cs : List Nat) (k : Nat) : base900 ((cs.zipIdx k).map Prod.fst) = numeral 900 cs := by
  rw [List.zipIdx_map_fst]
  rfl

/-! ## Streams after a latch -/

theorem latchedData_length (s : State) : (latchedData s).length = cwAt s 0 - 2 := by simp [latchedData]

section
variable {s : State} {c : Nat} (h : latchedStream s c)
include h

theorem latchedData_lt : ∀ v ∈ latchedData s, v < 900 := by
  obtain ⟨-, -, -, -, hdata⟩ := h
  exact hdata

theorem latchedData_length_le : (latchedData s).length ≤ 1022 := by
  obtain ⟨hmax, -, hle, -, -⟩ := h
  have := latchedData_length s
  omega

theorem dataCodewords_of_latched : dataCodewords s = c :: latchedData s := by
  obtain ⟨-, hsld, -, hc, -⟩ := h
  obtain ⟨n, hn⟩ := Nat.exists_eq_add_of_le' hsld
  rw [dataCodewords, latchedData, hn, ← hc]
  simp [List.range_succ_eq_map, Function.comp_def]

variable (hc : c ∈ [900, 901, 902, 924])
include hc

theorem stateCheck_of_latched : stateCheck s = none := by
  obtain ⟨hmax, hsld, hle, -, hdata⟩ := id h
  have hlen := latchedData_length s
  refine (StreamAccepted.of_values hmax (by omega) hle (fun v hv => ?_) (fun v hv => ?_)).stateCheck_eq
  · rw [dataCodewords_of_latched h] at hv
    rcases List.mem_cons.1 hv with rfl | hv
    · simp only [List.mem_cons, List.not_mem_nil, or_false] at hc
      omega
    · exact (hdata v hv).le.trans (by decide)
  · rw [dataCodewords_of_latched h] at hv
    obtain ⟨d, ds, hds⟩ := List.exists_cons_of_length_pos (l := latchedData s) (by omega)
    rw [hds, List.getLast?_cons_cons, ← hds] at hv
    exact hdata v (List.mem_of_getLast? hv)

/-- The machine after the latch in CW[1]. -/
theorem mainLoop_of_latched :
    mainLoop Parser.start 1 (dataCodewords s) = mainLoop (latch Parser.start c) 2 (latchedData s) := by
  rw [dataCodewords_of_latched h]
  refine mainLoop_cons_ok 1 _ (fun hshift => ?_) (codeword_latch_text 1 hc rfl)
  obtain rfl : c = 913 := hshift.2
  exact absurd hc (by decide)

theorem exec_dbsDecode_latched_ok (q : Parser) (hm : mainLoop (latch Parser.start c) 2 (latchedData s) = .ok q) :
    ∃ t, exec .dbsDecode s = .next t ∧ parserWrote s t q.out :=
  exec_dbsDecode_ok s q (stateCheck_of_latched h hc) ((mainLoop_of_latched h hc).trans hm)

theorem exec_dbsDecode_latched_error (d : Byte) (i : Nat)
    (hm : mainLoop (latch Parser.start c) 2 (latchedData s) = .error (formatError d i)) :
    ∃ t, exec .dbsDecode s = .next t ∧ parserFailed s t d i :=
  exec_dbsDecode_formatError s d i (stateCheck_of_latched h hc) ((mainLoop_of_latched h hc).trans hm)

end

/-! ## Emitting several bytes -/

theorem emitAll_of_fits (p : Parser) (i : Nat) (bs : List Byte) (hroom : p.out.length + bs.length ≤ 4096) :
    emitAll p i bs = .ok { p with out := p.out ++ bs } := by
  induction bs generalizing p with
  | nil => simp [emitAll]
  | cons b bs ih =>
    rw [List.length_cons] at hroom
    rw [emitAll, emit_of_lt b i (by omega)]
    dsimp only
    rw [ih _ (by rw [List.length_append, List.length_singleton]; omega)]
    simp

theorem emitGroup_of_fits (p : Parser) (gs : List (Nat × Nat)) (hroom : p.out.length + gs.length ≤ 4096) :
    emitGroup p gs = .ok { p with out := p.out ++ gs.map (fun g => BitVec.ofNat 8 g.1) } := by
  induction gs generalizing p with
  | nil => simp [emitGroup]
  | cons g gs ih =>
    rw [List.length_cons] at hroom
    rw [emitGroup, emit_of_lt _ _ (by omega)]
    dsimp only
    rw [ih _ (by rw [List.length_append, List.length_singleton]; omega)]
    simp

/-! ## Five codewords -/

theorem sixBytes_eq (v : Nat) : sixBytes v = sixBytesOf v := by
  simp [sixBytes, sixBytesOf, List.range_succ]

theorem sixBytesOf_length (v : Nat) : (sixBytesOf v).length = 6 := by simp [sixBytesOf]

/-- The six bytes of a value below 2^48 are its base-256 numeral. -/
theorem numeral_sixBytesOf (v : Nat) (hv : v < 2 ^ 48) : numeral 256 ((sixBytesOf v).map BitVec.toNat) = v := by
  rw [← sixBytes_eq]
  simp only [sixBytes, numeral, List.map_cons, List.map_nil, List.foldl_cons, List.foldl_nil, BitVec.toNat_ofNat]
  omega

section
variable (out : List Byte) (k : Nat) {i : Nat}

theorem convertGroup_holding_ok (g : List Nat) (hv : numeral 900 g < 2 ^ 48) (hroom : out.length + 6 ≤ 4096) :
    convertGroup (holding .byte out g k) i = .ok (holding .byte (out ++ sixBytesOf (numeral 900 g)) [] k) := by
  rw [convertGroup, holding, base900_zipIdx, sixBytes_eq]
  rw [if_neg (not_le.2 hv), emitAll_of_fits _ _ _ (by rwa [sixBytesOf_length])]
  rfl

theorem convertGroup_holding_error (g : List Nat) (hv : 2 ^ 48 ≤ numeral 900 g) :
    convertGroup (holding .byte out g k) i = .error (formatError 0x63 i) := by
  rw [convertGroup, holding, base900_zipIdx]
  exact if_pos hv

variable (g rest : List Nat) (hlen : g.length = 5) (hdata : ∀ v ∈ g, v < 900)
include hlen hdata

theorem mainLoop_five_ok (hv : numeral 900 g < 2 ^ 48) (hroom : out.length + 6 ≤ 4096) :
    mainLoop (holding .byte out [] i) k (g ++ rest) =
      mainLoop (holding .byte (out ++ sixBytesOf (numeral 900 g)) [] k) (k + g.length) rest := by
  obtain ⟨cs, c, rfl⟩ := (List.eq_nil_or_concat' g).resolve_left (List.ne_nil_of_length_pos (by omega))
  obtain ⟨hcs, hc⟩ := List.forall_mem_append.1 hdata
  have hfour : cs.length = 4 := by simpa using hlen
  refine mainLoop_complete_ok .byte out k cs c rest hdata (.inl ⟨rfl, by omega⟩) ?_
  rw [codeword_fifth _ (hc c List.mem_cons_self) rfl (by simpa [holding] using hfour), holding_append]
  exact convertGroup_holding_ok out k (cs ++ [c]) hv hroom

theorem mainLoop_five_error (hv : 2 ^ 48 ≤ numeral 900 g) :
    mainLoop (holding .byte out [] i) k (g ++ rest) = .error (formatError 0x63 (k + 4)) := by
  obtain ⟨cs, c, rfl⟩ := (List.eq_nil_or_concat' g).resolve_left (List.ne_nil_of_length_pos (by omega))
  obtain ⟨hcs, hc⟩ := List.forall_mem_append.1 hdata
  have hfour : cs.length = 4 := by simpa using hlen
  refine mainLoop_complete_error .byte out k cs c rest hdata (.inl ⟨rfl, by omega⟩) ?_
  rw [codeword_fifth _ (hc c List.mem_cons_self) rfl (by simpa [holding] using hfour), holding_append,
    convertGroup_holding_error _ _ _ hv, hfour]

end

/-- The bytes of the groups of five (44_bitstream R383). -/
def groupBytes (groups : List (List Nat)) : List Byte := groups.flatMap fun g => sixBytesOf (numeral 900 g)

theorem groupBytes_length (groups : List (List Nat)) : (groupBytes groups).length = 6 * groups.length := by
  induction groups with
  | nil => rfl
  | cons g groups ih =>
    rw [groupBytes, List.flatMap_cons, List.length_append, sixBytesOf_length, List.length_cons]
    rw [groupBytes] at ih
    omega

/-- Groups of five below 2^48 where the output has room. -/
theorem mainLoop_byteGroups (out : List Byte) (k : Nat) {i : Nat} (groups : List (List Nat)) (rest : List Nat)
    (hgroups : ∀ g ∈ groups, g.length = 5 ∧ numeral 900 g < 2 ^ 48) (hdata : ∀ v ∈ groups.flatten, v < 900)
    (hroom : out.length + 6 * groups.length ≤ 4096) : mainLoop (holding .byte out [] i) k (groups.flatten ++ rest) =
      mainLoop (holding .byte (out ++ groupBytes groups) [] i) (k + groups.flatten.length) rest := by
  induction groups generalizing out k with
  | nil => simp [groupBytes]
  | cons g groups ih =>
    obtain ⟨⟨hlen, hv⟩, hgroups⟩ := List.forall_mem_cons.1 hgroups
    rw [List.flatten_cons] at hdata ⊢
    obtain ⟨hg, hdata⟩ := List.forall_mem_append.1 hdata
    rw [List.length_cons] at hroom
    rw [List.append_assoc, mainLoop_five_ok out k g _ hlen hg hv (by omega), holding_nil, ih _ _ hgroups hdata]
    · rw [List.append_assoc, List.length_append, Nat.add_assoc]
      rfl
    · rw [List.length_append, sixBytesOf_length]
      omega

/-! ## The codewords that remain -/

section
variable (out : List Byte) (k : Nat) {i : Nat} (tail : List Nat) (hlen : tail.length ≤ 4) (hdata : ∀ v ∈ tail, v < 900)
include hlen hdata

theorem mainLoop_byteTail : mainLoop (holding .byte out [] i) k tail = flushBytes (holding .byte out tail k) := by
  have h := mainLoop_holding .byte out k tail [] (i := i) hdata (.inl ⟨rfl, by omega⟩)
  rw [List.append_nil] at h
  rw [h, mainLoop_nil_byte _ rfl]

theorem mainLoop_byteTail_ok (hb : ∀ b ∈ tail, b < 256) (hroom : out.length + 4 ≤ 4096) :
    ∃ q, mainLoop (holding .byte out [] i) k tail = .ok q ∧ q.out = out ++ tail.map (BitVec.ofNat 8) := by
  have hnone : (tail.zipIdx k).find? (fun g => decide (g.1 ≥ 256)) = none :=
    List.find?_eq_none.2 fun g hg => by
      have := hb g.1 (List.fst_mem_of_mem_zipIdx hg)
      simpa using this
  have hbytes : (tail.zipIdx k).map (fun g => BitVec.ofNat 8 g.1) = tail.map (BitVec.ofNat 8) := by
    rw [← Function.comp_def (BitVec.ofNat 8) Prod.fst, ← List.map_map, List.zipIdx_map_fst]
  refine ⟨holding .byte (out ++ tail.map (BitVec.ofNat 8)) [] k, ?_, rfl⟩
  rw [mainLoop_byteTail out k tail hlen hdata, flushBytes, holding]
  simp only [hnone]
  rw [emitGroup_of_fits _ _ (show out.length + (tail.zipIdx k).length ≤ 4096 by rw [List.length_zipIdx]; omega), hbytes]
  rfl

theorem mainLoop_byteTail_error (pre : List Nat) (b : Nat) (post : List Nat) (htail : tail = pre ++ b :: post)
    (hpre : ∀ c ∈ pre, c < 256) (hb : 256 ≤ b) :
    mainLoop (holding .byte out [] i) k tail = .error (formatError 0x62 (k + pre.length)) := by
  have hnone : (pre.zipIdx k).find? (fun g => decide (g.1 ≥ 256)) = none :=
    List.find?_eq_none.2 fun g hg => by
      have := hpre g.1 (List.fst_mem_of_mem_zipIdx hg)
      simpa using this
  have hsome : (tail.zipIdx k).find? (fun g => decide (g.1 ≥ 256)) = some (b, k + pre.length) := by
    rw [htail, List.zipIdx_append, List.find?_append, hnone, List.zipIdx_cons,
      List.find?_cons_of_pos (by simpa using hb)]
    rfl
  rw [mainLoop_byteTail out k tail hlen hdata, flushBytes, holding]
  simp only [hsome]

end

/-! ## Streams of byte groups -/

section
variable (s : State) (groups : List (List Nat)) (tail : List Nat) (h : latchedStream s 901 ∨ latchedStream s 924)
  (hsplit : latchedData s = groups.flatten ++ tail)
include h hsplit

theorem byteStream_lt : (∀ v ∈ groups.flatten, v < 900) ∧ ∀ v ∈ tail, v < 900 := by
  have hdata : ∀ v ∈ latchedData s, v < 900 := h.elim latchedData_lt latchedData_lt
  rw [hsplit] at hdata
  exact List.forall_mem_append.1 hdata

variable (hgroups : ∀ g ∈ groups, g.length = 5 ∧ numeral 900 g < 2 ^ 48)
include hgroups

theorem byteGroups_length_le : 5 * groups.length ≤ 1022 := by
  have hle : (latchedData s).length ≤ 1022 := h.elim latchedData_length_le latchedData_length_le
  have hflat : groups.flatten.length = 5 * groups.length := by
    rw [List.length_flatten, List.map_congr_left fun g hg => (hgroups g hg).1]
    simp [Nat.mul_comm]
  rw [hsplit, List.length_append] at hle
  omega

/-- After the groups the machine goes on with what remains. -/
theorem mainLoop_byteStream : mainLoop (holding .byte [] [] 0) 2 (latchedData s) =
    mainLoop (holding .byte (groupBytes groups) [] 0) (2 + groups.flatten.length) tail := by
  have hle := byteGroups_length_le s groups tail h hsplit hgroups
  rw [hsplit, mainLoop_byteGroups [] 2 groups tail hgroups (byteStream_lt s groups tail h hsplit).1
    (show 0 + 6 * groups.length ≤ 4096 by omega), List.nil_append]

theorem exec_byteStream_ok (q : Parser)
    (hq : mainLoop (holding .byte (groupBytes groups) [] 0) (2 + groups.flatten.length) tail = .ok q) :
    ∃ t, exec .dbsDecode s = .next t ∧ parserWrote s t q.out := by
  rw [← mainLoop_byteStream s groups tail h hsplit hgroups] at hq
  rcases h with h | h
  · exact exec_dbsDecode_latched_ok h (by decide) q hq
  · exact exec_dbsDecode_latched_ok h (by decide) q hq

theorem exec_byteStream_error (d : Byte) (i : Nat)
    (he : mainLoop (holding .byte (groupBytes groups) [] 0) (2 + groups.flatten.length) tail =
      .error (formatError d i)) : ∃ t, exec .dbsDecode s = .next t ∧ parserFailed s t d i := by
  rw [← mainLoop_byteStream s groups tail h hsplit hgroups] at he
  rcases h with h | h
  · exact exec_dbsDecode_latched_error h (by decide) d i he
  · exact exec_dbsDecode_latched_error h (by decide) d i he

theorem exec_byteStream_tail (hlen : tail.length ≤ 4) (hb : ∀ b ∈ tail, b < 256) :
    ∃ t, exec .dbsDecode s = .next t ∧ parserWrote s t (groupBytes groups ++ tail.map (BitVec.ofNat 8)) := by
  have hle := byteGroups_length_le s groups tail h hsplit hgroups
  have hbytes := groupBytes_length groups
  obtain ⟨q, hq, hout⟩ := mainLoop_byteTail_ok (groupBytes groups) (2 + groups.flatten.length) (i := 0) tail hlen
    (byteStream_lt s groups tail h hsplit).2 hb (by omega)
  rw [← hout]
  exact exec_byteStream_ok s groups tail h hsplit hgroups q hq

theorem exec_byteStream_five (g rest : List Nat) (htail : tail = g ++ rest) (hlen : g.length = 5)
    (hv : 2 ^ 48 ≤ numeral 900 g) :
    ∃ t, exec .dbsDecode s = .next t ∧ parserFailed s t 0x63 (2 + groups.flatten.length + 4) := by
  refine exec_byteStream_error s groups tail h hsplit hgroups _ _ ?_
  obtain ⟨-, hdata⟩ := byteStream_lt s groups tail h hsplit
  rw [htail] at hdata ⊢
  exact mainLoop_five_error _ _ g rest hlen (List.forall_mem_append.1 hdata).1 hv

end

/-- A stream of one group of five. -/
theorem latchedData_five (s : State) (h : cwAt s 0 = 7) :
    latchedData s = [cwAt s 2, cwAt s 3, cwAt s 4, cwAt s 5, cwAt s 6] := by
  rw [latchedData, h]
  rfl

/-- Settles O54: the groups of five one after the other, then the bytes that remain; one group is such a stream. -/
theorem dbsDecodeConvertsByteGroups : Obligations.DbsDecodeConvertsByteGroups := by
  refine ⟨?_, fun s groups tail h hsplit hgroups => ⟨exec_byteStream_tail s groups tail h hsplit hgroups,
    fun pre b post hlen htail hpre hb => exec_byteStream_error s groups tail h hsplit hgroups _ _ ?_,
    exec_byteStream_five s groups tail h hsplit hgroups⟩⟩
  · rintro s _ hlen hmax hsld hlatch hdata rfl
    have hfive := latchedData_five s hsld
    have hstream (c : Nat) (hc : cwAt s 1 = c) : latchedStream s c := by
      refine ⟨hmax, by omega, by omega, hc, fun v hv => ?_⟩
      obtain ⟨j, hj, rfl⟩ := List.mem_map.1 hv
      have := List.mem_range.1 hj
      exact hdata (j + 2) (by omega) (by omega)
    have h : latchedStream s 901 ∨ latchedStream s 924 := hlatch.imp (hstream 901) (hstream 924)
    rw [← hfive]
    refine ⟨fun hv => ?_, fun hv => ?_⟩
    · obtain ⟨t, ht, hwrote⟩ := exec_byteStream_tail s [latchedData s] [] h (by simp) (by simpa [hfive] using hv)
        (by simp) (by simp)
      refine ⟨t, sixBytesOf (numeral 900 (latchedData s)), ht, ?_, sixBytesOf_length _, numeral_sixBytesOf _ hv⟩
      simpa [groupBytes] using hwrote
    · exact exec_byteStream_five s [] (latchedData s) h rfl nofun (latchedData s) [] (List.append_nil _).symm
        (by rw [hfive]; rfl) hv
  · exact mainLoop_byteTail_error _ _ tail hlen (byteStream_lt s groups tail h hsplit).2 pre b post htail hpre hb

end Sys2Proof.Machine
end

section
/-! PROOFS. Numeric groups: DBS_DECODE after the latch 902 (O55) and NUM_B900 (O56). The decimal digits of the model are
those of Mathlib, so a numeral that starts with 1 is found exactly where the value has one. -/

namespace Sys2Proof.Machine

open Sys2Proof.Safety

/-! ## Numerals -/

theorem numeral_eq_ofDigits (b : Nat) (ds : List Nat) : numeral b ds = Nat.ofDigits b ds.reverse := by
  rw [Nat.ofDigits_eq_foldr, List.foldr_reverse, numeral]
  simp only [Nat.cast_id, Nat.add_comm, Nat.mul_comm]

/-- A numeral that starts with 1 is at least the power of ten of its other digits. -/
theorem pow_le_numeral_one (ds : List Nat) : 10 ^ ds.length ≤ numeral 10 (1 :: ds) := by
  rw [numeral_eq_ofDigits, List.reverse_cons, Nat.ofDigits_append, List.length_reverse, Nat.ofDigits_singleton,
    Nat.mul_one]
  exact Nat.le_add_left _ _

theorem numeral_900_lt (g : List Nat) (hdata : ∀ v ∈ g, v < 900) : numeral 900 g < 900 ^ g.length := by
  rw [numeral_eq_ofDigits, ← List.length_reverse]
  exact Nat.ofDigits_lt_base_pow_length (by decide) fun v hv => hdata v (List.mem_reverse.1 hv)

/-- The value of up to 15 codewords has at most 45 decimal digits. -/
theorem numeral_900_lt_pow (g : List Nat) (hlen : g.length ≤ 15) (hdata : ∀ v ∈ g, v < 900) :
    numeral 900 g < 10 ^ 45 :=
  calc numeral 900 g < 900 ^ g.length := numeral_900_lt g hdata
    _ ≤ 900 ^ 15 := Nat.pow_le_pow_right (by decide) hlen
    _ ≤ 10 ^ 45 := by norm_num

/-- A group of codewords gives fewer than three digits for each of them. -/
theorem digits_length_lt (g ds : List Nat) (hdata : ∀ v ∈ g, v < 900) (h : numeral 900 g = numeral 10 (1 :: ds)) :
    ds.length < 3 * g.length := by
  refine (Nat.pow_lt_pow_iff_right (a := 10) (by decide)).1 ?_
  calc 10 ^ ds.length ≤ numeral 900 g := h ▸ pow_le_numeral_one ds
    _ < 900 ^ g.length := numeral_900_lt g hdata
    _ ≤ 1000 ^ g.length := Nat.pow_le_pow_left (by decide) _
    _ = 10 ^ (3 * g.length) := by rw [Nat.pow_mul]

/-! ## The decimal digits -/

theorem decDigitsLow_eq_digits (fuel v : Nat) (h : v < 10 ^ fuel) : decDigitsLow fuel v = Nat.digits 10 v := by
  induction fuel generalizing v with
  | zero => simp [decDigitsLow, Nat.lt_one_iff.1 h]
  | succ fuel ih =>
    rw [decDigitsLow]
    split_ifs with hv
    · simp [hv]
    · rw [Nat.digits_def' (by decide) (Nat.pos_of_ne_zero hv), ih _ (by rw [Nat.pow_succ] at h; omega)]

/-- The digits of a value start with 1 exactly where the value has a numeral that does (44_bitstream R386). -/
theorem decDigits_eq_one_cons_iff (v : Nat) (hv : v < 10 ^ 45) (ds : List Nat) :
    decDigits v = 1 :: ds ↔ (∀ d ∈ ds, d < 10) ∧ v = numeral 10 (1 :: ds) := by
  have hdigits : decDigits v = if v = 0 then [0] else (Nat.digits 10 v).reverse := by
    rw [decDigits, decDigitsLow_eq_digits 45 v hv]
  constructor
  · intro h
    have hne : v ≠ 0 := by
      rintro rfl
      cases h
    rw [hdigits, if_neg hne] at h
    refine ⟨fun d hd => ?_, ?_⟩
    · have hmem : d ∈ (Nat.digits 10 v).reverse := h ▸ List.mem_cons_of_mem 1 hd
      exact Nat.digits_lt_base (by decide) (List.mem_reverse.1 hmem)
    · rw [numeral_eq_ofDigits, ← h, List.reverse_reverse, Nat.ofDigits_digits]
  · rintro ⟨hds, rfl⟩
    have hpos : 0 < numeral 10 (1 :: ds) := (Nat.pow_pos (by decide)).trans_le (pow_le_numeral_one ds)
    rw [hdigits, if_neg hpos.ne', numeral_eq_ofDigits, Nat.digits_ofDigits 10 (by decide), List.reverse_reverse]
    · intro d hd
      rcases List.mem_cons.1 (List.mem_reverse.1 hd) with rfl | hd
      · decide
      · exact hds d hd
    · simp

/-! ## The conversion of a group -/

section
variable {p : Parser} {g : Nat × Nat} {gs : List (Nat × Nat)} (hg : p.group = g :: gs)
include hg

theorem flushNumeric_of_one {ds : List Nat} (h : decDigits (base900 (p.group.map Prod.fst)) = 1 :: ds) :
    flushNumeric p = emitAll { p with group := [] } g.2 (asciiDigits ds) := by
  rw [hg] at h
  simp only [flushNumeric, hg, h]
  rfl

theorem flushNumeric_of_ne_one (h : ∀ ds, decDigits (base900 (p.group.map Prod.fst)) ≠ 1 :: ds) :
    flushNumeric p = .error (formatError 0x64 g.2) := by
  rw [hg] at h
  unfold flushNumeric
  rw [hg]
  dsimp only
  split
  · exact absurd ‹_› (h _)
  · rfl

end

section
variable (m : Mode) (out : List Byte) (k : Nat)

/-- Nothing gathered is nothing to convert. -/
theorem flushNumeric_nil {i : Nat} : flushNumeric (holding m out [] i) = .ok (holding m out [] k) := rfl

variable (g : List Nat) (hpos : 1 ≤ g.length)
include hpos

theorem flushNumeric_holding_ok (ds : List Nat) (hds : decDigits (numeral 900 g) = 1 :: ds)
    (hroom : out.length + ds.length ≤ 4096) :
    flushNumeric (holding m out g k) = .ok (holding m (out ++ asciiDigits ds) [] k) := by
  obtain ⟨c, cs, rfl⟩ := List.exists_cons_of_length_pos hpos
  rw [← base900_zipIdx _ k] at hds
  rw [flushNumeric_of_one (p := holding m out (c :: cs) k) List.zipIdx_cons hds,
    emitAll_of_fits _ _ _ (by rwa [asciiDigits, List.length_map])]
  rfl

theorem flushNumeric_holding_error (hds : ∀ ds, decDigits (numeral 900 g) ≠ 1 :: ds) :
    flushNumeric (holding m out g k) = .error (formatError 0x64 k) := by
  obtain ⟨c, cs, rfl⟩ := List.exists_cons_of_length_pos hpos
  rw [← base900_zipIdx _ k] at hds
  exact flushNumeric_of_ne_one (p := holding m out (c :: cs) k) List.zipIdx_cons hds

end

/-- The digits of a group that has a numeral with a leading 1, and how many there are. -/
theorem decDigits_of_numeral (g ds : List Nat) (hlen : g.length ≤ 15) (hdata : ∀ v ∈ g, v < 900)
    (hds : ∀ d ∈ ds, d < 10) (hvalue : numeral 900 g = numeral 10 (1 :: ds)) :
    decDigits (numeral 900 g) = 1 :: ds ∧ ds.length < 3 * g.length :=
  ⟨(decDigits_eq_one_cons_iff _ (numeral_900_lt_pow g hlen hdata) ds).2 ⟨hds, hvalue⟩,
    digits_length_lt g ds hdata hvalue⟩

theorem decDigits_ne_of_bad (g : List Nat) (hlen : g.length ≤ 15) (hdata : ∀ v ∈ g, v < 900)
    (hbad : ∀ ds : List Nat, (∀ d ∈ ds, d < 10) → numeral 900 g ≠ numeral 10 (1 :: ds)) (ds : List Nat) :
    decDigits (numeral 900 g) ≠ 1 :: ds := fun h => by
  obtain ⟨hds, hvalue⟩ := (decDigits_eq_one_cons_iff _ (numeral_900_lt_pow g hlen hdata) ds).1 h
  exact hbad ds hds hvalue

/-! ## Groups in the stream -/

section
variable (out : List Byte) (k : Nat) {i : Nat} (g rest : List Nat) (hpos : 1 ≤ g.length) (hlen : g.length ≤ 15)
  (hend : g.length = 15 ∨ rest = []) (hdata : ∀ v ∈ g, v < 900)
include hpos hlen hend hdata

/-- A group is full, or the stream ends with it: it is flushed. -/
theorem mainLoop_group_ok {out' : List Byte}
    (hflush : flushNumeric (holding .numeric out g k) = .ok (holding .numeric out' [] k)) :
    mainLoop (holding .numeric out [] i) k (g ++ rest) =
      mainLoop (holding .numeric out' [] i) (k + g.length) rest := by
  by_cases hfull : g.length = 15
  · obtain ⟨cs, c, rfl⟩ := (List.eq_nil_or_concat' g).resolve_left (List.ne_nil_of_length_pos hpos)
    have hcs : cs.length = 14 := by simpa using hfull
    refine mainLoop_complete_ok .numeric out k cs c rest hdata (.inr ⟨rfl, by omega⟩) ?_
    rw [codeword_fifteenth _ ((List.forall_mem_append.1 hdata).2 c List.mem_cons_self) rfl
      (by simpa [holding] using hcs), holding_append]
    exact hflush
  · obtain rfl := hend.resolve_left hfull
    rw [mainLoop_holding .numeric out k g [] hdata (.inr ⟨rfl, by omega⟩), mainLoop_nil_numeric _ rfl,
      mainLoop_nil_numeric _ rfl, hflush]
    rfl

theorem mainLoop_group_error {e : CmdError} (hflush : flushNumeric (holding .numeric out g k) = .error e) :
    mainLoop (holding .numeric out [] i) k (g ++ rest) = .error e := by
  by_cases hfull : g.length = 15
  · obtain ⟨cs, c, rfl⟩ := (List.eq_nil_or_concat' g).resolve_left (List.ne_nil_of_length_pos hpos)
    have hcs : cs.length = 14 := by simpa using hfull
    refine mainLoop_complete_error .numeric out k cs c rest hdata (.inr ⟨rfl, by omega⟩) ?_
    rw [codeword_fifteenth _ ((List.forall_mem_append.1 hdata).2 c List.mem_cons_self) rfl
      (by simpa [holding] using hcs), holding_append]
    exact hflush
  · obtain rfl := hend.resolve_left hfull
    rw [mainLoop_holding .numeric out k g [] hdata (.inr ⟨rfl, by omega⟩), mainLoop_nil_numeric _ rfl, hflush]

end

/-- The digits of numeric groups in ASCII. -/
def groupDigits (groups : List (List Nat × List Nat)) : List Byte := groups.flatMap fun g => asciiDigits g.2

/-- All groups are full, or the stream ends with the last of them (44_bitstream R385). -/
def GroupsFill (groups : List (List Nat × List Nat)) (rest : List Nat) : Prop :=
  (∀ g ∈ groups, g.1.length = 15) ∨ rest = [] ∧ ∀ g ∈ groups.dropLast, g.1.length = 15

theorem GroupsFill.cons {g : List Nat × List Nat} {groups : List (List Nat × List Nat)} {rest : List Nat}
    (h : GroupsFill (g :: groups) rest) :
    (g.1.length = 15 ∨ groups.flatMap Prod.fst ++ rest = []) ∧ GroupsFill groups rest := by
  rcases h with hall | ⟨rfl, hdrop⟩
  · obtain ⟨hg, hgroups⟩ := List.forall_mem_cons.1 hall
    exact ⟨.inl hg, .inl hgroups⟩
  · cases groups with
    | nil => exact ⟨.inr rfl, .inl nofun⟩
    | cons g' groups =>
      obtain ⟨hg, hgroups⟩ := List.forall_mem_cons.1 hdrop
      exact ⟨.inl hg, .inr ⟨rfl, hgroups⟩⟩

/-- Numeric groups where the output has room for three digits of each codeword. -/
theorem mainLoop_numericGroups (out : List Byte) (k : Nat) {i : Nat} (groups : List (List Nat × List Nat))
    (rest : List Nat) (hgroups : ∀ g ∈ groups, numericGroup g) (hfill : GroupsFill groups rest)
    (hdata : ∀ v ∈ groups.flatMap Prod.fst, v < 900)
    (hroom : out.length + 3 * (groups.flatMap Prod.fst).length ≤ 4096) :
    mainLoop (holding .numeric out [] i) k (groups.flatMap Prod.fst ++ rest) =
      mainLoop (holding .numeric (out ++ groupDigits groups) [] i) (k + (groups.flatMap Prod.fst).length) rest := by
  induction groups generalizing out k with
  | nil => simp [groupDigits]
  | cons g groups ih =>
    obtain ⟨hg, hgroups⟩ := List.forall_mem_cons.1 hgroups
    obtain ⟨hend, hfill⟩ := hfill.cons
    rw [List.flatMap_cons] at hdata hroom ⊢
    obtain ⟨hgdata, hdata⟩ := List.forall_mem_append.1 hdata
    rw [List.length_append] at hroom
    obtain ⟨hpos, hlen, hds, hvalue⟩ := hg
    obtain ⟨hdigits, hcount⟩ := decDigits_of_numeral g.1 g.2 hlen hgdata hds hvalue
    have hflush := flushNumeric_holding_ok .numeric out k g.1 hpos g.2 hdigits (by omega)
    rw [List.append_assoc, mainLoop_group_ok out k g.1 _ hpos hlen hend hgdata hflush, ih _ _ hgroups hfill hdata]
    · rw [List.append_assoc, List.length_append, Nat.add_assoc]
      rfl
    · rw [List.length_append, asciiDigits, List.length_map]
      omega

/-! ## Streams of numeric groups -/

section
variable (s : State) (groups : List (List Nat × List Nat)) (rest : List Nat) (h : latchedStream s 902)
  (hgroups : ∀ g ∈ groups, numericGroup g) (hsplit : latchedData s = groups.flatMap Prod.fst ++ rest)
  (hfill : GroupsFill groups rest)
include h hsplit

theorem numericStream_lt : (∀ v ∈ groups.flatMap Prod.fst, v < 900) ∧ ∀ v ∈ rest, v < 900 := by
  have hdata := latchedData_lt h
  rw [hsplit] at hdata
  exact List.forall_mem_append.1 hdata

include hgroups hfill

/-- After the groups the machine goes on with what remains. -/
theorem mainLoop_numericStream : mainLoop (holding .numeric [] [] 0) 2 (latchedData s) =
    mainLoop (holding .numeric (groupDigits groups) [] 0) (2 + (groups.flatMap Prod.fst).length) rest := by
  have hle := latchedData_length_le h
  rw [hsplit, List.length_append] at hle
  rw [hsplit, mainLoop_numericGroups [] 2 groups rest hgroups hfill (numericStream_lt s groups rest h hsplit).1
    (show 0 + 3 * (groups.flatMap Prod.fst).length ≤ 4096 by omega), List.nil_append]

end

/-- Settles O55: the groups one after the other; the first that has no numeral with a leading 1 fails. -/
theorem dbsDecodeConvertsNumericGroups : Obligations.DbsDecodeConvertsNumericGroups := by
  intro s groups h hgroups
  refine ⟨fun hsplit hfull => ?_, fun bad rest hsplit hfull hpos hlen hend hbad => ?_⟩
  · have hrun := mainLoop_numericStream s groups [] h hgroups (by rw [hsplit, List.append_nil]) (.inr ⟨rfl, hfull⟩)
    rw [mainLoop_nil_numeric _ rfl, flushNumeric_nil .numeric _ 0] at hrun
    exact exec_dbsDecode_latched_ok h (by decide) _ hrun
  · rw [List.append_assoc] at hsplit
    have hdata := (List.forall_mem_append.1 (numericStream_lt s groups (bad ++ rest) h hsplit).2).1
    refine exec_dbsDecode_latched_error h (by decide) _ _ ?_
    refine (mainLoop_numericStream s groups (bad ++ rest) h hgroups hsplit (.inl hfull)).trans ?_
    exact mainLoop_group_error _ _ bad rest hpos hlen hend hdata
      (flushNumeric_holding_error .numeric _ _ bad hpos (decDigits_ne_of_bad bad hlen hdata hbad))

/-! ## NUM_B900 -/

/-- The search for a codeword that is no base-900 digit. -/
def numB900Bad (s : State) : Option Nat :=
  firstIndex (fun v => decide (v ≥ 900)) (cwList s s.regs.cwLen.toNat) 0

theorem cwList_length (s : State) (n : Nat) : (cwList s n).length = n := by simp [cwList]

@[simp] theorem cwList_getElem (s : State) (n i : Nat) (hi : i < (cwList s n).length) : (cwList s n)[i] = cwAt s i := by
  simp [cwList]

/-- The group that NUM_B900 converts. -/
theorem numB900_group (s : State) (n : Nat) :
    { Parser.start with group := (cwList s n).zip (List.range n) } = holding .text [] (cwList s n) 0 := by
  rw [holding, List.zipIdx_eq_zip_range', cwList_length, ← List.range_eq_range']
  rfl

theorem numB900Body_size (s : State) (h : s.regs.cwLen.toNat = 0 ∨ 15 < s.regs.cwLen.toNat) :
    numB900Body s = outError s (argumentError 0x68 0) := if_pos h

section
variable (s : State) (hpos : 0 < s.regs.cwLen.toNat) (hlen : s.regs.cwLen.toNat ≤ 15)
include hpos hlen

theorem numB900Body_value (i : Nat) (h : numB900Bad s = some i) : numB900Body s = outError s (formatError 0x60 i) := by
  rw [numB900Bad] at h
  refine (if_neg (not_or.2 ⟨hpos.ne', hlen.not_gt⟩)).trans ?_
  simp only [h]

theorem numB900Body_error (e : CmdError) (h : numB900Bad s = none)
    (he : flushNumeric (holding .text [] (cwList s s.regs.cwLen.toNat) 0) = .error e) :
    numB900Body s = outError s e := by
  rw [numB900Bad] at h
  refine (if_neg (not_or.2 ⟨hpos.ne', hlen.not_gt⟩)).trans ?_
  simp only [h]
  rw [numB900_group, he]

theorem numB900Body_ok (q : Parser) (h : numB900Bad s = none)
    (hq : flushNumeric (holding .text [] (cwList s s.regs.cwLen.toNat) 0) = .ok q) :
    numB900Body s = (writeOut s q.out, none) := by
  rw [numB900Bad] at h
  refine (if_neg (not_or.2 ⟨hpos.ne', hlen.not_gt⟩)).trans ?_
  simp only [h]
  rw [numB900_group, hq]

end

theorem numB900Bad_eq_some (s : State) (i : Nat) (hi : i < s.regs.cwLen.toNat) (hhigh : 900 ≤ cwAt s i)
    (hlow : ∀ j, j < i → cwAt s j < 900) : numB900Bad s = some i := by
  refine (firstIndex_some _ _ _ _).2 ⟨i, by rwa [cwList_length], (Nat.zero_add i).symm, ?_, fun m hm => ?_⟩
  · rw [cwList_getElem]
    exact decide_eq_true hhigh
  · rw [cwList_getElem]
    exact decide_eq_false (not_le.2 (hlow m hm))

theorem cwList_lt (s : State) (h : ∀ i, i < s.regs.cwLen.toNat → cwAt s i < 900) :
    ∀ v ∈ cwList s s.regs.cwLen.toNat, v < 900 := fun v hv => by
  obtain ⟨i, hi, rfl⟩ := List.mem_map.1 hv
  exact h i (List.mem_range.1 hi)

theorem numB900Bad_eq_none (s : State) (h : ∀ i, i < s.regs.cwLen.toNat → cwAt s i < 900) : numB900Bad s = none :=
  (firstIndex_none _ _ _).2 fun v hv => decide_eq_false (not_le.2 (cwList_lt s h v hv))

/-- Settles O56: the checks, then the conversion of one group. -/
theorem numB900StripsTheLeadingOne : Obligations.NumB900StripsTheLeadingOne := by
  refine ⟨by decide, ?_⟩
  rintro s _ rfl
  refine ⟨fun hsize => ?_, fun i hpos hlen hi hhigh hlow => ?_, fun ds hpos hlen hlt hds hvalue => ?_,
    fun hpos hlen hlt hbad => ?_⟩
  · exact (congrArg finish (numB900Body_size s hsize)).trans (finish_argument s 0x68)
  · obtain ⟨t, ht, hfailed⟩ := finish_failOut s 0x60 i
    have hbody := numB900Body_value s hpos hlen i (numB900Bad_eq_some s i hi hhigh hlow)
    exact ⟨t, (congrArg finish hbody).trans ht, hfailed⟩
  · have hcount := cwList_length s s.regs.cwLen.toNat
    obtain ⟨hdigits, hmany⟩ := decDigits_of_numeral (cwList s s.regs.cwLen.toNat) ds (by omega) (cwList_lt s hlt) hds
      hvalue
    have hflush := flushNumeric_holding_ok .text [] 0 (cwList s s.regs.cwLen.toNat) (by omega) ds hdigits
      (show 0 + ds.length ≤ 4096 by omega)
    have hbody := numB900Body_ok s hpos hlen _ (numB900Bad_eq_none s hlt) hflush
    obtain ⟨t, ht, hwrote⟩ := finish_writeOut s (asciiDigits ds) (by rw [asciiDigits, List.length_map]; omega)
    exact ⟨t, (congrArg finish hbody).trans ht, hwrote⟩
  · have hcount := cwList_length s s.regs.cwLen.toNat
    have hflush := flushNumeric_holding_error .text [] 0 (cwList s s.regs.cwLen.toNat) (by omega)
      (decDigits_ne_of_bad _ (by omega) (cwList_lt s hlt) hbad)
    obtain ⟨t, ht, hfailed⟩ := finish_failOut s 0x64 0
    exact ⟨t, (congrArg finish (numB900Body_error s hpos hlen _ (numB900Bad_eq_none s hlt) hflush)).trans ht, hfailed⟩

end Sys2Proof.Machine
end

section
/-! PROOFS. NOP (O57) and CW_PIPELINE (O58): stages run one after another as the commands do, because none of
them reads the outcome of the one before. -/

namespace Sys2Proof.Machine

open Sys2Proof.Safety

/-! ## NOP -/

/-- STATUS right after a completion OK, with no dropped write before it (10_state R34, 60_exceptions R455). -/
theorem readReg_status_ok (s : State) (h : s.regs.werr = false) : readReg (withOutcome s .ok 0 0) .status = 2 := by
  apply BitVec.eq_of_toNat_eq
  rw [readReg, statusWord_toNat]
  simp [h, codeNumber]

/-- Settles O57: the body of NOP is empty. -/
theorem nopOnlyCompletes : Obligations.NopOnlyCompletes :=
  ⟨decode_encode .nop, fun s => ⟨finish_ok s, readReg_status_ok s⟩⟩

/-! ## One stage after another -/

/-- What the body raised, if anything, is an error: its code is not OK. -/
def RaisesErrors (r : BodyResult) : Prop := ∀ e, r.2 = some e → e.code ≠ .ok

/-- The stage does the same whatever the outcome of the command before it (60_exceptions R455). -/
def IgnoresOutcome (stage : State → BodyResult) : Prop :=
  ∀ (s : State) (c : ErrCode) (d : Byte) (i : Nat), finish (stage (withOutcome s c d i)) = finish (stage s)

/-- A stage after a body is the body's completion where that is an error, and else the stage's command run on it
(45_control R441). -/
theorem finish_thenStage {r : BodyResult} {stage : State → BodyResult} {a : State} (hr : RaisesErrors r)
    (hstage : IgnoresOutcome stage) (ha : finish r = .next a) :
    finish (thenStage r stage) = if a.regs.err then .next a else finish (stage a) := by
  obtain ⟨u, e⟩ := r
  obtain rfl := Host.Outcome.next.inj ha
  cases e with
  | some e =>
    have herr : (endCommand u (some e)).regs.err = true := by
      rw [endCommand_some]
      exact decide_eq_true (hr e rfl)
    rw [if_pos herr]
    rfl
  | none => exact (hstage u .ok 0 0).symm

theorem RaisesErrors.thenStage {r : BodyResult} {stage : State → BodyResult} (hr : RaisesErrors r)
    (hstage : ∀ s, RaisesErrors (stage s)) : RaisesErrors (Machine.thenStage r stage) := by
  obtain ⟨u, e⟩ := r
  cases e with
  | some e => exact hr
  | none => exact hstage u

@[simp] theorem cwAt_withOutcome (s : State) (c : ErrCode) (d : Byte) (i k : Nat) :
    cwAt (withOutcome s c d i) k = cwAt s k :=
  cwAt_eq_of_mem_marks _ _ k rfl rfl

theorem sldCheckBody_ignoresOutcome : IgnoresOutcome sldCheckBody := by
  intro s c d i
  simp only [sldCheckBody, cwAt_withOutcome, apply_ite finish]
  rfl

theorem outError_ignoresOutcome (e : CmdError) : IgnoresOutcome fun s => outError s e := by
  intro s c d i
  dsimp only [outError]
  split_ifs <;> rfl

theorem dbsDecodeBody_ignoresOutcome : IgnoresOutcome dbsDecodeBody := by
  intro s c d i
  have hdata : dataCodewords (withOutcome s c d i) = dataCodewords s := by simp [dataCodewords]
  have hcheck : stateCheck (withOutcome s c d i) = stateCheck s := by simp [stateCheck, hdata]
  cases hs : stateCheck s with
  | some e =>
    rw [dbsDecodeBody_of_check_error s e hs, dbsDecodeBody_of_check_error _ e (hcheck.trans hs)]
    exact outError_ignoresOutcome e s c d i
  | none =>
    cases hm : mainLoop Parser.start 1 (dataCodewords s) with
    | error e =>
      rw [dbsDecodeBody_of_error s e hs hm, dbsDecodeBody_of_error _ e (hcheck.trans hs) (hdata ▸ hm)]
      exact outError_ignoresOutcome e s c d i
    | ok p =>
      rw [dbsDecodeBody_of_ok s p hs hm, dbsDecodeBody_of_ok _ p (hcheck.trans hs) (hdata ▸ hm)]
      rfl

theorem decodeCheck_code {len n era : Nat} {block : List Nat} {e : CmdError}
    (h : decodeCheck len n era block = some e) : e.code ≠ .ok := by
  rcases decodeCheck_some _ _ _ _ e h with hc | hc <;> exact hc ▸ nofun

theorem rsDecodeBody_raisesErrors (s : State) : RaisesErrors (rsDecodeBody s) := by
  unfold rsDecodeBody
  dsimp only
  split
  · rename_i e hcheck
    rintro _ ⟨⟩
    exact decodeCheck_code hcheck
  · split_ifs
    · exact nofun
    · split
      · rename_i e hdecode
        rintro _ ⟨⟩
        exact decodeBlock_raisesChecksum _ _ _ e hdecode ▸ nofun
      · exact nofun

theorem sldCheckBody_raisesErrors (s : State) : RaisesErrors (sldCheckBody s) := by
  unfold sldCheckBody
  dsimp only
  split_ifs <;> rintro _ ⟨⟩ <;> exact nofun

/-- Settles O58: the pipeline is SLD_CHECK after RS_DECODE, and DBS_DECODE after both. -/
theorem pipelineRunsTheStagesInOrder : Obligations.PipelineRunsTheStagesInOrder := by
  intro s a ha
  have hchecked := finish_thenStage (rsDecodeBody_raisesErrors s) sldCheckBody_ignoresOutcome ha
  have hpipeline {b : State} (hb : finish (thenStage (rsDecodeBody s) sldCheckBody) = .next b) :
      exec .cwPipeline s = if b.regs.err then .next b else exec .dbsDecode b :=
    finish_thenStage ((rsDecodeBody_raisesErrors s).thenStage sldCheckBody_raisesErrors) dbsDecodeBody_ignoresOutcome hb
  refine ⟨fun herr => ?_, fun herr b hb => ?_⟩
  · rw [hpipeline (hchecked.trans (if_pos herr)), if_pos herr]
  · have hboth := hpipeline ((hchecked.trans (if_neg (Bool.eq_false_iff.1 herr))).trans hb)
    exact ⟨fun hbad => hboth.trans (if_pos hbad), fun hok => hboth.trans (if_neg (Bool.eq_false_iff.1 hok))⟩

end Sys2Proof.Machine
end

section
/-! PROOFS. CW_PIPELINE's results (O59, O60): what each stage hands to the next. RS_DECODE leaves a block of bytes with
all syndromes zero, SLD_CHECK a descriptor that fits it, and DBS_DECODE of bytes is text, so that it completes OK. -/

namespace Sys2Proof.Machine

open Sys2Proof.Safety

/-! ## OUT and OUT_LEN -/

/-- OUT and OUT_LEN are as they were. -/
def OutputKept (s t : State) : Prop :=
  t.regs.outLen = s.regs.outLen ∧ ∀ a, 0x5000 ≤ a → a < 0x6000 → readByte t a = readByte s a

theorem OutputKept.trans {s t u : State} (h : OutputKept s t) (k : OutputKept t u) : OutputKept s u :=
  ⟨k.1.trans h.1, fun a hlo hhi => (k.2 a hlo hhi).trans (h.2 a hlo hhi)⟩

/-- A command that lists neither among its results keeps them (10_state R38, 30_encoding R143). -/
theorem exec_keepsOutput {i : Instr} {s t : State} (hbuf : i ∉ writersOf .out) (hreg : RegName.outLen ∉ resultRegs i)
    (h : exec i s = .next t) : OutputKept s t := by
  obtain ⟨hbytes, hregs, -⟩ := commandsWriteOnlyTheirResults i s t h
  refine ⟨?_, fun a hlo hhi => hbytes .out a ((contains_iff .out a).2 ⟨hlo, hhi⟩) hbuf⟩
  have hread : t.regs.outLen.setWidth 32 = s.regs.outLen.setWidth 32 := hregs .outLen hreg nofun nofun
  have hvalue := congrArg BitVec.toNat hread
  rw [BitVec.toNat_setWidth_of_le (by decide), BitVec.toNat_setWidth_of_le (by decide)] at hvalue
  exact BitVec.eq_of_toNat_eq hvalue

/-! ## The first stage -/

theorem blockAccepted_of_blockCheck (s : State) (len : Nat) (h : blockCheck len (cwList s len) = none) :
    blockAccepted s len := by
  unfold blockCheck at h
  split_ifs at h with hlen
  obtain ⟨hpos, hmax⟩ := not_or.1 hlen
  refine ⟨Nat.pos_of_ne_zero hpos, not_lt.1 hmax, fun i hi => ?_⟩
  have hvalues := (firstIndex_none _ _ _).1 (Option.map_eq_none_iff.1 h)
  exact not_lt.1 (of_decide_eq_false (hvalues _ (List.mem_map_of_mem (List.mem_range.2 hi))))

theorem decodeAccepted_of_decodeCheck (s : State)
    (h : decodeCheck s.regs.cwLen.toNat s.regs.nec.toNat s.regs.eraCnt.toNat (cwList s s.regs.cwLen.toNat) = none) :
    decodeAccepted s := by
  have hblock : blockAccepted s s.regs.cwLen.toNat := by
    cases hcheck : blockCheck s.regs.cwLen.toNat (cwList s s.regs.cwLen.toNat) with
    | none => exact blockAccepted_of_blockCheck s _ hcheck
    | some e =>
      rw [decodeCheck_of_blockCheck _ _ _ _ e hcheck] at h
      cases h
  rw [decodeCheck_of_accepted s _ _ _ hblock] at h
  split_ifs at h with hera hnec hcap
  exact ⟨hblock, not_lt.1 hera, not_lt.1 hnec, not_lt.1 hcap⟩

/-- The pre-checks pass, or RS_DECODE completes with what they raise (41_reed_solomon R231). -/
theorem exec_rsDecode_checked {s a : State} (ha : exec .rsDecode s = .next a) :
    decodeAccepted s ∨
      ∃ e, decodeCheck s.regs.cwLen.toNat s.regs.nec.toNat s.regs.eraCnt.toNat (cwList s s.regs.cwLen.toNat) = some e ∧
        a = withOutcome s e.code e.detail e.index.toNat := by
  cases hcheck : decodeCheck s.regs.cwLen.toNat s.regs.nec.toNat s.regs.eraCnt.toNat
      (cwList s s.regs.cwLen.toNat) with
  | none => exact .inl (decodeAccepted_of_decodeCheck s hcheck)
  | some e =>
    rw [exec_rsDecode_error s e hcheck, finish_error] at ha
    exact .inr ⟨e, rfl, (Host.Outcome.next.inj ha).symm⟩

theorem decodeCheck_detail {len n era : Nat} {block : List Nat} {e : CmdError}
    (h : decodeCheck len n era block = some e) : e.detail ∈ [(0x10 : Byte), 0x11, 0x16, 0x17, 0x18] := by
  unfold decodeCheck blockCheck at h
  split at h
  · rename_i e' hblock
    cases h
    split_ifs at hblock
    · cases hblock
      decide
    · obtain ⟨i, -, rfl⟩ := Option.map_eq_some_iff.1 hblock
      exact (by decide : (0x16 : Byte) ∈ [(0x10 : Byte), 0x11, 0x16, 0x17, 0x18])
  · split_ifs at h <;> cases h <;> decide

/-- The details of RS_DECODE, 0x19 apart, which it never raises (41_reed_solomon R237). -/
def rsDecodeDetails : List Byte := [0x10, 0x11, 0x12, 0x13, 0x14, 0x15, 0x16, 0x17, 0x18, 0x1B]

theorem exec_rsDecode_detail {s a : State} (ha : exec .rsDecode s = .next a) (herr : a.regs.err = true) :
    a.regs.detail ∈ rsDecodeDetails := by
  rcases exec_rsDecode_checked ha with haccepted | ⟨e, hcheck, rfl⟩
  · obtain ⟨d, hd, rfl⟩ := exec_rsDecode_err s a haccepted ha herr
    exact (by decide : [(0x12 : Byte), 0x13, 0x14, 0x15, 0x1B] ⊆ rsDecodeDetails) hd
  · exact (by decide : [(0x10 : Byte), 0x11, 0x16, 0x17, 0x18] ⊆ rsDecodeDetails) (decodeCheck_detail hcheck)

/-- Two states with the same codewords, up to `len`, have the same block. -/
theorem blockOf_congr {s t : State} {len : Nat} (h : ∀ i, i < len → cwAt t i = cwAt s i) :
    blockOf t len = blockOf s len :=
  List.map_congr_left fun i hi => by rw [h i (List.mem_range.1 hi)]

theorem cwAt_of_decodeBuffers {s t : State} (h : sameExcept s t decodeBuffers) (i : Nat) (hi : i < 1024) :
    cwAt t i = cwAt s i :=
  cwAt_of_sameExcept s t decodeBuffers i h fun r hr => .inl (by
    have := decodeBuffers_lo r hr
    omega)

/-- RS_DECODE that completes OK leaves a block of bytes with all syndromes zero (41_reed_solomon R232, R239). -/
theorem exec_rsDecode_leavesCleanBlock {s a : State} (ha : exec .rsDecode s = .next a) (hok : a.regs.err = false) :
    a.regs.cwLen = s.regs.cwLen ∧ blockAccepted a s.regs.cwLen.toNat ∧ blockClean a := by
  rcases exec_rsDecode_checked ha with haccepted | ⟨e, hcheck, rfl⟩
  · have hblock := haccepted.1
    by_cases hclean : blockClean s
    · obtain ⟨t, ht, hregs, -, -, -, -, -, hsame⟩ := rsDecodeLeavesACleanBlock s haccepted hclean
      obtain rfl := Host.Outcome.next.inj (ht.symm.trans ha)
      obtain ⟨hpos, hmax, hbytes⟩ := hblock
      have hcw (i : Nat) (hi : i < s.regs.cwLen.toNat) := cwAt_of_decodeBuffers hsame i (hi.trans_le hmax)
      have hlen : t.regs.cwLen = s.regs.cwLen := by rw [hregs]; rfl
      have hnec : t.regs.nec = s.regs.nec := by rw [hregs]; rfl
      refine ⟨hlen, ⟨hpos, hmax, fun i hi => (hcw i hi).trans_le (hbytes i hi)⟩, ?_⟩
      simpa only [blockClean, syndromeAt, hlen, hnec, blockOf_congr hcw] using hclean
    · obtain ⟨c, hdecode, rfl⟩ := exec_rsDecode_ok s a haccepted hclean ha hok
      exact ⟨rfl, correctedState_clean s c hblock hdecode⟩
  · exact absurd (decodeCheck_code hcheck) (of_decide_eq_false hok)

/-! ## The second stage -/

/-- The low half of a word (20_memory R104). -/
theorem halfOf_toNat (b0 b1 b2 b3 : Byte) : (halfOf b0 b1).toNat = (wordOf b0 b1 b2 b3).toNat % 2 ^ 16 := by
  simp only [halfOf, wordOf, toNat_append_eq_add]
  omega

theorem cwAt_zero_of_readWord {s : State} {v : Nat} (hv : v < 2 ^ 16) (h : readWord s 0x1000 = BitVec.ofNat 32 v) :
    cwAt s 0 = v := by
  have hhalf : cwAt s 0 = (readWord s 0x1000).toNat % 2 ^ 16 := halfOf_toNat _ _ _ _
  rw [hhalf, h, BitVec.toNat_ofNat]
  omega

/-- What SLD_CHECK accepts: a descriptor of 1 to CW_LEN, and the data codewords as they were (41_reed_solomon R245). -/
structure DescriptorChecked (s b : State) : Prop where
  ok : b.regs.err = false
  len : b.regs.cwLen = s.regs.cwLen
  sld_pos : 1 ≤ cwAt b 0
  sld_le : cwAt b 0 ≤ s.regs.cwLen.toNat
  data : ∀ k, 0 < k → cwAt b k = cwAt s k

/-- A good descriptor stays as it is. -/
theorem exec_sldCheck_good {s : State} (h4 : 4 ≤ s.regs.cwLen.toNat) (hmax : s.regs.cwLen.toNat ≤ 1024)
    (hsld : 1 ≤ cwAt s 0) (hle : cwAt s 0 ≤ s.regs.cwLen.toNat) :
    exec .sldCheck s = .next (withOutcome s .ok 0 0) ∧ DescriptorChecked s (withOutcome s .ok 0 0) where
  left := by rw [exec_sldCheck_checked s h4 hmax hle, if_neg (Nat.pos_iff_ne_zero.1 hsld), finish_ok]
  right :=
    { ok := rfl
      len := rfl
      sld_pos := by rwa [cwAt_withOutcome]
      sld_le := by rwa [cwAt_withOutcome]
      data := fun k _ => cwAt_withOutcome s _ _ _ k }

/-- SLD_CHECK of a block whose length is in range rejects its descriptor or leaves a good one. -/
theorem exec_sldCheck_cases {s b : State} (hpos : 0 < s.regs.cwLen.toNat) (hmax : s.regs.cwLen.toNat ≤ 1024)
    (hb : exec .sldCheck s = .next b) :
    (∃ d ∈ [(0x20 : Byte), 0x21, 0x22], b = withOutcome s .format d 0) ∨ DescriptorChecked s b := by
  obtain ⟨-, hshort, hlong, hbad, hrepair, -⟩ := sldCheckVerifiesAndRepairs.2 s _ _ _ rfl rfl rfl
  have heq {t : State} (ht : exec .sldCheck s = .next t) : b = t := Host.Outcome.next.inj (hb.symm.trans ht)
  rcases lt_or_ge s.regs.cwLen.toNat 4 with h4 | h4
  · exact .inl ⟨0x20, by decide, heq (hshort hpos h4)⟩
  rcases lt_or_ge s.regs.cwLen.toNat (cwAt s 0) with hsld | hsld
  · exact .inl ⟨0x21, by decide, heq (hlong h4 hmax hsld)⟩
  rcases Nat.eq_zero_or_pos (cwAt s 0) with hzero | hone
  · rcases lt_or_ge s.regs.nec.toNat s.regs.cwLen.toNat with hnec | hnec
    · obtain ⟨t, ht, hregs, hword, hsame⟩ := hrepair h4 hmax hzero hnec
      obtain rfl := heq ht
      have hsld := cwAt_zero_of_readWord (by omega) hword
      exact .inr {
        ok := by rw [hregs]; rfl
        len := by rw [hregs]; rfl
        sld_pos := by omega
        sld_le := by omega
        data := fun k hk => cwAt_of_sameExcept s b _ k hsame fun r hr => by
          obtain rfl := List.mem_singleton.1 hr
          exact .inr (by dsimp only; omega) }
    · exact .inl ⟨0x22, by decide, heq (hbad h4 hmax hzero hnec)⟩
  · obtain ⟨hgood, hchecked⟩ := exec_sldCheck_good h4 hmax hone hsld
    obtain rfl := heq hgood
    exact .inr hchecked

/-! ## The third stage: bytes are text -/

/-- A half-codeword gives at most one character (44_bitstream R379). -/
theorem textRun_length_le (sub : SubMode) (shift : Shift) (hs : List Nat) :
    (textRun sub shift hs).length ≤ hs.length := by
  fun_induction textRun sub shift hs <;> simp only [List.length_nil, List.length_cons] <;> omega

/-- The data codewords as pairs of half-codewords (44_bitstream R377). -/
def dataHalves (s : State) : List (Nat × Nat) := (dataCodewords s).map fun v => (v / 30, v % 30)

theorem dataHalves_length (s : State) : (dataHalves s).length = cwAt s 0 - 1 :=
  (List.length_map _).trans (dataCodewords_length s)

theorem dataHalves_getElem (s : State) (k : Nat) (hk : k < (dataHalves s).length) :
    (dataHalves s)[k] = (cwAt s (k + 1) / 30, cwAt s (k + 1) % 30) := by
  simp [dataHalves]

/-- DBS_DECODE of data codewords below 900 completes OK with at most two characters for each (44_bitstream R377). -/
theorem exec_dbsDecode_data {s : State} (hmax : s.regs.cwLen.toNat ≤ 1024) (hsld : 1 ≤ cwAt s 0)
    (hle : cwAt s 0 ≤ s.regs.cwLen.toNat) (hdata : ∀ k, 0 < k → k < cwAt s 0 → cwAt s k < 900) :
    ∃ t out, exec .dbsDecode s = .next t ∧ parserWrote s t out ∧ out.length ≤ 2 * (cwAt s 0 - 1) := by
  have hlen := dataHalves_length s
  obtain ⟨t, ht, hwrote⟩ := exec_dbsDecode_text s (dataHalves s) hmax hsld hle (by omega)
    (fun k hk => by
      rw [dataHalves_getElem s k hk]
      exact (Nat.div_add_mod _ 30).symm)
    (fun h hmem => by
      obtain ⟨k, hk, rfl⟩ := List.getElem_of_mem hmem
      have := hdata (k + 1) k.succ_pos (by omega)
      rw [dataHalves_getElem s k hk]
      exact ⟨by dsimp only; omega, Nat.mod_lt _ (by decide)⟩)
  refine ⟨t, _, ht, hwrote, (textRun_length_le _ _ _).trans ?_⟩
  rw [List.length_flatMap]
  simp [hlen, mul_comm]

theorem err_of_parserWrote {s t : State} {out : List Byte} (h : parserWrote s t out) : t.regs.err = false := by
  obtain ⟨ht, -, -⟩ := h
  rw [ht]
  rfl

/-- DBS_DECODE of a block of bytes with a checked descriptor (45_control R441). -/
theorem exec_dbsDecode_checked {a b : State} (hblock : blockAccepted a a.regs.cwLen.toNat) (h : DescriptorChecked a b) :
    ∃ t out, exec .dbsDecode b = .next t ∧ parserWrote b t out ∧ out.length ≤ 2 * (cwAt b 0 - 1) := by
  obtain ⟨-, hmax, hbytes⟩ := hblock
  have hle := h.sld_le
  rw [← h.len] at hmax hle
  refine exec_dbsDecode_data hmax h.sld_pos hle fun k hk hlt => ?_
  rw [h.data k hk]
  exact (hbytes k (hlt.trans_le h.sld_le)).trans_lt (by decide)

/-! ## The pipeline -/

/-- Settles O59: the stages one by one; the third has nothing left that can fail. -/
theorem pipelineEmitsOnlyCheckedText : Obligations.PipelineEmitsOnlyCheckedText := by
  intro s t ht
  obtain ⟨a, ha⟩ := exec_next .rsDecode s
  obtain ⟨hfail, hrest⟩ := pipelineRunsTheStagesInOrder s a ha
  have hkept := exec_keepsOutput (by decide) (by decide) ha
  cases haerr : a.regs.err with
  | true =>
    obtain rfl := Host.Outcome.next.inj ((hfail haerr).symm.trans ht)
    exact ⟨fun hok => absurd (haerr.symm.trans hok) nofun, fun _ =>
      ⟨List.mem_append_left [0x20, 0x21, 0x22] (exec_rsDecode_detail ha haerr), hkept⟩⟩
  | false =>
    obtain ⟨hlen, hblock, hclean⟩ := exec_rsDecode_leavesCleanBlock ha haerr
    have hblock' : blockAccepted a a.regs.cwLen.toNat := by rwa [hlen]
    obtain ⟨b, hb⟩ := exec_next .sldCheck a
    obtain ⟨hreject, hthird⟩ := hrest haerr b hb
    rcases exec_sldCheck_cases hblock'.1 hblock'.2.1 hb with ⟨d, hd, rfl⟩ | hchecked
    · obtain rfl := Host.Outcome.next.inj ((hreject rfl).symm.trans ht)
      refine ⟨nofun, fun _ => ⟨?_, hkept.trans (exec_keepsOutput (by decide) (by decide) hb)⟩⟩
      exact List.mem_append_right rsDecodeDetails hd
    · rw [hthird hchecked.ok] at ht
      obtain ⟨u, out, hu, hwrote, -⟩ := exec_dbsDecode_checked hblock' hchecked
      obtain rfl := Host.Outcome.next.inj (hu.symm.trans ht)
      exact ⟨fun _ => ⟨a, b, ha, haerr, hblock, hclean, hb, hchecked.ok, ht⟩,
        fun herr => absurd ((err_of_parserWrote hwrote).symm.trans herr) nofun⟩

/-- Settles O60: RS_DECODE finds the block clean, SLD_CHECK accepts its descriptor, and its bytes are text. -/
theorem pipelineDecodesACleanBlock : Obligations.PipelineDecodesACleanBlock := by
  refine ⟨decode_encode .cwPipeline, fun s haccepted hclean h4 hsld hle => ?_⟩
  obtain ⟨a, ha, hregs, hsyn, hsigma, -, -, -, hsame⟩ := rsDecodeLeavesACleanBlock s haccepted hclean
  have hok : a.regs.err = false := by rw [hregs]; rfl
  obtain ⟨hlen, hblock, -⟩ := exec_rsDecode_leavesCleanBlock ha hok
  have hzero := cwAt_of_decodeBuffers hsame 0 (by decide)
  rw [← hzero] at hsld hle ⊢
  rw [← hlen] at h4 hle hblock
  obtain ⟨hb, hchecked⟩ := exec_sldCheck_good h4 hblock.2.1 hsld hle
  obtain ⟨-, hpipeline⟩ := (pipelineRunsTheStagesInOrder s a ha).2 hok _ hb
  obtain ⟨t, out, ht, ⟨houtcome, hfit, -, hout⟩, hmany⟩ := exec_dbsDecode_checked hblock hchecked
  rw [cwAt_withOutcome] at hmany
  have houtLen : t.regs.outLen = BitVec.ofNat 13 out.length := by rw [houtcome]; rfl
  have hcount : t.regs.outLen.toNat = out.length := by
    rw [houtLen, BitVec.toNat_ofNat, Nat.mod_eq_of_lt (by omega)]
  have hkept : sameExcept a t [(0x5000, 0x5000 + out.length)] := fun x hx =>
    (hout x hx).trans (readByte_withOutcome a _ _ _ x)
  have hlow (x : Nat) (hx : x < 0x5000) : readByte t x = readByte a x := hkept x (by simp [hx])
  refine ⟨t, (hpipeline rfl).trans ht, ?_, hcount.trans_le hmany, ?_, fun i hi => ?_, ?_⟩
  · rw [houtLen]
    refine houtcome.trans ?_
    rw [hregs]
    rfl
  · exact (hlow 0x4000 (by decide)).trans (readByte_of_readWord a 0x4000 1 hsigma)
  · exact (hlow _ (show 0x3000 + 4 * i < 0x5000 by omega)).trans (readByte_of_readWord a (0x3000 + 4 * i) 0 (hsyn i hi))
  · rw [hcount]
    exact sameExcept_trans (sameExcept_mono hsame (List.subset_cons_self _ _))
      (sameExcept_mono hkept (List.cons_subset_cons _ (List.nil_subset _)))

end Sys2Proof.Machine
end

section
/-! PROOFS. What the completion step of any word leaves in STATUS and ERRINFO (O6). -/

namespace Sys2Proof.Machine

open Sys2Proof.Safety

/-! ## Every body raises errors only -/

namespace RaisesErrors

variable {s : State} {e : CmdError}

theorem completed (s : State) : RaisesErrors (s, none) := nofun

theorem raised (h : e.code ≠ .ok) : RaisesErrors (s, some e) := by
  rintro _ ⟨⟩
  exact h

/-- An error that a fallible part of the body raised. -/
theorem raisedBy {α : Type} {x : Except CmdError α} {c : ErrCode} (hx : x = .error e) (hc : RaisesOnly c x)
    (hok : c ≠ .ok) : RaisesErrors (s, some e) :=
  raised (hc e hx ▸ hok)

end RaisesErrors

theorem rsSyndromeBody_raisesErrors (s : State) : RaisesErrors (rsSyndromeBody s) := by
  unfold rsSyndromeBody
  dsimp only
  split
  · exact .raised (blockCheck_some _ _ _ ‹_› ▸ nofun)
  · split_ifs
    · exact .raised nofun
    · exact .completed _

theorem binRowBody_raisesErrors (s : State) : RaisesErrors (binRowBody s) := by
  unfold binRowBody
  dsimp only
  split_ifs
  · exact .raised nofun
  · exact .raised nofun
  · split
    · exact .raisedBy ‹_› (estimate_raisesNotFound _) nofun
    · exact .completed _

theorem binGlobalBody_raisesErrors (s : State) : RaisesErrors (binGlobalBody s) := by
  unfold binGlobalBody
  dsimp only
  split_ifs
  · exact .raised nofun
  · split
    · exact .raisedBy ‹_› (estimate_raisesNotFound _) nofun
    · exact .completed _

theorem binHybridBody_raisesErrors (s : State) : RaisesErrors (binHybridBody s) := by
  unfold binHybridBody
  dsimp only
  split_ifs
  · exact .raised nofun
  · exact binGlobalBody_raisesErrors s
  · exact .completed _

theorem ptSampleBody_raisesErrors (s : State) : RaisesErrors (ptSampleBody s) := by
  unfold ptSampleBody
  dsimp only
  split_ifs
  · exact .raised nofun
  · exact .raised nofun
  · split
    · exact .raisedBy ‹_› (sampleGrid_raisesNotFound _ _ _ _) nofun
    · exact .completed _

theorem outError_raisesErrors (s : State) {e : CmdError} (h : e.code ≠ .ok) : RaisesErrors (outError s e) := by
  unfold outError
  split_ifs <;> exact .raised h

theorem dbsDecodeBody_raisesErrors (s : State) : RaisesErrors (dbsDecodeBody s) := by
  cases hcheck : stateCheck s with
  | some e =>
    rw [dbsDecodeBody_of_check_error s e hcheck]
    rcases stateCheck_cases s e hcheck with rfl | hformat
    · exact outError_raisesErrors s nofun
    · exact outError_raisesErrors s (hformat ▸ nofun)
  | none =>
    cases hm : mainLoop Parser.start 1 (dataCodewords s) with
    | error e =>
      rw [dbsDecodeBody_of_error s e hcheck hm]
      exact outError_raisesErrors s (mainLoop_raisesFormat _ _ _ e hm ▸ nofun)
    | ok p =>
      rw [dbsDecodeBody_of_ok s p hcheck hm]
      exact .completed _

theorem numB900Body_raisesErrors (s : State) : RaisesErrors (numB900Body s) := by
  unfold numB900Body
  dsimp only
  split
  · exact outError_raisesErrors s nofun
  split
  · exact outError_raisesErrors s nofun
  split
  · exact outError_raisesErrors s (flushNumeric_raisesFormat _ _ ‹_› ▸ nofun)
  · exact .completed _

theorem cwPipelineBody_raisesErrors (s : State) : RaisesErrors (cwPipelineBody s) :=
  ((rsDecodeBody_raisesErrors s).thenStage sldCheckBody_raisesErrors).thenStage dbsDecodeBody_raisesErrors

/-- Every command is the completion step of a body that raises errors only. -/
theorem exec_raisesErrors (i : Instr) (s : State) : ∃ r : BodyResult, exec i s = finish r ∧ RaisesErrors r := by
  cases i with
  | nop | gfAdd | gfMul | gfExp | ptSolve | ptMap => exact ⟨_, rfl, .completed _⟩
  | gfInv | gfLog =>
    refine ⟨_, rfl, ?_⟩
    split
    · exact .completed _
    · exact .raised nofun
  | rsSyndrome => exact ⟨_, rfl, rsSyndromeBody_raisesErrors s⟩
  | rsDecode => exact ⟨_, rfl, rsDecodeBody_raisesErrors s⟩
  | sldCheck => exact ⟨_, rfl, sldCheckBody_raisesErrors s⟩
  | binRow => exact ⟨_, rfl, binRowBody_raisesErrors s⟩
  | binGlobal => exact ⟨_, rfl, binGlobalBody_raisesErrors s⟩
  | binHybrid => exact ⟨_, rfl, binHybridBody_raisesErrors s⟩
  | ptSample => exact ⟨_, rfl, ptSampleBody_raisesErrors s⟩
  | dbsDecode => exact ⟨_, rfl, dbsDecodeBody_raisesErrors s⟩
  | numB900 => exact ⟨_, rfl, numB900Body_raisesErrors s⟩
  | cwPipeline => exact ⟨_, rfl, cwPipelineBody_raisesErrors s⟩

/-! ## The completion step of any word -/

theorem completionStep_command (s : State) (w : Word) (i : Instr) (h : decode w = .command i) :
    completionStep w s = exec i s := by
  rw [completionStep, h]

/-- A word that is no command raises ILLEGAL, so every word completes with the end of a body that raises errors only. -/
theorem completionStep_endCommand (w : Word) (s : State) :
    ∃ r : BodyResult, completionStep w s = .next (endCommand r.1 r.2) ∧ RaisesErrors r := by
  cases hd : decode w with
  | command i =>
    rw [completionStep_command s w i hd]
    exact exec_raisesErrors i s
  | illegal x =>
    exact ⟨(s, some { code := .illegal, detail := x.detail, index := 0 }), completionStep_illegal s w x hd,
      .raised nofun⟩

/-- WERR and IRQ_EN are in no command's result registers, and a word that is no command has no result. -/
theorem completionStep_keeps_werr_irqEn {w : Word} {s t : State} (h : completionStep w s = .next t) :
    t.regs.werr = s.regs.werr ∧ readReg t .irqEn = readReg s .irqEn := by
  cases hd : decode w with
  | command i =>
    obtain ⟨-, hregs, hwerr, -⟩ := commandsWriteOnlyTheirResults i s t (completionStep_command s w i hd ▸ h)
    exact ⟨hwerr, hregs .irqEn (by cases i <;> decide) nofun nofun⟩
  | illegal x =>
    obtain rfl := Host.Outcome.next.inj ((completionStep_illegal s w x hd).symm.trans h)
    exact ⟨rfl, rfl⟩

/-! ## The fields of STATUS -/

theorem getLsbD_append_ofBool_zero {n : Nat} (x : BitVec n) (b : Bool) : (x ++ BitVec.ofBool b).getLsbD 0 = b := by
  rw [BitVec.getLsbD_append, if_pos Nat.one_pos, BitVec.getLsbD_ofBool, decide_eq_true rfl, Bool.true_and]

theorem getLsbD_append_ofBool_succ {n : Nat} (x : BitVec n) (b : Bool) (k : Nat) :
    (x ++ BitVec.ofBool b).getLsbD (k + 1) = x.getLsbD k := by
  simp [BitVec.getLsbD_append]

theorem statusWord_getLsbD_one (s : State) : (statusWord s).getLsbD 1 = s.regs.done := by
  rw [statusWord, getLsbD_append_ofBool_succ, getLsbD_append_ofBool_zero]

theorem statusWord_getLsbD_two (s : State) : (statusWord s).getLsbD 2 = s.regs.err := by
  rw [statusWord, getLsbD_append_ofBool_succ, getLsbD_append_ofBool_succ, getLsbD_append_ofBool_zero]

theorem statusWord_getLsbD_three (s : State) : (statusWord s).getLsbD 3 = s.regs.werr := by
  rw [statusWord, getLsbD_append_ofBool_succ, getLsbD_append_ofBool_succ, getLsbD_append_ofBool_succ,
    getLsbD_append_ofBool_zero]

/-- The four flags below ERRCODE weigh at most 15 together. -/
theorem statusWord_errcode (s : State) : (statusWord s).toNat / 16 = codeNumber s.regs.errcode := by
  have hdone := s.regs.done.toNat_le
  have herr := s.regs.err.toNat_le
  have hwerr := s.regs.werr.toNat_le
  rw [statusWord_toNat]
  split_ifs <;> omega

/-- ERR stands exactly with a code other than OK (60_exceptions R455). -/
theorem endCommand_err (u : State) (e : Option CmdError) :
    (endCommand u e).regs.err = decide ((endCommand u e).regs.errcode ≠ .ok) := by
  cases e <;> rfl

/-- Without an error ERRINFO is 0 (60_exceptions R455). -/
theorem RaisesErrors.errInfo_of_ok {r : BodyResult} (h : RaisesErrors r)
    (hok : (endCommand r.1 r.2).regs.errcode = .ok) : errInfoWord (endCommand r.1 r.2).regs = 0 := by
  obtain ⟨u, e⟩ := r
  cases e with
  | none => exact BitVec.eq_of_toNat_eq (errInfoWord_toNat _)
  | some e => exact absurd hok (h e rfl)

/-- Settles O6: every word ends with the outcome of a body that raises errors only, and its writes leave WERR. -/
theorem everyWordCompletes : Obligations.EveryWordCompletes := by
  intro s w
  obtain ⟨r, hstep, hraises⟩ := completionStep_endCommand w s
  obtain ⟨hwerr, -⟩ := completionStep_keeps_werr_irqEn hstep
  exact ⟨_, hstep, rfl, statusWord_getLsbD_zero _, statusWord_getLsbD_one _,
    (statusWord_getLsbD_two _).trans (endCommand_err r.1 r.2), (statusWord_getLsbD_three _).trans hwerr,
    statusWord_errcode _, rfl, hraises.errInfo_of_ok⟩

end Sys2Proof.Machine
end

section
/-! PROOFS. The IRQ output: the formula over the registers as read, and what raises and what clears it (O13). -/

namespace Sys2Proof.Machine

open Sys2Proof.Safety

/-! ## The formula -/

theorem irqEnWord_getLsbD_zero (r : Regs) : (irqEnWord r).getLsbD 0 = r.doneIe := by
  rw [irqEnWord, getLsbD_append_ofBool_zero]

theorem irqEnWord_getLsbD_one (r : Regs) : (irqEnWord r).getLsbD 1 = r.errIe := by
  rw [irqEnWord, getLsbD_append_ofBool_succ, getLsbD_append_ofBool_zero]

/-- The output over STATUS and IRQ_EN as they read (60_exceptions R458). -/
theorem irq_eq_readReg (s : State) : irq s =
    (((readReg s .status).getLsbD 1 && (readReg s .irqEn).getLsbD 0) ||
      (((readReg s .status).getLsbD 2 || (readReg s .status).getLsbD 3) && (readReg s .irqEn).getLsbD 1)) := by
  simp only [readReg, statusWord_getLsbD_one, statusWord_getLsbD_two, statusWord_getLsbD_three, irqEnWord_getLsbD_zero,
    irqEnWord_getLsbD_one, irq]

theorem irq_of_done {s : State} (hdone : s.regs.done = true) (hie : s.regs.doneIe = true) : irq s = true := by
  simp [irq, hdone, hie]

theorem irq_of_werr {s : State} (hwerr : s.regs.werr = true) (hie : s.regs.errIe = true) : irq s = true := by
  simp [irq, hwerr, hie]

theorem irq_of_no_flags {s : State} (hdone : s.regs.done = false) (herr : s.regs.err = false)
    (hwerr : s.regs.werr = false) : irq s = false := by
  simp [irq, hdone, herr, hwerr]

theorem irq_of_no_enables {s : State} (hdone : s.regs.doneIe = false) (herr : s.regs.errIe = false) :
    irq s = false := by
  simp [irq, hdone, herr]

/-! ## The completion step -/

theorem completionStep_doneIe {w : Word} {s t : State} (h : completionStep w s = .next t) :
    t.regs.doneIe = s.regs.doneIe := by
  obtain ⟨-, hirqEn⟩ := completionStep_keeps_werr_irqEn h
  rw [← irqEnWord_getLsbD_zero, ← irqEnWord_getLsbD_zero]
  exact congrArg (·.getLsbD 0) hirqEn

/-- The completion step sets DONE (60_exceptions R455). -/
theorem completionStep_done {w : Word} {s t : State} (h : completionStep w s = .next t) : t.regs.done = true := by
  obtain ⟨r, hstep, -⟩ := completionStep_endCommand w s
  obtain rfl := Host.Outcome.next.inj (hstep.symm.trans h)
  rfl

/-! ## Writes to IRQ_EN and CTRL -/

theorem hostAccess_write_irqEn (s : State) (v : Word) :
    hostAccess s (.write 0x010 .word v) = ({ error := false, data := 0 }, { s with regs := writeIrqEn v s.regs }) :=
  hostAccess_write_reg s 4 v (by decide)

theorem hostAccess_write_ctrl (s : State) (v : Word) :
    hostAccess s (.write 0x018 .word v) =
      ({ error := false, data := 0 }, if v.getLsbD 0 then softReset s else s) :=
  hostAccess_write_reg s 6 v (by decide)

/-- Settles O13: each write, issue and reset by the flags and enables that it leaves. -/
theorem irqFollowsFlagsAndEnables : Obligations.IrqFollowsFlagsAndEnables := by
  refine ⟨irq_eq_readReg, fun s t w hie ht => ?_, fun s w hie hbusy => ?_, fun s => ?_, fun s => ?_,
    fun s w hidle hwerr => ?_, fun s => ?_, fun s => ?_, ?_⟩
  · exact irq_of_done (completionStep_done ht) ((completionStep_doneIe ht).trans hie)
  · rw [hostAccess_write_cmd_busy s w hbusy]
    exact irq_of_werr rfl hie
  · rw [hostAccess_write_status]
    exact irq_of_no_flags (Bool.and_false _) (Bool.and_false _) (Bool.and_false _)
  · rw [hostAccess_write_irqEn]
    exact irq_of_no_enables rfl rfl
  · rw [hostAccess_write_cmd_idle s w hidle]
    exact irq_of_no_flags rfl rfl hwerr
  · rw [hostAccess_write_ctrl]
    exact irq_of_no_flags rfl rfl rfl
  · exact irq_of_no_flags rfl rfl rfl
  · exact irq_of_no_flags rfl rfl rfl

end Sys2Proof.Machine
end

section
/-! PROOFS. The resets: what a soft reset makes of a running command's buffers (O22), and the resets while idle and at
`rst_n` (O21). -/

namespace Sys2Proof.Machine

open Sys2Proof.Safety

/-! ## Ranges that become UNKNOWN -/

/-- Nothing but the memory, the marks and the number of draws changes. -/
theorem forgetRanges_eq (rs : List (Nat × Nat)) (s : State) :
    ∃ mem marks draws, forgetRanges s rs = { s with mem := mem, marks := marks, draws := draws } := by
  induction rs generalizing s with
  | nil => exact ⟨_, _, _, rfl⟩
  | cons r rs ih => exact ih (forget s r.1 r.2)

theorem sameExcept_forgetRanges (rs : List (Nat × Nat)) (s : State) : sameExcept s (forgetRanges s rs) rs := by
  induction rs generalizing s with
  | nil => exact fun _ _ => rfl
  | cons r rs ih =>
    intro a ha
    calc readByte (forgetRanges (forget s r.1 r.2) rs) a
      _ = readByte (forget s r.1 r.2) a := ih _ a fun q hq => ha q (List.mem_cons_of_mem r hq)
      _ = readByte s a := readByte_forget_outside s r.1 r.2 a (ha r List.mem_cons_self)

theorem freshRange_forget (s : State) (lo hi : Nat) : freshRange s (forget s lo hi) lo hi := fun a hlo hhi hst =>
  ⟨s.draws + 1, Nat.lt_succ_self _, readByte_forget_inside s lo hi a hlo hhi hst⟩

/-- A byte in several of the ranges holds the value of the last one's draw. -/
theorem freshRange_forgetRanges {rs : List (Nat × Nat)} {r : Nat × Nat} (hr : r ∈ rs) (s : State) :
    freshRange s (forgetRanges s rs) r.1 r.2 := by
  induction rs generalizing s r with
  | nil => exact absurd hr List.not_mem_nil
  | cons q rs ih =>
    intro a hlo hhi hst
    by_cases hlater : ∃ p ∈ rs, p.1 ≤ a ∧ a < p.2
    · obtain ⟨p, hp, hplo, hphi⟩ := hlater
      obtain ⟨n, hn, hread⟩ := ih hp (forget s q.1 q.2) a hplo hphi hst
      exact ⟨n, Nat.lt_of_succ_lt hn, hread⟩
    · have hrq : r = q := (List.mem_cons.1 hr).resolve_right fun h => hlater ⟨r, h, hlo, hhi⟩
      subst hrq
      obtain ⟨n, hn, hread⟩ := freshRange_forget s r.1 r.2 a hlo hhi hst
      refine ⟨n, hn, (sameExcept_forgetRanges rs _ a fun p hp => ?_).trans hread⟩
      by_contra hin
      exact hlater ⟨p, hp, by omega⟩

/-! ## The ranges of a command lie in its buffers -/

/-- The range is the first bytes of a buffer that the command writes. -/
def StartsBufferOf (i : Instr) (r : Nat × Nat) : Prop :=
  ∃ (w : Window) (n : Nat), i ∈ writersOf w ∧ n ≤ w.size ∧ r = (w.base, w.base + n)

theorem startsBufferOf_firstWords {i : Instr} {w : Window} (n : Nat) (h : i ∈ writersOf w) :
    StartsBufferOf i (firstWords w n) :=
  ⟨w, _, h, Nat.min_le_right _ _, rfl⟩

theorem startsBufferOf_wholeWindow {i : Instr} {w : Window} (h : i ∈ writersOf w) :
    StartsBufferOf i (wholeWindow w) :=
  ⟨w, _, h, le_rfl, rfl⟩

theorem commandRanges_startsBufferOf (s : State) (i : Instr) : ∀ r ∈ commandRanges s i, StartsBufferOf i r := by
  cases i
  case sldCheck | binHybrid =>
    simp only [commandRanges]
    split_ifs <;> simp (disch := decide) [startsBufferOf_firstWords, startsBufferOf_wholeWindow]
  all_goals simp (disch := decide) [commandRanges, startsBufferOf_firstWords, startsBufferOf_wholeWindow]

theorem forgetRanges_writesResults {i : Instr} {rs : List (Nat × Nat)} (h : ∀ r ∈ rs, StartsBufferOf i r)
    (s : State) : WritesResults i s (forgetRanges s rs) := by
  induction rs generalizing s with
  | nil => exact .refl i s
  | cons r rs ih =>
    obtain ⟨w, n, hi, hfit, rfl⟩ := h r List.mem_cons_self
    exact (WritesResults.of_forget w n hi hfit).trans (ih (fun q hq => h q (List.mem_cons_of_mem _ hq)) _)

/-! ## Soft reset -/

theorem softReset_eq (s : State) : softReset s =
    { s with
      mem := (softReset s).mem
      marks := (softReset s).marks
      draws := (softReset s).draws
      eng := .idle
      regs := State.reset.regs } := by
  obtain ⟨mem, marks, draws, h⟩ := forgetRanges_eq (runningRanges s) s
  simp only [softReset, h]
  rfl

theorem readByte_softReset (s : State) (a : Nat) :
    readByte (softReset s) a = readByte (forgetRanges s (runningRanges s)) a :=
  readByte_eq_of_mem_marks _ _ a rfl rfl

/-- Where no range becomes UNKNOWN only the registers and the engine change. -/
theorem softReset_of_no_ranges (s : State) (h : runningRanges s = []) :
    softReset s = { s with eng := .idle, regs := State.reset.regs } := by
  rw [softReset, h]
  rfl

theorem hostAccess_softReset (s : State) (v : Word) (h : v.getLsbD 0 = true) :
    hostAccess s (.write 0x018 .word v) = ({ error := false, data := 0 }, softReset s) := by
  rw [hostAccess_write_ctrl, if_pos h]

theorem hostAccess_ctrl_zero (s : State) (v : Word) (h : v.getLsbD 0 = false) :
    hostAccess s (.write 0x018 .word v) = ({ error := false, data := 0 }, s) := by
  rw [hostAccess_write_ctrl, if_neg (Bool.eq_false_iff.1 h)]

/-- Settles O22: the ranges of the running command become UNKNOWN one after another, and they lie in its buffers. -/
theorem softResetAbandonsTheCommand : Obligations.SoftResetAbandonsTheCommand := by
  intro s w v n he hv
  refine ⟨softReset s, hostAccess_softReset s v hv, softReset_eq s, fun i hd => ?_, fun x hd => ?_⟩
  · have hranges := runningRanges_command s w n i he hd
    refine ⟨fun r hr a hlo hhi hst => ?_, fun a ha => ?_, fun b a hb hi => ?_⟩
    · rw [freshUnknown, readByte_softReset, hranges]
      exact freshRange_forgetRanges hr s a hlo hhi hst
    · rw [readByte_softReset, hranges]
      exact sameExcept_forgetRanges _ s a ha
    · rw [readByte_softReset, hranges, ← commandRanges_eq]
      exact (forgetRanges_writesResults (commandRanges_startsBufferOf s i) s).bytes b a hb hi
  · exact softReset_of_no_ranges s (runningRanges_illegal s w n x he hd)

/-! ## Reset while idle and at `rst_n` -/

/-- What a power-on reset leaves: the reset values, and every byte of the aperture UNKNOWN (70_reset R491, R494). -/
theorem powerOnReset_spec (s : State) :
    powerOnReset s =
      { s with
        mem := (powerOnReset s).mem
        marks := (powerOnReset s).marks
        draws := (powerOnReset s).draws
        eng := .idle
        regs := State.reset.regs } ∧
    freshRange s (powerOnReset s) 0 0x800000 :=
  ⟨rfl, freshRange_forget s 0 0x800000⟩

/-- Unless a completion is due the step takes the oldest input, on the state with the countdown one lower. -/
theorem step_takes_input (s : State) (i : Input) (rest : List Input) (hin : s.inputs = i :: rest)
    (h : ∀ w, s.eng ≠ .running w 0) : ∃ e, step s = takeInput i { s with inputs := rest, eng := e } := by
  cases he : s.eng with
  | idle => exact ⟨s.eng, by rw [step_idle s he, portStep_cons s i rest hin]⟩
  | running w n =>
    cases n with
    | zero => exact absurd he (h w)
    | succ n =>
      refine ⟨.running w n, ?_⟩
      rw [step_countdown s w n he, portStep_cons { s with eng := .running w n } i rest hin]

/-- Settles O21: while idle no range becomes UNKNOWN, and `rst_n` low is taken whatever the countdown is. -/
theorem resetsWhileIdle : Obligations.ResetsWhileIdle := by
  refine ⟨fun s v he hv => ?_, hostAccess_ctrl_zero, fun s => ⟨_, rfl, powerOnReset_spec s⟩, fun s rest hin h => ?_⟩
  · rw [hostAccess_softReset s v hv, softReset_of_no_ranges s (runningRanges_idle s he), ← he]
  · obtain ⟨e, hstep⟩ := step_takes_input s .rstLow rest hin h
    exact ⟨_, hstep, powerOnReset_spec { s with inputs := rest, eng := e }⟩

end Sys2Proof.Machine
end

section
/-! PROOFS. Writes while BUSY = 1 (O17). -/

namespace Sys2Proof.Machine

open Sys2Proof.Safety

/-- A write to CMD or to a RW register while BUSY is dropped (70_reset R505). -/
theorem writeRegister_busy (s : State) (r : RegName) (v : Word) (h : s.eng ≠ .idle)
    (hr : r.writeKind = .readWrite ∨ r.writeKind = .issue) : writeRegister s r v = dropWrite s := by
  rcases hr with hr | hr <;> simp [writeRegister, hr, h]

/-- The register numbers of CMD and of the RW registers but IRQ_EN (10_state R34). -/
theorem regName_dropped (k : Nat) (h : k ∈ [2, 8, 9, 12, 13, 14, 18, 19, 20, 23] ∨ 24 ≤ k ∧ k ≤ 50) :
    k < 64 ∧ ∃ r, RegName.all[k]? = some r ∧ (r.writeKind = .readWrite ∨ r.writeKind = .issue) := by
  have hall : ∀ j < 51, (j ∈ [2, 8, 9, 12, 13, 14, 18, 19, 20, 23] ∨ 24 ≤ j) →
      ∃ r ∈ RegName.all[j]?, r.writeKind = .readWrite ∨ r.writeKind = .issue := by decide
  have hk : k < 51 := by
    rcases h with h | h
    · simp only [List.mem_cons, List.not_mem_nil, or_false] at h
      omega
    · omega
  exact ⟨by omega, hall k hk (h.imp_right And.left)⟩

theorem hostAccess_write_reg_busy (s : State) (k : Nat) (v : Word) (h : s.eng ≠ .idle)
    (hk : k ∈ [2, 8, 9, 12, 13, 14, 18, 19, 20, 23] ∨ 24 ≤ k ∧ k ≤ 50) :
    hostAccess s (.write (BitVec.ofNat 23 (4 * k)) .word v) = ({ error := false, data := 0 }, dropWrite s) := by
  obtain ⟨hlt, r, hr, hkind⟩ := regName_dropped k hk
  rw [hostAccess_write_reg s k v hlt, hr, Option.elim_some, writeRegister_busy s r v h hkind]

theorem hostAccess_write_window_busy (s : State) (off : Offset) (size : Size) (v : Word) (b : Window)
    (h : s.eng ≠ .idle) (hgood : goodAccess (.write off size v)) (hb : b ∈ [Window.cw, .era, .bm, .lum])
    (hin : b.contains off.toNat = true) :
    hostAccess s (.write off size v) = ({ error := false, data := 0 }, dropWrite s) := by
  have hkind : ∀ b ∈ [Window.cw, .era, .bm, .lum], b ≠ .registers ∧ b.hostWritable = true := by decide
  obtain ⟨hreg, hwr⟩ := hkind b hb
  rw [hostAccess_write s off size v b (accessWindow_of_good _ b hgood hin), performWrite_busy s b _ size v h hreg hwr]

/-- Settles O17: STATUS, IRQ_EN and CTRL do not look at BUSY, the writable locations do, and the others ignore every
write as they do while idle. -/
theorem writesWhileBusyAreDropped : Obligations.WritesWhileBusyAreDropped := by
  intro s hbusy
  obtain ⟨hreserved, hreadOnly, hwindow, -⟩ := reservedAndReadOnlyAreIgnored
  refine ⟨fun v => ?_, hostAccess_write_irqEn s, hostAccess_ctrl_zero s, fun v hv => ?_,
    fun v k hk => hostAccess_write_reg_busy s k v hbusy hk,
    fun off size v hgood ⟨b, hb, hin⟩ => hostAccess_write_window_busy s off size v b hbusy hgood hb hin,
    fun v k hk => ?_, hwindow s, fun off size v => hostAccess_bad s _,
    fun hie => irq_of_werr (s := dropWrite s) rfl hie⟩
  · simp only [hostAccess_write_status, ackStatus, and_not_eq_ite]
  · rw [hostAccess_softReset s v hv]
    exact ⟨rfl, rfl⟩
  · by_cases hlast : 53 ≤ k
    · obtain ⟨-, hwrite⟩ := hreserved s k hlast (by
        rcases hk with hk | hk
        · simp only [List.mem_cons, List.not_mem_nil, or_false] at hk
          omega
        · exact hk.2)
      exact hwrite v
    · refine hreadOnly s v k ?_
      simp only [List.mem_cons, List.not_mem_nil, or_false] at hk ⊢
      omega

end Sys2Proof.Machine
end

section
/-! PROOFS. The outcome of a command depends neither on the countdown nor on the outcome before it, and a running word
completes after its latency (O5). -/

namespace Sys2Proof.Machine

open Sys2Proof.Safety

/-! ## The bodies read neither the engine nor an outcome -/

@[simp] theorem lumXY_withOutcome (s : State) (c : ErrCode) (d : Byte) (i w x y : Nat) :
    lumXY (withOutcome s c d i) w x y = lumXY s w x y := rfl

@[simp] theorem cwList_withOutcome (s : State) (c : ErrCode) (d : Byte) (i n : Nat) :
    cwList (withOutcome s c d i) n = cwList s n := rfl

/-- Bodies that branch on equivalent tests do the same if their branches do. -/
theorem finish_ite_congr {p q : Prop} [Decidable p] [Decidable q] {x y u v : BodyResult} (h : p ↔ q)
    (hthen : finish x = finish u) (helse : finish y = finish v) :
    finish (if p then x else y) = finish (if q then u else v) := by
  by_cases hq : q
  · rwa [if_pos (h.2 hq), if_pos hq]
  · rwa [if_neg (mt h.1 hq), if_neg hq]

theorem rsSyndromeBody_ignoresOutcome : IgnoresOutcome rsSyndromeBody := by
  intro s c d i
  simp only [rsSyndromeBody, withOutcome_regs, cwList_withOutcome]
  split
  · rfl
  · exact finish_ite_congr .rfl rfl rfl

theorem rsDecodeBody_ignoresOutcome : IgnoresOutcome rsDecodeBody := by
  intro s c d i
  simp only [rsDecodeBody, withOutcome_regs, cwList_withOutcome]
  split
  · rfl
  · refine finish_ite_congr .rfl rfl ?_
    split <;> rfl

theorem binRowBody_ignoresOutcome : IgnoresOutcome binRowBody := by
  intro s c d i
  simp only [binRowBody, rowHistogram, withOutcome_regs, lumXY_withOutcome]
  refine finish_ite_congr .rfl rfl (finish_ite_congr .rfl rfl ?_)
  split <;> rfl

theorem binGlobalBody_ignoresOutcome : IgnoresOutcome binGlobalBody := by
  intro s c d i
  simp only [binGlobalBody, globalHistogram, withOutcome_regs, lumXY_withOutcome]
  refine finish_ite_congr .rfl rfl ?_
  split <;> rfl

theorem binHybridBody_ignoresOutcome : IgnoresOutcome binHybridBody := by
  intro s c d i
  simp only [binHybridBody, withOutcome_regs]
  exact finish_ite_congr .rfl rfl (finish_ite_congr .rfl (binGlobalBody_ignoresOutcome s c d i) rfl)

theorem sampleGrid_withOutcome (s : State) (c : ErrCode) (d : Byte) (i w h dim : Nat) :
    sampleGrid (withOutcome s c d i) w h dim = sampleGrid s w h dim := rfl

theorem ptSampleBody_ignoresOutcome : IgnoresOutcome ptSampleBody := by
  intro s c d i
  simp only [ptSampleBody, withOutcome_regs, sampleGrid_withOutcome]
  refine finish_ite_congr .rfl rfl (finish_ite_congr .rfl rfl ?_)
  split <;> rfl

theorem numB900Body_ignoresOutcome : IgnoresOutcome numB900Body := by
  intro s c d i
  simp only [numB900Body, withOutcome_regs, cwList_withOutcome]
  refine finish_ite_congr .rfl (outError_ignoresOutcome _ s c d i) ?_
  split
  · exact outError_ignoresOutcome _ s c d i
  · split
    · exact outError_ignoresOutcome _ s c d i
    · rfl

/-- The pipeline is what its stages do as commands, and RS_DECODE comes first (45_control R441). -/
theorem exec_cwPipeline_withOutcome (s : State) (c : ErrCode) (d : Byte) (i : Nat) :
    exec .cwPipeline (withOutcome s c d i) = exec .cwPipeline s := by
  obtain ⟨a, ha⟩ := exec_next .rsDecode s
  have ha' : exec .rsDecode (withOutcome s c d i) = .next a := (rsDecodeBody_ignoresOutcome s c d i).trans ha
  obtain ⟨hfail, hgo⟩ := pipelineRunsTheStagesInOrder s a ha
  obtain ⟨hfail', hgo'⟩ := pipelineRunsTheStagesInOrder _ a ha'
  cases herr : a.regs.err with
  | true => rw [hfail herr, hfail' herr]
  | false =>
    obtain ⟨b, hb⟩ := exec_next .sldCheck a
    obtain ⟨hbad, hok⟩ := hgo herr b hb
    obtain ⟨hbad', hok'⟩ := hgo' herr b hb
    cases herrb : b.regs.err with
    | true => rw [hbad herrb, hbad' herrb]
    | false => rw [hok herrb, hok' herrb]

theorem exec_withOutcome (j : Instr) (s : State) (c : ErrCode) (d : Byte) (i : Nat) :
    exec j (withOutcome s c d i) = exec j s := by
  cases j with
  | nop | gfAdd | gfMul | gfExp | ptSolve | ptMap => rfl
  | gfInv | gfLog =>
    simp only [exec, execGfInv, execGfLog, withOutcome_regs]
    split <;> rfl
  | rsSyndrome => exact rsSyndromeBody_ignoresOutcome s c d i
  | rsDecode => exact rsDecodeBody_ignoresOutcome s c d i
  | sldCheck => exact sldCheckBody_ignoresOutcome s c d i
  | binRow => exact binRowBody_ignoresOutcome s c d i
  | binGlobal => exact binGlobalBody_ignoresOutcome s c d i
  | binHybrid => exact binHybridBody_ignoresOutcome s c d i
  | ptSample => exact ptSampleBody_ignoresOutcome s c d i
  | dbsDecode => exact dbsDecodeBody_ignoresOutcome s c d i
  | numB900 => exact numB900Body_ignoresOutcome s c d i
  | cwPipeline => exact exec_cwPipeline_withOutcome s c d i

theorem completionStep_withOutcome (w : Word) (s : State) (c : ErrCode) (d : Byte) (i : Nat) :
    completionStep w (withOutcome s c d i) = completionStep w s := by
  cases hd : decode w with
  | command j => rw [completionStep_command _ w j hd, completionStep_command s w j hd, exec_withOutcome]
  | illegal x => rw [completionStep_illegal _ w x hd, completionStep_illegal s w x hd]; rfl

section
variable (s : State) (e : Engine) (d r : Bool) (c : ErrCode) (x : Byte) (y : BitVec 16)

/-- `s` with another state of the engine and another outcome of the command before. -/
def withEngineOutcome : State :=
  { s with eng := e, regs := { s.regs with done := d, err := r, errcode := c, detail := x, index := y } }

/-- An outcome replaces the engine's state and the outcome before. -/
theorem withOutcome_withEngineOutcome :
    withOutcome (withEngineOutcome s e d r c x y) .ok 0 0 = withOutcome s .ok 0 0 := rfl

theorem exec_withEngineOutcome (i : Instr) : exec i (withEngineOutcome s e d r c x y) = exec i s := by
  rw [← exec_withOutcome i _ .ok 0 0, withOutcome_withEngineOutcome, exec_withOutcome]

theorem completionStep_withEngineOutcome (w : Word) :
    completionStep w (withEngineOutcome s e d r c x y) = completionStep w s := by
  rw [← completionStep_withOutcome w _ .ok 0 0, withOutcome_withEngineOutcome, completionStep_withOutcome]

end

/-! ## The countdown -/

theorem eq_running {s : State} {w : Word} {n : Nat} (h : s.eng = .running w n) :
    s = { s with eng := .running w n } := by
  rw [← h]

theorem run_succ {n : Nat} {s t : State} (h : step s = .next t) : core.run (n + 1) s = core.run n t := by
  have hcore : core.step s = .next t := h
  simp only [Host.Core.run, hcore]

/-- Without inputs a running word counts down and nothing else happens (60_exceptions R468). -/
theorem run_no_inputs (n : Nat) (s : State) (w : Word) (he : s.eng = .running w n) (hin : s.inputs = []) :
    core.run n s = .next { s with eng := .running w 0 } := by
  induction n generalizing s with
  | zero => exact congrArg _ (eq_running he)
  | succ n ih =>
    have hstep : step s = .next { s with eng := .running w n } := by
      rw [step_countdown s w n he]
      simp [portStep, hin]
    rw [run_succ hstep, ih { s with eng := .running w n } rfl hin]

/-- Idle cycles are taken one by one while a running word counts down. -/
theorem run_idle_inputs (n : Nat) (s : State) (w : Word) (rest : List Input) (he : s.eng = .running w n)
    (hin : s.inputs = List.replicate n .idle ++ rest) :
    core.run n s = .next { s with eng := .running w 0, inputs := rest } := by
  induction n generalizing s with
  | zero =>
    have hrest : s.inputs = rest := hin
    rw [← hrest]
    exact congrArg _ (eq_running he)
  | succ n ih =>
    have hstep : step s = .next { s with eng := .running w n, inputs := List.replicate n .idle ++ rest } := by
      rw [step_countdown s w n he, portStep_cons { s with eng := .running w n } .idle _ hin]
      rfl
    rw [run_succ hstep, ih { s with eng := .running w n, inputs := List.replicate n .idle ++ rest } rfl rfl]

/-! ## An access while a word counts down -/

/-- The writes to registers leave a running engine, but for a soft reset. -/
theorem writeRegister_eng (s : State) (r : RegName) (v : Word) (hbusy : s.eng ≠ .idle)
    (h : r = .ctrl → v.getLsbD 0 = false) : (writeRegister s r v).eng = s.eng := by
  unfold writeRegister
  split
  · rfl
  · split_ifs <;> rfl
  · rw [busy_of_ne_idle s hbusy]
    rfl
  · split
    · rfl
    · rfl
    · rw [h rfl]
      rfl
    · rfl

theorem performWrite_eng (s : State) (w : Window) (off : Nat) (size : Size) (v : Word) (hbusy : s.eng ≠ .idle)
    (h : w = .registers → regAt off = some .ctrl → v.getLsbD 0 = false) :
    (performWrite s w off size v).eng = s.eng := by
  unfold performWrite
  split
  · split
    · rename_i r hr
      exact writeRegister_eng s r v hbusy fun hctrl => h rfl (hctrl ▸ hr)
    · rfl
  · split_ifs <;> rfl

/-- CTRL takes an aligned access of a word only, so one at its own offset (10_state R34). -/
theorem access_of_ctrl {off : Offset} {size : Size} {v : Word}
    (hw : accessWindow (.write off size v) = some .registers) (hr : regAt off.toNat = some .ctrl) :
    off = 0x018 ∧ size = .word := by
  obtain ⟨hal, -, hsize⟩ := accessWindow_some _ _ hw
  have hword : size = .word := hsize.resolve_right nofun
  subst hword
  have hk : off.toNat / 4 = 6 := regName_eq_of_getElem? hr rfl
  have hal' : off.toNat % 4 = 0 := hal
  exact ⟨BitVec.eq_of_toNat_eq (by rw [show (0x018 : Offset).toNat = 24 from rfl]; omega), rfl⟩

theorem hostAccess_eng (s : State) (a : Access) (hbusy : s.eng ≠ .idle)
    (h : ∀ v : Word, v.getLsbD 0 = true → a ≠ .write 0x018 .word v) : (hostAccess s a).2.eng = s.eng := by
  cases a with
  | read off size =>
    obtain ⟨n, hn, -⟩ := hostAccess_read_state s off size
    rw [hn]
  | write off size v =>
    cases hw : accessWindow (.write off size v) with
    | none => rw [hostAccess_none s _ hw]
    | some w =>
      rw [hostAccess_write s off size v w hw]
      refine performWrite_eng s w _ size v hbusy fun hreg hctrl => ?_
      subst hreg
      obtain ⟨rfl, rfl⟩ := access_of_ctrl hw hctrl
      exact Bool.eq_false_iff.2 fun hv => h v hv rfl

/-- Settles O5: n idle steps count down to 0, an access is one step more, and what the completion step reads is neither
the engine nor an outcome. -/
theorem commandsCompleteWhateverTheLatency : Obligations.CommandsCompleteWhateverTheLatency := by
  refine ⟨fun s w n he => ⟨fun hin => ?_, fun rest hin => ?_⟩, fun s w n a rest he hin hgood => ?_,
    fun w s e d r c x y => completionStep_withEngineOutcome s e d r c x y w,
    fun i s e d r c x y => exec_withEngineOutcome s e d r c x y i⟩
  · exact ⟨run_no_inputs n s w he hin, step_completion _ w rfl, fun i hd => step_of_decode _ w i rfl hd⟩
  · exact ⟨run_idle_inputs n s w rest he hin, step_completion _ w rfl, fun i hd => step_of_decode _ w i rfl hd⟩
  · refine ⟨?_, hostAccess_inputs _ a, hostAccess_eng { s with eng := .running w n, inputs := rest } a nofun,
      fun v hv ha => ?_⟩
    · rw [step_countdown s w n he, portStep_cons { s with eng := .running w n } _ rest hin, takeInput_good _ a hgood]
    · rw [ha, hostAccess_softReset _ v hv]
      rfl

end Sys2Proof.Machine
end
